-- ==== Sys2Proof/Word.lean ====
section
/-! DEFINITION. The word types of the core and their plainest arithmetic (10_state.md R100, R103, R116). -/

namespace Sys2Proof

/-- An 8-bit value: a data register, an instruction byte, a memory byte, a port number or port data (R100, R200). -/
abbrev Byte := BitVec 8

/-- A 16-bit value: a register pair, PC, SP or a logical address (R101, R103, R104). -/
abbrev Word := BitVec 16

/-- The number of bytes of physical memory, 33 * 65,536 (20_memory.md R201). -/
def physicalBytes : Nat := 2162688

end Sys2Proof
end

