-- ==== Sys2Proof/Syntax.lean ====
section
/-! DEFINITION. The instructions: one constructor for each row of spec/opcode_table.json (30_encoding.md R308,
45_undocumented.md), and the operand codes of 30_encoding.md R301 to R304. -/

namespace Sys2Proof

/-- The registers of the 3-bit register code, code 6 (M) left out (30_encoding.md R301). -/
inductive Reg where
  | b | c | d | e | h | l | a
  deriving DecidableEq, Repr

/-- The pairs of the 2-bit pair code in LXI, INX, DCX, DAD (30_encoding.md R302). -/
inductive Pair where
  | bc | de | hl | sp
  deriving DecidableEq, Repr

/-- The condition codes (30_encoding.md R303). -/
inductive Cond where
  | nz | z | nc | c | po | pe | p | m
  deriving DecidableEq, Repr

/-- The ALU operation codes (30_encoding.md R304). -/
inductive AluOp where
  | add | adc | sub | sbb | ana | xra | ora | cmp
  deriving DecidableEq, Repr

/-- The instructions: those with operand bytes first, then those of one byte, each group in the order of the opcode
byte (Lean's compiler gives constructors with fields low numbers only). `d8`, `p8` are byte 1; `d16`, `a16` are byte 2 then byte 1
(30_encoding.md R305, R307). -/
inductive Instr where
  /-- 0x01 `LXI B,d16` (R405). -/
  | lxiB (d16 : Word)
  /-- 0x06 `MVI B,d8` (R403). -/
  | mviB (d8 : Byte)
  /-- 0x0E `MVI C,d8` (R403). -/
  | mviC (d8 : Byte)
  /-- 0x11 `LXI D,d16` (R405). -/
  | lxiD (d16 : Word)
  /-- 0x16 `MVI D,d8` (R403). -/
  | mviD (d8 : Byte)
  /-- 0x1E `MVI E,d8` (R403). -/
  | mviE (d8 : Byte)
  /-- 0x21 `LXI H,d16` (R405). -/
  | lxiH (d16 : Word)
  /-- 0x22 `SHLD a16` (R409). -/
  | shld (a16 : Word)
  /-- 0x26 `MVI H,d8` (R403). -/
  | mviH (d8 : Byte)
  /-- 0x2A `LHLD a16` (R408). -/
  | lhld (a16 : Word)
  /-- 0x2E `MVI L,d8` (R403). -/
  | mviL (d8 : Byte)
  /-- 0x31 `LXI SP,d16` (R405). -/
  | lxiSp (d16 : Word)
  /-- 0x32 `STA a16` (R407). -/
  | sta (a16 : Word)
  /-- 0x36 `MVI M,d8` (R404). -/
  | mviM (d8 : Byte)
  /-- 0x3A `LDA a16` (R406). -/
  | lda (a16 : Word)
  /-- 0x3E `MVI A,d8` (R403). -/
  | mviA (d8 : Byte)
  /-- 0xC2 `JNZ a16` (R552). -/
  | jnz (a16 : Word)
  /-- 0xC3 `JMP a16` (R551). -/
  | jmp (a16 : Word)
  /-- 0xC4 `CNZ a16` (R554). -/
  | cnz (a16 : Word)
  /-- 0xC6 `ADI d8` (R457). -/
  | adi (d8 : Byte)
  /-- 0xCA `JZ a16` (R552). -/
  | jz (a16 : Word)
  /-- 0xCB `JMP* a16` (R651). -/
  | jmpCB (a16 : Word)
  /-- 0xCC `CZ a16` (R554). -/
  | cz (a16 : Word)
  /-- 0xCD `CALL a16` (R553). -/
  | call (a16 : Word)
  /-- 0xCE `ACI d8` (R458). -/
  | aci (d8 : Byte)
  /-- 0xD2 `JNC a16` (R552). -/
  | jnc (a16 : Word)
  /-- 0xD3 `OUT p8` (R607). -/
  | outPort (p8 : Byte)
  /-- 0xD4 `CNC a16` (R554). -/
  | cnc (a16 : Word)
  /-- 0xD6 `SUI d8` (R459). -/
  | sui (d8 : Byte)
  /-- 0xDA `JC a16` (R552). -/
  | jc (a16 : Word)
  /-- 0xDB `IN p8` (R606). -/
  | inPort (p8 : Byte)
  /-- 0xDC `CC a16` (R554). -/
  | cc (a16 : Word)
  /-- 0xDD `CALL* a16` (R653). -/
  | callDD (a16 : Word)
  /-- 0xDE `SBI d8` (R460). -/
  | sbi (d8 : Byte)
  /-- 0xE2 `JPO a16` (R552). -/
  | jpo (a16 : Word)
  /-- 0xE4 `CPO a16` (R554). -/
  | cpo (a16 : Word)
  /-- 0xE6 `ANI d8` (R504). -/
  | ani (d8 : Byte)
  /-- 0xEA `JPE a16` (R552). -/
  | jpe (a16 : Word)
  /-- 0xEC `CPE a16` (R554). -/
  | cpe (a16 : Word)
  /-- 0xED `CALL* a16` (R653). -/
  | callED (a16 : Word)
  /-- 0xEE `XRI d8` (R505). -/
  | xri (d8 : Byte)
  /-- 0xF2 `JP a16` (R552). -/
  | jp (a16 : Word)
  /-- 0xF4 `CP a16` (R554). -/
  | cp (a16 : Word)
  /-- 0xF6 `ORI d8` (R506). -/
  | ori (d8 : Byte)
  /-- 0xFA `JM a16` (R552). -/
  | jm (a16 : Word)
  /-- 0xFC `CM a16` (R554). -/
  | cm (a16 : Word)
  /-- 0xFD `CALL* a16` (R653). -/
  | callFD (a16 : Word)
  /-- 0xFE `CPI d8` (R507). -/
  | cpi (d8 : Byte)
  /-- 0x00 `NOP` (R611). -/
  | nop
  /-- 0x02 `STAX B` (R411). -/
  | staxB
  /-- 0x03 `INX B` (R465). -/
  | inxB
  /-- 0x04 `INR B` (R461). -/
  | inrB
  /-- 0x05 `DCR B` (R463). -/
  | dcrB
  /-- 0x07 `RLC` (R508). -/
  | rlc
  /-- 0x08 `NOP*` (R650). -/
  | nop08
  /-- 0x09 `DAD B` (R467). -/
  | dadB
  /-- 0x0A `LDAX B` (R410). -/
  | ldaxB
  /-- 0x0B `DCX B` (R466). -/
  | dcxB
  /-- 0x0C `INR C` (R461). -/
  | inrC
  /-- 0x0D `DCR C` (R463). -/
  | dcrC
  /-- 0x0F `RRC` (R509). -/
  | rrc
  /-- 0x10 `NOP*` (R650). -/
  | nop10
  /-- 0x12 `STAX D` (R411). -/
  | staxD
  /-- 0x13 `INX D` (R465). -/
  | inxD
  /-- 0x14 `INR D` (R461). -/
  | inrD
  /-- 0x15 `DCR D` (R463). -/
  | dcrD
  /-- 0x17 `RAL` (R510). -/
  | ral
  /-- 0x18 `NOP*` (R650). -/
  | nop18
  /-- 0x19 `DAD D` (R467). -/
  | dadD
  /-- 0x1A `LDAX D` (R410). -/
  | ldaxD
  /-- 0x1B `DCX D` (R466). -/
  | dcxD
  /-- 0x1C `INR E` (R461). -/
  | inrE
  /-- 0x1D `DCR E` (R463). -/
  | dcrE
  /-- 0x1F `RAR` (R511). -/
  | rar
  /-- 0x20 `NOP*` (R650). -/
  | nop20
  /-- 0x23 `INX H` (R465). -/
  | inxH
  /-- 0x24 `INR H` (R461). -/
  | inrH
  /-- 0x25 `DCR H` (R463). -/
  | dcrH
  /-- 0x27 `DAA` (R468). -/
  | daa
  /-- 0x28 `NOP*` (R650). -/
  | nop28
  /-- 0x29 `DAD H` (R467). -/
  | dadH
  /-- 0x2B `DCX H` (R466). -/
  | dcxH
  /-- 0x2C `INR L` (R461). -/
  | inrL
  /-- 0x2D `DCR L` (R463). -/
  | dcrL
  /-- 0x2F `CMA` (R512). -/
  | cma
  /-- 0x30 `NOP*` (R650). -/
  | nop30
  /-- 0x33 `INX SP` (R465). -/
  | inxSp
  /-- 0x34 `INR M` (R462). -/
  | inrM
  /-- 0x35 `DCR M` (R464). -/
  | dcrM
  /-- 0x37 `STC` (R514). -/
  | stc
  /-- 0x38 `NOP*` (R650). -/
  | nop38
  /-- 0x39 `DAD SP` (R467). -/
  | dadSp
  /-- 0x3B `DCX SP` (R466). -/
  | dcxSp
  /-- 0x3C `INR A` (R461). -/
  | inrA
  /-- 0x3D `DCR A` (R463). -/
  | dcrA
  /-- 0x3F `CMC` (R513). -/
  | cmc
  /-- 0x40 `MOV B,B` (R400). -/
  | movBB
  /-- 0x41 `MOV B,C` (R400). -/
  | movBC
  /-- 0x42 `MOV B,D` (R400). -/
  | movBD
  /-- 0x43 `MOV B,E` (R400). -/
  | movBE
  /-- 0x44 `MOV B,H` (R400). -/
  | movBH
  /-- 0x45 `MOV B,L` (R400). -/
  | movBL
  /-- 0x46 `MOV B,M` (R401). -/
  | movBM
  /-- 0x47 `MOV B,A` (R400). -/
  | movBA
  /-- 0x48 `MOV C,B` (R400). -/
  | movCB
  /-- 0x49 `MOV C,C` (R400). -/
  | movCC
  /-- 0x4A `MOV C,D` (R400). -/
  | movCD
  /-- 0x4B `MOV C,E` (R400). -/
  | movCE
  /-- 0x4C `MOV C,H` (R400). -/
  | movCH
  /-- 0x4D `MOV C,L` (R400). -/
  | movCL
  /-- 0x4E `MOV C,M` (R401). -/
  | movCM
  /-- 0x4F `MOV C,A` (R400). -/
  | movCA
  /-- 0x50 `MOV D,B` (R400). -/
  | movDB
  /-- 0x51 `MOV D,C` (R400). -/
  | movDC
  /-- 0x52 `MOV D,D` (R400). -/
  | movDD
  /-- 0x53 `MOV D,E` (R400). -/
  | movDE
  /-- 0x54 `MOV D,H` (R400). -/
  | movDH
  /-- 0x55 `MOV D,L` (R400). -/
  | movDL
  /-- 0x56 `MOV D,M` (R401). -/
  | movDM
  /-- 0x57 `MOV D,A` (R400). -/
  | movDA
  /-- 0x58 `MOV E,B` (R400). -/
  | movEB
  /-- 0x59 `MOV E,C` (R400). -/
  | movEC
  /-- 0x5A `MOV E,D` (R400). -/
  | movED
  /-- 0x5B `MOV E,E` (R400). -/
  | movEE
  /-- 0x5C `MOV E,H` (R400). -/
  | movEH
  /-- 0x5D `MOV E,L` (R400). -/
  | movEL
  /-- 0x5E `MOV E,M` (R401). -/
  | movEM
  /-- 0x5F `MOV E,A` (R400). -/
  | movEA
  /-- 0x60 `MOV H,B` (R400). -/
  | movHB
  /-- 0x61 `MOV H,C` (R400). -/
  | movHC
  /-- 0x62 `MOV H,D` (R400). -/
  | movHD
  /-- 0x63 `MOV H,E` (R400). -/
  | movHE
  /-- 0x64 `MOV H,H` (R400). -/
  | movHH
  /-- 0x65 `MOV H,L` (R400). -/
  | movHL
  /-- 0x66 `MOV H,M` (R401). -/
  | movHM
  /-- 0x67 `MOV H,A` (R400). -/
  | movHA
  /-- 0x68 `MOV L,B` (R400). -/
  | movLB
  /-- 0x69 `MOV L,C` (R400). -/
  | movLC
  /-- 0x6A `MOV L,D` (R400). -/
  | movLD
  /-- 0x6B `MOV L,E` (R400). -/
  | movLE
  /-- 0x6C `MOV L,H` (R400). -/
  | movLH
  /-- 0x6D `MOV L,L` (R400). -/
  | movLL
  /-- 0x6E `MOV L,M` (R401). -/
  | movLM
  /-- 0x6F `MOV L,A` (R400). -/
  | movLA
  /-- 0x70 `MOV M,B` (R402). -/
  | movMB
  /-- 0x71 `MOV M,C` (R402). -/
  | movMC
  /-- 0x72 `MOV M,D` (R402). -/
  | movMD
  /-- 0x73 `MOV M,E` (R402). -/
  | movME
  /-- 0x74 `MOV M,H` (R402). -/
  | movMH
  /-- 0x75 `MOV M,L` (R402). -/
  | movML
  /-- 0x76 `HLT` (R610). -/
  | hlt
  /-- 0x77 `MOV M,A` (R402). -/
  | movMA
  /-- 0x78 `MOV A,B` (R400). -/
  | movAB
  /-- 0x79 `MOV A,C` (R400). -/
  | movAC
  /-- 0x7A `MOV A,D` (R400). -/
  | movAD
  /-- 0x7B `MOV A,E` (R400). -/
  | movAE
  /-- 0x7C `MOV A,H` (R400). -/
  | movAH
  /-- 0x7D `MOV A,L` (R400). -/
  | movAL
  /-- 0x7E `MOV A,M` (R401). -/
  | movAM
  /-- 0x7F `MOV A,A` (R400). -/
  | movAA
  /-- 0x80 `ADD B` (R453). -/
  | addB
  /-- 0x81 `ADD C` (R453). -/
  | addC
  /-- 0x82 `ADD D` (R453). -/
  | addD
  /-- 0x83 `ADD E` (R453). -/
  | addE
  /-- 0x84 `ADD H` (R453). -/
  | addH
  /-- 0x85 `ADD L` (R453). -/
  | addL
  /-- 0x86 `ADD M` (R453). -/
  | addM
  /-- 0x87 `ADD A` (R453). -/
  | addA
  /-- 0x88 `ADC B` (R454). -/
  | adcB
  /-- 0x89 `ADC C` (R454). -/
  | adcC
  /-- 0x8A `ADC D` (R454). -/
  | adcD
  /-- 0x8B `ADC E` (R454). -/
  | adcE
  /-- 0x8C `ADC H` (R454). -/
  | adcH
  /-- 0x8D `ADC L` (R454). -/
  | adcL
  /-- 0x8E `ADC M` (R454). -/
  | adcM
  /-- 0x8F `ADC A` (R454). -/
  | adcA
  /-- 0x90 `SUB B` (R455). -/
  | subB
  /-- 0x91 `SUB C` (R455). -/
  | subC
  /-- 0x92 `SUB D` (R455). -/
  | subD
  /-- 0x93 `SUB E` (R455). -/
  | subE
  /-- 0x94 `SUB H` (R455). -/
  | subH
  /-- 0x95 `SUB L` (R455). -/
  | subL
  /-- 0x96 `SUB M` (R455). -/
  | subM
  /-- 0x97 `SUB A` (R455). -/
  | subA
  /-- 0x98 `SBB B` (R456). -/
  | sbbB
  /-- 0x99 `SBB C` (R456). -/
  | sbbC
  /-- 0x9A `SBB D` (R456). -/
  | sbbD
  /-- 0x9B `SBB E` (R456). -/
  | sbbE
  /-- 0x9C `SBB H` (R456). -/
  | sbbH
  /-- 0x9D `SBB L` (R456). -/
  | sbbL
  /-- 0x9E `SBB M` (R456). -/
  | sbbM
  /-- 0x9F `SBB A` (R456). -/
  | sbbA
  /-- 0xA0 `ANA B` (R500). -/
  | anaB
  /-- 0xA1 `ANA C` (R500). -/
  | anaC
  /-- 0xA2 `ANA D` (R500). -/
  | anaD
  /-- 0xA3 `ANA E` (R500). -/
  | anaE
  /-- 0xA4 `ANA H` (R500). -/
  | anaH
  /-- 0xA5 `ANA L` (R500). -/
  | anaL
  /-- 0xA6 `ANA M` (R500). -/
  | anaM
  /-- 0xA7 `ANA A` (R500). -/
  | anaA
  /-- 0xA8 `XRA B` (R501). -/
  | xraB
  /-- 0xA9 `XRA C` (R501). -/
  | xraC
  /-- 0xAA `XRA D` (R501). -/
  | xraD
  /-- 0xAB `XRA E` (R501). -/
  | xraE
  /-- 0xAC `XRA H` (R501). -/
  | xraH
  /-- 0xAD `XRA L` (R501). -/
  | xraL
  /-- 0xAE `XRA M` (R501). -/
  | xraM
  /-- 0xAF `XRA A` (R501). -/
  | xraA
  /-- 0xB0 `ORA B` (R502). -/
  | oraB
  /-- 0xB1 `ORA C` (R502). -/
  | oraC
  /-- 0xB2 `ORA D` (R502). -/
  | oraD
  /-- 0xB3 `ORA E` (R502). -/
  | oraE
  /-- 0xB4 `ORA H` (R502). -/
  | oraH
  /-- 0xB5 `ORA L` (R502). -/
  | oraL
  /-- 0xB6 `ORA M` (R502). -/
  | oraM
  /-- 0xB7 `ORA A` (R502). -/
  | oraA
  /-- 0xB8 `CMP B` (R503). -/
  | cmpB
  /-- 0xB9 `CMP C` (R503). -/
  | cmpC
  /-- 0xBA `CMP D` (R503). -/
  | cmpD
  /-- 0xBB `CMP E` (R503). -/
  | cmpE
  /-- 0xBC `CMP H` (R503). -/
  | cmpH
  /-- 0xBD `CMP L` (R503). -/
  | cmpL
  /-- 0xBE `CMP M` (R503). -/
  | cmpM
  /-- 0xBF `CMP A` (R503). -/
  | cmpA
  /-- 0xC0 `RNZ` (R556). -/
  | rnz
  /-- 0xC1 `POP B` (R602). -/
  | popB
  /-- 0xC5 `PUSH B` (R600). -/
  | pushB
  /-- 0xC7 `RST 0` (R557). -/
  | rst0
  /-- 0xC8 `RZ` (R556). -/
  | rz
  /-- 0xC9 `RET` (R555). -/
  | ret
  /-- 0xCF `RST 1` (R557). -/
  | rst1
  /-- 0xD0 `RNC` (R556). -/
  | rnc
  /-- 0xD1 `POP D` (R602). -/
  | popD
  /-- 0xD5 `PUSH D` (R600). -/
  | pushD
  /-- 0xD7 `RST 2` (R557). -/
  | rst2
  /-- 0xD8 `RC` (R556). -/
  | rc
  /-- 0xD9 `RET*` (R652). -/
  | retD9
  /-- 0xDF `RST 3` (R557). -/
  | rst3
  /-- 0xE0 `RPO` (R556). -/
  | rpo
  /-- 0xE1 `POP H` (R602). -/
  | popH
  /-- 0xE3 `XTHL` (R604). -/
  | xthl
  /-- 0xE5 `PUSH H` (R600). -/
  | pushH
  /-- 0xE7 `RST 4` (R557). -/
  | rst4
  /-- 0xE8 `RPE` (R556). -/
  | rpe
  /-- 0xE9 `PCHL` (R558). -/
  | pchl
  /-- 0xEB `XCHG` (R412). -/
  | xchg
  /-- 0xEF `RST 5` (R557). -/
  | rst5
  /-- 0xF0 `RP` (R556). -/
  | rp
  /-- 0xF1 `POP PSW` (R603). -/
  | popPsw
  /-- 0xF3 `DI` (R609). -/
  | di
  /-- 0xF5 `PUSH PSW` (R601). -/
  | pushPsw
  /-- 0xF7 `RST 6` (R557). -/
  | rst6
  /-- 0xF8 `RM` (R556). -/
  | rm
  /-- 0xF9 `SPHL` (R605). -/
  | sphl
  /-- 0xFB `EI` (R608). -/
  | ei
  /-- 0xFF `RST 7` (R557). -/
  | rst7
  deriving DecidableEq, Repr

/-! Families by operand, so that one statement covers each form of a family. -/

/-- `MOV r1,r2` by its operands (40_data_transfer.md R400). -/
def Instr.mov : Reg → Reg → Instr
  | .b, .b => .movBB
  | .b, .c => .movBC
  | .b, .d => .movBD
  | .b, .e => .movBE
  | .b, .h => .movBH
  | .b, .l => .movBL
  | .b, .a => .movBA
  | .c, .b => .movCB
  | .c, .c => .movCC
  | .c, .d => .movCD
  | .c, .e => .movCE
  | .c, .h => .movCH
  | .c, .l => .movCL
  | .c, .a => .movCA
  | .d, .b => .movDB
  | .d, .c => .movDC
  | .d, .d => .movDD
  | .d, .e => .movDE
  | .d, .h => .movDH
  | .d, .l => .movDL
  | .d, .a => .movDA
  | .e, .b => .movEB
  | .e, .c => .movEC
  | .e, .d => .movED
  | .e, .e => .movEE
  | .e, .h => .movEH
  | .e, .l => .movEL
  | .e, .a => .movEA
  | .h, .b => .movHB
  | .h, .c => .movHC
  | .h, .d => .movHD
  | .h, .e => .movHE
  | .h, .h => .movHH
  | .h, .l => .movHL
  | .h, .a => .movHA
  | .l, .b => .movLB
  | .l, .c => .movLC
  | .l, .d => .movLD
  | .l, .e => .movLE
  | .l, .h => .movLH
  | .l, .l => .movLL
  | .l, .a => .movLA
  | .a, .b => .movAB
  | .a, .c => .movAC
  | .a, .d => .movAD
  | .a, .e => .movAE
  | .a, .h => .movAH
  | .a, .l => .movAL
  | .a, .a => .movAA

/-- `MOV r,M` (R401). -/
def Instr.movFromM : Reg → Instr
  | .b => .movBM
  | .c => .movCM
  | .d => .movDM
  | .e => .movEM
  | .h => .movHM
  | .l => .movLM
  | .a => .movAM

/-- `MOV M,r` (R402). -/
def Instr.movToM : Reg → Instr
  | .b => .movMB
  | .c => .movMC
  | .d => .movMD
  | .e => .movME
  | .h => .movMH
  | .l => .movML
  | .a => .movMA

/-- `MVI r,d8` (R403). -/
def Instr.mvi : Reg → Byte → Instr
  | .b, v => .mviB v
  | .c, v => .mviC v
  | .d, v => .mviD v
  | .e, v => .mviE v
  | .h, v => .mviH v
  | .l, v => .mviL v
  | .a, v => .mviA v

/-- `LXI rp,d16` (R405). -/
def Instr.lxi : Pair → Word → Instr
  | .bc, v => .lxiB v
  | .de, v => .lxiD v
  | .hl, v => .lxiH v
  | .sp, v => .lxiSp v

/-- `INX rp` (41_arithmetic.md R465). -/
def Instr.inx : Pair → Instr
  | .bc => .inxB
  | .de => .inxD
  | .hl => .inxH
  | .sp => .inxSp

/-- `DCX rp` (R466). -/
def Instr.dcx : Pair → Instr
  | .bc => .dcxB
  | .de => .dcxD
  | .hl => .dcxH
  | .sp => .dcxSp

/-- `DAD rp` (R467). -/
def Instr.dad : Pair → Instr
  | .bc => .dadB
  | .de => .dadD
  | .hl => .dadH
  | .sp => .dadSp

/-- `INR r` (R461). -/
def Instr.inr : Reg → Instr
  | .b => .inrB
  | .c => .inrC
  | .d => .inrD
  | .e => .inrE
  | .h => .inrH
  | .l => .inrL
  | .a => .inrA

/-- `DCR r` (R463). -/
def Instr.dcr : Reg → Instr
  | .b => .dcrB
  | .c => .dcrC
  | .d => .dcrD
  | .e => .dcrE
  | .h => .dcrH
  | .l => .dcrL
  | .a => .dcrA

/-- The ALU instructions on A and a register (R453 to R456, 42_logical.md R500 to R503). -/
def Instr.aluReg : AluOp → Reg → Instr
  | .add, .b => .addB
  | .add, .c => .addC
  | .add, .d => .addD
  | .add, .e => .addE
  | .add, .h => .addH
  | .add, .l => .addL
  | .add, .a => .addA
  | .adc, .b => .adcB
  | .adc, .c => .adcC
  | .adc, .d => .adcD
  | .adc, .e => .adcE
  | .adc, .h => .adcH
  | .adc, .l => .adcL
  | .adc, .a => .adcA
  | .sub, .b => .subB
  | .sub, .c => .subC
  | .sub, .d => .subD
  | .sub, .e => .subE
  | .sub, .h => .subH
  | .sub, .l => .subL
  | .sub, .a => .subA
  | .sbb, .b => .sbbB
  | .sbb, .c => .sbbC
  | .sbb, .d => .sbbD
  | .sbb, .e => .sbbE
  | .sbb, .h => .sbbH
  | .sbb, .l => .sbbL
  | .sbb, .a => .sbbA
  | .ana, .b => .anaB
  | .ana, .c => .anaC
  | .ana, .d => .anaD
  | .ana, .e => .anaE
  | .ana, .h => .anaH
  | .ana, .l => .anaL
  | .ana, .a => .anaA
  | .xra, .b => .xraB
  | .xra, .c => .xraC
  | .xra, .d => .xraD
  | .xra, .e => .xraE
  | .xra, .h => .xraH
  | .xra, .l => .xraL
  | .xra, .a => .xraA
  | .ora, .b => .oraB
  | .ora, .c => .oraC
  | .ora, .d => .oraD
  | .ora, .e => .oraE
  | .ora, .h => .oraH
  | .ora, .l => .oraL
  | .ora, .a => .oraA
  | .cmp, .b => .cmpB
  | .cmp, .c => .cmpC
  | .cmp, .d => .cmpD
  | .cmp, .e => .cmpE
  | .cmp, .h => .cmpH
  | .cmp, .l => .cmpL
  | .cmp, .a => .cmpA

/-- The ALU instructions on A and the memory byte at HL. -/
def Instr.aluM : AluOp → Instr
  | .add => .addM
  | .adc => .adcM
  | .sub => .subM
  | .sbb => .sbbM
  | .ana => .anaM
  | .xra => .xraM
  | .ora => .oraM
  | .cmp => .cmpM

/-- The ALU instructions on A and an immediate (R457 to R460, R504 to R507). -/
def Instr.aluImm : AluOp → Byte → Instr
  | .add, v => .adi v
  | .adc, v => .aci v
  | .sub, v => .sui v
  | .sbb, v => .sbi v
  | .ana, v => .ani v
  | .xra, v => .xri v
  | .ora, v => .ori v
  | .cmp, v => .cpi v

/-- `Jcc a16` (43_branch.md R552). -/
def Instr.jcc : Cond → Word → Instr
  | .nz, v => .jnz v
  | .z, v => .jz v
  | .nc, v => .jnc v
  | .c, v => .jc v
  | .po, v => .jpo v
  | .pe, v => .jpe v
  | .p, v => .jp v
  | .m, v => .jm v

/-- `Ccc a16` (R554). -/
def Instr.ccc : Cond → Word → Instr
  | .nz, v => .cnz v
  | .z, v => .cz v
  | .nc, v => .cnc v
  | .c, v => .cc v
  | .po, v => .cpo v
  | .pe, v => .cpe v
  | .p, v => .cp v
  | .m, v => .cm v

/-- `Rcc` (R556). -/
def Instr.rcc : Cond → Instr
  | .nz => .rnz
  | .z => .rz
  | .nc => .rnc
  | .c => .rc
  | .po => .rpo
  | .pe => .rpe
  | .p => .rp
  | .m => .rm

/-- `RST n` (R557). -/
def Instr.rst : Fin 8 → Instr
  | 0 => .rst0
  | 1 => .rst1
  | 2 => .rst2
  | 3 => .rst3
  | 4 => .rst4
  | 5 => .rst5
  | 6 => .rst6
  | 7 => .rst7

end Sys2Proof
end

