-- ==== Sys2Proof/Config.lean ====
section
/-! DEFINITION. What one machine fixes (the parameters of 00_scope.md R10) and the free values.
A parameter is a field of `Params`, which State carries and no step changes, so that a statement about every
state is a statement about every parameter.
A free value is an opaque constant with no body: nothing in Lean can evaluate it or prove a value of it. -/

namespace Sys2Proof

/-- `LATCH_POLICY` (60_exceptions.md R805): whether a request is latched while interrupts are disabled. -/
inductive LatchPolicy where
  | whenEnabled
  | always
  deriving DecidableEq, Repr

/-- `MAPPING_LAYOUT` (10_state.md R118): the lowest bit of each field of a mapping register.
`mpage` and `spage` are two bits wide, the four enables one bit. -/
structure MappingLayout where
  mpage : Nat
  spage : Nat
  sen   : Nat
  enA   : Nat
  en8   : Nat
  enE   : Nat
  deriving DecidableEq, Repr

/-- The parameters of 00_scope.md R10 that are OPEN or have a default.
`rom` is `ROM_IMAGE` and its length `ROM_LEN` (20_memory.md R220); `bankPorts` and `romPort` are `BANK_PORTS` and
`ROM_PORT` (R202, D42); `mc` is `MC`, one count for each opcode byte (50_sequencer.md R701). -/
structure Params where
  mc              : List Nat
  layout          : MappingLayout
  latchPolicy     : LatchPolicy
  rom             : List Byte
  bankPorts       : List (Byte × Fin 8)
  romPort         : Option Byte
  historyCapacity : Nat
  queueDepth      : Nat
  recordingVersion : Byte
  deriving DecidableEq, Repr

/-! Free values. The last argument of each is the count of values drawn so far, which State advances. -/

/-- FREE. A data register that CPU `reset()` leaves unspecified (10_state.md R127, log 11). -/
opaque Config.unspecifiedByte : Nat → Byte

/-- FREE. SP after CPU `reset()` (10_state.md R127, log 11). -/
opaque Config.unspecifiedWord : Nat → Word

/-- FREE. A flag that CPU `reset()` leaves unspecified (10_state.md R127, log 11). -/
opaque Config.unspecifiedFlag : Nat → Bool

/-- FREE. The temporaries W and Z at an instruction boundary (10_state.md R115, log 12). -/
opaque Config.boundaryTemp : Nat → Byte

/-- FREE. The frame number after `rasterize_one_step()` of a display in the given state: frame number, request
output and blob (55_orchestrator.md R752, log 5). -/
opaque Config.displayFrame : Nat → Bool → List Byte → Nat → Nat

/-- FREE. The interrupt-request output after `rasterize_one_step()` (60_exceptions.md R804, log 5). -/
opaque Config.displayRequest : Nat → Bool → List Byte → Nat → Bool

/-- FREE. The display's opaque blob after `rasterize_one_step()` (10_state.md R124, log 5). -/
opaque Config.displayBlob : Nat → Bool → List Byte → Nat → List Byte

/-- FREE. The byte `port_in(port)` answers in the given I/O state (20_memory.md R202, log 6). -/
opaque Config.portInValue : List Byte → Byte → Nat → Byte

/-- FREE. The I/O collaborator's state after `port_in(port)` (44_stack_io_control.md R606, log 6). -/
opaque Config.portInState : List Byte → Byte → Nat → List Byte

/-- FREE. The I/O collaborator's state after `port_out(port, value)` (44_stack_io_control.md R607, log 6). -/
opaque Config.portOutState : List Byte → Byte → Byte → Nat → List Byte

/-- FREE. The ROM mode that a byte written to `ROM_PORT` selects (20_memory.md R222, D42, log 7). -/
opaque Config.romSwitch : List Byte → Byte → Nat → Bool

/-- FREE. The beeper bit the I/O collaborator gives the audio clock (55_orchestrator.md R751, log 20). -/
opaque Config.beeperBit : List Byte → Bool

/-- FREE. Whether the debug hook requests a break (55_orchestrator.md R753, log 19). -/
opaque Config.hookBreak : Nat → Bool

end Sys2Proof
end

