-- ==== Sys2Proof/Machine/Bits.lean ====
section
/-! DEFINITION. Byte order, bit fields and the length of an instruction (00_scope.md R11, 20_memory.md R223,
30_encoding.md R311). -/

namespace Sys2Proof

/-- `H ++ L`, the first named byte in the high bits (00_scope.md R11, 10_state.md R101). -/
def mkWord (hi lo : Byte) : Word := hi ++ lo

/-- `v[15:8]` (R11). -/
def hiByte (v : Word) : Byte := v.extractLsb' 8 8

/-- `v[7:0]` (R11). -/
def loByte (v : Word) : Byte := v.extractLsb' 0 8

/-- A two-bit field of a mapping register whose lowest bit is `i` (10_state.md R118). -/
def field2 (v : Byte) (i : Nat) : Nat := (v.extractLsb' i 2).toNat

/-- The number of bytes of the instruction whose opcode byte is `op` (30_encoding.md R311):
three for LXI, SHLD, LHLD, STA, LDA, Jcc, JMP, JMP*, Ccc, CALL, CALL*; two for MVI, the ALU immediates, OUT, IN;
one for every other byte. -/
def opcodeLength (op : Byte) : Nat :=
  if op &&& 0xCF = 0x01 ∨ op = 0x22 ∨ op = 0x2A ∨ op = 0x32 ∨ op = 0x3A
      ∨ op &&& 0xC7 = 0xC2 ∨ op = 0xC3 ∨ op = 0xCB
      ∨ op &&& 0xC7 = 0xC4 ∨ op = 0xCD ∨ op = 0xDD ∨ op = 0xED ∨ op = 0xFD then 3
  else if op &&& 0xC7 = 0x06 ∨ op &&& 0xC7 = 0xC6 ∨ op = 0xD3 ∨ op = 0xDB then 2
  else 1

end Sys2Proof
end

