-- ==== Sys2Proof/Machine/Timing.lean ====
section
/-! DEFINITION. The candidate machine-cycle counts and the default mapping layout (50_sequencer.md R701,
10_state.md R118).
PRESUMED, unsafe: the source's own table and bit positions are lost (log 8, log 9). -/

namespace Sys2Proof

/-- Row 0x of the candidate table of R701. -/
def candidateMc0 : List Nat := [1, 3, 2, 2, 2, 2, 2, 1, 1, 3, 2, 2, 2, 2, 2, 1]

/-- Row 1x of the candidate table of R701. -/
def candidateMc1 : List Nat := [1, 3, 2, 2, 2, 2, 2, 1, 1, 3, 2, 2, 2, 2, 2, 1]

/-- Row 2x of the candidate table of R701. -/
def candidateMc2 : List Nat := [1, 3, 5, 2, 2, 2, 2, 1, 1, 3, 5, 2, 2, 2, 2, 1]

/-- Row 3x of the candidate table of R701. -/
def candidateMc3 : List Nat := [1, 3, 4, 2, 3, 3, 3, 1, 1, 3, 4, 2, 2, 2, 2, 1]

/-- Row 4x of the candidate table of R701. -/
def candidateMc4 : List Nat := [2, 2, 2, 2, 2, 2, 2, 2, 2, 2, 2, 2, 2, 2, 2, 2]

/-- Row 5x of the candidate table of R701. -/
def candidateMc5 : List Nat := [2, 2, 2, 2, 2, 2, 2, 2, 2, 2, 2, 2, 2, 2, 2, 2]

/-- Row 6x of the candidate table of R701. -/
def candidateMc6 : List Nat := [2, 2, 2, 2, 2, 2, 2, 2, 2, 2, 2, 2, 2, 2, 2, 2]

/-- Row 7x of the candidate table of R701. -/
def candidateMc7 : List Nat := [2, 2, 2, 2, 2, 2, 2, 2, 2, 2, 2, 2, 2, 2, 2, 2]

/-- Row 8x of the candidate table of R701. -/
def candidateMc8 : List Nat := [1, 1, 1, 1, 1, 1, 2, 1, 1, 1, 1, 1, 1, 1, 2, 1]

/-- Row 9x of the candidate table of R701. -/
def candidateMc9 : List Nat := [1, 1, 1, 1, 1, 1, 2, 1, 1, 1, 1, 1, 1, 1, 2, 1]

/-- Row Ax of the candidate table of R701. -/
def candidateMcA : List Nat := [1, 1, 1, 1, 1, 1, 2, 1, 1, 1, 1, 1, 1, 1, 2, 1]

/-- Row Bx of the candidate table of R701. -/
def candidateMcB : List Nat := [1, 1, 1, 1, 1, 1, 2, 1, 1, 1, 1, 1, 1, 1, 2, 1]

/-- Row Cx of the candidate table of R701. -/
def candidateMcC : List Nat := [4, 3, 3, 3, 6, 4, 2, 4, 4, 3, 3, 3, 6, 6, 2, 4]

/-- Row Dx of the candidate table of R701. -/
def candidateMcD : List Nat := [4, 3, 3, 3, 6, 4, 2, 4, 4, 3, 3, 3, 6, 6, 2, 4]

/-- Row Ex of the candidate table of R701. -/
def candidateMcE : List Nat := [4, 3, 3, 6, 6, 4, 2, 4, 4, 2, 3, 1, 6, 6, 2, 4]

/-- Row Fx of the candidate table of R701. -/
def candidateMcF : List Nat := [4, 3, 3, 1, 6, 4, 2, 4, 4, 2, 3, 1, 6, 6, 2, 4]

/-- `MC`, the candidate table of R701: one count for each opcode byte. -/
def candidateMc : List Nat :=
  candidateMc0 ++ candidateMc1 ++ candidateMc2 ++ candidateMc3 ++ candidateMc4 ++ candidateMc5 ++ candidateMc6 ++ candidateMc7 ++
  candidateMc8 ++ candidateMc9 ++ candidateMcA ++ candidateMcB ++ candidateMcC ++ candidateMcD ++ candidateMcE ++ candidateMcF

/-- The machine cycles of opcode `op` in a table (R701). -/
def mcOf (table : List Nat) (op : Byte) : Nat := table.getD op.toNat 1

/-- The default `MAPPING_LAYOUT` (10_state.md R118, D7): bits 1:0 MPAGE, 3:2 SPAGE, 4 SEN, 5 EN_A, 6 EN_8, 7 EN_E. -/
def defaultLayout : MappingLayout :=
  { mpage := 0, spage := 2, sen := 4, enA := 5, en8 := 6, enE := 7 }

end Sys2Proof
end

