-- ==== Sys2Proof/WellFormed.lean ====
section
/-! DEFINITION. What is well formed: the bytes of one instruction, and the parameters of a machine.
Every term of `Instr` is well formed: an operand is a byte or a 16-bit word, and no value of either is reserved
(30_encoding.md R307, R310). -/

namespace Sys2Proof

/-- The bytes of exactly one instruction: an opcode byte and as many bytes in all as it asks for
(30_encoding.md R300, R311). -/
def wellFormedBytes : List Byte → Bool
  | [] => false
  | op :: rest => decide (rest.length + 1 = opcodeLength op)

/-- Each undocumented opcode with its documented twin (30_encoding.md R309). -/
def undocumentedTwins : List (Byte × Byte) :=
  [(0x08, 0x00), (0x10, 0x00), (0x18, 0x00), (0x20, 0x00), (0x28, 0x00), (0x30, 0x00), (0x38, 0x00),
   (0xCB, 0xC3), (0xD9, 0xC9), (0xDD, 0xCD), (0xED, 0xCD), (0xFD, 0xCD)]

/-- `MC` has a count for each opcode byte, at most 6, the bus schedule fits inside it (50_sequencer.md R701), and an
undocumented opcode has its twin's count (30_encoding.md R309). The schedules of R702 are as long as the candidate
counts. -/
def wellFormedMc (table : List Nat) : Bool :=
  decide (table.length = 256) &&
    ((List.range 256).all fun op => decide (candidateMc.getD op 1 ≤ table.getD op 1 ∧ table.getD op 1 ≤ 6)) &&
    undocumentedTwins.all fun p => decide (mcOf table p.1 = mcOf table p.2)

/-- The fields of a mapping register lie in its 8 bits and do not overlap (10_state.md R118). -/
def wellFormedLayout (l : MappingLayout) : Bool :=
  let bits := [l.mpage, l.mpage + 1, l.spage, l.spage + 1, l.sen, l.enA, l.en8, l.enE]
  decide bits.Nodup && bits.all fun b => decide (b < 8)

/-- `ROM_LEN` is at most 65,536 (00_scope.md R10). -/
def wellFormedRom (rom : List Byte) : Bool := decide (rom.length ≤ 65536)

/-- `HISTORY_CAPACITY` is at least 1 (65_observer.md R850). -/
def wellFormedCapacity (n : Nat) : Bool := decide (1 ≤ n)

/-- `QUEUE_DEPTH` is at least 1 (92_eei_decisions.md D28). -/
def wellFormedDepth (n : Nat) : Bool := decide (1 ≤ n)

/-- `BANK_PORTS` gives a port at most one bank (92_eei_decisions.md D42). -/
def wellFormedBankPorts (m : List (Byte × Fin 8)) : Bool := decide (m.map Prod.fst).Nodup

/-- The parameters of a machine (00_scope.md R10). -/
def Params.wellFormed (p : Params) : Bool :=
  wellFormedMc p.mc && wellFormedLayout p.layout && wellFormedRom p.rom && wellFormedCapacity p.historyCapacity &&
    wellFormedDepth p.queueDepth && wellFormedBankPorts p.bankPorts

end Sys2Proof
end

