-- ==== Sys2Proof/Decode.lean ====
section
/-! DEFINITION. Decoding, total on any bytes and rejecting by name, and the encoder (30_encoding.md R300 to R312). -/

namespace Sys2Proof

/-- Why bytes are no instruction. `truncated`: they end before the instruction does; safe, the machine always offers
three bytes. `noRow`: the opcode byte has no row, the source's incomplete decode table (60_exceptions.md R802);
unreachable, since R308 and R654 give every byte a row. -/
inductive DecodeError where
  | truncated
  | noRow
  deriving DecidableEq, Repr

/-- A row of the opcode map by its format (30_encoding.md R305). -/
inductive Form where
  | f1 (i : Instr)
  | f2 (k : Byte → Instr)
  | f3 (k : Word → Instr)


/-- Row 0x of the opcode map (30_encoding.md R308). -/
def opcodeRow0 : List Form :=
  [.f1 .nop, .f3 .lxiB, .f1 .staxB, .f1 .inxB,
   .f1 .inrB, .f1 .dcrB, .f2 .mviB, .f1 .rlc,
   .f1 .nop08, .f1 .dadB, .f1 .ldaxB, .f1 .dcxB,
   .f1 .inrC, .f1 .dcrC, .f2 .mviC, .f1 .rrc]

/-- Row 1x of the opcode map (30_encoding.md R308). -/
def opcodeRow1 : List Form :=
  [.f1 .nop10, .f3 .lxiD, .f1 .staxD, .f1 .inxD,
   .f1 .inrD, .f1 .dcrD, .f2 .mviD, .f1 .ral,
   .f1 .nop18, .f1 .dadD, .f1 .ldaxD, .f1 .dcxD,
   .f1 .inrE, .f1 .dcrE, .f2 .mviE, .f1 .rar]

/-- Row 2x of the opcode map (30_encoding.md R308). -/
def opcodeRow2 : List Form :=
  [.f1 .nop20, .f3 .lxiH, .f3 .shld, .f1 .inxH,
   .f1 .inrH, .f1 .dcrH, .f2 .mviH, .f1 .daa,
   .f1 .nop28, .f1 .dadH, .f3 .lhld, .f1 .dcxH,
   .f1 .inrL, .f1 .dcrL, .f2 .mviL, .f1 .cma]

/-- Row 3x of the opcode map (30_encoding.md R308). -/
def opcodeRow3 : List Form :=
  [.f1 .nop30, .f3 .lxiSp, .f3 .sta, .f1 .inxSp,
   .f1 .inrM, .f1 .dcrM, .f2 .mviM, .f1 .stc,
   .f1 .nop38, .f1 .dadSp, .f3 .lda, .f1 .dcxSp,
   .f1 .inrA, .f1 .dcrA, .f2 .mviA, .f1 .cmc]

/-- Row 4x of the opcode map (30_encoding.md R308). -/
def opcodeRow4 : List Form :=
  [.f1 .movBB, .f1 .movBC, .f1 .movBD, .f1 .movBE,
   .f1 .movBH, .f1 .movBL, .f1 .movBM, .f1 .movBA,
   .f1 .movCB, .f1 .movCC, .f1 .movCD, .f1 .movCE,
   .f1 .movCH, .f1 .movCL, .f1 .movCM, .f1 .movCA]

/-- Row 5x of the opcode map (30_encoding.md R308). -/
def opcodeRow5 : List Form :=
  [.f1 .movDB, .f1 .movDC, .f1 .movDD, .f1 .movDE,
   .f1 .movDH, .f1 .movDL, .f1 .movDM, .f1 .movDA,
   .f1 .movEB, .f1 .movEC, .f1 .movED, .f1 .movEE,
   .f1 .movEH, .f1 .movEL, .f1 .movEM, .f1 .movEA]

/-- Row 6x of the opcode map (30_encoding.md R308). -/
def opcodeRow6 : List Form :=
  [.f1 .movHB, .f1 .movHC, .f1 .movHD, .f1 .movHE,
   .f1 .movHH, .f1 .movHL, .f1 .movHM, .f1 .movHA,
   .f1 .movLB, .f1 .movLC, .f1 .movLD, .f1 .movLE,
   .f1 .movLH, .f1 .movLL, .f1 .movLM, .f1 .movLA]

/-- Row 7x of the opcode map (30_encoding.md R308). -/
def opcodeRow7 : List Form :=
  [.f1 .movMB, .f1 .movMC, .f1 .movMD, .f1 .movME,
   .f1 .movMH, .f1 .movML, .f1 .hlt, .f1 .movMA,
   .f1 .movAB, .f1 .movAC, .f1 .movAD, .f1 .movAE,
   .f1 .movAH, .f1 .movAL, .f1 .movAM, .f1 .movAA]

/-- Row 8x of the opcode map (30_encoding.md R308). -/
def opcodeRow8 : List Form :=
  [.f1 .addB, .f1 .addC, .f1 .addD, .f1 .addE,
   .f1 .addH, .f1 .addL, .f1 .addM, .f1 .addA,
   .f1 .adcB, .f1 .adcC, .f1 .adcD, .f1 .adcE,
   .f1 .adcH, .f1 .adcL, .f1 .adcM, .f1 .adcA]

/-- Row 9x of the opcode map (30_encoding.md R308). -/
def opcodeRow9 : List Form :=
  [.f1 .subB, .f1 .subC, .f1 .subD, .f1 .subE,
   .f1 .subH, .f1 .subL, .f1 .subM, .f1 .subA,
   .f1 .sbbB, .f1 .sbbC, .f1 .sbbD, .f1 .sbbE,
   .f1 .sbbH, .f1 .sbbL, .f1 .sbbM, .f1 .sbbA]

/-- Row Ax of the opcode map (30_encoding.md R308). -/
def opcodeRowA : List Form :=
  [.f1 .anaB, .f1 .anaC, .f1 .anaD, .f1 .anaE,
   .f1 .anaH, .f1 .anaL, .f1 .anaM, .f1 .anaA,
   .f1 .xraB, .f1 .xraC, .f1 .xraD, .f1 .xraE,
   .f1 .xraH, .f1 .xraL, .f1 .xraM, .f1 .xraA]

/-- Row Bx of the opcode map (30_encoding.md R308). -/
def opcodeRowB : List Form :=
  [.f1 .oraB, .f1 .oraC, .f1 .oraD, .f1 .oraE,
   .f1 .oraH, .f1 .oraL, .f1 .oraM, .f1 .oraA,
   .f1 .cmpB, .f1 .cmpC, .f1 .cmpD, .f1 .cmpE,
   .f1 .cmpH, .f1 .cmpL, .f1 .cmpM, .f1 .cmpA]

/-- Row Cx of the opcode map (30_encoding.md R308). -/
def opcodeRowC : List Form :=
  [.f1 .rnz, .f1 .popB, .f3 .jnz, .f3 .jmp,
   .f3 .cnz, .f1 .pushB, .f2 .adi, .f1 .rst0,
   .f1 .rz, .f1 .ret, .f3 .jz, .f3 .jmpCB,
   .f3 .cz, .f3 .call, .f2 .aci, .f1 .rst1]

/-- Row Dx of the opcode map (30_encoding.md R308). -/
def opcodeRowD : List Form :=
  [.f1 .rnc, .f1 .popD, .f3 .jnc, .f2 .outPort,
   .f3 .cnc, .f1 .pushD, .f2 .sui, .f1 .rst2,
   .f1 .rc, .f1 .retD9, .f3 .jc, .f2 .inPort,
   .f3 .cc, .f3 .callDD, .f2 .sbi, .f1 .rst3]

/-- Row Ex of the opcode map (30_encoding.md R308). -/
def opcodeRowE : List Form :=
  [.f1 .rpo, .f1 .popH, .f3 .jpo, .f1 .xthl,
   .f3 .cpo, .f1 .pushH, .f2 .ani, .f1 .rst4,
   .f1 .rpe, .f1 .pchl, .f3 .jpe, .f1 .xchg,
   .f3 .cpe, .f3 .callED, .f2 .xri, .f1 .rst5]

/-- Row Fx of the opcode map (30_encoding.md R308). -/
def opcodeRowF : List Form :=
  [.f1 .rp, .f1 .popPsw, .f3 .jp, .f1 .di,
   .f3 .cp, .f1 .pushPsw, .f2 .ori, .f1 .rst6,
   .f1 .rm, .f1 .sphl, .f3 .jm, .f1 .ei,
   .f3 .cm, .f3 .callFD, .f2 .cpi, .f1 .rst7]

/-- The opcode map: one row for each byte 0x00 to 0xFF (30_encoding.md R308). -/
def opcodeMap : List Form :=
  opcodeRow0 ++ opcodeRow1 ++ opcodeRow2 ++ opcodeRow3 ++ opcodeRow4 ++ opcodeRow5 ++ opcodeRow6 ++ opcodeRow7 ++
  opcodeRow8 ++ opcodeRow9 ++ opcodeRowA ++ opcodeRowB ++ opcodeRowC ++ opcodeRowD ++ opcodeRowE ++ opcodeRowF

/-- Reads one instruction from the front of `bytes` and gives the bytes left over. A 16-bit operand is byte 2 then
byte 1 (30_encoding.md R307, 20_memory.md R223). -/
def decode (bytes : List Byte) : Except DecodeError (Instr × List Byte) :=
  match bytes with
  | [] => .error .truncated
  | op :: rest =>
    match opcodeMap[op.toNat]? with
    | none => .error .noRow
    | some (.f1 i) => .ok (i, rest)
    | some (.f2 k) =>
      match rest with
      | v :: rest' => .ok (k v, rest')
      | [] => .error .truncated
    | some (.f3 k) =>
      match rest with
      | lo :: hi :: rest' => .ok (k (mkWord hi lo), rest')
      | _ => .error .truncated

/-- The 3-bit register code; 0b110 is the memory byte at HL (30_encoding.md R301). -/
def regCode : Reg → BitVec 3
  | .b => 0b000
  | .c => 0b001
  | .d => 0b010
  | .e => 0b011
  | .h => 0b100
  | .l => 0b101
  | .a => 0b111

/-- The 2-bit pair code; 0b11 is PSW in PUSH and POP (30_encoding.md R302). -/
def pairCode : Pair → BitVec 2
  | .bc => 0b00
  | .de => 0b01
  | .hl => 0b10
  | .sp => 0b11

/-- The 3-bit condition code (30_encoding.md R303). -/
def condCode : Cond → BitVec 3
  | .nz => 0b000
  | .z => 0b001
  | .nc => 0b010
  | .c => 0b011
  | .po => 0b100
  | .pe => 0b101
  | .p => 0b110
  | .m => 0b111

/-- The 3-bit ALU operation code (30_encoding.md R304). -/
def aluCode : AluOp → BitVec 3
  | .add => 0b000
  | .adc => 0b001
  | .sub => 0b010
  | .sbb => 0b011
  | .ana => 0b100
  | .xra => 0b101
  | .ora => 0b110
  | .cmp => 0b111

/-- The bytes of a 16-bit operand in memory order, low byte first (20_memory.md R223). -/
def wordBytes (v : Word) : List Byte := [loByte v, hiByte v]

/-- The bytes of an instruction (30_encoding.md R305, R306, R308). -/
def encode : Instr → List Byte
  | .lxiB v => 0x01 :: wordBytes v
  | .mviB v => [0x06, v]
  | .mviC v => [0x0E, v]
  | .lxiD v => 0x11 :: wordBytes v
  | .mviD v => [0x16, v]
  | .mviE v => [0x1E, v]
  | .lxiH v => 0x21 :: wordBytes v
  | .shld v => 0x22 :: wordBytes v
  | .mviH v => [0x26, v]
  | .lhld v => 0x2A :: wordBytes v
  | .mviL v => [0x2E, v]
  | .lxiSp v => 0x31 :: wordBytes v
  | .sta v => 0x32 :: wordBytes v
  | .mviM v => [0x36, v]
  | .lda v => 0x3A :: wordBytes v
  | .mviA v => [0x3E, v]
  | .jnz v => 0xC2 :: wordBytes v
  | .jmp v => 0xC3 :: wordBytes v
  | .cnz v => 0xC4 :: wordBytes v
  | .adi v => [0xC6, v]
  | .jz v => 0xCA :: wordBytes v
  | .jmpCB v => 0xCB :: wordBytes v
  | .cz v => 0xCC :: wordBytes v
  | .call v => 0xCD :: wordBytes v
  | .aci v => [0xCE, v]
  | .jnc v => 0xD2 :: wordBytes v
  | .outPort v => [0xD3, v]
  | .cnc v => 0xD4 :: wordBytes v
  | .sui v => [0xD6, v]
  | .jc v => 0xDA :: wordBytes v
  | .inPort v => [0xDB, v]
  | .cc v => 0xDC :: wordBytes v
  | .callDD v => 0xDD :: wordBytes v
  | .sbi v => [0xDE, v]
  | .jpo v => 0xE2 :: wordBytes v
  | .cpo v => 0xE4 :: wordBytes v
  | .ani v => [0xE6, v]
  | .jpe v => 0xEA :: wordBytes v
  | .cpe v => 0xEC :: wordBytes v
  | .callED v => 0xED :: wordBytes v
  | .xri v => [0xEE, v]
  | .jp v => 0xF2 :: wordBytes v
  | .cp v => 0xF4 :: wordBytes v
  | .ori v => [0xF6, v]
  | .jm v => 0xFA :: wordBytes v
  | .cm v => 0xFC :: wordBytes v
  | .callFD v => 0xFD :: wordBytes v
  | .cpi v => [0xFE, v]
  | .nop => [0x00]
  | .staxB => [0x02]
  | .inxB => [0x03]
  | .inrB => [0x04]
  | .dcrB => [0x05]
  | .rlc => [0x07]
  | .nop08 => [0x08]
  | .dadB => [0x09]
  | .ldaxB => [0x0A]
  | .dcxB => [0x0B]
  | .inrC => [0x0C]
  | .dcrC => [0x0D]
  | .rrc => [0x0F]
  | .nop10 => [0x10]
  | .staxD => [0x12]
  | .inxD => [0x13]
  | .inrD => [0x14]
  | .dcrD => [0x15]
  | .ral => [0x17]
  | .nop18 => [0x18]
  | .dadD => [0x19]
  | .ldaxD => [0x1A]
  | .dcxD => [0x1B]
  | .inrE => [0x1C]
  | .dcrE => [0x1D]
  | .rar => [0x1F]
  | .nop20 => [0x20]
  | .inxH => [0x23]
  | .inrH => [0x24]
  | .dcrH => [0x25]
  | .daa => [0x27]
  | .nop28 => [0x28]
  | .dadH => [0x29]
  | .dcxH => [0x2B]
  | .inrL => [0x2C]
  | .dcrL => [0x2D]
  | .cma => [0x2F]
  | .nop30 => [0x30]
  | .inxSp => [0x33]
  | .inrM => [0x34]
  | .dcrM => [0x35]
  | .stc => [0x37]
  | .nop38 => [0x38]
  | .dadSp => [0x39]
  | .dcxSp => [0x3B]
  | .inrA => [0x3C]
  | .dcrA => [0x3D]
  | .cmc => [0x3F]
  | .movBB => [0x40]
  | .movBC => [0x41]
  | .movBD => [0x42]
  | .movBE => [0x43]
  | .movBH => [0x44]
  | .movBL => [0x45]
  | .movBM => [0x46]
  | .movBA => [0x47]
  | .movCB => [0x48]
  | .movCC => [0x49]
  | .movCD => [0x4A]
  | .movCE => [0x4B]
  | .movCH => [0x4C]
  | .movCL => [0x4D]
  | .movCM => [0x4E]
  | .movCA => [0x4F]
  | .movDB => [0x50]
  | .movDC => [0x51]
  | .movDD => [0x52]
  | .movDE => [0x53]
  | .movDH => [0x54]
  | .movDL => [0x55]
  | .movDM => [0x56]
  | .movDA => [0x57]
  | .movEB => [0x58]
  | .movEC => [0x59]
  | .movED => [0x5A]
  | .movEE => [0x5B]
  | .movEH => [0x5C]
  | .movEL => [0x5D]
  | .movEM => [0x5E]
  | .movEA => [0x5F]
  | .movHB => [0x60]
  | .movHC => [0x61]
  | .movHD => [0x62]
  | .movHE => [0x63]
  | .movHH => [0x64]
  | .movHL => [0x65]
  | .movHM => [0x66]
  | .movHA => [0x67]
  | .movLB => [0x68]
  | .movLC => [0x69]
  | .movLD => [0x6A]
  | .movLE => [0x6B]
  | .movLH => [0x6C]
  | .movLL => [0x6D]
  | .movLM => [0x6E]
  | .movLA => [0x6F]
  | .movMB => [0x70]
  | .movMC => [0x71]
  | .movMD => [0x72]
  | .movME => [0x73]
  | .movMH => [0x74]
  | .movML => [0x75]
  | .hlt => [0x76]
  | .movMA => [0x77]
  | .movAB => [0x78]
  | .movAC => [0x79]
  | .movAD => [0x7A]
  | .movAE => [0x7B]
  | .movAH => [0x7C]
  | .movAL => [0x7D]
  | .movAM => [0x7E]
  | .movAA => [0x7F]
  | .addB => [0x80]
  | .addC => [0x81]
  | .addD => [0x82]
  | .addE => [0x83]
  | .addH => [0x84]
  | .addL => [0x85]
  | .addM => [0x86]
  | .addA => [0x87]
  | .adcB => [0x88]
  | .adcC => [0x89]
  | .adcD => [0x8A]
  | .adcE => [0x8B]
  | .adcH => [0x8C]
  | .adcL => [0x8D]
  | .adcM => [0x8E]
  | .adcA => [0x8F]
  | .subB => [0x90]
  | .subC => [0x91]
  | .subD => [0x92]
  | .subE => [0x93]
  | .subH => [0x94]
  | .subL => [0x95]
  | .subM => [0x96]
  | .subA => [0x97]
  | .sbbB => [0x98]
  | .sbbC => [0x99]
  | .sbbD => [0x9A]
  | .sbbE => [0x9B]
  | .sbbH => [0x9C]
  | .sbbL => [0x9D]
  | .sbbM => [0x9E]
  | .sbbA => [0x9F]
  | .anaB => [0xA0]
  | .anaC => [0xA1]
  | .anaD => [0xA2]
  | .anaE => [0xA3]
  | .anaH => [0xA4]
  | .anaL => [0xA5]
  | .anaM => [0xA6]
  | .anaA => [0xA7]
  | .xraB => [0xA8]
  | .xraC => [0xA9]
  | .xraD => [0xAA]
  | .xraE => [0xAB]
  | .xraH => [0xAC]
  | .xraL => [0xAD]
  | .xraM => [0xAE]
  | .xraA => [0xAF]
  | .oraB => [0xB0]
  | .oraC => [0xB1]
  | .oraD => [0xB2]
  | .oraE => [0xB3]
  | .oraH => [0xB4]
  | .oraL => [0xB5]
  | .oraM => [0xB6]
  | .oraA => [0xB7]
  | .cmpB => [0xB8]
  | .cmpC => [0xB9]
  | .cmpD => [0xBA]
  | .cmpE => [0xBB]
  | .cmpH => [0xBC]
  | .cmpL => [0xBD]
  | .cmpM => [0xBE]
  | .cmpA => [0xBF]
  | .rnz => [0xC0]
  | .popB => [0xC1]
  | .pushB => [0xC5]
  | .rst0 => [0xC7]
  | .rz => [0xC8]
  | .ret => [0xC9]
  | .rst1 => [0xCF]
  | .rnc => [0xD0]
  | .popD => [0xD1]
  | .pushD => [0xD5]
  | .rst2 => [0xD7]
  | .rc => [0xD8]
  | .retD9 => [0xD9]
  | .rst3 => [0xDF]
  | .rpo => [0xE0]
  | .popH => [0xE1]
  | .xthl => [0xE3]
  | .pushH => [0xE5]
  | .rst4 => [0xE7]
  | .rpe => [0xE8]
  | .pchl => [0xE9]
  | .xchg => [0xEB]
  | .rst5 => [0xEF]
  | .rp => [0xF0]
  | .popPsw => [0xF1]
  | .di => [0xF3]
  | .pushPsw => [0xF5]
  | .rst6 => [0xF7]
  | .rm => [0xF8]
  | .sphl => [0xF9]
  | .ei => [0xFB]
  | .rst7 => [0xFF]

/-- The opcode byte of an instruction: the byte IR holds while it executes (10_state.md R114). -/
def opcodeOf (i : Instr) : Byte := (encode i).headD 0

/-- The instruction read from the table's word `w` of `nbits` bits: byte 0 is bits 7:0, byte 1 bits 15:8, byte 2 bits
23:16, and every bit from `nbits` up is 0. -/
def decodeTableWord (nbits w : Nat) : Option Instr :=
  let v := w % 2 ^ nbits
  match decode [BitVec.ofNat 8 v, BitVec.ofNat 8 (v / 256), BitVec.ofNat 8 (v / 65536)] with
  | .ok (i, _) => some i
  | .error _ => none

end Sys2Proof
end

