-- ==== Sys2Proof/Machine/State.lean ====
section
/-! DEFINITION. The state of the machine as plain data, the reasons it stops, and the power-on state
(10_state.md, 55_orchestrator.md, 65_observer.md, 70_reset_and_hazards.md R901). -/

namespace Sys2Proof.Machine

/-- The access space of a memory access (20_memory.md R200, R203). -/
inductive Space where
  | normal
  | stack
  deriving DecidableEq, Repr

/-- The five condition flags (10_state.md R105). The three fixed bits of F are not stored (R107). -/
structure Flags where
  s  : Bool
  z  : Bool
  ac : Bool
  p  : Bool
  cy : Bool
  deriving DecidableEq, Repr

/-- Which registers CPU `reset()` left unspecified and nothing has written since (10_state.md R127,
55_orchestrator.md R760). The registers themselves hold free values (log 11). -/
structure Unspecified where
  a  : Bool
  b  : Bool
  c  : Bool
  d  : Bool
  e  : Bool
  h  : Bool
  l  : Bool
  sp : Bool
  fs : Bool
  fz : Bool
  fac : Bool
  fp : Bool
  fcy : Bool
  deriving DecidableEq, Repr

/-- The CPU state a snapshot holds (10_state.md R100 to R116, 65_observer.md R851), less MCI, which is 0 in every
snapshot. -/
structure Cpu where
  a  : Byte
  b  : Byte
  c  : Byte
  d  : Byte
  e  : Byte
  h  : Byte
  l  : Byte
  sp : Word
  pc : Word
  flags : Flags
  inte  : Bool
  latch : Bool
  eip   : Bool
  halt  : Bool
  ir : Byte
  cc : BitVec 64
  unspec : Unspecified
  deriving DecidableEq, Repr

/-- A write of the diff record: physical address, byte before, byte after (10_state.md R122). -/
structure WriteDiff where
  addr   : Nat
  before : Byte
  after  : Byte
  deriving DecidableEq, Repr

/-- The diff record of one instruction (10_state.md R122, 50_sequencer.md R711): instruction bytes, data reads
(physical address, value) and data writes, each in access order, and IRQ_TAKEN. -/
structure DiffRecord where
  bytes  : List Byte
  reads  : List (Nat × Byte)
  writes : List WriteDiff
  irqTaken : Bool
  deriving DecidableEq, Repr

/-- What one machine cycle shows outside the CPU: the access hooks' calls with logical address, global address and
value (55_orchestrator.md R753) and the collaborator calls (R752). `fetch` covers instruction bytes. -/
inductive BusEvent where
  | fetch (la : Word) (ga : Nat) (v : Byte)
  | read (la : Word) (space : Space) (ga : Nat) (v : Byte)
  | write (la : Word) (space : Space) (ga : Nat) (v : Byte)
  | portIn (port v : Byte)
  | portOut (port v : Byte)
  | audioClock (ticks : Nat) (beeper : Bool)
  deriving DecidableEq, Repr

/-- `DISPSTATE`: the frame number, the interrupt-request output and the opaque rest (10_state.md R124). -/
structure Display where
  frame   : Nat
  request : Bool
  blob    : List Byte
  deriving DecidableEq, Repr

/-- Physical memory as (address, byte) pairs, addresses strictly rising, no byte equal to what an unlisted address
holds (20_memory.md R201, log 3). -/
abbrev Memory := List Host.Cell

/-- What an unlisted address holds: `INITIAL_RAM` (10_state.md R117).
DESIGN CHOICE, unsafe: the spec leaves it open (log 3). -/
def unlistedByte : Byte := 0

/-- The eight mapping registers (10_state.md R118). -/
abbrev Mapping := Vector Byte 8

/-- A snapshot of everything but memory (65_observer.md R851). -/
structure Snapshot where
  cpu  : Cpu
  map  : Mapping
  romMode : Bool
  io   : List Byte
  disp : Display
  deriving DecidableEq, Repr

/-- A checkpoint: a snapshot and the writes since it was taken (R851). -/
structure Checkpoint where
  snap  : Snapshot
  diffs : List WriteDiff
  deriving DecidableEq, Repr

/-- The History Engine (65_observer.md R850). `checkpoints` lists the valid checkpoints by position, the oldest first,
so COUNT is its length; the checkpoint of position i stands in slot (WCUR - COUNT + 1 + i) mod CAP (log 13). -/
structure History where
  checkpoints : List Checkpoint
  wcur     : Nat
  pos      : Nat
  live     : Bool
  liveSnap : Option Snapshot
  hFrame   : Nat
  attached : Bool
  deriving DecidableEq, Repr

/-- What a recording holds (65_observer.md R861): COUNT, POS, each position's checkpoint, and LIVE and LIVESNAP. -/
structure Recording where
  count : Nat
  pos   : Nat
  checkpoints : List Checkpoint
  live  : Bool
  liveSnap : Option Snapshot
  deriving DecidableEq, Repr

/-- A recording file: its version byte, and its body, `none` when the bytes end before the structure does
(R861, R862). Its byte layout is outside the spec (00_scope.md R7, log 14). -/
structure RecordingFile where
  version : Byte
  body    : Option Recording
  deriving DecidableEq, Repr

/-- The host commands (55_orchestrator.md R760). -/
inductive Command where
  | run
  | stop
  | reset
  | restart
  | executeOneInstruction
  | executeOneFrameIgnoringBreaks
  | getRegisters
  | getByte (addr : Word) (space : Space)
  | getWord (addr : Word) (space : Space)
  | setRamBytes (addr : Word) (bytes : List Byte)
  | attachDebugger (on : Bool)
  | playForward (n : Nat)
  | playReverse (n : Nat)
  | saveRecording
  | loadRecording (file : RecordingFile)
  | exit
  deriving DecidableEq, Repr

/-- `FAULT` (10_state.md R120, 60_exceptions.md R800). This is the hardware's register, not the model's stop. -/
inductive FaultCode where
  | none
  | mappingConflict
  | decodeIncomplete
  deriving DecidableEq, Repr

/-- `LOOP` (10_state.md R123). -/
inductive LoopState where
  | running
  | stopped
  | exiting
  deriving DecidableEq, Repr

/-- What `GetRegisters` reports (55_orchestrator.md R760); `none` is `unspecified`. -/
structure RegisterView where
  a : Option Byte
  f : Option Byte
  b : Option Byte
  c : Option Byte
  d : Option Byte
  e : Option Byte
  h : Option Byte
  l : Option Byte
  sp : Option Word
  pc : Word
  cc : BitVec 64
  inte  : Bool
  latch : Bool
  eip   : Bool
  halt  : Bool
  mci   : BitVec 4
  deriving DecidableEq, Repr

/-- The result of a command (R760). `notAllowed`: the command is not allowed in the current state and changed
nothing. -/
inductive Reply where
  | ok
  | notAllowed
  | registers (v : RegisterView)
  | byte (v : Byte)
  | word (v : Word)
  | position (n : Nat)
  | recording (file : RecordingFile)
  | badRecording
  deriving DecidableEq, Repr

/-- A response: the result with the current FAULT and LOOP (R760, D35). -/
structure Response where
  reply : Reply
  fault : FaultCode
  loop  : LoopState
  deriving DecidableEq, Repr

/-- The machine (10_state.md; the list of INVENTORY.md). -/
structure State where
  cpu     : Cpu
  mci     : BitVec 4
  w       : Byte
  z       : Byte
  ram     : Memory
  map     : Mapping
  romMode : Bool
  fault   : FaultCode
  diff    : DiffRecord
  trace   : List (BitVec 4 × BusEvent)
  io      : List Byte
  disp    : Display
  loop    : LoopState
  frameRun  : Bool
  lastFrame : Nat
  hist      : History
  requests  : List Command
  responses : List Response
  hookInstalled : Bool
  displayIn : List Display
  portIn    : List Byte
  hookIn    : List Bool
  draws     : Nat
  params    : Params
  deriving DecidableEq, Repr

/-- Why the model stops. `decodeIncomplete`: the bytes at PC are no instruction; raised by the boundary of an
instruction (60_exceptions.md R802); safe, and unreachable because the decode table is total (log 23). -/
inductive Fault where
  | decodeIncomplete
  deriving DecidableEq, Repr

/-- Why the model refuses. `notModelled`: an arm of `exec` with no meaning yet; safe; no arm raises it. -/
inductive Refusal where
  | notModelled (mnemonic : String)
  deriving DecidableEq, Repr

/-- What an instruction or a step answers. -/
abbrev Result := Host.Outcome State Fault Refusal

/-! ## Power-on -/

/-- Every register specified (10_state.md R127, power-on column). -/
def Unspecified.clear : Unspecified :=
  { a := false, b := false, c := false, d := false, e := false, h := false, l := false, sp := false,
    fs := false, fz := false, fac := false, fp := false, fcy := false }

/-- The CPU after `init()` (10_state.md R127). -/
def Cpu.init : Cpu :=
  { a := 0, b := 0, c := 0, d := 0, e := 0, h := 0, l := 0, sp := 0, pc := 0,
    flags := { s := false, z := false, ac := false, p := false, cy := false },
    inte := false, latch := false, eip := false, halt := false, ir := 0, cc := 0, unspec := Unspecified.clear }

/-- An empty diff record (10_state.md R122). -/
def DiffRecord.empty : DiffRecord := { bytes := [], reads := [], writes := [], irqTaken := false }

/-- The parameters of the power-on machine: MC, layout and latch policy at the spec's defaults (logs 8 to 10), no boot
ROM, no mapping port, no ROM port (DESIGN CHOICE, unsafe, logs 4 and 7), the source's example history capacity
(log 13). -/
def Params.default : Params :=
  { mc := candidateMc, layout := defaultLayout, latchPolicy := .whenEnabled, rom := [], bankPorts := [],
    romPort := none, historyCapacity := 3000, queueDepth := 1, recordingVersion := 1 }

/-- The display at power-on. DESIGN CHOICE, unsafe: the spec gives the display no state (log 5). -/
def Display.powerOn : Display := { frame := 0, request := false, blob := [] }

/-- The mapping registers after power-on, all 0x00 (10_state.md R127). -/
def Mapping.reset : Mapping := #v[0, 0, 0, 0, 0, 0, 0, 0]

/-- The snapshot of the power-on state (70_reset_and_hazards.md R901, 65_observer.md R853). -/
def Snapshot.powerOn : Snapshot :=
  { cpu := Cpu.init, map := Mapping.reset, romMode := true, io := [], disp := Display.powerOn }

/-- The machine right after power-on (70_reset_and_hazards.md R901, 10_state.md R127). -/
def State.reset : State :=
  { cpu := Cpu.init, mci := 0, w := 0, z := 0, ram := [], map := Mapping.reset, romMode := true, fault := .none,
    diff := DiffRecord.empty, trace := [], io := [], disp := Display.powerOn, loop := .stopped, frameRun := false,
    lastFrame := Display.powerOn.frame,
    hist := { checkpoints := [{ snap := Snapshot.powerOn, diffs := [] }], wcur := 0, pos := 0, live := true,
              liveSnap := none, hFrame := Display.powerOn.frame, attached := false },
    requests := [], responses := [], hookInstalled := false, displayIn := [], portIn := [], hookIn := [], draws := 0,
    params := Params.default }

end Sys2Proof.Machine
end

