-- ==== Sys2Proof/Machine/Ops.lean ====
section
/-! DEFINITION. The named operations over memory, mapping, registers, stack, I/O and machine cycles, and the one
exception entry of the machine, interrupt service (20_memory.md, 50_sequencer.md, 60_exceptions.md). -/

namespace Sys2Proof.Machine

/-! ## Physical memory (20_memory.md R201) -/

/-- The byte at a physical address. -/
def Memory.read : Memory → Nat → Byte
  | [], _ => unlistedByte
  | c :: m, pa => if c.1 = pa then c.2 else Memory.read m pa

/-- Memory with the address unlisted. -/
def Memory.without (m : Memory) (pa : Nat) : Memory := m.filter fun c => decide (c.1 ≠ pa)

/-- Memory with a byte listed at an address it did not list, in address order. -/
def Memory.place (pa : Nat) (v : Byte) : Memory → Memory
  | [] => [(pa, v)]
  | c :: m => if pa < c.1 then (pa, v) :: c :: m else c :: Memory.place pa v m

/-- Memory after one byte is written; the canonical form is kept. -/
def Memory.write (m : Memory) (pa : Nat) (v : Byte) : Memory :=
  if v = unlistedByte then m.without pa else Memory.place pa v (m.without pa)

/-- The canonical form: addresses strictly rising, inside physical memory, and no byte equal to what an unlisted
address holds. -/
abbrev Memory.wf (m : Memory) : Prop :=
  m.Pairwise (fun x y => x.1 < y.1) ∧ ∀ c ∈ m, c.2 ≠ unlistedByte ∧ c.1 < physicalBytes

/-! ## Mapping and translation (10_state.md R118, R119; 20_memory.md R210 to R217) -/

/-- A mapping register "has an enable bit set" (R118). -/
def bankEnabled (l : MappingLayout) (m : Byte) : Bool :=
  m.getLsbD l.sen || m.getLsbD l.enA || m.getLsbD l.en8 || m.getLsbD l.enE

/-- The banks with an enable bit set, lowest first. -/
def enabledBanks (l : MappingLayout) (map : Mapping) : List (Fin 8) :=
  (List.finRange 8).filter fun b => bankEnabled l (map.get b)

/-- `ACTIVE`: the lowest enabled bank (R119). -/
def activeBank (l : MappingLayout) (map : Mapping) : Option (Fin 8) := (enabledBanks l map).head?

/-- Two or more banks are enabled (R215). -/
def mappingConflict (l : MappingLayout) (map : Mapping) : Bool := decide (2 ≤ (enabledBanks l map).length)

/-- The address lies in a memory-mapped range that the register enables (R210, R211). -/
def inMappedRange (l : MappingLayout) (m : Byte) (addr : Word) : Bool :=
  (m.getLsbD l.en8 && decide (0x8000 ≤ addr ∧ addr ≤ 0x9FFF)) ||
  (m.getLsbD l.enA && decide (0xA000 ≤ addr ∧ addr ≤ 0xDFFF)) ||
  (m.getLsbD l.enE && decide (0xE000 ≤ addr))

/-- The physical address of a byte of a page of a bank (R201). -/
def pageAddress (bank : Fin 8) (page : Nat) (addr : Word) : Nat :=
  addr.toNat + (page + 1 + 4 * bank.val) * 65536

/-- `translate` and `global_address` (R210, R214). -/
def translate (l : MappingLayout) (map : Mapping) (addr : Word) (space : Space) : Nat :=
  match activeBank l map with
  | none => addr.toNat
  | some b =>
    let m := map.get b
    if m.getLsbD l.sen = true ∧ space = .stack then pageAddress b (field2 m l.spage) addr
    else if inMappedRange l m addr then pageAddress b (field2 m l.mpage) addr
    else addr.toNat

/-- The physical address of an access under the current mapping (R210). -/
def State.translate (s : State) (addr : Word) (space : Space) : Nat :=
  Machine.translate s.params.layout s.map addr space

/-- `raise Fault(code)`: the first code stays (60_exceptions.md R803). -/
def State.raiseFault (s : State) (code : FaultCode) : State :=
  { s with fault := if s.fault = .none then code else s.fault }

/-- `set_bank_config(b, v)` (20_memory.md R215). -/
def State.setBankConfig (s : State) (b : Fin 8) (v : Byte) : State :=
  let t := { s with map := s.map.set b.val v }
  if mappingConflict t.params.layout t.map then t.raiseFault .mappingConflict else t

/-! ## One-byte accesses (20_memory.md R218 to R221, 50_sequencer.md R711) -/

/-- The byte a read of a physical address gives: the boot ROM's below ROM_LEN in ROM mode, else the RAM's (R218, R220). -/
def State.readPhys (s : State) (pa : Nat) : Byte :=
  if s.romMode = true ∧ pa < s.params.rom.length then s.params.rom.getD pa 0 else s.ram.read pa

/-- The byte a read of a logical address gives (R218). -/
def State.readByte (s : State) (addr : Word) (space : Space) : Byte := s.readPhys (s.translate addr space)

/-- An event of the current machine cycle (55_orchestrator.md R753). -/
def State.emit (s : State) (e : BusEvent) : State := { s with trace := s.trace ++ [(s.mci, e)] }

/-- The record a data read leaves: the diff record's entry and the hook's call (50_sequencer.md R711). -/
def State.noteRead (s : State) (addr : Word) (space : Space) : State :=
  { s with
    diff := { s.diff with reads := s.diff.reads ++ [(s.translate addr space, s.readByte addr space)] }
    trace := s.trace ++ [(s.mci, .read addr space (s.translate addr space) (s.readByte addr space))] }

/-- `MemWrite(addr, 1, space, v)`: the RAM byte changes, under the ROM too; the byte before is the RAM's
(R218, R221, R711). -/
def State.writeByte (s : State) (addr : Word) (space : Space) (v : Byte) : State :=
  { s with
    ram := s.ram.write (s.translate addr space) v
    diff := { s.diff with
              writes := s.diff.writes ++
                [{ addr := s.translate addr space, before := s.ram.read (s.translate addr space), after := v }] }
    trace := s.trace ++ [(s.mci, .write addr space (s.translate addr space) v)] }

/-- A data read into the temporary Z (10_state.md R115). -/
def State.loadZ (s : State) (addr : Word) (space : Space) : State :=
  { s.noteRead addr space with z := s.readByte addr space }

/-- A data read into the temporary W (10_state.md R115). -/
def State.loadW (s : State) (addr : Word) (space : Space) : State :=
  { s.noteRead addr space with w := s.readByte addr space }

/-! ## Registers (10_state.md R100 to R107). A write ends the register's "unspecified" mark (R127). -/

/-- `x[i]` (00_scope.md R12). -/
def State.reg (s : State) (r : Reg) : Byte :=
  match r with
  | .b => s.cpu.b
  | .c => s.cpu.c
  | .d => s.cpu.d
  | .e => s.cpu.e
  | .h => s.cpu.h
  | .l => s.cpu.l
  | .a => s.cpu.a

/-- `x[i] <- v` (00_scope.md R12). -/
def State.setReg (s : State) (r : Reg) (v : Byte) : State :=
  match r with
  | .b => { s with cpu := { s.cpu with b := v, unspec := { s.cpu.unspec with b := false } } }
  | .c => { s with cpu := { s.cpu with c := v, unspec := { s.cpu.unspec with c := false } } }
  | .d => { s with cpu := { s.cpu with d := v, unspec := { s.cpu.unspec with d := false } } }
  | .e => { s with cpu := { s.cpu with e := v, unspec := { s.cpu.unspec with e := false } } }
  | .h => { s with cpu := { s.cpu with h := v, unspec := { s.cpu.unspec with h := false } } }
  | .l => { s with cpu := { s.cpu with l := v, unspec := { s.cpu.unspec with l := false } } }
  | .a => { s with cpu := { s.cpu with a := v, unspec := { s.cpu.unspec with a := false } } }

/-- `SP <- v` (10_state.md R104). -/
def State.setSp (s : State) (v : Word) : State :=
  { s with cpu := { s.cpu with sp := v, unspec := { s.cpu.unspec with sp := false } } }

/-- `PC <- v` (10_state.md R103). -/
def State.setPc (s : State) (v : Word) : State := { s with cpu := { s.cpu with pc := v } }

/-- `HL` (10_state.md R101). -/
def State.hl (s : State) : Word := mkWord s.cpu.h s.cpu.l

/-- `rp[i]` (00_scope.md R12, 30_encoding.md R302). -/
def State.pair (s : State) (p : Pair) : Word :=
  match p with
  | .bc => mkWord s.cpu.b s.cpu.c
  | .de => mkWord s.cpu.d s.cpu.e
  | .hl => s.hl
  | .sp => s.cpu.sp

/-- `rp[i] <- v`: the first-named register gets the high byte (10_state.md R101). -/
def State.setPair (s : State) (p : Pair) (v : Word) : State :=
  match p with
  | .bc => (s.setReg .b (hiByte v)).setReg .c (loByte v)
  | .de => (s.setReg .d (hiByte v)).setReg .e (loByte v)
  | .hl => (s.setReg .h (hiByte v)).setReg .l (loByte v)
  | .sp => s.setSp v

/-- All five flags are written. -/
def State.setFlags (s : State) (f : Flags) : State :=
  { s with cpu := { s.cpu with flags := f, unspec := { s.cpu.unspec with fs := false, fz := false, fac := false, fp := false, fcy := false } } }

/-- S, Z, AC and P are written, CY keeps its value (41_arithmetic.md R461, R463). -/
def State.setFlagsKeepCy (s : State) (f : Flags) : State :=
  { s with cpu := { s.cpu with flags := { f with cy := s.cpu.flags.cy }, unspec := { s.cpu.unspec with fs := false, fz := false, fac := false, fp := false } } }

/-- CY alone is written. -/
def State.setCy (s : State) (cy : Bool) : State :=
  { s with cpu := { s.cpu with flags := { s.cpu.flags with cy := cy }, unspec := { s.cpu.unspec with fcy := false } } }

/-! ## Instruction bytes (00_scope.md R13, 50_sequencer.md R711) -/

/-- `Fetch()` of a byte that the decoder read as `v`: PC moves on and the byte enters the diff record. -/
def State.fetchByte (s : State) (v : Byte) : State :=
  { s with
    cpu := { s.cpu with pc := s.cpu.pc + 1 }
    diff := { s.diff with bytes := s.diff.bytes ++ [v] }
    trace := s.trace ++ [(s.mci, .fetch s.cpu.pc (s.translate s.cpu.pc .normal) v)] }

/-- An immediate low or only byte is fetched into Z (95_test_vectors.md E1). -/
def State.fetchZ (s : State) (v : Byte) : State := { s.fetchByte v with z := v }

/-- An immediate high byte is fetched into W (95_test_vectors.md E1). -/
def State.fetchW (s : State) (v : Byte) : State := { s.fetchByte v with w := v }

/-- `W ++ Z`: the 16-bit operand held in the temporaries. -/
def State.wz (s : State) : Word := mkWord s.w s.z

/-! ## The stack (10_state.md R104, 20_memory.md R203) -/

/-- `SP <- SP - 1; MemWrite(SP, 1, Stack, v)`. -/
def State.push (s : State) (v : Byte) : State :=
  let t := s.setSp (s.cpu.sp - 1)
  t.writeByte t.cpu.sp .stack v

/-- `Z <- MemRead(SP, 1, Stack); SP <- SP + 1`. -/
def State.popZ (s : State) : State := (s.loadZ s.cpu.sp .stack).setSp (s.cpu.sp + 1)

/-- `W <- MemRead(SP, 1, Stack); SP <- SP + 1`. -/
def State.popW (s : State) : State := (s.loadW s.cpu.sp .stack).setSp (s.cpu.sp + 1)

/-! ## Input and output (00_scope.md R14, 20_memory.md R202, R222) -/

/-- The byte `port_in(port)` answers: the input given, or a free value (log 6). -/
def State.portInByte (s : State) (port : Byte) : Byte :=
  match s.portIn with
  | v :: _ => v
  | [] => Config.portInValue s.io port s.draws

/-- The call `port_in(port)`; the I/O collaborator's state changes freely (44_stack_io_control.md R606, log 6). -/
def State.callPortIn (s : State) (port : Byte) : State :=
  { s with
    io := Config.portInState s.io port s.draws
    portIn := s.portIn.tail
    draws := s.draws + 1
    trace := s.trace ++ [(s.mci, .portIn port (s.portInByte port))] }

/-- The mapping write that a port in `BANK_PORTS` makes (D42). -/
def State.bankPortWrite (s : State) (port v : Byte) : State :=
  match s.params.bankPorts.lookup port with
  | some b => s.setBankConfig b v
  | none => s

/-- The call `port_out(port, v)`: the I/O collaborator's state changes freely; a port of `BANK_PORTS` writes its
mapping register, `ROM_PORT` sets ROM mode as the byte written selects, a free value (R607, D42, log 7). -/
def State.callPortOut (s : State) (port v : Byte) : State :=
  let t : State := { s with
    io := Config.portOutState s.io port v s.draws
    romMode := if s.params.romPort = some port then Config.romSwitch s.io v s.draws else s.romMode
    draws := s.draws + 1
    trace := s.trace ++ [(s.mci, .portOut port v)] }
  t.bankPortWrite port v

/-! ## Machine cycles (50_sequencer.md R700 to R707, 55_orchestrator.md R751) -/

/-- The work of one machine cycle. -/
abbrev Act := State → State

/-- A cycle with no bus event and no register write ("internal", R702). -/
def idle : Act := fun s => s

/-- FREE. The display one machine cycle after state `d`, for the `n`th value drawn (log 5). -/
def freeDisplay (d : Display) (n : Nat) : Display :=
  { frame := Config.displayFrame d.frame d.request d.blob n
    request := Config.displayRequest d.frame d.request d.blob n
    blob := Config.displayBlob d.frame d.request d.blob n }

/-- The display after one more machine cycle of its time: the input given, or free values (R752, log 5). -/
def State.nextDisplay (s : State) : Display :=
  match s.displayIn with
  | d :: _ => d
  | [] => freeDisplay s.disp s.draws

/-- `display.rasterize_one_step()`. -/
def State.rasterize (s : State) : State :=
  { s with disp := s.nextDisplay, displayIn := s.displayIn.tail, draws := s.draws + 1 }

/-- LATCH after a machine cycle starts with request level `irq` (60_exceptions.md R805). -/
def nextLatch (policy : LatchPolicy) (inte latch irq : Bool) : Bool :=
  match policy with
  | .whenEnabled => latch || (inte && irq)
  | .always => latch || irq

/-- The latch update at the start of `step(irq)` (R703, R805). -/
def State.latchRequest (s : State) (irq : Bool) : State :=
  { s with cpu := { s.cpu with latch := nextLatch s.params.latchPolicy s.cpu.inte s.cpu.latch irq } }

/-- A machine cycle up to its work: display, request level, latch (R751, R703). -/
def State.beginCycle (s : State) : State :=
  let t := s.rasterize
  t.latchRequest t.disp.request

/-- MCI after the cycle: one more, or 0 after the last cycle of the opcode in IR (R706). -/
def nextMci (table : List Nat) (ir : Byte) (mci : BitVec 4) : BitVec 4 :=
  if mci.toNat + 1 = mcOf table ir then 0 else mci + 1

/-- A machine cycle after its work: MCI, CC and the audio clock (R706, R707, R751). -/
def State.endCycle (s : State) : State :=
  { s with
    mci := nextMci s.params.mc s.cpu.ir s.mci
    cpu := { s.cpu with cc := s.cpu.cc + 4 }
    trace := s.trace ++ [(s.mci, .audioClock 4 (Config.beeperBit s.io))] }

/-- One machine cycle with the given work (R703, R751). -/
def State.machineCycle (act : Act) (s : State) : State := (act s.beginCycle).endCycle

/-- IR holds the opcode and the first machine cycle starts (10_state.md R113, R114). -/
def State.start (s : State) (op : Byte) : State := { s with cpu := { s.cpu with ir := op }, mci := 0 }

/-- An instruction from the work of its machine cycle 0 on. The boundary has begun cycle 0; each later cycle is one
machine cycle; where MC(op) exceeds the schedule, the rest are internal (R701, R702, log 8). -/
def State.runRow (s : State) (op : Byte) (mc0 : Act) (later : List Act) : State :=
  (later ++ List.replicate (mcOf s.params.mc op - 1 - later.length) idle).foldl
    (fun t act => t.machineCycle act) (mc0 (s.start op)).endCycle

/-! ## Restart, return, and the interrupt (43_branch.md R555, R557; 60_exceptions.md R808 to R813) -/

/-- The later cycles of a push of `hi v` then `lo v`: "PUSH / RST" (R702). -/
def pushRow (hi lo : State → Byte) : List Act :=
  [idle, fun s => s.push (hi s), fun s => s.push (lo s)]

/-- The later cycles of a restart to `8 n`: push PC through Stack space, then PC <- 8 n (R557, R702). -/
def restartRow (n : Fin 8) : List Act :=
  [idle, fun s => s.push (hiByte s.cpu.pc), fun s => (s.push (loByte s.cpu.pc)).setPc (BitVec.ofNat 16 (8 * n.val))]

/-- The later cycles of a return: pop PC through Stack space (R555, R702). A handler returns with it (R813). -/
def returnRow : List Act :=
  [State.popZ, fun s => let t := s.popW; t.setPc t.wz]

/-- Service entry at machine cycle 0: INTE, LATCH and HALT cleared, the synthesized opcode recorded, no fetch
(60_exceptions.md R809, 50_sequencer.md R704, R705). -/
def State.enterService (s : State) : State :=
  { s with
    cpu := { s.cpu with inte := false, latch := false, halt := false }
    diff := { s.diff with bytes := s.diff.bytes ++ [0xFF], irqTaken := true } }

/-- TAKING THE INTERRUPT: service entry, then `RST 7` with no fetch (R809 to R811). -/
def State.takeInterrupt (s : State) : State := s.enterService.runRow 0xFF idle (restartRow 7)

/-- Service starts exactly when LATCH, INTE and not EIP (R808). -/
def State.serviceDue (s : State) : Bool := s.cpu.inte && !s.cpu.eip && s.cpu.latch

/-- The re-read of the halt opcode's byte at PC - 1, with PC unchanged (50_sequencer.md R712).
DESIGN CHOICE, unsafe: the access hook sees it as an instruction fetch; R753 and R712 leave that open (log 30). -/
def State.haltRefetch (s : State) : State :=
  let addr := s.cpu.pc - 1
  { s with
    diff := { s.diff with bytes := s.diff.bytes ++ [s.readByte addr .normal] }
    trace := s.trace ++ [(s.mci, .fetch addr (s.translate addr .normal) (s.readByte addr .normal))] }

/-- The later cycle of `HLT`: HALT <- 1 (44_stack_io_control.md R610, R702). -/
def haltRow : List Act := [fun s => { s with cpu := { s.cpu with halt := true } }]

/-- A halt cycle (R712). -/
def State.haltCycle (s : State) : State := s.haltRefetch.runRow 0x76 idle haltRow

/-- Continues with the next state; a stop stays the stop. -/
def andThen (r : Result) (f : State → Result) : Result :=
  match r with
  | .next s => f s
  | .fault e => .fault e
  | .refused e => .refused e

end Sys2Proof.Machine
end

