-- ==== Sys2Proof/Machine/Flags.lean ====
section
/-! DEFINITION. The flag computations (10_state.md R106, R107; 41_arithmetic.md R450 to R452, R461, R463, R468;
42_logical.md R500 to R503). -/

namespace Sys2Proof.Machine

/-- The flags byte F: S Z 0 AC 0 P 1 CY from bit 7 down (10_state.md R106). -/
def Flags.pack (f : Flags) : Byte :=
  BitVec.ofBool f.s ++ BitVec.ofBool f.z ++ 0#1 ++ BitVec.ofBool f.ac ++ 0#1 ++ BitVec.ofBool f.p ++ 1#1 ++
    BitVec.ofBool f.cy

/-- The flags a byte written to F gives; bits 5, 3 and 1 are ignored (R107). -/
def Flags.unpack (v : Byte) : Flags :=
  { s := v.getLsbD 7, z := v.getLsbD 6, ac := v.getLsbD 4, p := v.getLsbD 2, cy := v.getLsbD 0 }

/-- `popcount(v)` (00_scope.md R11). -/
def popcount (v : Byte) : Nat := ((List.range 8).filter fun i => v.getLsbD i).length

/-- `PARITY[v]`: the number of 1 bits is even (41_arithmetic.md R452). -/
def parity (v : Byte) : Bool := popcount v % 2 == 0

/-- `SZP(res)` with AC and CY given (R452). -/
def szp (res : Byte) (ac cy : Bool) : Flags :=
  { s := res.getLsbD 7, z := res == 0, ac := ac, p := parity res, cy := cy }

/-- An 8-bit result and the flags it comes with. -/
structure Alu where
  res   : Byte
  flags : Flags
  deriving DecidableEq, Repr

/-- The 9-bit sum of R450, no wrap. -/
def sum9 (a b : Byte) (cin : Bool) : BitVec 9 :=
  a.setWidth 9 + b.setWidth 9 + (BitVec.ofBool cin).setWidth 9

/-- `(a ^ b ^ s)` of R450. -/
def carries (a b : Byte) (cin : Bool) : BitVec 9 :=
  a.setWidth 9 ^^^ b.setWidth 9 ^^^ sum9 a b cin

/-- `ADD8(a, b, cin)` (41_arithmetic.md R450). -/
def add8 (a b : Byte) (cin : Bool) : Alu :=
  let res := (sum9 a b cin).setWidth 8
  { res := res, flags := szp res ((carries a b cin).getLsbD 4) ((carries a b cin).getLsbD 8) }

/-- `SUB8(a, b, bin)`: ADD8 of the complement, then CY inverted; AC is not (R451, 90_conflicts.md C2). -/
def sub8 (a b : Byte) (bin : Bool) : Alu :=
  let r := add8 a (~~~b) (!bin)
  { r with flags := { r.flags with cy := !r.flags.cy } }

/-- `ANA`: AC is bit 3 of the OR of the operands, CY is 0 (42_logical.md R500). -/
def and8 (a b : Byte) : Alu :=
  { res := a &&& b, flags := szp (a &&& b) ((a ||| b).getLsbD 3) false }

/-- `XRA`: AC and CY are 0 (42_logical.md R501). -/
def xor8 (a b : Byte) : Alu := { res := a ^^^ b, flags := szp (a ^^^ b) false false }

/-- `ORA`: AC and CY are 0 (42_logical.md R502). -/
def or8 (a b : Byte) : Alu := { res := a ||| b, flags := szp (a ||| b) false false }

/-- An ALU operation on A and an operand with CY as it stands (30_encoding.md R304; 41_arithmetic.md R453 to R456;
42_logical.md R500 to R503). The result of `CMP` is discarded by its meaning. -/
def aluResult (op : AluOp) (a b : Byte) (cy : Bool) : Alu :=
  match op with
  | .add => add8 a b false
  | .adc => add8 a b cy
  | .sub => sub8 a b false
  | .sbb => sub8 a b cy
  | .ana => and8 a b
  | .xra => xor8 a b
  | .ora => or8 a b
  | .cmp => sub8 a b false

/-- The correction byte of `DAA` and whether it makes a carry (41_arithmetic.md R468). -/
def daaCorrection (a : Byte) (f : Flags) : Byte × Bool :=
  let lsb := a.extractLsb' 0 4
  let msb := a.extractLsb' 4 4
  let low := f.ac || decide (9 < lsb)
  let high := f.cy || decide (9 < msb) || (decide (9 ≤ msb) && decide (9 < lsb))
  ((if low then 0x06 else 0x00) + (if high then 0x60 else 0x00), f.cy || high)

/-- `DAA`: A corrected, the flags of the addition, CY never cleared (R468). -/
def daa8 (a : Byte) (f : Flags) : Alu :=
  let c := daaCorrection a f
  let r := add8 a c.1 false
  { r with flags := { r.flags with cy := c.2 } }

end Sys2Proof.Machine
end

