-- ==== Sys2Proof/Machine/Operands.lean ====
section
/-! DEFINITION. The operand forms and the effects written once over them (30_encoding.md R301 to R307,
41_arithmetic.md R449, 43_branch.md R550). -/

namespace Sys2Proof.Machine

/-- `cond(ccc)` (43_branch.md R550). -/
def condHolds (cond : Cond) (f : Flags) : Bool :=
  match cond with
  | .nz => !f.z
  | .z => f.z
  | .nc => !f.cy
  | .c => f.cy
  | .po => !f.p
  | .pe => f.p
  | .p => !f.s
  | .m => f.s

/-- The effect of an ALU operation on A with operand `b`: the flags, and A unless the operation is `CMP`
(41_arithmetic.md R453 to R456, 42_logical.md R500 to R503). -/
def State.accumulate (s : State) (op : AluOp) (b : Byte) : State :=
  let r := aluResult op s.cpu.a b s.cpu.flags.cy
  match op with
  | .cmp => s.setFlags r.flags
  | _ => (s.setFlags r.flags).setReg .a r.res

/-- The effect of `INR` or `DCR` on flags and the value written: CY is kept (41_arithmetic.md R461, R463). -/
def incremented (v : Byte) : Alu := add8 v 1 false

/-- See `incremented` (R463). -/
def decremented (v : Byte) : Alu := sub8 v 1 false

/-- `DAD`: the 17-bit sum of HL and a pair; HL and CY are written (41_arithmetic.md R467). -/
def State.addToHl (s : State) (v : Word) : State :=
  let sum : BitVec 17 := s.hl.setWidth 17 + v.setWidth 17
  (s.setPair .hl (sum.setWidth 16)).setCy (sum.getLsbD 16)

/-- A rotate of A: A and CY are written (42_logical.md R508 to R511). -/
def State.rotateA (s : State) (a : Byte) (cy : Bool) : State := (s.setReg .a a).setCy cy

/-! ## The work of the cycles shared by the families (50_sequencer.md R702) -/

/-- "fetch low": the low byte of a 16-bit operand goes to Z. -/
def fetchLow (v : Word) : Act := fun s => s.fetchZ (loByte v)

/-- "fetch high": the high byte of a 16-bit operand goes to W. -/
def fetchHigh (v : Word) : Act := fun s => s.fetchW (hiByte v)

/-- An ALU operation on A and a register (row "1-cycle register"). -/
def aluReg (op : AluOp) (src : Reg) : Act := fun s => s.accumulate op (s.reg src)

/-- An ALU operation on A and the memory byte at HL (row "MOV r,M / ALU M / LDAX"). -/
def aluMRow (op : AluOp) : List Act := [fun s => let t := s.loadZ s.hl .normal; t.accumulate op t.z]

/-- An ALU operation on A and an immediate (row "MVI r / ALU d8"). -/
def aluImmRow (op : AluOp) (v : Byte) : List Act := [fun s => let t := s.fetchZ v; t.accumulate op t.z]

end Sys2Proof.Machine
end

