-- ==== Sys2Proof/Machine/Arithmetic.lean ====
section
/-! DEFINITION. The arithmetic instructions (spec/41_arithmetic.md): the work of their machine cycles after the opcode fetch
(50_sequencer.md R702), and one meaning for each instruction. A rule R<n> below is of that file. -/

namespace Sys2Proof.Machine

/-- `INR r`: CY is kept (R461). -/
def inrRow (dst : Reg) : List Act :=
  [fun s => let r := incremented (s.reg dst); (s.setFlagsKeepCy r.flags).setReg dst r.res]

/-- `DCR r`: CY is kept (R463). -/
def dcrRow (dst : Reg) : List Act :=
  [fun s => let r := decremented (s.reg dst); (s.setFlagsKeepCy r.flags).setReg dst r.res]

/-- `INR M` (R462). -/
def inrMRow : List Act :=
  [fun s => s.loadZ s.hl .normal,
   fun s => let r := incremented s.z; (s.setFlagsKeepCy r.flags).writeByte s.hl .normal r.res]

/-- `DCR M` (R464). -/
def dcrMRow : List Act :=
  [fun s => s.loadZ s.hl .normal,
   fun s => let r := decremented s.z; (s.setFlagsKeepCy r.flags).writeByte s.hl .normal r.res]

/-- `INX rp`: no flag (R465). -/
def inxRow (p : Pair) : List Act := [fun s => s.setPair p (s.pair p + 1)]

/-- `DCX rp`: no flag (R466). -/
def dcxRow (p : Pair) : List Act := [fun s => s.setPair p (s.pair p - 1)]

/-- `DAD rp` (R467). -/
def dadRow (p : Pair) : List Act := [idle, fun s => s.addToHl (s.pair p)]

/-- `DAA` (R468). -/
def decimalAdjust : Act := fun s =>
  let r := daa8 s.cpu.a s.cpu.flags
  (s.setFlags r.flags).setReg .a r.res

/-- 0x03 `INX B` (R465). -/
def execInxB (s : State) : Result := .next (s.runRow 0x03 idle (inxRow .bc))

/-- 0x04 `INR B` (R461). -/
def execInrB (s : State) : Result := .next (s.runRow 0x04 idle (inrRow .b))

/-- 0x05 `DCR B` (R463). -/
def execDcrB (s : State) : Result := .next (s.runRow 0x05 idle (dcrRow .b))

/-- 0x09 `DAD B` (R467). -/
def execDadB (s : State) : Result := .next (s.runRow 0x09 idle (dadRow .bc))

/-- 0x0B `DCX B` (R466). -/
def execDcxB (s : State) : Result := .next (s.runRow 0x0B idle (dcxRow .bc))

/-- 0x0C `INR C` (R461). -/
def execInrC (s : State) : Result := .next (s.runRow 0x0C idle (inrRow .c))

/-- 0x0D `DCR C` (R463). -/
def execDcrC (s : State) : Result := .next (s.runRow 0x0D idle (dcrRow .c))

/-- 0x13 `INX D` (R465). -/
def execInxD (s : State) : Result := .next (s.runRow 0x13 idle (inxRow .de))

/-- 0x14 `INR D` (R461). -/
def execInrD (s : State) : Result := .next (s.runRow 0x14 idle (inrRow .d))

/-- 0x15 `DCR D` (R463). -/
def execDcrD (s : State) : Result := .next (s.runRow 0x15 idle (dcrRow .d))

/-- 0x19 `DAD D` (R467). -/
def execDadD (s : State) : Result := .next (s.runRow 0x19 idle (dadRow .de))

/-- 0x1B `DCX D` (R466). -/
def execDcxD (s : State) : Result := .next (s.runRow 0x1B idle (dcxRow .de))

/-- 0x1C `INR E` (R461). -/
def execInrE (s : State) : Result := .next (s.runRow 0x1C idle (inrRow .e))

/-- 0x1D `DCR E` (R463). -/
def execDcrE (s : State) : Result := .next (s.runRow 0x1D idle (dcrRow .e))

/-- 0x23 `INX H` (R465). -/
def execInxH (s : State) : Result := .next (s.runRow 0x23 idle (inxRow .hl))

/-- 0x24 `INR H` (R461). -/
def execInrH (s : State) : Result := .next (s.runRow 0x24 idle (inrRow .h))

/-- 0x25 `DCR H` (R463). -/
def execDcrH (s : State) : Result := .next (s.runRow 0x25 idle (dcrRow .h))

/-- 0x27 `DAA` (R468). -/
def execDaa (s : State) : Result := .next (s.runRow 0x27 decimalAdjust [])

/-- 0x29 `DAD H` (R467). -/
def execDadH (s : State) : Result := .next (s.runRow 0x29 idle (dadRow .hl))

/-- 0x2B `DCX H` (R466). -/
def execDcxH (s : State) : Result := .next (s.runRow 0x2B idle (dcxRow .hl))

/-- 0x2C `INR L` (R461). -/
def execInrL (s : State) : Result := .next (s.runRow 0x2C idle (inrRow .l))

/-- 0x2D `DCR L` (R463). -/
def execDcrL (s : State) : Result := .next (s.runRow 0x2D idle (dcrRow .l))

/-- 0x33 `INX SP` (R465). -/
def execInxSp (s : State) : Result := .next (s.runRow 0x33 idle (inxRow .sp))

/-- 0x34 `INR M` (R462). -/
def execInrM (s : State) : Result := .next (s.runRow 0x34 idle inrMRow)

/-- 0x35 `DCR M` (R464). -/
def execDcrM (s : State) : Result := .next (s.runRow 0x35 idle dcrMRow)

/-- 0x39 `DAD SP` (R467). -/
def execDadSp (s : State) : Result := .next (s.runRow 0x39 idle (dadRow .sp))

/-- 0x3B `DCX SP` (R466). -/
def execDcxSp (s : State) : Result := .next (s.runRow 0x3B idle (dcxRow .sp))

/-- 0x3C `INR A` (R461). -/
def execInrA (s : State) : Result := .next (s.runRow 0x3C idle (inrRow .a))

/-- 0x3D `DCR A` (R463). -/
def execDcrA (s : State) : Result := .next (s.runRow 0x3D idle (dcrRow .a))

/-- 0x80 `ADD B` (R453). -/
def execAddB (s : State) : Result := .next (s.runRow 0x80 (aluReg .add .b) [])

/-- 0x81 `ADD C` (R453). -/
def execAddC (s : State) : Result := .next (s.runRow 0x81 (aluReg .add .c) [])

/-- 0x82 `ADD D` (R453). -/
def execAddD (s : State) : Result := .next (s.runRow 0x82 (aluReg .add .d) [])

/-- 0x83 `ADD E` (R453). -/
def execAddE (s : State) : Result := .next (s.runRow 0x83 (aluReg .add .e) [])

/-- 0x84 `ADD H` (R453). -/
def execAddH (s : State) : Result := .next (s.runRow 0x84 (aluReg .add .h) [])

/-- 0x85 `ADD L` (R453). -/
def execAddL (s : State) : Result := .next (s.runRow 0x85 (aluReg .add .l) [])

/-- 0x86 `ADD M` (R453). -/
def execAddM (s : State) : Result := .next (s.runRow 0x86 idle (aluMRow .add))

/-- 0x87 `ADD A` (R453). -/
def execAddA (s : State) : Result := .next (s.runRow 0x87 (aluReg .add .a) [])

/-- 0x88 `ADC B` (R454). -/
def execAdcB (s : State) : Result := .next (s.runRow 0x88 (aluReg .adc .b) [])

/-- 0x89 `ADC C` (R454). -/
def execAdcC (s : State) : Result := .next (s.runRow 0x89 (aluReg .adc .c) [])

/-- 0x8A `ADC D` (R454). -/
def execAdcD (s : State) : Result := .next (s.runRow 0x8A (aluReg .adc .d) [])

/-- 0x8B `ADC E` (R454). -/
def execAdcE (s : State) : Result := .next (s.runRow 0x8B (aluReg .adc .e) [])

/-- 0x8C `ADC H` (R454). -/
def execAdcH (s : State) : Result := .next (s.runRow 0x8C (aluReg .adc .h) [])

/-- 0x8D `ADC L` (R454). -/
def execAdcL (s : State) : Result := .next (s.runRow 0x8D (aluReg .adc .l) [])

/-- 0x8E `ADC M` (R454). -/
def execAdcM (s : State) : Result := .next (s.runRow 0x8E idle (aluMRow .adc))

/-- 0x8F `ADC A` (R454). -/
def execAdcA (s : State) : Result := .next (s.runRow 0x8F (aluReg .adc .a) [])

/-- 0x90 `SUB B` (R455). -/
def execSubB (s : State) : Result := .next (s.runRow 0x90 (aluReg .sub .b) [])

/-- 0x91 `SUB C` (R455). -/
def execSubC (s : State) : Result := .next (s.runRow 0x91 (aluReg .sub .c) [])

/-- 0x92 `SUB D` (R455). -/
def execSubD (s : State) : Result := .next (s.runRow 0x92 (aluReg .sub .d) [])

/-- 0x93 `SUB E` (R455). -/
def execSubE (s : State) : Result := .next (s.runRow 0x93 (aluReg .sub .e) [])

/-- 0x94 `SUB H` (R455). -/
def execSubH (s : State) : Result := .next (s.runRow 0x94 (aluReg .sub .h) [])

/-- 0x95 `SUB L` (R455). -/
def execSubL (s : State) : Result := .next (s.runRow 0x95 (aluReg .sub .l) [])

/-- 0x96 `SUB M` (R455). -/
def execSubM (s : State) : Result := .next (s.runRow 0x96 idle (aluMRow .sub))

/-- 0x97 `SUB A` (R455). -/
def execSubA (s : State) : Result := .next (s.runRow 0x97 (aluReg .sub .a) [])

/-- 0x98 `SBB B` (R456). -/
def execSbbB (s : State) : Result := .next (s.runRow 0x98 (aluReg .sbb .b) [])

/-- 0x99 `SBB C` (R456). -/
def execSbbC (s : State) : Result := .next (s.runRow 0x99 (aluReg .sbb .c) [])

/-- 0x9A `SBB D` (R456). -/
def execSbbD (s : State) : Result := .next (s.runRow 0x9A (aluReg .sbb .d) [])

/-- 0x9B `SBB E` (R456). -/
def execSbbE (s : State) : Result := .next (s.runRow 0x9B (aluReg .sbb .e) [])

/-- 0x9C `SBB H` (R456). -/
def execSbbH (s : State) : Result := .next (s.runRow 0x9C (aluReg .sbb .h) [])

/-- 0x9D `SBB L` (R456). -/
def execSbbL (s : State) : Result := .next (s.runRow 0x9D (aluReg .sbb .l) [])

/-- 0x9E `SBB M` (R456). -/
def execSbbM (s : State) : Result := .next (s.runRow 0x9E idle (aluMRow .sbb))

/-- 0x9F `SBB A` (R456). -/
def execSbbA (s : State) : Result := .next (s.runRow 0x9F (aluReg .sbb .a) [])

/-- 0xC6 `ADI d8` (R457). -/
def execAdi (d8 : Byte) (s : State) : Result := .next (s.runRow 0xC6 idle (aluImmRow .add d8))

/-- 0xCE `ACI d8` (R458). -/
def execAci (d8 : Byte) (s : State) : Result := .next (s.runRow 0xCE idle (aluImmRow .adc d8))

/-- 0xD6 `SUI d8` (R459). -/
def execSui (d8 : Byte) (s : State) : Result := .next (s.runRow 0xD6 idle (aluImmRow .sub d8))

/-- 0xDE `SBI d8` (R460). -/
def execSbi (d8 : Byte) (s : State) : Result := .next (s.runRow 0xDE idle (aluImmRow .sbb d8))

end Sys2Proof.Machine
end

