-- ==== Sys2Proof/Machine/Branch.lean ====
section
/-! DEFINITION. The jumps, calls, returns and restarts (spec/43_branch.md): the work of their machine cycles after the opcode fetch
(50_sequencer.md R702), and one meaning for each instruction. A rule R<n> below is of that file. -/

namespace Sys2Proof.Machine

/-- `JMP a16` (R551). -/
def jmpRow (v : Word) : List Act := [fetchLow v, fun s => let t := fetchHigh v s; t.setPc t.wz]

/-- `Jcc a16`: both operand bytes are fetched whether or not the condition holds (R552). -/
def jccRow (cond : Cond) (v : Word) : List Act :=
  [fetchLow v, fun s => let t := fetchHigh v s; if condHolds cond t.cpu.flags then t.setPc t.wz else t]

/-- `CALL a16`: PC is the return address after both fetches; the high byte is pushed first (R553). -/
def callRow (v : Word) : List Act :=
  [idle, fetchLow v, fetchHigh v,
   fun s => s.push (hiByte s.cpu.pc),
   fun s => (s.push (loByte s.cpu.pc)).setPc s.wz]

/-- `Ccc a16`: not taken, no stack access happens and the cycles still pass (R554). -/
def cccRow (cond : Cond) (v : Word) : List Act :=
  [idle, fetchLow v, fetchHigh v,
   fun s => if condHolds cond s.cpu.flags then s.push (hiByte s.cpu.pc) else s,
   fun s => if condHolds cond s.cpu.flags then (s.push (loByte s.cpu.pc)).setPc s.wz else s]

/-- `Rcc`: not taken, no stack access happens and the cycles still pass (R556). -/
def rccRow (cond : Cond) : List Act :=
  [idle,
   fun s => if condHolds cond s.cpu.flags then s.popZ else s,
   fun s => if condHolds cond s.cpu.flags then (let t := s.popW; t.setPc t.wz) else s]

/-- `PCHL` (R558). -/
def pchlRow : List Act := [fun s => s.setPc s.hl]

/-- 0xC0 `RNZ` (R556). -/
def execRnz (s : State) : Result := .next (s.runRow 0xC0 idle (rccRow .nz))

/-- 0xC2 `JNZ a16` (R552). -/
def execJnz (a16 : Word) (s : State) : Result := .next (s.runRow 0xC2 idle (jccRow .nz a16))

/-- 0xC3 `JMP a16` (R551). -/
def execJmp (a16 : Word) (s : State) : Result := .next (s.runRow 0xC3 idle (jmpRow a16))

/-- 0xC4 `CNZ a16` (R554). -/
def execCnz (a16 : Word) (s : State) : Result := .next (s.runRow 0xC4 idle (cccRow .nz a16))

/-- 0xC7 `RST 0` (R557). -/
def execRst0 (s : State) : Result := .next (s.runRow 0xC7 idle (restartRow 0))

/-- 0xC8 `RZ` (R556). -/
def execRz (s : State) : Result := .next (s.runRow 0xC8 idle (rccRow .z))

/-- 0xC9 `RET` (R555). -/
def execRet (s : State) : Result := .next (s.runRow 0xC9 idle returnRow)

/-- 0xCA `JZ a16` (R552). -/
def execJz (a16 : Word) (s : State) : Result := .next (s.runRow 0xCA idle (jccRow .z a16))

/-- 0xCC `CZ a16` (R554). -/
def execCz (a16 : Word) (s : State) : Result := .next (s.runRow 0xCC idle (cccRow .z a16))

/-- 0xCD `CALL a16` (R553). -/
def execCall (a16 : Word) (s : State) : Result := .next (s.runRow 0xCD idle (callRow a16))

/-- 0xCF `RST 1` (R557). -/
def execRst1 (s : State) : Result := .next (s.runRow 0xCF idle (restartRow 1))

/-- 0xD0 `RNC` (R556). -/
def execRnc (s : State) : Result := .next (s.runRow 0xD0 idle (rccRow .nc))

/-- 0xD2 `JNC a16` (R552). -/
def execJnc (a16 : Word) (s : State) : Result := .next (s.runRow 0xD2 idle (jccRow .nc a16))

/-- 0xD4 `CNC a16` (R554). -/
def execCnc (a16 : Word) (s : State) : Result := .next (s.runRow 0xD4 idle (cccRow .nc a16))

/-- 0xD7 `RST 2` (R557). -/
def execRst2 (s : State) : Result := .next (s.runRow 0xD7 idle (restartRow 2))

/-- 0xD8 `RC` (R556). -/
def execRc (s : State) : Result := .next (s.runRow 0xD8 idle (rccRow .c))

/-- 0xDA `JC a16` (R552). -/
def execJc (a16 : Word) (s : State) : Result := .next (s.runRow 0xDA idle (jccRow .c a16))

/-- 0xDC `CC a16` (R554). -/
def execCc (a16 : Word) (s : State) : Result := .next (s.runRow 0xDC idle (cccRow .c a16))

/-- 0xDF `RST 3` (R557). -/
def execRst3 (s : State) : Result := .next (s.runRow 0xDF idle (restartRow 3))

/-- 0xE0 `RPO` (R556). -/
def execRpo (s : State) : Result := .next (s.runRow 0xE0 idle (rccRow .po))

/-- 0xE2 `JPO a16` (R552). -/
def execJpo (a16 : Word) (s : State) : Result := .next (s.runRow 0xE2 idle (jccRow .po a16))

/-- 0xE4 `CPO a16` (R554). -/
def execCpo (a16 : Word) (s : State) : Result := .next (s.runRow 0xE4 idle (cccRow .po a16))

/-- 0xE7 `RST 4` (R557). -/
def execRst4 (s : State) : Result := .next (s.runRow 0xE7 idle (restartRow 4))

/-- 0xE8 `RPE` (R556). -/
def execRpe (s : State) : Result := .next (s.runRow 0xE8 idle (rccRow .pe))

/-- 0xE9 `PCHL` (R558). -/
def execPchl (s : State) : Result := .next (s.runRow 0xE9 idle pchlRow)

/-- 0xEA `JPE a16` (R552). -/
def execJpe (a16 : Word) (s : State) : Result := .next (s.runRow 0xEA idle (jccRow .pe a16))

/-- 0xEC `CPE a16` (R554). -/
def execCpe (a16 : Word) (s : State) : Result := .next (s.runRow 0xEC idle (cccRow .pe a16))

/-- 0xEF `RST 5` (R557). -/
def execRst5 (s : State) : Result := .next (s.runRow 0xEF idle (restartRow 5))

/-- 0xF0 `RP` (R556). -/
def execRp (s : State) : Result := .next (s.runRow 0xF0 idle (rccRow .p))

/-- 0xF2 `JP a16` (R552). -/
def execJp (a16 : Word) (s : State) : Result := .next (s.runRow 0xF2 idle (jccRow .p a16))

/-- 0xF4 `CP a16` (R554). -/
def execCp (a16 : Word) (s : State) : Result := .next (s.runRow 0xF4 idle (cccRow .p a16))

/-- 0xF7 `RST 6` (R557). -/
def execRst6 (s : State) : Result := .next (s.runRow 0xF7 idle (restartRow 6))

/-- 0xF8 `RM` (R556). -/
def execRm (s : State) : Result := .next (s.runRow 0xF8 idle (rccRow .m))

/-- 0xFA `JM a16` (R552). -/
def execJm (a16 : Word) (s : State) : Result := .next (s.runRow 0xFA idle (jccRow .m a16))

/-- 0xFC `CM a16` (R554). -/
def execCm (a16 : Word) (s : State) : Result := .next (s.runRow 0xFC idle (cccRow .m a16))

/-- 0xFF `RST 7` (R557). -/
def execRst7 (s : State) : Result := .next (s.runRow 0xFF idle (restartRow 7))

end Sys2Proof.Machine
end

