-- ==== Sys2Proof/Machine/DataTransfer.lean ====
section
/-! DEFINITION. The data-transfer instructions (spec/40_data_transfer.md): the work of their machine cycles after the opcode fetch
(50_sequencer.md R702), and one meaning for each instruction. A rule R<n> below is of that file. -/

namespace Sys2Proof.Machine

/-- `MOV r1,r2` (R400). -/
def movRow (dst src : Reg) : List Act := [fun s => s.setReg dst (s.reg src)]

/-- `MOV r,M`: the read uses HL as it was (R401). -/
def movFromMRow (dst : Reg) : List Act := [fun s => let t := s.loadZ s.hl .normal; t.setReg dst t.z]

/-- `MOV M,r` (R402). -/
def movToMRow (src : Reg) : List Act := [fun s => s.writeByte s.hl .normal (s.reg src)]

/-- `MVI r,d8` (R403). -/
def mviRow (dst : Reg) (v : Byte) : List Act := [fun s => let t := s.fetchZ v; t.setReg dst t.z]

/-- `MVI M,d8`: the immediate is fetched before the write (R404). -/
def mviMRow (v : Byte) : List Act := [fun s => s.fetchZ v, fun s => s.writeByte s.hl .normal s.z]

/-- `LXI rp,d16` (R405, 95_test_vectors.md E1). -/
def lxiRow (p : Pair) (v : Word) : List Act := [fetchLow v, fun s => let t := fetchHigh v s; t.setPair p t.wz]

/-- `LDA a16` (R406). -/
def ldaRow (v : Word) : List Act :=
  [fetchLow v, fetchHigh v, fun s => let t := s.loadZ s.wz .normal; t.setReg .a t.z]

/-- `STA a16` (R407). -/
def staRow (v : Word) : List Act := [fetchLow v, fetchHigh v, fun s => s.writeByte s.wz .normal s.cpu.a]

/-- `LHLD a16`: L from the address, then H from the next, each translated on its own (R408). -/
def lhldRow (v : Word) : List Act :=
  [fetchLow v, fetchHigh v,
   fun s => (s.noteRead s.wz .normal).setReg .l (s.readByte s.wz .normal),
   fun s => (s.noteRead (s.wz + 1) .normal).setReg .h (s.readByte (s.wz + 1) .normal)]

/-- `SHLD a16`: L to the address, then H to the next (R409). -/
def shldRow (v : Word) : List Act :=
  [fetchLow v, fetchHigh v,
   fun s => s.writeByte s.wz .normal s.cpu.l,
   fun s => s.writeByte (s.wz + 1) .normal s.cpu.h]

/-- `LDAX rp` (R410). -/
def ldaxRow (p : Pair) : List Act := [fun s => let t := s.loadZ (s.pair p) .normal; t.setReg .a t.z]

/-- `STAX rp` (R411). -/
def staxRow (p : Pair) : List Act := [fun s => s.writeByte (s.pair p) .normal s.cpu.a]

/-- `XCHG` (R412). -/
def exchange : Act := fun s => (s.setPair .hl (s.pair .de)).setPair .de s.hl

/-- 0x01 `LXI B,d16` (R405). -/
def execLxiB (d16 : Word) (s : State) : Result := .next (s.runRow 0x01 idle (lxiRow .bc d16))

/-- 0x02 `STAX B` (R411). -/
def execStaxB (s : State) : Result := .next (s.runRow 0x02 idle (staxRow .bc))

/-- 0x06 `MVI B,d8` (R403). -/
def execMviB (d8 : Byte) (s : State) : Result := .next (s.runRow 0x06 idle (mviRow .b d8))

/-- 0x0A `LDAX B` (R410). -/
def execLdaxB (s : State) : Result := .next (s.runRow 0x0A idle (ldaxRow .bc))

/-- 0x0E `MVI C,d8` (R403). -/
def execMviC (d8 : Byte) (s : State) : Result := .next (s.runRow 0x0E idle (mviRow .c d8))

/-- 0x11 `LXI D,d16` (R405). -/
def execLxiD (d16 : Word) (s : State) : Result := .next (s.runRow 0x11 idle (lxiRow .de d16))

/-- 0x12 `STAX D` (R411). -/
def execStaxD (s : State) : Result := .next (s.runRow 0x12 idle (staxRow .de))

/-- 0x16 `MVI D,d8` (R403). -/
def execMviD (d8 : Byte) (s : State) : Result := .next (s.runRow 0x16 idle (mviRow .d d8))

/-- 0x1A `LDAX D` (R410). -/
def execLdaxD (s : State) : Result := .next (s.runRow 0x1A idle (ldaxRow .de))

/-- 0x1E `MVI E,d8` (R403). -/
def execMviE (d8 : Byte) (s : State) : Result := .next (s.runRow 0x1E idle (mviRow .e d8))

/-- 0x21 `LXI H,d16` (R405). -/
def execLxiH (d16 : Word) (s : State) : Result := .next (s.runRow 0x21 idle (lxiRow .hl d16))

/-- 0x22 `SHLD a16` (R409). -/
def execShld (a16 : Word) (s : State) : Result := .next (s.runRow 0x22 idle (shldRow a16))

/-- 0x26 `MVI H,d8` (R403). -/
def execMviH (d8 : Byte) (s : State) : Result := .next (s.runRow 0x26 idle (mviRow .h d8))

/-- 0x2A `LHLD a16` (R408). -/
def execLhld (a16 : Word) (s : State) : Result := .next (s.runRow 0x2A idle (lhldRow a16))

/-- 0x2E `MVI L,d8` (R403). -/
def execMviL (d8 : Byte) (s : State) : Result := .next (s.runRow 0x2E idle (mviRow .l d8))

/-- 0x31 `LXI SP,d16` (R405). -/
def execLxiSp (d16 : Word) (s : State) : Result := .next (s.runRow 0x31 idle (lxiRow .sp d16))

/-- 0x32 `STA a16` (R407). -/
def execSta (a16 : Word) (s : State) : Result := .next (s.runRow 0x32 idle (staRow a16))

/-- 0x36 `MVI M,d8` (R404). -/
def execMviM (d8 : Byte) (s : State) : Result := .next (s.runRow 0x36 idle (mviMRow d8))

/-- 0x3A `LDA a16` (R406). -/
def execLda (a16 : Word) (s : State) : Result := .next (s.runRow 0x3A idle (ldaRow a16))

/-- 0x3E `MVI A,d8` (R403). -/
def execMviA (d8 : Byte) (s : State) : Result := .next (s.runRow 0x3E idle (mviRow .a d8))

/-- 0x40 `MOV B,B` (R400). -/
def execMovBB (s : State) : Result := .next (s.runRow 0x40 idle (movRow .b .b))

/-- 0x41 `MOV B,C` (R400). -/
def execMovBC (s : State) : Result := .next (s.runRow 0x41 idle (movRow .b .c))

/-- 0x42 `MOV B,D` (R400). -/
def execMovBD (s : State) : Result := .next (s.runRow 0x42 idle (movRow .b .d))

/-- 0x43 `MOV B,E` (R400). -/
def execMovBE (s : State) : Result := .next (s.runRow 0x43 idle (movRow .b .e))

/-- 0x44 `MOV B,H` (R400). -/
def execMovBH (s : State) : Result := .next (s.runRow 0x44 idle (movRow .b .h))

/-- 0x45 `MOV B,L` (R400). -/
def execMovBL (s : State) : Result := .next (s.runRow 0x45 idle (movRow .b .l))

/-- 0x46 `MOV B,M` (R401). -/
def execMovBM (s : State) : Result := .next (s.runRow 0x46 idle (movFromMRow .b))

/-- 0x47 `MOV B,A` (R400). -/
def execMovBA (s : State) : Result := .next (s.runRow 0x47 idle (movRow .b .a))

/-- 0x48 `MOV C,B` (R400). -/
def execMovCB (s : State) : Result := .next (s.runRow 0x48 idle (movRow .c .b))

/-- 0x49 `MOV C,C` (R400). -/
def execMovCC (s : State) : Result := .next (s.runRow 0x49 idle (movRow .c .c))

/-- 0x4A `MOV C,D` (R400). -/
def execMovCD (s : State) : Result := .next (s.runRow 0x4A idle (movRow .c .d))

/-- 0x4B `MOV C,E` (R400). -/
def execMovCE (s : State) : Result := .next (s.runRow 0x4B idle (movRow .c .e))

/-- 0x4C `MOV C,H` (R400). -/
def execMovCH (s : State) : Result := .next (s.runRow 0x4C idle (movRow .c .h))

/-- 0x4D `MOV C,L` (R400). -/
def execMovCL (s : State) : Result := .next (s.runRow 0x4D idle (movRow .c .l))

/-- 0x4E `MOV C,M` (R401). -/
def execMovCM (s : State) : Result := .next (s.runRow 0x4E idle (movFromMRow .c))

/-- 0x4F `MOV C,A` (R400). -/
def execMovCA (s : State) : Result := .next (s.runRow 0x4F idle (movRow .c .a))

/-- 0x50 `MOV D,B` (R400). -/
def execMovDB (s : State) : Result := .next (s.runRow 0x50 idle (movRow .d .b))

/-- 0x51 `MOV D,C` (R400). -/
def execMovDC (s : State) : Result := .next (s.runRow 0x51 idle (movRow .d .c))

/-- 0x52 `MOV D,D` (R400). -/
def execMovDD (s : State) : Result := .next (s.runRow 0x52 idle (movRow .d .d))

/-- 0x53 `MOV D,E` (R400). -/
def execMovDE (s : State) : Result := .next (s.runRow 0x53 idle (movRow .d .e))

/-- 0x54 `MOV D,H` (R400). -/
def execMovDH (s : State) : Result := .next (s.runRow 0x54 idle (movRow .d .h))

/-- 0x55 `MOV D,L` (R400). -/
def execMovDL (s : State) : Result := .next (s.runRow 0x55 idle (movRow .d .l))

/-- 0x56 `MOV D,M` (R401). -/
def execMovDM (s : State) : Result := .next (s.runRow 0x56 idle (movFromMRow .d))

/-- 0x57 `MOV D,A` (R400). -/
def execMovDA (s : State) : Result := .next (s.runRow 0x57 idle (movRow .d .a))

/-- 0x58 `MOV E,B` (R400). -/
def execMovEB (s : State) : Result := .next (s.runRow 0x58 idle (movRow .e .b))

/-- 0x59 `MOV E,C` (R400). -/
def execMovEC (s : State) : Result := .next (s.runRow 0x59 idle (movRow .e .c))

/-- 0x5A `MOV E,D` (R400). -/
def execMovED (s : State) : Result := .next (s.runRow 0x5A idle (movRow .e .d))

/-- 0x5B `MOV E,E` (R400). -/
def execMovEE (s : State) : Result := .next (s.runRow 0x5B idle (movRow .e .e))

/-- 0x5C `MOV E,H` (R400). -/
def execMovEH (s : State) : Result := .next (s.runRow 0x5C idle (movRow .e .h))

/-- 0x5D `MOV E,L` (R400). -/
def execMovEL (s : State) : Result := .next (s.runRow 0x5D idle (movRow .e .l))

/-- 0x5E `MOV E,M` (R401). -/
def execMovEM (s : State) : Result := .next (s.runRow 0x5E idle (movFromMRow .e))

/-- 0x5F `MOV E,A` (R400). -/
def execMovEA (s : State) : Result := .next (s.runRow 0x5F idle (movRow .e .a))

/-- 0x60 `MOV H,B` (R400). -/
def execMovHB (s : State) : Result := .next (s.runRow 0x60 idle (movRow .h .b))

/-- 0x61 `MOV H,C` (R400). -/
def execMovHC (s : State) : Result := .next (s.runRow 0x61 idle (movRow .h .c))

/-- 0x62 `MOV H,D` (R400). -/
def execMovHD (s : State) : Result := .next (s.runRow 0x62 idle (movRow .h .d))

/-- 0x63 `MOV H,E` (R400). -/
def execMovHE (s : State) : Result := .next (s.runRow 0x63 idle (movRow .h .e))

/-- 0x64 `MOV H,H` (R400). -/
def execMovHH (s : State) : Result := .next (s.runRow 0x64 idle (movRow .h .h))

/-- 0x65 `MOV H,L` (R400). -/
def execMovHL (s : State) : Result := .next (s.runRow 0x65 idle (movRow .h .l))

/-- 0x66 `MOV H,M` (R401). -/
def execMovHM (s : State) : Result := .next (s.runRow 0x66 idle (movFromMRow .h))

/-- 0x67 `MOV H,A` (R400). -/
def execMovHA (s : State) : Result := .next (s.runRow 0x67 idle (movRow .h .a))

/-- 0x68 `MOV L,B` (R400). -/
def execMovLB (s : State) : Result := .next (s.runRow 0x68 idle (movRow .l .b))

/-- 0x69 `MOV L,C` (R400). -/
def execMovLC (s : State) : Result := .next (s.runRow 0x69 idle (movRow .l .c))

/-- 0x6A `MOV L,D` (R400). -/
def execMovLD (s : State) : Result := .next (s.runRow 0x6A idle (movRow .l .d))

/-- 0x6B `MOV L,E` (R400). -/
def execMovLE (s : State) : Result := .next (s.runRow 0x6B idle (movRow .l .e))

/-- 0x6C `MOV L,H` (R400). -/
def execMovLH (s : State) : Result := .next (s.runRow 0x6C idle (movRow .l .h))

/-- 0x6D `MOV L,L` (R400). -/
def execMovLL (s : State) : Result := .next (s.runRow 0x6D idle (movRow .l .l))

/-- 0x6E `MOV L,M` (R401). -/
def execMovLM (s : State) : Result := .next (s.runRow 0x6E idle (movFromMRow .l))

/-- 0x6F `MOV L,A` (R400). -/
def execMovLA (s : State) : Result := .next (s.runRow 0x6F idle (movRow .l .a))

/-- 0x70 `MOV M,B` (R402). -/
def execMovMB (s : State) : Result := .next (s.runRow 0x70 idle (movToMRow .b))

/-- 0x71 `MOV M,C` (R402). -/
def execMovMC (s : State) : Result := .next (s.runRow 0x71 idle (movToMRow .c))

/-- 0x72 `MOV M,D` (R402). -/
def execMovMD (s : State) : Result := .next (s.runRow 0x72 idle (movToMRow .d))

/-- 0x73 `MOV M,E` (R402). -/
def execMovME (s : State) : Result := .next (s.runRow 0x73 idle (movToMRow .e))

/-- 0x74 `MOV M,H` (R402). -/
def execMovMH (s : State) : Result := .next (s.runRow 0x74 idle (movToMRow .h))

/-- 0x75 `MOV M,L` (R402). -/
def execMovML (s : State) : Result := .next (s.runRow 0x75 idle (movToMRow .l))

/-- 0x77 `MOV M,A` (R402). -/
def execMovMA (s : State) : Result := .next (s.runRow 0x77 idle (movToMRow .a))

/-- 0x78 `MOV A,B` (R400). -/
def execMovAB (s : State) : Result := .next (s.runRow 0x78 idle (movRow .a .b))

/-- 0x79 `MOV A,C` (R400). -/
def execMovAC (s : State) : Result := .next (s.runRow 0x79 idle (movRow .a .c))

/-- 0x7A `MOV A,D` (R400). -/
def execMovAD (s : State) : Result := .next (s.runRow 0x7A idle (movRow .a .d))

/-- 0x7B `MOV A,E` (R400). -/
def execMovAE (s : State) : Result := .next (s.runRow 0x7B idle (movRow .a .e))

/-- 0x7C `MOV A,H` (R400). -/
def execMovAH (s : State) : Result := .next (s.runRow 0x7C idle (movRow .a .h))

/-- 0x7D `MOV A,L` (R400). -/
def execMovAL (s : State) : Result := .next (s.runRow 0x7D idle (movRow .a .l))

/-- 0x7E `MOV A,M` (R401). -/
def execMovAM (s : State) : Result := .next (s.runRow 0x7E idle (movFromMRow .a))

/-- 0x7F `MOV A,A` (R400). -/
def execMovAA (s : State) : Result := .next (s.runRow 0x7F idle (movRow .a .a))

/-- 0xEB `XCHG` (R412). -/
def execXchg (s : State) : Result := .next (s.runRow 0xEB exchange [])

end Sys2Proof.Machine
end

