-- ==== Sys2Proof/Machine/Logical.lean ====
section
/-! DEFINITION. The logical, compare, rotate and carry instructions (spec/42_logical.md): the work of their machine cycles after the opcode fetch
(50_sequencer.md R702), and one meaning for each instruction. A rule R<n> below is of that file. -/

namespace Sys2Proof.Machine

/-- `RLC` (R508). -/
def rotateLeft : Act := fun s => s.rotateA (s.cpu.a.rotateLeft 1) (s.cpu.a.getLsbD 7)

/-- `RRC` (R509). -/
def rotateRight : Act := fun s => s.rotateA (s.cpu.a.rotateRight 1) (s.cpu.a.getLsbD 0)

/-- `RAL` (R510). -/
def rotateLeftThroughCy : Act := fun s =>
  s.rotateA (s.cpu.a <<< 1 ||| (BitVec.ofBool s.cpu.flags.cy).setWidth 8) (s.cpu.a.getLsbD 7)

/-- `RAR` (R511). -/
def rotateRightThroughCy : Act := fun s =>
  s.rotateA (s.cpu.a >>> 1 ||| (BitVec.ofBool s.cpu.flags.cy).setWidth 8 <<< 7) (s.cpu.a.getLsbD 0)

/-- `CMA`: no flag (R512). -/
def complementA : Act := fun s => s.setReg .a (~~~s.cpu.a)

/-- `CMC` (R513). -/
def complementCarry : Act := fun s => s.setCy (!s.cpu.flags.cy)

/-- `STC` (R514). -/
def setCarry : Act := fun s => s.setCy true

/-- 0x07 `RLC` (R508). -/
def execRlc (s : State) : Result := .next (s.runRow 0x07 rotateLeft [])

/-- 0x0F `RRC` (R509). -/
def execRrc (s : State) : Result := .next (s.runRow 0x0F rotateRight [])

/-- 0x17 `RAL` (R510). -/
def execRal (s : State) : Result := .next (s.runRow 0x17 rotateLeftThroughCy [])

/-- 0x1F `RAR` (R511). -/
def execRar (s : State) : Result := .next (s.runRow 0x1F rotateRightThroughCy [])

/-- 0x2F `CMA` (R512). -/
def execCma (s : State) : Result := .next (s.runRow 0x2F complementA [])

/-- 0x37 `STC` (R514). -/
def execStc (s : State) : Result := .next (s.runRow 0x37 setCarry [])

/-- 0x3F `CMC` (R513). -/
def execCmc (s : State) : Result := .next (s.runRow 0x3F complementCarry [])

/-- 0xA0 `ANA B` (R500). -/
def execAnaB (s : State) : Result := .next (s.runRow 0xA0 (aluReg .ana .b) [])

/-- 0xA1 `ANA C` (R500). -/
def execAnaC (s : State) : Result := .next (s.runRow 0xA1 (aluReg .ana .c) [])

/-- 0xA2 `ANA D` (R500). -/
def execAnaD (s : State) : Result := .next (s.runRow 0xA2 (aluReg .ana .d) [])

/-- 0xA3 `ANA E` (R500). -/
def execAnaE (s : State) : Result := .next (s.runRow 0xA3 (aluReg .ana .e) [])

/-- 0xA4 `ANA H` (R500). -/
def execAnaH (s : State) : Result := .next (s.runRow 0xA4 (aluReg .ana .h) [])

/-- 0xA5 `ANA L` (R500). -/
def execAnaL (s : State) : Result := .next (s.runRow 0xA5 (aluReg .ana .l) [])

/-- 0xA6 `ANA M` (R500). -/
def execAnaM (s : State) : Result := .next (s.runRow 0xA6 idle (aluMRow .ana))

/-- 0xA7 `ANA A` (R500). -/
def execAnaA (s : State) : Result := .next (s.runRow 0xA7 (aluReg .ana .a) [])

/-- 0xA8 `XRA B` (R501). -/
def execXraB (s : State) : Result := .next (s.runRow 0xA8 (aluReg .xra .b) [])

/-- 0xA9 `XRA C` (R501). -/
def execXraC (s : State) : Result := .next (s.runRow 0xA9 (aluReg .xra .c) [])

/-- 0xAA `XRA D` (R501). -/
def execXraD (s : State) : Result := .next (s.runRow 0xAA (aluReg .xra .d) [])

/-- 0xAB `XRA E` (R501). -/
def execXraE (s : State) : Result := .next (s.runRow 0xAB (aluReg .xra .e) [])

/-- 0xAC `XRA H` (R501). -/
def execXraH (s : State) : Result := .next (s.runRow 0xAC (aluReg .xra .h) [])

/-- 0xAD `XRA L` (R501). -/
def execXraL (s : State) : Result := .next (s.runRow 0xAD (aluReg .xra .l) [])

/-- 0xAE `XRA M` (R501). -/
def execXraM (s : State) : Result := .next (s.runRow 0xAE idle (aluMRow .xra))

/-- 0xAF `XRA A` (R501). -/
def execXraA (s : State) : Result := .next (s.runRow 0xAF (aluReg .xra .a) [])

/-- 0xB0 `ORA B` (R502). -/
def execOraB (s : State) : Result := .next (s.runRow 0xB0 (aluReg .ora .b) [])

/-- 0xB1 `ORA C` (R502). -/
def execOraC (s : State) : Result := .next (s.runRow 0xB1 (aluReg .ora .c) [])

/-- 0xB2 `ORA D` (R502). -/
def execOraD (s : State) : Result := .next (s.runRow 0xB2 (aluReg .ora .d) [])

/-- 0xB3 `ORA E` (R502). -/
def execOraE (s : State) : Result := .next (s.runRow 0xB3 (aluReg .ora .e) [])

/-- 0xB4 `ORA H` (R502). -/
def execOraH (s : State) : Result := .next (s.runRow 0xB4 (aluReg .ora .h) [])

/-- 0xB5 `ORA L` (R502). -/
def execOraL (s : State) : Result := .next (s.runRow 0xB5 (aluReg .ora .l) [])

/-- 0xB6 `ORA M` (R502). -/
def execOraM (s : State) : Result := .next (s.runRow 0xB6 idle (aluMRow .ora))

/-- 0xB7 `ORA A` (R502). -/
def execOraA (s : State) : Result := .next (s.runRow 0xB7 (aluReg .ora .a) [])

/-- 0xB8 `CMP B` (R503). -/
def execCmpB (s : State) : Result := .next (s.runRow 0xB8 (aluReg .cmp .b) [])

/-- 0xB9 `CMP C` (R503). -/
def execCmpC (s : State) : Result := .next (s.runRow 0xB9 (aluReg .cmp .c) [])

/-- 0xBA `CMP D` (R503). -/
def execCmpD (s : State) : Result := .next (s.runRow 0xBA (aluReg .cmp .d) [])

/-- 0xBB `CMP E` (R503). -/
def execCmpE (s : State) : Result := .next (s.runRow 0xBB (aluReg .cmp .e) [])

/-- 0xBC `CMP H` (R503). -/
def execCmpH (s : State) : Result := .next (s.runRow 0xBC (aluReg .cmp .h) [])

/-- 0xBD `CMP L` (R503). -/
def execCmpL (s : State) : Result := .next (s.runRow 0xBD (aluReg .cmp .l) [])

/-- 0xBE `CMP M` (R503). -/
def execCmpM (s : State) : Result := .next (s.runRow 0xBE idle (aluMRow .cmp))

/-- 0xBF `CMP A` (R503). -/
def execCmpA (s : State) : Result := .next (s.runRow 0xBF (aluReg .cmp .a) [])

/-- 0xE6 `ANI d8` (R504). -/
def execAni (d8 : Byte) (s : State) : Result := .next (s.runRow 0xE6 idle (aluImmRow .ana d8))

/-- 0xEE `XRI d8` (R505). -/
def execXri (d8 : Byte) (s : State) : Result := .next (s.runRow 0xEE idle (aluImmRow .xra d8))

/-- 0xF6 `ORI d8` (R506). -/
def execOri (d8 : Byte) (s : State) : Result := .next (s.runRow 0xF6 idle (aluImmRow .ora d8))

/-- 0xFE `CPI d8` (R507). -/
def execCpi (d8 : Byte) (s : State) : Result := .next (s.runRow 0xFE idle (aluImmRow .cmp d8))

end Sys2Proof.Machine
end

