-- ==== Sys2Proof/Machine/StackControl.lean ====
section
/-! DEFINITION. The stack, I/O and machine-control instructions (spec/44_stack_io_control.md): the work of their machine cycles after the opcode fetch
(50_sequencer.md R702), and one meaning for each instruction. A rule R<n> below is of that file. -/

namespace Sys2Proof.Machine

/-- `PUSH rp` (R600). -/
def pushPairRow (p : Pair) : List Act := pushRow (fun s => hiByte (s.pair p)) (fun s => loByte (s.pair p))

/-- `PUSH PSW`: A, then the flags byte with its fixed bits (R601). -/
def pushPswRow : List Act := pushRow (fun s => s.cpu.a) (fun s => s.cpu.flags.pack)

/-- `POP rp` (R602). -/
def popRow (p : Pair) : List Act := [State.popZ, fun s => let t := s.popW; t.setPair p t.wz]

/-- `POP PSW`: the flags byte, then A (R603). -/
def popPswRow : List Act :=
  [State.popZ, fun s => let t := s.popW; (t.setFlags (Flags.unpack t.z)).setReg .a t.w]

/-- `XTHL`: read SP, read SP + 1, write H to SP + 1, write L to SP, write HL; SP unchanged (R604). -/
def xthlRow : List Act :=
  [fun s => s.loadZ s.cpu.sp .stack,
   fun s => s.loadW (s.cpu.sp + 1) .stack,
   fun s => s.writeByte (s.cpu.sp + 1) .stack s.cpu.h,
   fun s => s.writeByte s.cpu.sp .stack s.cpu.l,
   fun s => s.setPair .hl s.wz]

/-- `SPHL` (R605). -/
def sphlRow : List Act := [fun s => s.setSp s.hl]

/-- `IN p8`: the port access is in machine cycle 2 (R606, D20). -/
def inRow (port : Byte) : List Act :=
  [fun s => s.fetchZ port, fun s => (s.callPortIn s.z).setReg .a (s.portInByte s.z)]

/-- `OUT p8`: the port access is in machine cycle 2 (R607, D20). -/
def outRow (port : Byte) : List Act := [fun s => s.fetchZ port, fun s => s.callPortOut s.z s.cpu.a]

/-- `EI` (R608). -/
def enableInterrupts : Act := fun s => { s with cpu := { s.cpu with inte := true, eip := true } }

/-- `DI`: LATCH and EIP stay (R609). -/
def disableInterrupts : Act := fun s => { s with cpu := { s.cpu with inte := false } }

/-- 0x00 `NOP` (R611). -/
def execNop (s : State) : Result := .next (s.runRow 0x00 idle [])

/-- 0x76 `HLT` (R610). -/
def execHlt (s : State) : Result := .next (s.runRow 0x76 idle haltRow)

/-- 0xC1 `POP B` (R602). -/
def execPopB (s : State) : Result := .next (s.runRow 0xC1 idle (popRow .bc))

/-- 0xC5 `PUSH B` (R600). -/
def execPushB (s : State) : Result := .next (s.runRow 0xC5 idle (pushPairRow .bc))

/-- 0xD1 `POP D` (R602). -/
def execPopD (s : State) : Result := .next (s.runRow 0xD1 idle (popRow .de))

/-- 0xD3 `OUT p8` (R607). -/
def execOutPort (p8 : Byte) (s : State) : Result := .next (s.runRow 0xD3 idle (outRow p8))

/-- 0xD5 `PUSH D` (R600). -/
def execPushD (s : State) : Result := .next (s.runRow 0xD5 idle (pushPairRow .de))

/-- 0xDB `IN p8` (R606). -/
def execInPort (p8 : Byte) (s : State) : Result := .next (s.runRow 0xDB idle (inRow p8))

/-- 0xE1 `POP H` (R602). -/
def execPopH (s : State) : Result := .next (s.runRow 0xE1 idle (popRow .hl))

/-- 0xE3 `XTHL` (R604). -/
def execXthl (s : State) : Result := .next (s.runRow 0xE3 idle xthlRow)

/-- 0xE5 `PUSH H` (R600). -/
def execPushH (s : State) : Result := .next (s.runRow 0xE5 idle (pushPairRow .hl))

/-- 0xF1 `POP PSW` (R603). -/
def execPopPsw (s : State) : Result := .next (s.runRow 0xF1 idle popPswRow)

/-- 0xF3 `DI` (R609). -/
def execDi (s : State) : Result := .next (s.runRow 0xF3 disableInterrupts [])

/-- 0xF5 `PUSH PSW` (R601). -/
def execPushPsw (s : State) : Result := .next (s.runRow 0xF5 idle pushPswRow)

/-- 0xF9 `SPHL` (R605). -/
def execSphl (s : State) : Result := .next (s.runRow 0xF9 idle sphlRow)

/-- 0xFB `EI` (R608). -/
def execEi (s : State) : Result := .next (s.runRow 0xFB enableInterrupts [])

end Sys2Proof.Machine
end

