-- ==== Sys2Proof/Machine/Undocumented.lean ====
section
/-! DEFINITION. The twelve undocumented duplicates (spec/45_undocumented.md): the work of their machine cycles after the opcode fetch
(50_sequencer.md R702), and one meaning for each instruction. A rule R<n> below is of that file. -/

namespace Sys2Proof.Machine

/-- 0x08 `NOP*` (R650). -/
def execNop08 (s : State) : Result := .next (s.runRow 0x08 idle [])

/-- 0x10 `NOP*` (R650). -/
def execNop10 (s : State) : Result := .next (s.runRow 0x10 idle [])

/-- 0x18 `NOP*` (R650). -/
def execNop18 (s : State) : Result := .next (s.runRow 0x18 idle [])

/-- 0x20 `NOP*` (R650). -/
def execNop20 (s : State) : Result := .next (s.runRow 0x20 idle [])

/-- 0x28 `NOP*` (R650). -/
def execNop28 (s : State) : Result := .next (s.runRow 0x28 idle [])

/-- 0x30 `NOP*` (R650). -/
def execNop30 (s : State) : Result := .next (s.runRow 0x30 idle [])

/-- 0x38 `NOP*` (R650). -/
def execNop38 (s : State) : Result := .next (s.runRow 0x38 idle [])

/-- 0xCB `JMP* a16` (R651). -/
def execJmpCB (a16 : Word) (s : State) : Result := .next (s.runRow 0xCB idle (jmpRow a16))

/-- 0xD9 `RET*` (R652). -/
def execRetD9 (s : State) : Result := .next (s.runRow 0xD9 idle returnRow)

/-- 0xDD `CALL* a16` (R653). -/
def execCallDD (a16 : Word) (s : State) : Result := .next (s.runRow 0xDD idle (callRow a16))

/-- 0xED `CALL* a16` (R653). -/
def execCallED (a16 : Word) (s : State) : Result := .next (s.runRow 0xED idle (callRow a16))

/-- 0xFD `CALL* a16` (R653). -/
def execCallFD (a16 : Word) (s : State) : Result := .next (s.runRow 0xFD idle (callRow a16))

end Sys2Proof.Machine
end

