-- ==== Sys2Proof/Machine/Observer.lean ====
section
/-! DEFINITION. The History Engine: recording, replay and recording files (65_observer.md R850 to R862). -/

namespace Sys2Proof.Machine

/-! ## Snapshots -/

/-- The snapshot of now (R851). -/
def State.snapshot (s : State) : Snapshot :=
  { cpu := s.cpu, map := s.map, romMode := s.romMode, io := s.io, disp := s.disp }

/-- `restore(S)`: every item of the snapshot, MCI 0, H_FRAME and LAST_FRAME the restored FRAME, an empty diff record;
FAULT and physical memory stay (R858).
DESIGN CHOICE, unsafe: the "unspecified" marks come back with the registers they mark (log 33). -/
def State.restore (s : State) (sn : Snapshot) : State :=
  { s with
    cpu := sn.cpu, mci := 0, map := sn.map, romMode := sn.romMode, io := sn.io, disp := sn.disp
    diff := DiffRecord.empty
    lastFrame := sn.disp.frame
    hist := { s.hist with hFrame := sn.disp.frame } }

/-- `COUNT` (R850). -/
def History.count (h : History) : Nat := h.checkpoints.length

/-- The slot of `BUF` that holds the checkpoint of position `i` (R850). -/
def History.slot (h : History) (cap i : Nat) : Nat := (h.wcur + cap + 1 + i - h.count) % cap

/-! ## Recording (R853 to R855) -/

/-- `reset()`: one checkpoint of the current state (R853). ATTACHED stays. -/
def State.historyReset (s : State) : State :=
  { s with
    hist := { s.hist with
              checkpoints := [{ snap := s.snapshot, diffs := [] }], wcur := 0, pos := 0, live := true, liveSnap := none
              hFrame := s.disp.frame } }

/-- Appends writes to the diff list of the newest checkpoint. -/
def appendToOpen (ws : List WriteDiff) : List Checkpoint → List Checkpoint
  | [] => []
  | [k] => [{ k with diffs := k.diffs ++ ws }]
  | k :: k' :: ks => k :: appendToOpen ws (k' :: ks)

/-- The open checkpoint's diff list grows by the writes (R855). -/
def History.append (h : History) (ws : List WriteDiff) : History :=
  { h with checkpoints := appendToOpen ws h.checkpoints }

/-- Closes the open checkpoint and opens a new one, evicting the oldest when every slot is taken (R855). -/
def History.openNext (h : History) (cap : Nat) (sn : Snapshot) : History :=
  let kept := if h.count < cap then h.checkpoints else h.checkpoints.tail
  { h with
    checkpoints := kept ++ [{ snap := sn, diffs := [] }]
    wcur := (h.wcur + 1) % cap
    pos := kept.length
    hFrame := sn.disp.frame }

/-- `on_instruction_retired()`, which runs while ATTACHED and LIVE (R854, R855). -/
def State.onInstructionRetired (s : State) : State :=
  if s.hist.attached = true ∧ s.hist.live = true then
    let h := s.hist.append s.diff.writes
    { s with hist := if s.disp.frame = h.hFrame then h else h.openNext s.params.historyCapacity s.snapshot }
  else s

/-! ## Replay (R856 to R859) -/

/-- Memory with a diff list applied in order, each byte after. -/
def redo (ws : List WriteDiff) (m : Memory) : Memory := ws.foldl (fun m w => m.write w.addr w.after) m

/-- Memory with a diff list undone in reverse order, each byte before. -/
def undo (ws : List WriteDiff) (m : Memory) : Memory := ws.foldr (fun w m => m.write w.addr w.before) m

/-- One turn of `play_forward`'s loop: the writes of the current position, then the next checkpoint's snapshot, or
after the newest the live state (R856). An empty LIVESNAP restores nothing (log 29). -/
def State.stepForward (s : State) : State :=
  let t := { s with ram := redo ((s.hist.checkpoints[s.hist.pos]?.map Checkpoint.diffs).getD []) s.ram }
  match s.hist.checkpoints[s.hist.pos + 1]? with
  | some k => { t with hist := { s.hist with pos := s.hist.pos + 1 } }.restore k.snap
  | none =>
    let u := { t with hist := { s.hist with live := true, liveSnap := none } }
    match s.hist.liveSnap with
    | some sn => u.restore sn
    | none => u

/-- `play_forward(n)`, clamped at the live state (R856). -/
def State.playForward (s : State) : Nat → State
  | 0 => s
  | n + 1 => if s.hist.live = true then s else s.stepForward.playForward n

/-- One turn of `play_reverse`'s loop: from the live state to the start of the open frame, else one frame back (R857). -/
def State.stepReverse (s : State) : State :=
  let k := if s.hist.live = true then s.hist.count - 1 else s.hist.pos - 1
  let h := if s.hist.live = true then { s.hist with liveSnap := some s.snapshot, live := false } else s.hist
  match s.hist.checkpoints[k]? with
  | some c => { s with ram := undo c.diffs s.ram, hist := { h with pos := k } }.restore c.snap
  | none => { s with hist := h }

/-- `play_reverse(n)`, clamped at the oldest checkpoint (R857). -/
def State.playReverse (s : State) : Nat → State
  | 0 => s
  | n + 1 => if s.hist.live = true ∨ 0 < s.hist.pos then s.stepReverse.playReverse n else s

/-- Leaving history: the checkpoints after POS are discarded, D_POS is emptied, the machine goes on from there (R859). -/
def State.leaveHistory (s : State) : State :=
  if s.hist.live = true then s
  else
    { s with
      hist := { s.hist with
                checkpoints := s.hist.checkpoints.take s.hist.pos ++
                  (s.hist.checkpoints[s.hist.pos]?.map fun k => { k with diffs := [] }).toList
                wcur := s.hist.slot s.params.historyCapacity s.hist.pos
                live := true
                liveSnap := none } }

/-! ## Recording files (R861, R862) -/

/-- `SaveRecording` (R861). -/
def State.saveRecording (s : State) : RecordingFile :=
  { version := s.params.recordingVersion
    body := some { count := s.hist.count, pos := s.hist.pos, checkpoints := s.hist.checkpoints, live := s.hist.live,
                   liveSnap := s.hist.liveSnap } }

/-- The values of a recording are consistent (R862). The clauses on the number of checkpoints and on LIVE follow from
R852 and R861 (DEDUCED, log 15). -/
def Recording.consistent (p : Params) (r : Recording) : Bool :=
  decide (r.count ≠ 0 ∧ r.count ≤ p.historyCapacity ∧ r.pos < r.count ∧ r.checkpoints.length = r.count) &&
  r.checkpoints.all (fun k => k.diffs.all fun w => decide (w.addr < physicalBytes)) &&
  r.checkpoints.all (fun k => !mappingConflict p.layout k.snap.map) &&
  r.liveSnap.all (fun sn => !mappingConflict p.layout sn.map) &&
  (if r.live then decide (r.pos + 1 = r.count) else r.liveSnap.isSome)

/-- The recording a file holds if `LoadRecording` accepts it (R862). -/
def RecordingFile.accepted (p : Params) (f : RecordingFile) : Option Recording :=
  if f.version = p.recordingVersion then f.body.filter (Recording.consistent p) else none

/-- `LoadRecording` of an accepted recording: the History Engine's state, then S_POS; memory stays (R862, D46).
DESIGN CHOICE, unsafe: a LIVESNAP beside LIVE = 1 is dropped, and is no ground to reject the file (log 34). -/
def State.loadRecording (s : State) (r : Recording) : State :=
  let t := { s with
    hist := { s.hist with
              checkpoints := r.checkpoints, wcur := r.count - 1, pos := r.pos, live := r.live
              liveSnap := if r.live then none else r.liveSnap } }
  match r.checkpoints[r.pos]? with
  | some k => t.restore k.snap
  | none => t

end Sys2Proof.Machine
end

