-- ==== Sys2Proof/Machine/Loop.lean ====
section
/-! DEFINITION. The execution loop: the boundary of an instruction, one instruction, what follows it, and the host
commands (50_sequencer.md R704, R710; 55_orchestrator.md R750 to R760). -/

namespace Sys2Proof.Machine

/-! ## One instruction (50_sequencer.md R704, 55_orchestrator.md R751) -/

/-- The diff record, and the trace beside it, are cleared at machine cycle 0 (R710). -/
def State.clearRecord (s : State) : State := { s with diff := DiffRecord.empty, trace := [] }

/-- The three bytes from PC on, through Normal space. No instruction is longer; they cannot change before the
instruction's own cycles fetch them (20_memory.md R233, log 2). -/
def State.fetchBytes (s : State) : List Byte :=
  [s.readByte s.cpu.pc .normal, s.readByte (s.cpu.pc + 1) .normal, s.readByte (s.cpu.pc + 2) .normal]

/-- The normal fetch of machine cycle 0: EIP cleared, the opcode fetched (R704). -/
def State.fetchOpcode (s : State) : State :=
  let t := { s with cpu := { s.cpu with eip := false } }
  t.fetchByte (s.readByte s.cpu.pc .normal)

/-- The boundary decision and the instruction it starts, from machine cycle 0 after the latch update: interrupt
service, else a halt cycle, else a normal fetch (R704, 60_exceptions.md R807). -/
def State.boundary (s : State) : Result :=
  let t := s.clearRecord
  if t.serviceDue then .next t.takeInterrupt
  else if t.cpu.halt then .next t.haltCycle
  else
    match decode t.fetchBytes with
    | .ok (i, _) => exec i t.fetchOpcode
    | .error _ => .fault .decodeIncomplete

/-- W and Z are undefined at a boundary: free values (10_state.md R115, log 12). -/
def State.forgetTemps (s : State) : State :=
  { s with w := Config.boundaryTemp s.draws, z := Config.boundaryTemp (s.draws + 1), draws := s.draws + 2 }

/-- `run_instruction()` up to its last machine cycle (R751). -/
def State.runInstruction (s : State) : Result :=
  andThen s.beginCycle.boundary fun t => .next t.forgetTemps

/-! ## After an instruction (55_orchestrator.md R753, R754, R756) -/

/-- The debug hook requests a break: only an installed hook, by the input given or freely (R753, log 19). -/
def State.hookBreak (s : State) : Bool :=
  s.hookInstalled &&
    match s.hookIn with
    | b :: _ => b
    | [] => Config.hookBreak s.draws

/-- The hook's call uses up one input. -/
def State.callHook (s : State) : State :=
  { s with hookIn := if s.hookInstalled then s.hookIn.tail else s.hookIn, draws := s.draws + 1 }

/-- A frame boundary since the last instruction end (R754). -/
def State.frameCrossed (s : State) : Bool := decide (s.disp.frame ≠ s.lastFrame)

/-- `LOOP` after an instruction: a fault stops it, so does a break request unless breaks are ignored (R754, R756). -/
def loopAfter (fault : FaultCode) (brk ignoring : Bool) (loop : LoopState) : LoopState :=
  if fault ≠ .none then .stopped else if brk && !ignoring then .stopped else loop

/-- `after_instruction()` less the host command: hook, History Engine, LAST_FRAME, LOOP (R754). -/
def State.afterInstruction (s : State) (ignoring : Bool) : State :=
  let t := s.callHook.onInstructionRetired
  { t with lastFrame := t.disp.frame, loop := loopAfter t.fault s.hookBreak ignoring t.loop }

/-! ## Host commands (R760) -/

/-- A response is posted with a FAULT and the current LOOP (R760). -/
def State.post (s : State) (fault : FaultCode) (r : Reply) : State :=
  { s with responses := s.responses ++ [{ reply := r, fault := fault, loop := s.loop }] }

/-- The response of a command that clears no fault carries the current FAULT (R760). -/
def State.respond (s : State) (r : Reply) : State := s.post s.fault r

/-- A value, or `unspecified` (R760). -/
def reported {α : Type} (mark : Bool) (v : α) : Option α := if mark then none else some v

/-- What `GetRegisters` reports; F is `unspecified` when one of its flags is (R760, log 22). -/
def State.view (s : State) : RegisterView :=
  let u := s.cpu.unspec
  { a := reported u.a s.cpu.a
    f := reported (u.fs || u.fz || u.fac || u.fp || u.fcy) s.cpu.flags.pack
    b := reported u.b s.cpu.b
    c := reported u.c s.cpu.c
    d := reported u.d s.cpu.d
    e := reported u.e s.cpu.e
    h := reported u.h s.cpu.h
    l := reported u.l s.cpu.l
    sp := reported u.sp s.cpu.sp
    pc := s.cpu.pc, cc := s.cpu.cc, inte := s.cpu.inte, latch := s.cpu.latch, eip := s.cpu.eip, halt := s.cpu.halt
    mci := s.mci }

/-- Every register unspecified. -/
def Unspecified.all : Unspecified :=
  { a := true, b := true, c := true, d := true, e := true, h := true, l := true, sp := true,
    fs := true, fz := true, fac := true, fp := true, fcy := true }

/-- The CPU after `reset()` alone: what it zeroes, and free values in what it leaves unspecified (10_state.md R127,
93_implementation_defined.md I1, log 11). -/
def Cpu.afterReset (n : Nat) : Cpu :=
  { Cpu.init with
    a := Config.unspecifiedByte n, b := Config.unspecifiedByte (n + 1), c := Config.unspecifiedByte (n + 2)
    d := Config.unspecifiedByte (n + 3), e := Config.unspecifiedByte (n + 4), h := Config.unspecifiedByte (n + 5)
    l := Config.unspecifiedByte (n + 6), sp := Config.unspecifiedWord n
    flags := { s := Config.unspecifiedFlag n, z := Config.unspecifiedFlag (n + 1), ac := Config.unspecifiedFlag (n + 2)
               p := Config.unspecifiedFlag (n + 3), cy := Config.unspecifiedFlag (n + 4) }
    unspec := Unspecified.all }

/-- The CPU's `reset()` (10_state.md R127, D10). -/
def State.cpuReset (s : State) : State :=
  { s with cpu := Cpu.afterReset s.draws, mci := 0, w := 0, z := 0, diff := DiffRecord.empty, draws := s.draws + 7 }

/-- The CPU's `init()` (10_state.md R127, D11). -/
def State.cpuInit (s : State) : State :=
  { s with cpu := Cpu.init, mci := 0, w := 0, z := 0, diff := DiffRecord.empty }

/-- What `Reset` and `Restart` share after the CPU's own reset (R760, D26). -/
def State.machineReset (s : State) (rom : Bool) : State :=
  { s with map := Mapping.reset, romMode := rom, fault := .none, lastFrame := s.disp.frame }.historyReset

/-- The host command `Reset` (R760). -/
def State.hostReset (s : State) : State := s.cpuInit.machineReset true

/-- The host command `Restart` (R760). -/
def State.hostRestart (s : State) : State := s.cpuReset.machineReset false

/-- The write of one byte that `SetRamBytes` makes. -/
def State.hostWrite (s : State) (addr : Word) (v : Byte) : WriteDiff :=
  { addr := s.translate addr .normal, before := s.ram.read (s.translate addr .normal), after := v }

/-- `SetRamBytes`: each byte through translation, under the ROM too, recorded in the open checkpoint while attached
(R760, 65_observer.md R855, log 16).
DESIGN CHOICE, unsafe: the access hooks do not see these writes; R753 and R760 leave that open (log 31). -/
def State.setRamBytes (s : State) (addr : Word) : List Byte → State
  | [] => s
  | v :: vs =>
    let w := s.hostWrite addr v
    let t := { s with
      ram := s.ram.write w.addr v
      hist := if s.hist.attached then s.hist.append [w] else s.hist }
    t.setRamBytes (addr + 1) vs

/-- `AttachDebugger(b)`: attaching when detached resets the History Engine (R760). -/
def State.attachDebugger (s : State) (on : Bool) : State :=
  let t := { s with hist := { s.hist with attached := on } }
  if on && !s.hist.attached then t.historyReset else t

/-- The loop is Stopped. -/
def State.isStopped (s : State) : Bool := decide (s.loop = .stopped)

/-- `Run` and the two execute commands are allowed: Stopped with no fault (R756, R760). -/
def State.mayRun (s : State) : Bool := s.isStopped && decide (s.fault = .none)

/-- A command taken from the queue: its effect, then its response (R755 to R760). The frame command responds when its
run ends (log 17). `Reset` and `Restart` report the fault they clear: the next response reports a fault whatever the
command (R756, D35).
DESIGN CHOICE, unsafe: they do so also when an earlier response has reported it (log 32). -/
def State.execute (s : State) (c : Command) : Result :=
  match c with
  | .run =>
    .next (if s.mayRun then { s.leaveHistory with loop := .running }.respond .ok else s.respond .notAllowed)
  | .stop => .next ({ s with loop := .stopped }.respond .ok)
  | .reset => .next (s.hostReset.post s.fault .ok)
  | .restart => .next (s.hostRestart.post s.fault .ok)
  | .executeOneInstruction =>
    if s.mayRun then
      andThen s.leaveHistory.runInstruction fun t =>
        let u := t.afterInstruction false
        .next (u.respond (.registers u.view))
    else .next (s.respond .notAllowed)
  | .executeOneFrameIgnoringBreaks =>
    .next (if s.mayRun then { s.leaveHistory with frameRun := true } else s.respond .notAllowed)
  | .getRegisters => .next (s.respond (.registers s.view))
  | .getByte addr space => .next (s.respond (.byte (s.readByte addr space)))
  | .getWord addr space =>
    .next (s.respond (.word (mkWord (s.readByte (addr + 1) space) (s.readByte addr space))))
  | .setRamBytes addr bytes => .next ((s.leaveHistory.setRamBytes addr bytes).respond .ok)
  | .attachDebugger on => .next ((s.attachDebugger on).respond .ok)
  | .playForward n =>
    .next (if s.isStopped then (let t := s.playForward n; t.respond (.position t.hist.pos)) else s.respond .notAllowed)
  | .playReverse n =>
    .next (if s.isStopped then (let t := s.playReverse n; t.respond (.position t.hist.pos)) else s.respond .notAllowed)
  | .saveRecording => .next (s.respond (if s.isStopped then .recording s.saveRecording else .notAllowed))
  | .loadRecording file =>
    .next (if s.isStopped then
        (match file.accepted s.params with
         | some r => (s.loadRecording r).respond .ok
         | none => s.respond .badRecording)
      else s.respond .notAllowed)
  | .exit => .next ({ s with loop := .exiting }.respond .ok)

/-- At most one command is taken from the queue (R755). -/
def State.takeCommand (s : State) : Result :=
  match s.requests with
  | [] => .next s
  | c :: rest => { s with requests := rest }.execute c

/-! ## The loop -/

/-- Running: one instruction, what follows it, and at most one command (R751, R754). -/
def State.runningStep (s : State) : Result :=
  andThen s.runInstruction fun t => (t.afterInstruction false).takeCommand

/-- Inside `ExecuteOneFrameIgnoringBreaks`: one instruction, breaks ignored, no command; a frame boundary or a fault
ends it and posts the response (R759). -/
def State.frameStep (s : State) : Result :=
  andThen s.runInstruction fun t =>
    let u := t.afterInstruction true
    .next (if t.frameCrossed = true ∨ u.fault ≠ .none then { u with frameRun := false }.respond (.registers u.view)
      else u)

/-- One step of the machine: Running runs an instruction; Stopped takes a command or waits; Exiting stays (R750, R755,
R757). A loop with a fault does not run (10_state.md R120). -/
def State.loopStep (s : State) : Result :=
  match s.loop with
  | .exiting => .next s
  | .running => if s.fault = .none then s.runningStep else .next { s with loop := .stopped }
  | .stopped => if s.frameRun then s.frameStep else s.takeCommand

/-! ## The host's side (R755) -/

/-- The slots of the response queue that are taken or spoken for: responses not yet taken, the frame command whose
response is to come, and the commands not yet taken, each of which posts one response (log 21). -/
def State.inFlight (s : State) : Nat :=
  s.requests.length + (if s.frameRun then 1 else 0) + s.responses.length

/-- The host submits a command; a full request queue or a full response queue blocks it, never the loop (R755). A
command enters only while a slot for its response can be kept, so neither queue outgrows QUEUE_DEPTH (log 21). -/
def State.hostSubmit (s : State) (c : Command) : Option State :=
  if s.inFlight < s.params.queueDepth then some { s with requests := s.requests ++ [c] } else none

/-- The host takes the oldest response. -/
def State.hostTake (s : State) : Option (Response × State) :=
  match s.responses with
  | [] => none
  | r :: rest => some (r, { s with responses := rest })

/-- An instruction stored at PC and the machine set so that the next step runs it: the loop Running with no fault, no
halt cycle and no interrupt service first, and ROM mode off if the ROM covers one of the bytes (log 18). EIP blocks the
service and the fetch itself clears it. -/
def State.placeInstruction (s : State) (nbits w : Nat) : State :=
  let v := w % 2 ^ nbits
  let p0 := s.translate s.cpu.pc .normal
  let p1 := s.translate (s.cpu.pc + 1) .normal
  let p2 := s.translate (s.cpu.pc + 2) .normal
  let n := s.params.rom.length
  { s with
    ram := ((s.ram.write p0 (BitVec.ofNat 8 v)).write p1 (BitVec.ofNat 8 (v / 256))).write p2 (BitVec.ofNat 8 (v / 65536))
    romMode := s.romMode && !(decide (p0 < n) || decide (p1 < n) || decide (p2 < n))
    cpu := { s.cpu with halt := false, eip := s.cpu.eip || s.cpu.inte }
    fault := .none
    loop := .running
    frameRun := false }

end Sys2Proof.Machine
end

