-- ==== Sys2Proof/Machine/Step.lean ====
section
/-! DEFINITION. One step of the machine, and the placing of an instruction where the next step fetches
(55_orchestrator.md R750 to R755). -/

namespace Sys2Proof.Machine

/-- One step: one instruction of the loop, or one wait for a command (log 1). -/
def step (s : State) : Host.Outcome State Fault Refusal := s.loopStep

/-- The state whose next step fetches and runs exactly the instruction of the word (log 18). -/
def State.withFetchWord (s : State) (nbits w : Nat) : State := s.placeInstruction nbits w

end Sys2Proof.Machine
end

