-- ==== Sys2Proof/Safety.lean ====
section
/-! DEFINITION. The terms the statements use: the architectural part of a state, what one machine cycle leaves, and the
invariant of the machine. -/

namespace Sys2Proof.Machine

/-! ## The architectural part -/

/-- A state less what passing time alone changes: LATCH, IR, CC, MCI, W, Z, the diff record, the trace, the display and
its inputs, and the count of free values. Everything else is compared: every register with its "unspecified" mark, every
flag, INTE, EIP, HALT, all of memory, the mapping, ROM_MODE, FAULT, the loop, the History Engine, the queues, the I/O
state, the parameters. -/
def State.arch (s : State) : State :=
  { s with
    cpu := { s.cpu with latch := false, ir := 0, cc := 0 }
    mci := 0, w := 0, z := 0, diff := DiffRecord.empty, trace := [], disp := Display.powerOn, displayIn := [], draws := 0 }

/-- The state after `n` more instruction bytes were fetched, as far as `arch` shows: PC moves on. -/
def State.pcOn (s : State) (n : Nat) : State := { s with cpu := { s.cpu with pc := s.cpu.pc + BitVec.ofNat 16 n } }


/-- Every physical byte but those at the addresses listed reads as before. -/
def SameBytesExcept (s t : State) (pas : List Nat) : Prop :=
  ∀ pa, pa ∉ pas → t.ram.read pa = s.ram.read pa

/-- The machine-cycle indices of a trace's audio clocks: the MCI of each machine cycle in the order they ran
(55_orchestrator.md R751). -/
def cycleIndices (trace : List (BitVec 4 × BusEvent)) : List Nat :=
  trace.filterMap fun e =>
    match e.2 with
    | .audioClock _ _ => some e.1.toNat
    | _ => none

/-- The events of a trace other than the audio clocks, with their machine-cycle indices: the bus schedule
(50_sequencer.md R702). -/
def busEvents (trace : List (BitVec 4 × BusEvent)) : List (Nat × BusEvent) :=
  trace.filterMap fun e =>
    match e.2 with
    | .audioClock _ _ => none
    | v => some (e.1.toNat, v)

/-- The instruction bytes a trace shows fetched, in order. -/
def fetchedBytes (trace : List (BitVec 4 × BusEvent)) : List Byte :=
  trace.filterMap fun e =>
    match e.2 with
    | .fetch _ _ v => some v
    | _ => none

/-- The data reads a trace shows, as physical address and value, in order. -/
def dataReads (trace : List (BitVec 4 × BusEvent)) : List (Nat × Byte) :=
  trace.filterMap fun e =>
    match e.2 with
    | .read _ _ pa v => some (pa, v)
    | _ => none

/-- The data writes a trace shows, as physical address and value, in order. -/
def dataWrites (trace : List (BitVec 4 × BusEvent)) : List (Nat × Byte) :=
  trace.filterMap fun e =>
    match e.2 with
    | .write _ _ pa v => some (pa, v)
    | _ => none

/-- `i` completes from `s`: exec answers a next state whose architectural part is that of `u`, and, when the bus
schedule fits in MC, its bus events after the opcode fetch are `ev`, each at its machine-cycle index
(50_sequencer.md R702). -/
def Completes (i : Instr) (s u : State) (ev : List (Nat × BusEvent)) : Prop :=
  ∃ t, exec i s = .next t ∧ t.arch = u.arch ∧
    (wellFormedMc s.params.mc = true → busEvents t.trace = busEvents s.trace ++ ev)

/-- The fetch of an instruction byte at logical address `a` (00_scope.md R13). -/
def State.fetchAt (s : State) (a : Word) (v : Byte) : BusEvent := .fetch a (s.translate a .normal) v

/-- A data read of a byte (00_scope.md R13). -/
def State.readAt (s : State) (a : Word) (space : Space) : BusEvent :=
  .read a space (s.translate a space) (s.readByte a space)

/-- A data write of a byte (00_scope.md R13). -/
def State.writeAt (s : State) (a : Word) (space : Space) (v : Byte) : BusEvent :=
  .write a space (s.translate a space) v

/-! ## What each instruction may change

`Shape` groups the 256 instructions by what they do, so that a statement about all of them is written once for each
group. -/

/-- What an instruction does, with its operands; a duplicate has its twin's shape (45_undocumented.md). -/
inductive Shape where
  | mov (dst src : Reg)
  | movFromM (dst : Reg)
  | movToM (src : Reg)
  | mvi (dst : Reg) (v : Byte)
  | mviM (v : Byte)
  | lxi (p : Pair) (v : Word)
  | lda (v : Word)
  | sta (v : Word)
  | lhld (v : Word)
  | shld (v : Word)
  | ldax (p : Pair)
  | stax (p : Pair)
  | xchg
  | alu (op : AluOp) (src : Reg)
  | aluM (op : AluOp)
  | aluImm (op : AluOp) (v : Byte)
  | inr (dst : Reg)
  | dcr (dst : Reg)
  | inrM
  | dcrM
  | inx (p : Pair)
  | dcx (p : Pair)
  | dad (p : Pair)
  | daa
  | rlc
  | rrc
  | ral
  | rar
  | cma
  | cmc
  | stc
  | jmp (v : Word)
  | jcc (cond : Cond) (v : Word)
  | call (v : Word)
  | ccc (cond : Cond) (v : Word)
  | ret
  | rcc (cond : Cond)
  | rst (n : Fin 8)
  | pchl
  | push (p : Pair)
  | pushPsw
  | pop (p : Pair)
  | popPsw
  | xthl
  | sphl
  | inPort (port : Byte)
  | outPort (port : Byte)
  | ei
  | di
  | hlt
  | nop
  deriving DecidableEq, Repr

/-- The shape of an instruction (files 40 to 45). -/
def shapeOf : Instr → Shape
  | .nop => .nop
  | .lxiB v => .lxi .bc v
  | .staxB => .stax .bc
  | .inxB => .inx .bc
  | .inrB => .inr .b
  | .dcrB => .dcr .b
  | .mviB v => .mvi .b v
  | .rlc => .rlc
  | .nop08 => .nop
  | .dadB => .dad .bc
  | .ldaxB => .ldax .bc
  | .dcxB => .dcx .bc
  | .inrC => .inr .c
  | .dcrC => .dcr .c
  | .mviC v => .mvi .c v
  | .rrc => .rrc
  | .nop10 => .nop
  | .lxiD v => .lxi .de v
  | .staxD => .stax .de
  | .inxD => .inx .de
  | .inrD => .inr .d
  | .dcrD => .dcr .d
  | .mviD v => .mvi .d v
  | .ral => .ral
  | .nop18 => .nop
  | .dadD => .dad .de
  | .ldaxD => .ldax .de
  | .dcxD => .dcx .de
  | .inrE => .inr .e
  | .dcrE => .dcr .e
  | .mviE v => .mvi .e v
  | .rar => .rar
  | .nop20 => .nop
  | .lxiH v => .lxi .hl v
  | .shld v => .shld v
  | .inxH => .inx .hl
  | .inrH => .inr .h
  | .dcrH => .dcr .h
  | .mviH v => .mvi .h v
  | .daa => .daa
  | .nop28 => .nop
  | .dadH => .dad .hl
  | .lhld v => .lhld v
  | .dcxH => .dcx .hl
  | .inrL => .inr .l
  | .dcrL => .dcr .l
  | .mviL v => .mvi .l v
  | .cma => .cma
  | .nop30 => .nop
  | .lxiSp v => .lxi .sp v
  | .sta v => .sta v
  | .inxSp => .inx .sp
  | .inrM => .inrM
  | .dcrM => .dcrM
  | .mviM v => .mviM v
  | .stc => .stc
  | .nop38 => .nop
  | .dadSp => .dad .sp
  | .lda v => .lda v
  | .dcxSp => .dcx .sp
  | .inrA => .inr .a
  | .dcrA => .dcr .a
  | .mviA v => .mvi .a v
  | .cmc => .cmc
  | .movBB => .mov .b .b
  | .movBC => .mov .b .c
  | .movBD => .mov .b .d
  | .movBE => .mov .b .e
  | .movBH => .mov .b .h
  | .movBL => .mov .b .l
  | .movBM => .movFromM .b
  | .movBA => .mov .b .a
  | .movCB => .mov .c .b
  | .movCC => .mov .c .c
  | .movCD => .mov .c .d
  | .movCE => .mov .c .e
  | .movCH => .mov .c .h
  | .movCL => .mov .c .l
  | .movCM => .movFromM .c
  | .movCA => .mov .c .a
  | .movDB => .mov .d .b
  | .movDC => .mov .d .c
  | .movDD => .mov .d .d
  | .movDE => .mov .d .e
  | .movDH => .mov .d .h
  | .movDL => .mov .d .l
  | .movDM => .movFromM .d
  | .movDA => .mov .d .a
  | .movEB => .mov .e .b
  | .movEC => .mov .e .c
  | .movED => .mov .e .d
  | .movEE => .mov .e .e
  | .movEH => .mov .e .h
  | .movEL => .mov .e .l
  | .movEM => .movFromM .e
  | .movEA => .mov .e .a
  | .movHB => .mov .h .b
  | .movHC => .mov .h .c
  | .movHD => .mov .h .d
  | .movHE => .mov .h .e
  | .movHH => .mov .h .h
  | .movHL => .mov .h .l
  | .movHM => .movFromM .h
  | .movHA => .mov .h .a
  | .movLB => .mov .l .b
  | .movLC => .mov .l .c
  | .movLD => .mov .l .d
  | .movLE => .mov .l .e
  | .movLH => .mov .l .h
  | .movLL => .mov .l .l
  | .movLM => .movFromM .l
  | .movLA => .mov .l .a
  | .movMB => .movToM .b
  | .movMC => .movToM .c
  | .movMD => .movToM .d
  | .movME => .movToM .e
  | .movMH => .movToM .h
  | .movML => .movToM .l
  | .hlt => .hlt
  | .movMA => .movToM .a
  | .movAB => .mov .a .b
  | .movAC => .mov .a .c
  | .movAD => .mov .a .d
  | .movAE => .mov .a .e
  | .movAH => .mov .a .h
  | .movAL => .mov .a .l
  | .movAM => .movFromM .a
  | .movAA => .mov .a .a
  | .addB => .alu .add .b
  | .addC => .alu .add .c
  | .addD => .alu .add .d
  | .addE => .alu .add .e
  | .addH => .alu .add .h
  | .addL => .alu .add .l
  | .addM => .aluM .add
  | .addA => .alu .add .a
  | .adcB => .alu .adc .b
  | .adcC => .alu .adc .c
  | .adcD => .alu .adc .d
  | .adcE => .alu .adc .e
  | .adcH => .alu .adc .h
  | .adcL => .alu .adc .l
  | .adcM => .aluM .adc
  | .adcA => .alu .adc .a
  | .subB => .alu .sub .b
  | .subC => .alu .sub .c
  | .subD => .alu .sub .d
  | .subE => .alu .sub .e
  | .subH => .alu .sub .h
  | .subL => .alu .sub .l
  | .subM => .aluM .sub
  | .subA => .alu .sub .a
  | .sbbB => .alu .sbb .b
  | .sbbC => .alu .sbb .c
  | .sbbD => .alu .sbb .d
  | .sbbE => .alu .sbb .e
  | .sbbH => .alu .sbb .h
  | .sbbL => .alu .sbb .l
  | .sbbM => .aluM .sbb
  | .sbbA => .alu .sbb .a
  | .anaB => .alu .ana .b
  | .anaC => .alu .ana .c
  | .anaD => .alu .ana .d
  | .anaE => .alu .ana .e
  | .anaH => .alu .ana .h
  | .anaL => .alu .ana .l
  | .anaM => .aluM .ana
  | .anaA => .alu .ana .a
  | .xraB => .alu .xra .b
  | .xraC => .alu .xra .c
  | .xraD => .alu .xra .d
  | .xraE => .alu .xra .e
  | .xraH => .alu .xra .h
  | .xraL => .alu .xra .l
  | .xraM => .aluM .xra
  | .xraA => .alu .xra .a
  | .oraB => .alu .ora .b
  | .oraC => .alu .ora .c
  | .oraD => .alu .ora .d
  | .oraE => .alu .ora .e
  | .oraH => .alu .ora .h
  | .oraL => .alu .ora .l
  | .oraM => .aluM .ora
  | .oraA => .alu .ora .a
  | .cmpB => .alu .cmp .b
  | .cmpC => .alu .cmp .c
  | .cmpD => .alu .cmp .d
  | .cmpE => .alu .cmp .e
  | .cmpH => .alu .cmp .h
  | .cmpL => .alu .cmp .l
  | .cmpM => .aluM .cmp
  | .cmpA => .alu .cmp .a
  | .rnz => .rcc .nz
  | .popB => .pop .bc
  | .jnz v => .jcc .nz v
  | .jmp v => .jmp v
  | .cnz v => .ccc .nz v
  | .pushB => .push .bc
  | .adi v => .aluImm .add v
  | .rst0 => .rst 0
  | .rz => .rcc .z
  | .ret => .ret
  | .jz v => .jcc .z v
  | .jmpCB v => .jmp v
  | .cz v => .ccc .z v
  | .call v => .call v
  | .aci v => .aluImm .adc v
  | .rst1 => .rst 1
  | .rnc => .rcc .nc
  | .popD => .pop .de
  | .jnc v => .jcc .nc v
  | .outPort v => .outPort v
  | .cnc v => .ccc .nc v
  | .pushD => .push .de
  | .sui v => .aluImm .sub v
  | .rst2 => .rst 2
  | .rc => .rcc .c
  | .retD9 => .ret
  | .jc v => .jcc .c v
  | .inPort v => .inPort v
  | .cc v => .ccc .c v
  | .callDD v => .call v
  | .sbi v => .aluImm .sbb v
  | .rst3 => .rst 3
  | .rpo => .rcc .po
  | .popH => .pop .hl
  | .jpo v => .jcc .po v
  | .xthl => .xthl
  | .cpo v => .ccc .po v
  | .pushH => .push .hl
  | .ani v => .aluImm .ana v
  | .rst4 => .rst 4
  | .rpe => .rcc .pe
  | .pchl => .pchl
  | .jpe v => .jcc .pe v
  | .xchg => .xchg
  | .cpe v => .ccc .pe v
  | .callED v => .call v
  | .xri v => .aluImm .xra v
  | .rst5 => .rst 5
  | .rp => .rcc .p
  | .popPsw => .popPsw
  | .jp v => .jcc .p v
  | .di => .di
  | .cp v => .ccc .p v
  | .pushPsw => .pushPsw
  | .ori v => .aluImm .ora v
  | .rst6 => .rst 6
  | .rm => .rcc .m
  | .sphl => .sphl
  | .jm v => .jcc .m v
  | .ei => .ei
  | .cm v => .ccc .m v
  | .callFD v => .call v
  | .cpi v => .aluImm .cmp v
  | .rst7 => .rst 7

/-- The two registers of a pair; SP is none of the numbered registers (30_encoding.md R301, R302). -/
def pairRegs : Pair → List Reg
  | .bc => [.b, .c]
  | .de => [.d, .e]
  | .hl => [.h, .l]
  | .sp => []

/-- The data registers an instruction writes (files 40 to 45). -/
def writtenRegs : Shape → List Reg
  | .mov dst _ => [dst]
  | .movFromM dst => [dst]
  | .movToM _ => []
  | .mvi dst _ => [dst]
  | .mviM _ => []
  | .lxi p _ => pairRegs p
  | .lda _ => [.a]
  | .sta _ => []
  | .lhld _ => [.h, .l]
  | .shld _ => []
  | .ldax _ => [.a]
  | .stax _ => []
  | .xchg => [.h, .l, .d, .e]
  | .alu op _ => if op = .cmp then [] else [.a]
  | .aluM op => if op = .cmp then [] else [.a]
  | .aluImm op _ => if op = .cmp then [] else [.a]
  | .inr dst => [dst]
  | .dcr dst => [dst]
  | .inrM => []
  | .dcrM => []
  | .inx p => pairRegs p
  | .dcx p => pairRegs p
  | .dad _ => [.h, .l]
  | .daa => [.a]
  | .rlc => [.a]
  | .rrc => [.a]
  | .ral => [.a]
  | .rar => [.a]
  | .cma => [.a]
  | .cmc => []
  | .stc => []
  | .jmp _ => []
  | .jcc _ _ => []
  | .call _ => []
  | .ccc _ _ => []
  | .ret => []
  | .rcc _ => []
  | .rst _ => []
  | .pchl => []
  | .push _ => []
  | .pushPsw => []
  | .pop p => pairRegs p
  | .popPsw => [.a]
  | .xthl => [.h, .l]
  | .sphl => []
  | .inPort _ => [.a]
  | .outPort _ => []
  | .ei => []
  | .di => []
  | .hlt => []
  | .nop => []

/-- Whether an instruction writes SP, from the flags as they stand when it starts (10_state.md R104). -/
def writesSp (i : Shape) (f : Flags) : Bool :=
  match i with
  | .mov _ _ => false
  | .movFromM _ => false
  | .movToM _ => false
  | .mvi _ _ => false
  | .mviM _ => false
  | .lxi p _ => decide (p = .sp)
  | .lda _ => false
  | .sta _ => false
  | .lhld _ => false
  | .shld _ => false
  | .ldax _ => false
  | .stax _ => false
  | .xchg => false
  | .alu _ _ => false
  | .aluM _ => false
  | .aluImm _ _ => false
  | .inr _ => false
  | .dcr _ => false
  | .inrM => false
  | .dcrM => false
  | .inx p => decide (p = .sp)
  | .dcx p => decide (p = .sp)
  | .dad _ => false
  | .daa => false
  | .rlc => false
  | .rrc => false
  | .ral => false
  | .rar => false
  | .cma => false
  | .cmc => false
  | .stc => false
  | .jmp _ => false
  | .jcc _ _ => false
  | .call _ => true
  | .ccc cond _ => condHolds cond f
  | .ret => true
  | .rcc cond => condHolds cond f
  | .rst _ => true
  | .pchl => false
  | .push _ => true
  | .pushPsw => true
  | .pop _ => true
  | .popPsw => true
  | .xthl => false
  | .sphl => true
  | .inPort _ => false
  | .outPort _ => false
  | .ei => false
  | .di => false
  | .hlt => false
  | .nop => false

/-- Whether an instruction writes S, Z, AC and P (10_state.md R108). -/
def writesSzap : Shape → Bool
  | .alu _ _ => true
  | .aluM _ => true
  | .aluImm _ _ => true
  | .inr _ => true
  | .dcr _ => true
  | .inrM => true
  | .dcrM => true
  | .daa => true
  | .popPsw => true
  | _ => false

/-- Whether an instruction writes CY (10_state.md R108). -/
def writesCy : Shape → Bool
  | .alu _ _ => true
  | .aluM _ => true
  | .aluImm _ _ => true
  | .dad _ => true
  | .daa => true
  | .rlc => true
  | .rrc => true
  | .ral => true
  | .rar => true
  | .cmc => true
  | .stc => true
  | .popPsw => true
  | _ => false

/-- Whether a data register is still unspecified (10_state.md R127). -/
def Unspecified.of (u : Unspecified) : Reg → Bool
  | .a => u.a
  | .b => u.b
  | .c => u.c
  | .d => u.d
  | .e => u.e
  | .h => u.h
  | .l => u.l

/-- The physical addresses of the two bytes a push writes, the high byte's first (10_state.md R104, 20_memory.md R203). -/
def State.pushAddrs (s : State) : List Nat :=
  [s.translate (s.cpu.sp - 1) .stack, s.translate (s.cpu.sp - 1 - 1) .stack]

/-- The physical addresses an instruction stores to, in the order it stores, from the state it starts in
(files 40 to 45, 20_memory.md R203). -/
def storedAddrs (i : Shape) (s : State) : List Nat :=
  match i with
  | .movToM _ => [s.translate s.hl .normal]
  | .mviM _ => [s.translate s.hl .normal]
  | .sta v => [s.translate v .normal]
  | .shld v => [s.translate v .normal, s.translate (v + 1) .normal]
  | .stax p => [s.translate (s.pair p) .normal]
  | .inrM => [s.translate s.hl .normal]
  | .dcrM => [s.translate s.hl .normal]
  | .call _ => s.pushAddrs
  | .ccc cond _ => if condHolds cond s.cpu.flags then s.pushAddrs else []
  | .rst _ => s.pushAddrs
  | .push _ => s.pushAddrs
  | .pushPsw => s.pushAddrs
  | .xthl => [s.translate (s.cpu.sp + 1) .stack, s.translate s.cpu.sp .stack]
  | _ => []

/-! ## The display over machine cycles -/

/-- The display's states over machine cycles that start in state `p` with the inputs `given`: each the input of its
cycle, or free values where none is given (55_orchestrator.md R752, log 5). -/
def DisplayRun : List Display → Display → List Display → Prop
  | _, _, [] => True
  | g :: given, _, d :: ds => d = g ∧ DisplayRun given d ds
  | [], p, d :: ds => (∃ n, d = freeDisplay p n) ∧ DisplayRun [] d ds

/-! ## The invariant -/

/-- The History Engine's invariant (65_observer.md R850, R852, R857), with every recorded write inside physical memory
(R862). -/
structure HistoryWf (cap : Nat) (h : History) : Prop where
  count_pos : 1 ≤ h.count
  count_le  : h.count ≤ cap
  pos_lt    : h.pos < h.count
  wcur_lt   : h.wcur < cap
  live_pos  : h.live = true → h.pos + 1 = h.count
  away_snap : h.live = false → h.liveSnap.isSome = true
  in_range  : ∀ k ∈ h.checkpoints, ∀ w ∈ k.diffs, w.addr < physicalBytes

/-- The bounds of the diff record (10_state.md R122), its writes inside physical memory. -/
structure DiffWf (d : DiffRecord) : Prop where
  bytes_le  : d.bytes.length ≤ 3
  reads_le  : d.reads.length ≤ 2
  writes_le : d.writes.length ≤ 2
  in_range  : ∀ w ∈ d.writes, w.addr < physicalBytes

/-- The invariant every step keeps: memory in canonical form, the parameters well formed, MCI 0 between instructions
(10_state.md R113), a bounded diff record (R122), a well-formed History Engine (65_observer.md R852), no fault while
Running (55_orchestrator.md R756), a frame run only while Stopped with no fault (R759), and no running away from the
live state (65_observer.md R859). -/
structure State.Inv (s : State) : Prop where
  ram_wf      : s.ram.wf
  params_wf   : s.params.wellFormed = true
  mci_zero    : s.mci = 0
  diff_wf     : DiffWf s.diff
  history_wf  : HistoryWf s.params.historyCapacity s.hist
  running_ok  : s.loop = .running → s.fault = .none
  frame_ok    : s.frameRun = true → s.loop = .stopped ∧ s.fault = .none
  live_to_run : s.loop = .running ∨ s.frameRun = true → s.hist.live = true

/-- A diff list that takes memory `m` to `m'`: each write's byte before is what memory holds then
(65_observer.md R851, R852). -/
def DiffChain : List WriteDiff → Memory → Memory → Prop
  | [], m, m' => m = m'
  | w :: ws, m, m' => m.read w.addr = w.before ∧ DiffChain ws (m.write w.addr w.after) m'

/-- What a position of the history means for memory (65_observer.md R852): `mems i` is memory at the start of frame i;
each checkpoint's list takes the memory of its frame to that of the next; memory is that of the newest frame with its
list applied while live, and that of POS while not, when the machine is also the snapshot of POS. -/
def State.HistoryExplains (s : State) : Prop :=
  (∃ mems : Nat → Memory, (mems 0).wf ∧
    (∀ i k, s.hist.checkpoints[i]? = some k → DiffChain k.diffs (mems i) (mems (i + 1))) ∧
    s.ram = mems (if s.hist.live = true then s.hist.count else s.hist.pos)) ∧
  (s.hist.live = false → s.hist.checkpoints[s.hist.pos]?.map Checkpoint.snap = some s.snapshot)

end Sys2Proof.Machine
end

