-- ==== Sys2Proof/Certificates/Slice0/Obligations.lean ====
section
/-! DEFINITION. The statements for the provers, each with the rule of spec/ it formalises. A statement marked derived in
OBLIGATIONS.json rests on rules the spec marks as derived or decided, or on a log entry it names. -/

open Sys2Proof Sys2Proof.Machine

/-- Decoding an encoded instruction gives it back. Every term of `Instr` is well formed, so the statement is about
all of them (30_encoding.md R308, R654). -/
def Obligations.DecodeInvertsEncode : Prop :=
  ∀ (i : Instr) (rest : List Byte), decode (encode i ++ rest) = .ok (i, rest)

/-- Every opcode byte decodes, and to an instruction whose encoding is the bytes read. 30_encoding.md R300, R310.
The table of lengths is R311, which the spec marks as derived. -/
def Obligations.EveryByteDecodes : Prop :=
  ∀ op b1 b2 : Byte, ∃ i rest, decode [op, b1, b2] = .ok (i, rest) ∧ encode i ++ rest = [op, b1, b2] ∧
    (encode i).length = opcodeLength op ∧ 1 ≤ opcodeLength op ∧ opcodeLength op ≤ 3

/-- The operand codes of the opcode byte. 30_encoding.md R301 to R304. Each code is read off the opcode byte that
carries it. -/
def Obligations.OperandCodes : Prop :=
  (∀ dst src : Reg, encode (.mov dst src) = [0b01#2 ++ regCode dst ++ regCode src]) ∧
  (∀ r : Reg, encode (.movFromM r) = [0b01#2 ++ regCode r ++ 0b110#3] ∧
    encode (.movToM r) = [0b01#2 ++ 0b110#3 ++ regCode r]) ∧
  [Reg.b, .c, .d, .e, .h, .l, .a].map regCode = [0, 1, 2, 3, 4, 5, 7] ∧
  (∀ p : Pair, encode (.inx p) = [0b00#2 ++ pairCode p ++ 0b0011#4] ∧
    encode (.dad p) = [0b00#2 ++ pairCode p ++ 0b1001#4]) ∧
  [Pair.bc, .de, .hl, .sp].map pairCode = [0, 1, 2, 3] ∧
  [Instr.pushB, .pushD, .pushH, .pushPsw].map encode =
    [[0b11#2 ++ 0#2 ++ 0b0101#4], [0b11#2 ++ 1#2 ++ 0b0101#4], [0b11#2 ++ 2#2 ++ 0b0101#4], [0b11#2 ++ 3#2 ++ 0b0101#4]] ∧
  [Instr.popB, .popD, .popH, .popPsw].map encode =
    [[0b11#2 ++ 0#2 ++ 0b0001#4], [0b11#2 ++ 1#2 ++ 0b0001#4], [0b11#2 ++ 2#2 ++ 0b0001#4], [0b11#2 ++ 3#2 ++ 0b0001#4]] ∧
  (∀ a : Word, [Instr.staxB, .staxD, .shld a, .sta a].map opcodeOf =
    [0b00#2 ++ 0#2 ++ 0b0010#4, 0b00#2 ++ 1#2 ++ 0b0010#4, 0b00#2 ++ 2#2 ++ 0b0010#4, 0b00#2 ++ 3#2 ++ 0b0010#4]) ∧
  (∀ a : Word, [Instr.ldaxB, .ldaxD, .lhld a, .lda a].map opcodeOf =
    [0b00#2 ++ 0#2 ++ 0b1010#4, 0b00#2 ++ 1#2 ++ 0b1010#4, 0b00#2 ++ 2#2 ++ 0b1010#4, 0b00#2 ++ 3#2 ++ 0b1010#4]) ∧
  (∀ (cond : Cond) (v : Word), opcodeOf (.jcc cond v) = 0b11#2 ++ condCode cond ++ 0b010#3 ∧
    opcodeOf (.ccc cond v) = 0b11#2 ++ condCode cond ++ 0b100#3 ∧
    opcodeOf (.rcc cond) = 0b11#2 ++ condCode cond ++ 0b000#3) ∧
  [Cond.nz, .z, .nc, .c, .po, .pe, .p, .m].map condCode = [0, 1, 2, 3, 4, 5, 6, 7] ∧
  (∀ (op : AluOp) (r : Reg) (v : Byte), encode (.aluReg op r) = [0b10#2 ++ aluCode op ++ regCode r] ∧
    encode (.aluM op) = [0b10#2 ++ aluCode op ++ 0b110#3] ∧ encode (.aluImm op v) = [0b11#2 ++ aluCode op ++ 0b110#3, v]) ∧
  [AluOp.add, .adc, .sub, .sbb, .ana, .xra, .ora, .cmp].map aluCode = [0, 1, 2, 3, 4, 5, 6, 7]

/-- Words written out from the opcode map decode to their instructions. The words of 30_encoding.md R308 and of the
examples of files 40 to 45. -/
def Obligations.SampleWordsDecode : Prop :=
  decode [0x78] = .ok (.movAB, []) ∧
  decode [0x21, 0x00, 0x40] = .ok (.lxiH 0x4000, []) ∧
  decode [0x36, 0xAA] = .ok (.mviM 0xAA, []) ∧
  decode [0x86] = .ok (.addM, []) ∧
  decode [0xFE, 0x40] = .ok (.cpi 0x40, []) ∧
  decode [0x27] = .ok (.daa, []) ∧
  decode [0xC2, 0x00, 0x20] = .ok (.jnz 0x2000, []) ∧
  decode [0xED, 0x00, 0x20] = .ok (.callED 0x2000, []) ∧
  decode [0xDF] = .ok (.rst3, []) ∧
  decode [0xF5] = .ok (.pushPsw, []) ∧
  decode [0xDB, 0x10] = .ok (.inPort 0x10, []) ∧
  decode [0x76] = .ok (.hlt, []) ∧
  decode [0x20] = .ok (.nop20, [])

/-- Each undocumented opcode has its twin's length, operands, effect and machine-cycle count. 30_encoding.md R309.
-/
def Obligations.UndocumentedOpcodesDuplicate : Prop :=
  ∀ p ∈ [((0x08 : Byte), (0x00 : Byte)), (0x10, 0x00), (0x18, 0x00), (0x20, 0x00), (0x28, 0x00), (0x30, 0x00), (0x38, 0x00),
    (0xCB, 0xC3), (0xD9, 0xC9), (0xDD, 0xCD), (0xED, 0xCD), (0xFD, 0xCD)], ∀ b1 b2 : Byte,
  ∃ i j rest, decode [p.1, b1, b2] = .ok (i, rest) ∧ decode [p.2, b1, b2] = .ok (j, rest) ∧
    encode i = p.1 :: (encode j).tail ∧ encode j = p.2 :: (encode j).tail ∧
    ∀ s : State, ∃ t u, exec i s = .next t ∧ exec j s = .next u ∧ t.arch = u.arch ∧
      (s.params.wellFormed = true →
        mcOf s.params.mc p.1 = mcOf s.params.mc p.2 ∧ t.cpu.cc = u.cpu.cc ∧ busEvents t.trace = busEvents u.trace)

/-- Seven data registers, none hard-wired; a pair is its two registers, the first named high. 10_state.md R100,
R101. The mark that CPU reset leaves on a register (R127) is not part of its value. -/
def Obligations.RegistersAndPairs : Prop :=
  (∀ (s : State) (r q : Reg) (v : Byte), (s.setReg r v).reg q = (if q = r then v else s.reg q) ∧
    (s.setReg r v).cpu.sp = s.cpu.sp ∧ (s.setReg r v).cpu.pc = s.cpu.pc ∧ (s.setReg r v).cpu.flags = s.cpu.flags ∧
    (s.setReg r v).ram = s.ram) ∧
  (∀ s : State, s.pair .bc = mkWord (s.reg .b) (s.reg .c) ∧ s.pair .de = mkWord (s.reg .d) (s.reg .e) ∧
    s.pair .hl = mkWord (s.reg .h) (s.reg .l) ∧ s.pair .sp = s.cpu.sp) ∧
  (∀ hi lo : Byte, (mkWord hi lo).toNat = 256 * hi.toNat + lo.toNat) ∧
  (∀ (s : State) (p q : Pair) (v : Word), (s.setPair p v).pair q = if q = p then v else s.pair q) ∧
  (∀ (s : State) (v : Word), (s.setPair .bc v).reg .b = hiByte v ∧ (s.setPair .bc v).reg .c = loByte v ∧
    (s.setPair .de v).reg .d = hiByte v ∧ (s.setPair .de v).reg .e = loByte v ∧
    (s.setPair .hl v).reg .h = hiByte v ∧ (s.setPair .hl v).reg .l = loByte v ∧ (s.setPair .sp v).cpu.sp = v) ∧
  (∀ (s : State) (v : Byte), (s.setReg .b v).pair .bc = mkWord v (s.reg .c) ∧
    (s.setReg .c v).pair .bc = mkWord (s.reg .b) v)

/-- The flags byte: its bit positions, its fixed bits, and what a write to it keeps. 10_state.md R106, R107. -/
def Obligations.FlagsByte : Prop :=
  (∀ f : Flags, f.pack.getLsbD 7 = f.s ∧ f.pack.getLsbD 6 = f.z ∧ f.pack.getLsbD 5 = false ∧ f.pack.getLsbD 4 = f.ac ∧
    f.pack.getLsbD 3 = false ∧ f.pack.getLsbD 2 = f.p ∧ f.pack.getLsbD 1 = true ∧ f.pack.getLsbD 0 = f.cy ∧
    Flags.unpack f.pack = f) ∧
  ∀ v : Byte, Flags.unpack v = { s := v.getLsbD 7, z := v.getLsbD 6, ac := v.getLsbD 4, p := v.getLsbD 2, cy := v.getLsbD 0 } ∧
    (Flags.unpack v).pack = v &&& 0xD7 ||| 0x02

/-- ADD8: the 8-bit sum, CY and AC from (a ^ b ^ s), S, Z and P from the result. 41_arithmetic.md R450, R452. -/
def Obligations.AdditionLaw : Prop :=
  (∀ (a b : Byte) (cin : Bool),
    let s : BitVec 9 := a.setWidth 9 + b.setWidth 9 + (BitVec.ofBool cin).setWidth 9
    let x : BitVec 9 := a.setWidth 9 ^^^ b.setWidth 9 ^^^ s
    let r := add8 a b cin
    s.toNat = a.toNat + b.toNat + cin.toNat ∧ r.res.toNat = (a.toNat + b.toNat + cin.toNat) % 256 ∧
    r.flags = szp r.res (x.getLsbD 4) (x.getLsbD 8) ∧
    (r.flags.cy = true ↔ 256 ≤ a.toNat + b.toNat + cin.toNat) ∧
    (r.flags.ac = true ↔ 16 ≤ a.toNat % 16 + b.toNat % 16 + cin.toNat)) ∧
  ∀ (v : Byte) (ac cy : Bool), (szp v ac cy).ac = ac ∧ (szp v ac cy).cy = cy ∧ ((szp v ac cy).z = true ↔ v = 0) ∧
    ((szp v ac cy).s = true ↔ 128 ≤ v.toNat) ∧
    ((szp v ac cy).p = true ↔ (List.range 8).countP (fun k => v.getLsbD k) % 2 = 0)

/-- SUB8: one's-complement addition with CY inverted and AC not. 41_arithmetic.md R451; its second paragraph is
marked as derived from R450, and conflict C2 says the algorithm wins. -/
def Obligations.SubtractionLaw : Prop :=
  ∀ (a b : Byte) (bin : Bool),
    let r := sub8 a b bin
    r.res = (add8 a (~~~b) (!bin)).res ∧
    r.flags = { (add8 a (~~~b) (!bin)).flags with cy := !(add8 a (~~~b) (!bin)).flags.cy } ∧
    r.res.toNat = (256 + a.toNat - b.toNat + 256 - bin.toNat) % 256 ∧
    (r.flags.cy = true ↔ a.toNat < b.toNat + bin.toNat) ∧
    (r.flags.ac = true ↔ 16 ≤ a.toNat % 16 + (255 - b.toNat) % 16 + (1 - bin.toNat))

/-- ADD, ADC, SUB, SBB of a register or of memory: encoding, result, flags, bus events. 41_arithmetic.md R453 to
R456 with R449. Bus events stand at the indices of R702, the spec's decision D19, whenever MC is well formed. -/
def Obligations.AddAndSubtract : Prop :=
  ∀ (s : State) (r : Reg),
    let a := s.cpu.a
    let m := s.readByte s.hl .normal
    let rd := [(1, s.readAt s.hl .normal)]
    let cy := s.cpu.flags.cy
    let put (x : Alu) : State := (s.setFlags x.flags).setReg .a x.res
    (encode (.aluReg .add r) = [0b10000#5 ++ regCode r] ∧ Completes (.aluReg .add r) s (put (add8 a (s.reg r) false)) []) ∧
    (encode .addM = [0x86] ∧ Completes .addM s (put (add8 a m false)) rd) ∧
    (encode (.aluReg .adc r) = [0b10001#5 ++ regCode r] ∧ Completes (.aluReg .adc r) s (put (add8 a (s.reg r) cy)) []) ∧
    (encode .adcM = [0x8E] ∧ Completes .adcM s (put (add8 a m cy)) rd) ∧
    (encode (.aluReg .sub r) = [0b10010#5 ++ regCode r] ∧ Completes (.aluReg .sub r) s (put (sub8 a (s.reg r) false)) []) ∧
    (encode .subM = [0x96] ∧ Completes .subM s (put (sub8 a m false)) rd) ∧
    (encode (.aluReg .sbb r) = [0b10011#5 ++ regCode r] ∧ Completes (.aluReg .sbb r) s (put (sub8 a (s.reg r) cy)) []) ∧
    (encode .sbbM = [0x9E] ∧ Completes .sbbM s (put (sub8 a m cy)) rd)

/-- ANA, XRA, ORA, CMP of a register or of memory: encoding, result, flags, bus events. 42_logical.md R500 to R503.
Bus events stand at the indices of R702, the spec's decision D19, whenever MC is well formed. -/
def Obligations.LogicAndCompare : Prop :=
  ∀ (s : State) (r : Reg),
    let a := s.cpu.a
    let m := s.readByte s.hl .normal
    let rd := [(1, s.readAt s.hl .normal)]
    let put (v : Byte) (ac : Bool) : State := (s.setFlags (szp v ac false)).setReg .a v
    (encode (.aluReg .ana r) = [0b10100#5 ++ regCode r] ∧
      Completes (.aluReg .ana r) s (put (a &&& s.reg r) ((a ||| s.reg r).getLsbD 3)) []) ∧
    (encode .anaM = [0xA6] ∧ Completes .anaM s (put (a &&& m) ((a ||| m).getLsbD 3)) rd) ∧
    (encode (.aluReg .xra r) = [0b10101#5 ++ regCode r] ∧ Completes (.aluReg .xra r) s (put (a ^^^ s.reg r) false) []) ∧
    (encode .xraM = [0xAE] ∧ Completes .xraM s (put (a ^^^ m) false) rd) ∧
    (encode (.aluReg .ora r) = [0b10110#5 ++ regCode r] ∧ Completes (.aluReg .ora r) s (put (a ||| s.reg r) false) []) ∧
    (encode .oraM = [0xB6] ∧ Completes .oraM s (put (a ||| m) false) rd) ∧
    (encode (.aluReg .cmp r) = [0b10111#5 ++ regCode r] ∧
      Completes (.aluReg .cmp r) s (s.setFlags (sub8 a (s.reg r) false).flags) []) ∧
    (encode .cmpM = [0xBE] ∧ Completes .cmpM s (s.setFlags (sub8 a m false).flags) rd)

/-- The eight ALU operations on A and an immediate byte. 41_arithmetic.md R457 to R460, 42_logical.md R504 to R507.
Bus events stand at the indices of R702, the spec's decision D19, whenever MC is well formed. -/
def Obligations.AluImmediate : Prop :=
  ∀ (s : State) (v : Byte),
    let t := s.pcOn 1
    let a := s.cpu.a
    let cy := s.cpu.flags.cy
    let put (x : Alu) : State := (t.setFlags x.flags).setReg .a x.res
    let ev := [(1, s.fetchAt s.cpu.pc v)]
    (encode (.adi v) = [0xC6, v] ∧ Completes (.adi v) s (put (add8 a v false)) ev) ∧
    (encode (.aci v) = [0xCE, v] ∧ Completes (.aci v) s (put (add8 a v cy)) ev) ∧
    (encode (.sui v) = [0xD6, v] ∧ Completes (.sui v) s (put (sub8 a v false)) ev) ∧
    (encode (.sbi v) = [0xDE, v] ∧ Completes (.sbi v) s (put (sub8 a v cy)) ev) ∧
    (encode (.ani v) = [0xE6, v] ∧
      Completes (.ani v) s (put ⟨a &&& v, szp (a &&& v) ((a ||| v).getLsbD 3) false⟩) ev) ∧
    (encode (.xri v) = [0xEE, v] ∧ Completes (.xri v) s (put ⟨a ^^^ v, szp (a ^^^ v) false false⟩) ev) ∧
    (encode (.ori v) = [0xF6, v] ∧ Completes (.ori v) s (put ⟨a ||| v, szp (a ||| v) false false⟩) ev) ∧
    (encode (.cpi v) = [0xFE, v] ∧ Completes (.cpi v) s (t.setFlags (sub8 a v false).flags) ev)

/-- MOV between registers, from memory and to memory. 40_data_transfer.md R400 to R402. Bus events stand at the
indices of R702, the spec's decision D19, whenever MC is well formed. -/
def Obligations.Move : Prop :=
  ∀ (s : State) (dst src : Reg),
    (encode (.mov dst src) = [0b01#2 ++ regCode dst ++ regCode src] ∧
      Completes (.mov dst src) s (s.setReg dst (s.reg src)) []) ∧
    (encode (.movFromM dst) = [0b01#2 ++ regCode dst ++ 0b110#3] ∧
      Completes (.movFromM dst) s (s.setReg dst (s.readByte s.hl .normal)) [(1, s.readAt s.hl .normal)]) ∧
    (encode (.movToM src) = [0b01110#5 ++ regCode src] ∧
      Completes (.movToM src) s (s.writeByte s.hl .normal (s.reg src)) [(1, s.writeAt s.hl .normal (s.reg src))])

/-- MVI to a register and to memory. 40_data_transfer.md R403, R404. Bus events stand at the indices of R702, the
spec's decision D19, whenever MC is well formed. -/
def Obligations.MoveImmediate : Prop :=
  ∀ (s : State) (dst : Reg) (v : Byte),
    (encode (.mvi dst v) = [0b00#2 ++ regCode dst ++ 0b110#3, v] ∧
      Completes (.mvi dst v) s ((s.pcOn 1).setReg dst v) [(1, s.fetchAt s.cpu.pc v)]) ∧
    (encode (.mviM v) = [0x36, v] ∧
      Completes (.mviM v) s ((s.pcOn 1).writeByte s.hl .normal v)
        [(1, s.fetchAt s.cpu.pc v), (2, s.writeAt s.hl .normal v)])

/-- LXI loads a pair or SP with a 16-bit immediate, low byte first. 40_data_transfer.md R405. Bus events stand at
the indices of R702, the spec's decision D19, whenever MC is well formed. -/
def Obligations.LoadPairImmediate : Prop :=
  ∀ (s : State) (p : Pair) (v : Word),
    encode (.lxi p v) = [0b00#2 ++ pairCode p ++ 0b0001#4, loByte v, hiByte v] ∧
    Completes (.lxi p v) s ((s.pcOn 2).setPair p v)
      [(1, s.fetchAt s.cpu.pc (loByte v)), (2, s.fetchAt (s.cpu.pc + 1) (hiByte v))]

/-- LDA and STA at a direct address. 40_data_transfer.md R406, R407. Bus events stand at the indices of R702, the
spec's decision D19, whenever MC is well formed. -/
def Obligations.DirectAccumulator : Prop :=
  ∀ (s : State) (v : Word),
    let fetch2 := [(1, s.fetchAt s.cpu.pc (loByte v)), (2, s.fetchAt (s.cpu.pc + 1) (hiByte v))]
    (encode (.lda v) = [0x3A, loByte v, hiByte v] ∧
      Completes (.lda v) s ((s.pcOn 2).setReg .a (s.readByte v .normal)) (fetch2 ++ [(3, s.readAt v .normal)])) ∧
    (encode (.sta v) = [0x32, loByte v, hiByte v] ∧
      Completes (.sta v) s ((s.pcOn 2).writeByte v .normal s.cpu.a) (fetch2 ++ [(3, s.writeAt v .normal s.cpu.a)]))

/-- LHLD and SHLD: L at the address, H at the next, each translated on its own. 40_data_transfer.md R408, R409. Bus
events stand at the indices of R702, the spec's decision D19, whenever MC is well formed. -/
def Obligations.DirectPair : Prop :=
  ∀ (s : State) (v : Word),
    let fetch2 := [(1, s.fetchAt s.cpu.pc (loByte v)), (2, s.fetchAt (s.cpu.pc + 1) (hiByte v))]
    (encode (.lhld v) = [0x2A, loByte v, hiByte v] ∧
      Completes (.lhld v) s
        (((s.pcOn 2).setReg .l (s.readByte v .normal)).setReg .h (s.readByte (v + 1) .normal))
        (fetch2 ++ [(3, s.readAt v .normal), (4, s.readAt (v + 1) .normal)])) ∧
    (encode (.shld v) = [0x22, loByte v, hiByte v] ∧
      Completes (.shld v) s
        (((s.pcOn 2).writeByte v .normal s.cpu.l).writeByte (v + 1) .normal s.cpu.h)
        (fetch2 ++ [(3, s.writeAt v .normal s.cpu.l), (4, s.writeAt (v + 1) .normal s.cpu.h)]))

/-- LDAX and STAX through BC and DE. 40_data_transfer.md R410, R411. Bus events stand at the indices of R702, the
spec's decision D19, whenever MC is well formed. -/
def Obligations.IndirectAccumulator : Prop :=
  ∀ s : State,
    (encode .ldaxB = [0x0A] ∧ Completes .ldaxB s (s.setReg .a (s.readByte (s.pair .bc) .normal))
      [(1, s.readAt (s.pair .bc) .normal)]) ∧
    (encode .ldaxD = [0x1A] ∧ Completes .ldaxD s (s.setReg .a (s.readByte (s.pair .de) .normal))
      [(1, s.readAt (s.pair .de) .normal)]) ∧
    (encode .staxB = [0x02] ∧ Completes .staxB s (s.writeByte (s.pair .bc) .normal s.cpu.a)
      [(1, s.writeAt (s.pair .bc) .normal s.cpu.a)]) ∧
    (encode .staxD = [0x12] ∧ Completes .staxD s (s.writeByte (s.pair .de) .normal s.cpu.a)
      [(1, s.writeAt (s.pair .de) .normal s.cpu.a)])

/-- XCHG exchanges DE and HL, PCHL loads PC, SPHL loads SP. 40_data_transfer.md R412, 43_branch.md R558,
44_stack_io_control.md R605. -/
def Obligations.ExchangeAndHlTargets : Prop :=
  ∀ s : State,
    (encode .xchg = [0xEB] ∧ Completes .xchg s ((s.setPair .hl (s.pair .de)).setPair .de (s.pair .hl)) []) ∧
    (encode .pchl = [0xE9] ∧ Completes .pchl s (s.setPc (s.pair .hl)) []) ∧
    (encode .sphl = [0xF9] ∧ Completes .sphl s (s.setSp (s.pair .hl)) [])

/-- INR and DCR of a register and of memory: result, S Z AC P, CY kept. 41_arithmetic.md R461 to R464. Bus events
stand at the indices of R702, the spec's decision D19, whenever MC is well formed. -/
def Obligations.IncrementAndDecrement : Prop :=
  ∀ (s : State) (r : Reg),
    let up (v : Byte) : Flags := szp (v + 1) (decide ((v + 1).toNat % 16 = 0)) s.cpu.flags.cy
    let dn (v : Byte) : Flags := szp (v - 1) (decide ((v - 1).toNat % 16 ≠ 15)) s.cpu.flags.cy
    let m := s.readByte s.hl .normal
    (encode (.inr r) = [0b00#2 ++ regCode r ++ 0b100#3] ∧
      Completes (.inr r) s ((s.setFlagsKeepCy (up (s.reg r))).setReg r (s.reg r + 1)) []) ∧
    (encode .inrM = [0x34] ∧ Completes .inrM s ((s.setFlagsKeepCy (up m)).writeByte s.hl .normal (m + 1))
      [(1, s.readAt s.hl .normal), (2, s.writeAt s.hl .normal (m + 1))]) ∧
    (encode (.dcr r) = [0b00#2 ++ regCode r ++ 0b101#3] ∧
      Completes (.dcr r) s ((s.setFlagsKeepCy (dn (s.reg r))).setReg r (s.reg r - 1)) []) ∧
    (encode .dcrM = [0x35] ∧ Completes .dcrM s ((s.setFlagsKeepCy (dn m)).writeByte s.hl .normal (m - 1))
      [(1, s.readAt s.hl .normal), (2, s.writeAt s.hl .normal (m - 1))])

/-- INX and DCX of a pair or SP modulo 65536, no flag. 41_arithmetic.md R465, R466. -/
def Obligations.PairIncrementAndDecrement : Prop :=
  ∀ (s : State) (p : Pair),
    (encode (.inx p) = [0b00#2 ++ pairCode p ++ 0b0011#4] ∧ Completes (.inx p) s (s.setPair p (s.pair p + 1)) []) ∧
    (encode (.dcx p) = [0b00#2 ++ pairCode p ++ 0b1011#4] ∧ Completes (.dcx p) s (s.setPair p (s.pair p - 1)) [])

/-- DAD adds a pair to HL and writes CY alone. 41_arithmetic.md R467. -/
def Obligations.DoubleAdd : Prop :=
  ∀ (s : State) (p : Pair),
    encode (.dad p) = [0b00#2 ++ pairCode p ++ 0b1001#4] ∧
    Completes (.dad p) s
      ((s.setPair .hl (s.pair .hl + s.pair p)).setCy (decide (65536 ≤ (s.pair .hl).toNat + (s.pair p).toNat))) []

/-- DAA: the corrections 0x06 and 0x60, flags from the addition, CY never cleared. 41_arithmetic.md R468. The exact
conditions are the spec's, from general knowledge. -/
def Obligations.DecimalAdjust : Prop :=
  ∀ s : State,
    let a := s.cpu.a
    let lsb := a.toNat % 16
    let msb := a.toNat / 16
    let low : Bool := s.cpu.flags.ac || decide (9 < lsb)
    let high : Bool := s.cpu.flags.cy || decide (9 < msb ∨ 9 ≤ msb ∧ 9 < lsb)
    let r := add8 a ((if low then 0x06 else 0x00) + (if high then 0x60 else 0x00)) false
    encode .daa = [0x27] ∧ Completes .daa s ((s.setFlags { r.flags with cy := high }).setReg .a r.res) []

/-- RLC, RRC, RAL, RAR, CMA, CMC, STC: A and CY alone. 42_logical.md R508 to R514. -/
def Obligations.RotatesComplementsAndCarry : Prop :=
  ∀ s : State,
    let a := s.cpu.a
    let bit (b : Bool) : Byte := (BitVec.ofBool b).setWidth 8
    let cy := s.cpu.flags.cy
    (encode .rlc = [0x07] ∧
      Completes .rlc s ((s.setReg .a (a <<< 1 ||| bit (a.getLsbD 7))).setCy (a.getLsbD 7)) []) ∧
    (encode .rrc = [0x0F] ∧
      Completes .rrc s ((s.setReg .a (a >>> 1 ||| bit (a.getLsbD 0) <<< 7)).setCy (a.getLsbD 0)) []) ∧
    (encode .ral = [0x17] ∧ Completes .ral s ((s.setReg .a (a <<< 1 ||| bit cy)).setCy (a.getLsbD 7)) []) ∧
    (encode .rar = [0x1F] ∧ Completes .rar s ((s.setReg .a (a >>> 1 ||| bit cy <<< 7)).setCy (a.getLsbD 0)) []) ∧
    (encode .cma = [0x2F] ∧ Completes .cma s (s.setReg .a (0xFF - a)) []) ∧
    (encode .cmc = [0x3F] ∧ Completes .cmc s (s.setCy (!cy)) []) ∧
    (encode .stc = [0x37] ∧ Completes .stc s (s.setCy true) [])

/-- JMP, its duplicate JMP*, and the eight conditional jumps. 43_branch.md R550 to R552, 45_undocumented.md R651.
Bus events stand at the indices of R702, the spec's decision D19, whenever MC is well formed. -/
def Obligations.Jumps : Prop :=
  (∀ f : Flags, condHolds .nz f = !f.z ∧ condHolds .z f = f.z ∧ condHolds .nc f = !f.cy ∧ condHolds .c f = f.cy ∧
    condHolds .po f = !f.p ∧ condHolds .pe f = f.p ∧ condHolds .p f = !f.s ∧ condHolds .m f = f.s) ∧
  ∀ (s : State) (v : Word) (cond : Cond),
    let ev := [(1, s.fetchAt s.cpu.pc (loByte v)), (2, s.fetchAt (s.cpu.pc + 1) (hiByte v))]
    (encode (.jmp v) = [0xC3, loByte v, hiByte v] ∧ Completes (.jmp v) s (s.setPc v) ev) ∧
    (encode (.jmpCB v) = [0xCB, loByte v, hiByte v] ∧ Completes (.jmpCB v) s (s.setPc v) ev) ∧
    (encode (.jcc cond v) = [0b11#2 ++ condCode cond ++ 0b010#3, loByte v, hiByte v] ∧
      Completes (.jcc cond v) s (if condHolds cond s.cpu.flags then s.setPc v else s.setPc (s.cpu.pc + 2)) ev)

/-- CALL, its duplicates CALL*, and the eight conditional calls. 43_branch.md R553, R554, 45_undocumented.md R653.
That a not-taken Ccc takes all its cycles is CyclesOfAnInstruction. Bus events stand at the indices of R702, the
spec's decision D19, whenever MC is well formed. -/
def Obligations.Calls : Prop :=
  ∀ (s : State) (v : Word) (cond : Cond),
    let ret := s.cpu.pc + 2
    let t := s.pcOn 2
    let u1 := (t.setSp (s.cpu.sp - 1)).writeByte (s.cpu.sp - 1) .stack (hiByte ret)
    let called := ((u1.setSp (s.cpu.sp - 2)).writeByte (s.cpu.sp - 2) .stack (loByte ret)).setPc v
    let fetch2 := [(2, s.fetchAt s.cpu.pc (loByte v)), (3, s.fetchAt (s.cpu.pc + 1) (hiByte v))]
    let pushed := [(4, s.writeAt (s.cpu.sp - 1) .stack (hiByte ret)), (5, s.writeAt (s.cpu.sp - 2) .stack (loByte ret))]
    (∀ p ∈ [(Instr.call v, (0xCD : Byte)), (.callDD v, 0xDD), (.callED v, 0xED), (.callFD v, 0xFD)],
      encode p.1 = [p.2, loByte v, hiByte v] ∧ Completes p.1 s called (fetch2 ++ pushed)) ∧
    (encode (.ccc cond v) = [0b11#2 ++ condCode cond ++ 0b100#3, loByte v, hiByte v] ∧
      Completes (.ccc cond v) s (if condHolds cond s.cpu.flags then called else t)
        (fetch2 ++ if condHolds cond s.cpu.flags then pushed else []))

/-- RET, its duplicate RET*, and the eight conditional returns. 43_branch.md R555, R556, 45_undocumented.md R652.
That a not-taken Rcc takes all its cycles is CyclesOfAnInstruction. Bus events stand at the indices of R702, the
spec's decision D19, whenever MC is well formed. -/
def Obligations.Returns : Prop :=
  ∀ (s : State) (cond : Cond),
    let back := (s.setSp (s.cpu.sp + 2)).setPc (mkWord (s.readByte (s.cpu.sp + 1) .stack) (s.readByte s.cpu.sp .stack))
    let pops (j : Nat) := [(j, s.readAt s.cpu.sp .stack), (j + 1, s.readAt (s.cpu.sp + 1) .stack)]
    (encode .ret = [0xC9] ∧ Completes .ret s back (pops 1)) ∧
    (encode .retD9 = [0xD9] ∧ Completes .retD9 s back (pops 1)) ∧
    (encode (.rcc cond) = [0b11#2 ++ condCode cond ++ 0b000#3] ∧
      Completes (.rcc cond) s (if condHolds cond s.cpu.flags then back else s)
        (if condHolds cond s.cpu.flags then pops 2 else []))

/-- RST n pushes PC and jumps to 8 n. 43_branch.md R557. Bus events stand at the indices of R702, the spec's
decision D19, whenever MC is well formed. -/
def Obligations.Restarts : Prop :=
  ∀ (s : State),
    let u1 := (s.setSp (s.cpu.sp - 1)).writeByte (s.cpu.sp - 1) .stack (hiByte s.cpu.pc)
    let u2 := (u1.setSp (s.cpu.sp - 2)).writeByte (s.cpu.sp - 2) .stack (loByte s.cpu.pc)
    ∀ p ∈ [(Instr.rst0, (0 : Fin 8)), (.rst1, 1), (.rst2, 2), (.rst3, 3), (.rst4, 4), (.rst5, 5), (.rst6, 6), (.rst7, 7)],
      encode p.1 = [0b11#2 ++ BitVec.ofNat 3 p.2.val ++ 0b111#3] ∧
      Completes p.1 s (u2.setPc (BitVec.ofNat 16 (8 * p.2.val)))
        [(2, s.writeAt (s.cpu.sp - 1) .stack (hiByte s.cpu.pc)), (3, s.writeAt (s.cpu.sp - 2) .stack (loByte s.cpu.pc))]

/-- PUSH of a pair and PUSH PSW. 44_stack_io_control.md R600, R601. Bus events stand at the indices of R702, the
spec's decision D19, whenever MC is well formed. -/
def Obligations.Pushes : Prop :=
  ∀ (s : State),
    let pushed (hi lo : Byte) : State :=
      (((s.setSp (s.cpu.sp - 1)).writeByte (s.cpu.sp - 1) .stack hi).setSp (s.cpu.sp - 2)).writeByte (s.cpu.sp - 2) .stack lo
    let ev (hi lo : Byte) := [(2, s.writeAt (s.cpu.sp - 1) .stack hi), (3, s.writeAt (s.cpu.sp - 2) .stack lo)]
    (encode .pushB = [0xC5] ∧ Completes .pushB s (pushed s.cpu.b s.cpu.c) (ev s.cpu.b s.cpu.c)) ∧
    (encode .pushD = [0xD5] ∧ Completes .pushD s (pushed s.cpu.d s.cpu.e) (ev s.cpu.d s.cpu.e)) ∧
    (encode .pushH = [0xE5] ∧ Completes .pushH s (pushed s.cpu.h s.cpu.l) (ev s.cpu.h s.cpu.l)) ∧
    (encode .pushPsw = [0xF5] ∧
      Completes .pushPsw s (pushed s.cpu.a s.cpu.flags.pack) (ev s.cpu.a s.cpu.flags.pack))

/-- POP of a pair and POP PSW. 44_stack_io_control.md R602, R603. Bus events stand at the indices of R702, the
spec's decision D19, whenever MC is well formed. -/
def Obligations.Pops : Prop :=
  ∀ (s : State),
    let lo := s.readByte s.cpu.sp .stack
    let hi := s.readByte (s.cpu.sp + 1) .stack
    let t := s.setSp (s.cpu.sp + 2)
    let ev := [(1, s.readAt s.cpu.sp .stack), (2, s.readAt (s.cpu.sp + 1) .stack)]
    (encode .popB = [0xC1] ∧ Completes .popB s (t.setPair .bc (mkWord hi lo)) ev) ∧
    (encode .popD = [0xD1] ∧ Completes .popD s (t.setPair .de (mkWord hi lo)) ev) ∧
    (encode .popH = [0xE1] ∧ Completes .popH s (t.setPair .hl (mkWord hi lo)) ev) ∧
    (encode .popPsw = [0xF1] ∧ Completes .popPsw s
      ((t.setFlags { s := lo.getLsbD 7, z := lo.getLsbD 6, ac := lo.getLsbD 4, p := lo.getLsbD 2, cy := lo.getLsbD 0 }).setReg
        .a hi) ev)

/-- XTHL exchanges HL with the word at SP, SP unchanged. 44_stack_io_control.md R604. Bus events stand at the
indices of R702, the spec's decision D19, whenever MC is well formed. -/
def Obligations.ExchangeTopOfStack : Prop :=
  ∀ s : State,
    let lo := s.readByte s.cpu.sp .stack
    let hi := s.readByte (s.cpu.sp + 1) .stack
    encode .xthl = [0xE3] ∧
    Completes .xthl s
      (((s.writeByte (s.cpu.sp + 1) .stack s.cpu.h).writeByte s.cpu.sp .stack s.cpu.l).setPair .hl (mkWord hi lo))
      [(1, s.readAt s.cpu.sp .stack), (2, s.readAt (s.cpu.sp + 1) .stack),
       (3, s.writeAt (s.cpu.sp + 1) .stack s.cpu.h), (4, s.writeAt s.cpu.sp .stack s.cpu.l)]

/-- IN puts the byte the I/O collaborator answers in A. 44_stack_io_control.md R606. With no input given, the byte
and the collaborator's state are free values (log 6). Bus events stand at the indices of R702, the spec's decision
D19, whenever MC is well formed. -/
def Obligations.PortInput : Prop :=
  ∀ (s : State) (port : Byte), encode (.inPort port) = [0xDB, port] ∧
    ∃ (v : Byte) (io : List Byte), (∀ w rest, s.portIn = w :: rest → v = w) ∧
      Completes (.inPort port) s (({ s.pcOn 1 with io := io, portIn := s.portIn.tail } : State).setReg .a v)
        [(1, s.fetchAt s.cpu.pc port), (2, .portIn port v)]

/-- OUT gives A to the port; a mapping port writes its mapping register, the ROM port switches ROM mode.
44_stack_io_control.md R607. The collaborator's state and the ROM mode a byte selects are free values (logs 6, 7).
Bus events stand at the indices of R702, the spec's decision D19, whenever MC is well formed. -/
def Obligations.PortOutput : Prop :=
  ∀ (s : State) (port : Byte), encode (.outPort port) = [0xD3, port] ∧
    ∃ (io : List Byte) (rom : Bool), (s.params.romPort ≠ some port → rom = s.romMode) ∧
      let t : State := { s.pcOn 1 with io := io, romMode := rom }
      Completes (.outPort port) s
        (match s.params.bankPorts.lookup port with
         | some b => t.setBankConfig b s.cpu.a
         | none => t)
        [(1, s.fetchAt s.cpu.pc port), (2, .portOut port s.cpu.a)]

/-- EI, DI, HLT, NOP and the seven NOP*. 44_stack_io_control.md R608 to R611, 45_undocumented.md R650. The
boundaries that follow are InterruptService, HaltCycle and StepRunsTheDecodedInstruction. -/
def Obligations.InterruptEnablesHaltAndNop : Prop :=
  ∀ s : State,
    (encode .ei = [0xFB] ∧ Completes .ei s { s with cpu := { s.cpu with inte := true, eip := true } } []) ∧
    (encode .di = [0xF3] ∧ Completes .di s { s with cpu := { s.cpu with inte := false } } [] ∧
      ∀ t, exec .di s = .next t → s.cpu.latch = true → t.cpu.latch = true) ∧
    (encode .hlt = [0x76] ∧ Completes .hlt s { s with cpu := { s.cpu with halt := true } } []) ∧
    ∀ p ∈ [(Instr.nop, (0x00 : Byte)), (.nop08, 0x08), (.nop10, 0x10), (.nop18, 0x18), (.nop20, 0x20), (.nop28, 0x28),
      (.nop30, 0x30), (.nop38, 0x38)], encode p.1 = [p.2] ∧ Completes p.1 s s []

/-- No instruction changes a data register or SP that the spec does not say it writes. The lists `writtenRegs` and
`writesSp` are read off the instruction rules of files 40 to 45 and off R104. The marks are log 11. -/
def Obligations.RegisterFrame : Prop :=
  ∀ (i : Instr) (s t : State), exec i s = .next t →
    (∀ r, r ∉ writtenRegs (shapeOf i) → t.reg r = s.reg r ∧ t.cpu.unspec.of r = s.cpu.unspec.of r) ∧
    (∀ r, r ∈ writtenRegs (shapeOf i) → t.cpu.unspec.of r = false) ∧
    (writesSp (shapeOf i) s.cpu.flags = false → t.cpu.sp = s.cpu.sp ∧ t.cpu.unspec.sp = s.cpu.unspec.sp) ∧
    (writesSp (shapeOf i) s.cpu.flags = true → t.cpu.unspec.sp = false)

/-- No instruction writes a flag that the table of writers does not list. 10_state.md R108, a table the spec marks
as derived. The marks are log 11. -/
def Obligations.FlagFrame : Prop :=
  ∀ (i : Instr) (s t : State), exec i s = .next t →
    (writesSzap (shapeOf i) = false → t.cpu.flags.s = s.cpu.flags.s ∧ t.cpu.flags.z = s.cpu.flags.z ∧
      t.cpu.flags.ac = s.cpu.flags.ac ∧ t.cpu.flags.p = s.cpu.flags.p ∧ t.cpu.unspec.fs = s.cpu.unspec.fs ∧
      t.cpu.unspec.fz = s.cpu.unspec.fz ∧ t.cpu.unspec.fac = s.cpu.unspec.fac ∧ t.cpu.unspec.fp = s.cpu.unspec.fp) ∧
    (writesSzap (shapeOf i) = true → t.cpu.unspec.fs = false ∧ t.cpu.unspec.fz = false ∧ t.cpu.unspec.fac = false ∧
      t.cpu.unspec.fp = false) ∧
    (writesCy (shapeOf i) = false → t.cpu.flags.cy = s.cpu.flags.cy ∧ t.cpu.unspec.fcy = s.cpu.unspec.fcy) ∧
    (writesCy (shapeOf i) = true → t.cpu.unspec.fcy = false)

/-- Memory changes only at the addresses an instruction stores to. `storedAddrs` computes each address with
`translate`, the function the meanings use, from the state the instruction starts in. Its lists are read off R203
and files 40 to 45. -/
def Obligations.MemoryFrame : Prop :=
  ∀ (i : Instr) (s t : State), exec i s = .next t →
    SameBytesExcept s t (storedAddrs (shapeOf i) s) ∧ (storedAddrs (shapeOf i) s = [] → t.ram = s.ram) ∧
    t.params.rom = s.params.rom ∧
    (t.romMode = s.romMode → ∀ pa, pa ∉ storedAddrs (shapeOf i) s → t.readPhys pa = s.readPhys pa)

/-- Which instructions change the mapping, ROM mode, FAULT, I/O, INTE, EIP, HALT, LATCH. The rules cited say who
writes the mapping, ROM mode, FAULT, INTE, EIP, HALT, LATCH, IRQ_TAKEN, LOOP, LAST_FRAME and the queues, and that
the parameters are fixed; no instruction reads or writes the observer (R125). That the I/O state and the port
inputs change only at IN and OUT is the model's DESIGN CHOICE (log 6), that the debug hook's bit and inputs are
state and no instruction changes them log 19. -/
def Obligations.ControlStateFrame : Prop :=
  ∀ (i : Instr) (s t : State), exec i s = .next t →
    ((∀ port, i ≠ .outPort port) → t.map = s.map ∧ t.romMode = s.romMode ∧ t.fault = s.fault) ∧
    ((∀ port, i ≠ .outPort port) → (∀ port, i ≠ .inPort port) → t.io = s.io ∧ t.portIn = s.portIn) ∧
    (i ≠ .ei → i ≠ .di → t.cpu.inte = s.cpu.inte) ∧ (i ≠ .ei → t.cpu.eip = s.cpu.eip) ∧
    (i ≠ .hlt → t.cpu.halt = s.cpu.halt) ∧ (s.cpu.latch = true → t.cpu.latch = true) ∧
    t.diff.irqTaken = s.diff.irqTaken ∧ t.params = s.params ∧ t.hist = s.hist ∧ t.loop = s.loop ∧
    t.frameRun = s.frameRun ∧ t.lastFrame = s.lastFrame ∧ t.requests = s.requests ∧ t.responses = s.responses ∧
    t.hookInstalled = s.hookInstalled ∧ t.hookIn = s.hookIn

/-- No instruction raises an exception; every instruction and every step answers a next state. 60_exceptions.md
R801. That the parameters name the mapping ports is log 7. -/
def Obligations.NothingTraps : Prop :=
  (∀ (i : Instr) (s : State), ∃ t, exec i s = .next t ∧
    (t.fault ≠ s.fault → s.fault = .none ∧ t.fault = .mappingConflict ∧
      ∃ port, i = .outPort port ∧ (s.params.bankPorts.lookup port).isSome = true)) ∧
  ∀ s : State, ∃ t, step s = .next t

/-- An instruction takes MC(op) machine cycles of 4 ticks, whatever its operands and condition. R706, R707, R713;
the values of MC are the candidate table or another well-formed one (log 8). -/
def Obligations.CyclesOfAnInstruction : Prop :=
  ∀ (i : Instr) (s t : State), s.params.wellFormed = true → exec i s = .next t →
    1 ≤ mcOf s.params.mc (opcodeOf i) ∧ mcOf s.params.mc (opcodeOf i) ≤ 6 ∧ t.mci = 0 ∧ t.cpu.ir = opcodeOf i ∧
    t.cpu.cc = s.cpu.cc + BitVec.ofNat 64 (4 * mcOf s.params.mc (opcodeOf i)) ∧
    cycleIndices t.trace = cycleIndices s.trace ++ List.range (mcOf s.params.mc (opcodeOf i))

/-- The diff record holds exactly the accesses of an instruction, in order, and explains memory. 50_sequencer.md
R711, the spec's decision D23; the bound is marked as derived. -/
def Obligations.DiffRecordOfAnInstruction : Prop :=
  ∀ (i : Instr) (s t : State), exec i s = .next t → ∃ new ws,
    t.trace = s.trace ++ new ∧ t.diff.bytes = s.diff.bytes ++ fetchedBytes new ∧
    t.diff.reads = s.diff.reads ++ dataReads new ∧ t.diff.writes = s.diff.writes ++ ws ∧
    ws.map (fun w => (w.addr, w.after)) = dataWrites new ∧ DiffChain ws s.ram t.ram ∧
    opcodeOf i :: fetchedBytes new = encode i ∧ (dataReads new).length ≤ 2 ∧ ws.length ≤ 2

/-- translate: identity, the stack page, the mapped page; never outside physical memory. 20_memory.md R210 with the
default MAPPING_LAYOUT of R118 (general knowledge, decision D7; log 9); that the address is physical follows from
R201. -/
def Obligations.AddressTranslation : Prop :=
  (∀ map : Mapping,
    (∀ b : Fin 8, bankEnabled defaultLayout (map.get b) = decide (16 ≤ (map.get b).toNat)) ∧
    (∀ b : Fin 8, activeBank defaultLayout map = some b ↔
      16 ≤ (map.get b).toNat ∧ ∀ c : Fin 8, c < b → (map.get c).toNat < 16) ∧
    (activeBank defaultLayout map = none ↔ ∀ b : Fin 8, (map.get b).toNat < 16)) ∧
  (∀ (map : Mapping) (addr : Word) (space : Space),
    (activeBank defaultLayout map = none → translate defaultLayout map addr space = addr.toNat) ∧
    ∀ b : Fin 8, activeBank defaultLayout map = some b →
      let m := map.get b
      let page (n : Nat) : Nat := addr.toNat + (n + 1 + 4 * b.val) * 65536
      translate defaultLayout map addr space =
        if m.getLsbD 4 = true ∧ space = .stack then page (m.toNat / 4 % 4)
        else if (m.getLsbD 6 = true ∧ 0x8000 ≤ addr.toNat ∧ addr.toNat ≤ 0x9FFF) ∨
          (m.getLsbD 5 = true ∧ 0xA000 ≤ addr.toNat ∧ addr.toNat ≤ 0xDFFF) ∨
          (m.getLsbD 7 = true ∧ 0xE000 ≤ addr.toNat) then page (m.toNat % 4)
        else addr.toNat) ∧
  ∀ (l : MappingLayout) (map : Mapping) (addr : Word) (space : Space), translate l map addr space < 2162688

/-- set_bank_config writes one mapping register and surfaces a conflict. 20_memory.md R215, 10_state.md R119; the
first code is kept by 60_exceptions.md R803 (decision D22). -/
def Obligations.MappingWrite : Prop :=
  ∀ (s : State) (b : Fin 8) (v : Byte),
    let t := s.setBankConfig b v
    let on (c : Fin 8) : Bool := bankEnabled s.params.layout (t.map.get c)
    t.map.get b = v ∧ (∀ c, c ≠ b → t.map.get c = s.map.get c) ∧
    (∀ c, activeBank s.params.layout t.map = some c ↔ on c = true ∧ ∀ d, d < c → on d = false) ∧
    (activeBank s.params.layout t.map = none ↔ ∀ c, on c = false) ∧
    ((∃ c d, c ≠ d ∧ on c = true ∧ on d = true) → t.fault = if s.fault = .none then .mappingConflict else s.fault) ∧
    ((∀ c d, on c = true → on d = true → c = d) → t.fault = s.fault) ∧
    t = { s with map := t.map, fault := t.fault }

/-- One-byte reads and writes, the boot ROM overlay, and the diff record's entries. 20_memory.md R218, R220, R221.
-/
def Obligations.MemoryReadAndWrite : Prop :=
  ∀ (s : State) (addr : Word) (space : Space) (v : Byte),
    let pa := s.translate addr space
    (∀ hr : s.romMode = true ∧ pa < s.params.rom.length, s.readByte addr space = s.params.rom[pa]'hr.2) ∧
    (s.romMode = false ∨ s.params.rom.length ≤ pa → s.readByte addr space = s.ram.read pa) ∧
    (s.noteRead addr space).arch = s.arch ∧
    (s.noteRead addr space).diff.reads = s.diff.reads ++ [(pa, s.readByte addr space)] ∧
    (∀ pb, (s.writeByte addr space v).ram.read pb = if pb = pa then v else s.ram.read pb) ∧
    ({ s.writeByte addr space v with ram := s.ram } : State).arch = s.arch ∧
    (s.writeByte addr space v).diff.writes = s.diff.writes ++ [{ addr := pa, before := s.ram.read pa, after := v }] ∧
    ({ s.writeByte addr space v with romMode := false } : State).readByte addr space = v

/-- The request of each machine cycle is latched before its work, and kept until service. 60_exceptions.md R805,
R809, 50_sequencer.md R703 (decisions D13, D14, D16). EI and DI write INTE in machine cycle 0, so it is the same in
every later one. With no input given the display's state is free (log 5). -/
def Obligations.RequestLatch : Prop :=
  (∀ s : State,
    s.beginCycle.cpu.latch =
      (match s.params.latchPolicy with
       | .whenEnabled => s.cpu.latch || s.beginCycle.disp.request && s.cpu.inte
       | .always => s.cpu.latch || s.beginCycle.disp.request) ∧
    s.beginCycle.arch = s.arch ∧ s.beginCycle.cpu.cc = s.cpu.cc ∧
    (∀ d rest, s.displayIn = d :: rest → s.beginCycle.disp = d ∧ s.beginCycle.displayIn = rest) ∧
    ∀ act : Act, (∀ u, (act u).cpu.latch = u.cpu.latch) → (s.machineCycle act).cpu.latch = s.beginCycle.cpu.latch) ∧
  (∀ (i : Instr) (s t : State), s.params.wellFormed = true → exec i s = .next t →
    ∃ ds : List Display, ds.length + 1 = mcOf s.params.mc (opcodeOf i) ∧ DisplayRun s.displayIn s.disp ds ∧
      t.displayIn = s.displayIn.drop ds.length ∧ t.disp = ds.getLastD s.disp ∧
      t.cpu.latch =
        match s.params.latchPolicy with
        | .whenEnabled => s.cpu.latch || ds.any (·.request) && t.cpu.inte
        | .always => s.cpu.latch || ds.any (·.request)) ∧
  ∀ s : State, s.params.wellFormed = true →
    ∃ (t : State) (ds : List Display), s.boundary = .next t ∧ ds.length + 1 = mcOf s.params.mc t.cpu.ir ∧
      DisplayRun s.displayIn s.disp ds ∧ t.displayIn = s.displayIn.drop ds.length ∧ t.disp = ds.getLastD s.disp ∧
      let kept := if s.serviceDue = true then false else s.cpu.latch
      t.cpu.latch =
        match s.params.latchPolicy with
        | .whenEnabled => kept || ds.any (·.request) && t.cpu.inte
        | .always => kept || ds.any (·.request)

/-- Interrupt service: when it starts, what it saves, where it goes. 60_exceptions.md R808 to R811, 50_sequencer.md
R704, R705 (decisions D16, D23), 55_orchestrator.md R751, R754. -/
def Obligations.InterruptService : Prop :=
  ∀ s : State,
    (s.serviceDue = true ↔ s.cpu.latch = true ∧ s.cpu.inte = true ∧ s.cpu.eip = false) ∧
    (s.serviceDue = true →
      let u : State := { s with cpu := { s.cpu with inte := false, halt := false } }
      let u1 := (u.setSp (s.cpu.sp - 1)).writeByte (s.cpu.sp - 1) .stack (hiByte s.cpu.pc)
      let u2 := (u1.setSp (s.cpu.sp - 2)).writeByte (s.cpu.sp - 2) .stack (loByte s.cpu.pc)
      ∃ t, s.boundary = .next t ∧ t.arch = (u2.setPc 0x0038).arch ∧ t.cpu.pc = 0x0038 ∧ t.cpu.sp = s.cpu.sp - 2 ∧
        t.cpu.inte = false ∧ t.cpu.halt = false ∧ t.cpu.flags = s.cpu.flags ∧
        t.diff.bytes = [0xFF] ∧ t.diff.irqTaken = true ∧ t.diff.reads = [] ∧ t.diff.writes.length = 2 ∧
        (s.params.wellFormed = true →
          t.cpu.ir = 0xFF ∧ t.cpu.cc = s.cpu.cc + BitVec.ofNat 64 (4 * mcOf s.params.mc 0xFF) ∧
          busEvents t.trace =
            [(2, s.writeAt (s.cpu.sp - 1) .stack (hiByte s.cpu.pc)), (3, s.writeAt (s.cpu.sp - 2) .stack (loByte s.cpu.pc))])) ∧
    (s.serviceDue = false → ∃ t, s.boundary = .next t ∧ t.diff.irqTaken = false) ∧
    (s.loop = .running → s.fault = .none →
      ∃ t, s.beginCycle.boundary = .next t ∧ step s = (t.forgetTemps.afterInstruction false).takeCommand ∧
        (t.diff.irqTaken = true ↔ s.beginCycle.cpu.latch = true ∧ s.cpu.inte = true ∧ s.cpu.eip = false))

/-- A halt cycle re-reads the byte before PC and changes nothing. 50_sequencer.md R704, R712 (decision D15),
55_orchestrator.md R751, R754. That the access hook sees the re-read as a fetch is log 30. -/
def Obligations.HaltCycle : Prop :=
  (∀ s : State, s.serviceDue = false → s.cpu.halt = true →
    ∃ t, s.boundary = .next t ∧ t.arch = s.arch ∧ t.cpu.halt = true ∧ t.cpu.pc = s.cpu.pc ∧
      t.diff = { bytes := [s.readByte (s.cpu.pc - 1) .normal], reads := [], writes := [], irqTaken := false } ∧
      (s.params.wellFormed = true →
        t.cpu.ir = 0x76 ∧ t.cpu.cc = s.cpu.cc + BitVec.ofNat 64 (4 * mcOf s.params.mc 0x76) ∧
        busEvents t.trace = [(s.mci.toNat, s.fetchAt (s.cpu.pc - 1) (s.readByte (s.cpu.pc - 1) .normal))])) ∧
  ∀ s : State, s.loop = .running → s.fault = .none → s.beginCycle.serviceDue = false → s.cpu.halt = true →
    ∃ t, s.beginCycle.boundary = .next t ∧ step s = (t.forgetTemps.afterInstruction false).takeCommand ∧
      t.arch = s.arch ∧ t.cpu.halt = true ∧
      t.diff = { bytes := [s.readByte (s.cpu.pc - 1) .normal], reads := [], writes := [], irqTaken := false }

/-- A step runs the instruction that the bytes at PC decode to. 50_sequencer.md R704, R710; 55_orchestrator.md
R751, R754. That the operand bytes are read at the boundary is log 2. -/
def Obligations.StepRunsTheDecodedInstruction : Prop :=
  ∀ (s : State) (i : Instr) (rest : List Byte), s.loop = .running → s.fault = .none →
    s.beginCycle.serviceDue = false → s.cpu.halt = false → decode s.fetchBytes = .ok (i, rest) →
    let u := s.beginCycle.clearRecord.fetchOpcode
    u.arch = ({ s.pcOn 1 with cpu := { (s.pcOn 1).cpu with eip := false } } : State).arch ∧
    u.cpu.latch = s.beginCycle.cpu.latch ∧ u.cpu.cc = s.cpu.cc ∧
    u.diff = { bytes := [opcodeOf i], reads := [], writes := [], irqTaken := false } ∧
    u.trace = [(s.mci, s.fetchAt s.cpu.pc (opcodeOf i))] ∧
    ∃ t, exec i u = .next t ∧ step s = (t.forgetTemps.afterInstruction false).takeCommand

/-- The machine right after power-on. R127 (power-on column), R901, R853. That INITIAL_RAM reads 0x00 is the
model's DESIGN CHOICE (log 3). -/
def Obligations.PowerOnState : Prop :=
  let s := State.reset
  (∀ r, s.reg r = 0) ∧ s.cpu.sp = 0 ∧ s.cpu.pc = 0 ∧ s.cpu.ir = 0 ∧ s.w = 0 ∧ s.z = 0 ∧ s.cpu.cc = 0 ∧ s.mci = 0 ∧
  s.cpu.flags = { s := false, z := false, ac := false, p := false, cy := false } ∧
  s.cpu.inte = false ∧ s.cpu.latch = false ∧ s.cpu.eip = false ∧ s.cpu.halt = false ∧
  (∀ b : Fin 8, s.map.get b = 0) ∧ activeBank s.params.layout s.map = none ∧ s.romMode = true ∧ s.fault = .none ∧
  s.diff = { bytes := [], reads := [], writes := [], irqTaken := false } ∧ s.loop = .stopped ∧
  s.lastFrame = s.disp.frame ∧
  s.hist = { checkpoints := [{ snap := s.snapshot, diffs := [] }], wcur := 0, pos := 0, live := true, liveSnap := none,
             hFrame := s.disp.frame, attached := false } ∧
  ∀ pa, s.ram.read pa = 0

/-- The invariant holds at power-on. See StepKeepsInvariant. -/
def Obligations.PowerOnInvariant : Prop :=
  State.Inv State.reset

/-- Every step keeps the invariant. Derived from R113, R122, R756, R759, R852, R860 (b). That a recorded position
in history keeps these bounds through LoadRecording rests on log 15. -/
def Obligations.StepKeepsInvariant : Prop :=
  ∀ s t : State, s.Inv → step s = .next t → t.Inv

/-- What the host commands Reset and Restart leave. R760, R756, R127, R900 (decisions D10, D11, D26, D35). The
values of the unspecified registers are free (log 11); that the response reports a fault an earlier response has
reported already is the model's DESIGN CHOICE (log 32). -/
def Obligations.ResetAndRestart : Prop :=
  ∀ s : State,
    (∃ t, s.execute .reset = .next t ∧ t.cpu = Cpu.init ∧ t.cpu.pc = 0 ∧ t.cpu.sp = 0 ∧ (∀ r, t.reg r = 0) ∧
      t.cpu.unspec = Unspecified.clear ∧ t.mci = 0 ∧ (∀ b : Fin 8, t.map.get b = 0) ∧ t.romMode = true ∧
      t.fault = .none ∧ t.lastFrame = s.disp.frame ∧ t.diff = DiffRecord.empty ∧
      t.hist = { checkpoints := [{ snap := t.snapshot, diffs := [] }], wcur := 0, pos := 0, live := true,
                 liveSnap := none, hFrame := s.disp.frame, attached := s.hist.attached } ∧
      t.loop = s.loop ∧ t.ram = s.ram ∧
      t.responses = s.responses ++ [{ reply := .ok, fault := s.fault, loop := s.loop }]) ∧
    ∃ t, s.execute .restart = .next t ∧ t.cpu.pc = 0 ∧ t.cpu.inte = false ∧ t.cpu.latch = false ∧ t.cpu.eip = false ∧
      t.cpu.halt = false ∧ t.cpu.ir = 0 ∧ t.cpu.cc = 0 ∧ t.mci = 0 ∧
      t.view.a = none ∧ t.view.f = none ∧ t.view.b = none ∧ t.view.c = none ∧ t.view.d = none ∧ t.view.e = none ∧
      t.view.h = none ∧ t.view.l = none ∧ t.view.sp = none ∧
      (∀ b : Fin 8, t.map.get b = 0) ∧ t.romMode = false ∧ t.fault = .none ∧ t.lastFrame = s.disp.frame ∧
      t.diff = DiffRecord.empty ∧
      t.hist = { checkpoints := [{ snap := t.snapshot, diffs := [] }], wcur := 0, pos := 0, live := true,
                 liveSnap := none, hFrame := s.disp.frame, attached := s.hist.attached } ∧
      t.loop = s.loop ∧ t.ram = s.ram ∧
      t.responses = s.responses ++ [{ reply := .ok, fault := s.fault, loop := s.loop }]

/-- A fault ends the run, is in the next response, stays until Reset or Restart, and bars running. R756, R760,
R803, R120 (decisions D22, D35). That Reset and Restart report a fault reported already is log 32. -/
def Obligations.FaultStopsTheLoop : Prop :=
  (∀ s t : State, s.loop = .running → s.fault = .none → s.runInstruction = .next t → t.fault ≠ .none →
    ∃ u, step s = .next u ∧ u.loop ≠ .running) ∧
  (∀ (s : State) (c : Command), s.fault ≠ .none → c ∈ [.run, .executeOneInstruction, .executeOneFrameIgnoringBreaks] →
    s.execute c = .next (s.respond .notAllowed)) ∧
  ∀ (s t : State) (c : Command), s.fault ≠ .none → s.execute c = .next t →
    (∃ r, t.responses = s.responses ++ [{ reply := r, fault := s.fault, loop := t.loop }]) ∧
    (c ≠ .reset → c ≠ .restart → t.fault = s.fault) ∧ (t.loop = .running → s.loop = .running)

/-- The loop: Running, Stopped, Exiting, breaks, and one command at a time over bounded queues. R750, R753 to R760,
R10. That a frame run spans steps is log 17; that an empty queue waits, and that a command enters only while a slot
for its response is kept, is log 21; the hook's input is log 19; that Reset and Restart report a fault reported
already is log 32. -/
def Obligations.LoopAndCommands : Prop :=
  (∀ s : State, s.loop = .exiting → step s = .next s) ∧
  (∀ s : State, s.loop = .stopped → s.frameRun = false → s.requests = [] → step s = .next s) ∧
  (∀ (s : State) (c : Command) (rest : List Command), s.loop = .stopped → s.frameRun = false → s.requests = c :: rest →
    step s = ({ s with requests := rest } : State).execute c) ∧
  (∀ s : State, s.loop = .running → s.fault = .none → ∃ t, s.runInstruction = .next t ∧
    step s = (t.afterInstruction false).takeCommand) ∧
  (∀ s : State, s.loop = .stopped → s.frameRun = true → ∃ t u, s.runInstruction = .next t ∧ step s = .next u ∧
    u.requests = s.requests ∧ u.loop = .stopped ∧
    (t.disp.frame ≠ s.lastFrame ∨ t.fault ≠ .none → u.frameRun = false ∧ u.responses.length = s.responses.length + 1) ∧
    (t.disp.frame = s.lastFrame → t.fault = .none → u.frameRun = true ∧ u.responses = s.responses)) ∧
  (∀ s t : State, s.loop = .stopped → s.fault = .none → s.execute .run = .next t → t.loop = .running) ∧
  (∀ s t : State, s.execute .stop = .next t → t.loop = .stopped) ∧
  (∀ s t : State, s.execute .exit = .next t → t.loop = .exiting) ∧
  (∀ s : State, s.loop = .stopped → s.fault = .none → ∃ t, s.leaveHistory.runInstruction = .next t ∧
    s.execute .executeOneInstruction =
      .next ((t.afterInstruction false).respond (.registers (t.afterInstruction false).view)) ∧
    (t.afterInstruction false).loop = .stopped) ∧
  (∀ (s t : State) (c : Command), s.execute c = .next t →
    (∃ r, t.responses =
      s.responses ++ [{ reply := r, fault := if s.fault = .none then t.fault else s.fault, loop := t.loop }]) ∨
    (c = .executeOneFrameIgnoringBreaks ∧ t.frameRun = true ∧ t.responses = s.responses)) ∧
  (∀ s : State, s.loop = .stopped → s.fault = .none → s.hist.live = true →
    s.execute .executeOneFrameIgnoringBreaks = .next { s with frameRun := true }) ∧
  (∀ (s : State) (c : Command), s.loop ≠ .stopped ∨ s.fault ≠ .none →
    c ∈ [.run, .executeOneInstruction, .executeOneFrameIgnoringBreaks] → s.execute c = .next (s.respond .notAllowed)) ∧
  (∀ (s : State) (ignoring : Bool),
    let t := s.afterInstruction ignoring
    t.lastFrame = s.disp.frame ∧ t.disp = s.disp ∧ t.fault = s.fault ∧
    (s.loop = .running → (t.loop = .stopped ↔ s.fault ≠ .none ∨ s.hookBreak = true ∧ ignoring = false) ∧
      (t.loop = .running ∨ t.loop = .stopped)) ∧
    (s.hookInstalled = false → s.hookBreak = false) ∧
    ∀ b rest, s.hookInstalled = true → s.hookIn = b :: rest → s.hookBreak = b ∧ t.hookIn = rest) ∧
  (∀ (s : State) (rest : List Bool), s.loop = .running → s.fault = .none → s.requests = [] →
    s.hookInstalled = true → s.hookIn = true :: rest →
    ∃ u, step s = .next u ∧ u.loop = .stopped ∧ u.lastFrame = u.disp.frame ∧ u.hookIn = rest) ∧
  let owed (s : State) : Nat := s.requests.length + (if s.frameRun then 1 else 0) + s.responses.length
  (∀ (s : State) (c : Command),
    (s.params.queueDepth ≤ s.requests.length ∨ s.params.queueDepth ≤ s.responses.length → s.hostSubmit c = none) ∧
    (owed s < s.params.queueDepth → s.hostSubmit c = some { s with requests := s.requests ++ [c] })) ∧
  (∀ (s t : State) (c : Command), owed s ≤ s.params.queueDepth → s.hostSubmit c = some t →
    owed t ≤ t.params.queueDepth) ∧
  (∀ (s : State) (r : Response) (rest : List Response), s.responses = r :: rest →
    s.hostTake = some (r, { s with responses := rest })) ∧
  ∀ s t : State, owed s ≤ s.params.queueDepth → step s = .next t → owed t ≤ t.params.queueDepth

/-- What the History Engine records at the end of an instruction. R854, R855, R850 (decisions D27, D33, D36). -/
def Obligations.HistoryRecording : Prop :=
  (∀ (s : State) (ks : List Checkpoint) (k : Checkpoint), s.hist.attached = true → s.hist.live = true →
    1 ≤ s.params.historyCapacity → s.hist.checkpoints = ks ++ [k] → ks.length + 1 ≤ s.params.historyCapacity →
    let cap := s.params.historyCapacity
    let t := s.onInstructionRetired
    let grown := ks ++ [{ k with diffs := k.diffs ++ s.diff.writes }]
    t = { s with hist := t.hist } ∧
    (s.disp.frame = s.hist.hFrame → t.hist = { s.hist with checkpoints := grown }) ∧
    (s.disp.frame ≠ s.hist.hFrame →
      t.hist.checkpoints = (if ks.length + 1 < cap then grown else grown.tail) ++ [{ snap := s.snapshot, diffs := [] }] ∧
      t.hist.wcur = (s.hist.wcur + 1) % cap ∧ t.hist.pos + 1 = t.hist.count ∧ t.hist.hFrame = s.disp.frame ∧
      1 ≤ t.hist.count ∧ t.hist.count ≤ cap ∧
      t.hist.live = true ∧ t.hist.liveSnap = s.hist.liveSnap ∧ t.hist.attached = true ∧
      t.hist.slot cap t.hist.pos = t.hist.wcur ∧
      (s.hist.wcur < cap → ∀ n, n < ks.length + 1 →
        (ks.length + 1 < cap → t.hist.slot cap n = s.hist.slot cap n) ∧
        (ks.length + 1 = cap → 0 < n → t.hist.slot cap (n - 1) = s.hist.slot cap n)))) ∧
  ∀ s : State, s.hist.attached = false ∨ s.hist.live = false → s.onInstructionRetired = s

/-- The history goes on explaining memory while attached. R852, R853, R855 to R857, R859 (decision D27). That
SetRamBytes is recorded only while attached is log 16, that a snapshot holds the marks of unspecified registers log
33. -/
def Obligations.HistoryExplainsMemory : Prop :=
  (∀ s t : State, s.ram.wf →
    (s.execute .reset = .next t ∨ s.execute .restart = .next t ∨
      s.hist.attached = false ∧ s.execute (.attachDebugger true) = .next t) → t.HistoryExplains) ∧
  (∀ (s t : State) (ignoring : Bool), s.Inv → s.HistoryExplains → s.hist.attached = true → s.hist.live = true →
    s.runInstruction = .next t → (t.afterInstruction ignoring).HistoryExplains) ∧
  (∀ (s : State) (addr : Word) (bytes : List Byte), HistoryWf s.params.historyCapacity s.hist → s.HistoryExplains →
    s.hist.attached = true → s.hist.live = true → (s.setRamBytes addr bytes).HistoryExplains) ∧
  ∀ (s : State) (n : Nat), HistoryWf s.params.historyCapacity s.hist → s.HistoryExplains →
    (s.playForward n).HistoryExplains ∧ (s.playReverse n).HistoryExplains ∧ s.leaveHistory.HistoryExplains

/-- Playing forward and back, or back and forward, restores the machine. R860 (a), which the spec marks as derived.
`HistoryExplains` says what R852 says of memory and the diff lists; that a snapshot brings the marks of unspecified
registers back is the model's DESIGN CHOICE (log 33). -/
def Obligations.PlaybackRoundTrip : Prop :=
  ∀ (s : State) (n : Nat), s.ram.wf → HistoryWf s.params.historyCapacity s.hist → s.HistoryExplains →
    let same (t : State) : Prop := t.snapshot = s.snapshot ∧ t.ram = s.ram ∧ t.hist.pos = s.hist.pos ∧
      t.hist.live = s.hist.live ∧ t.hist.checkpoints = s.hist.checkpoints
    (s.hist.live = false → s.hist.pos + n ≤ s.hist.count → same ((s.playForward n).playReverse n)) ∧
    (s.hist.live = true → n ≤ s.hist.count → same ((s.playReverse n).playForward n)) ∧
    (s.hist.live = false → n ≤ s.hist.pos → same ((s.playReverse n).playForward n))

/-- A command that changes the machine away from the live state truncates history first. R859 (decision D27). -/
def Obligations.LeavingHistory : Prop :=
  (∀ s : State, HistoryWf s.params.historyCapacity s.hist → s.hist.live = false →
    let t := s.leaveHistory
    (∃ k, s.hist.checkpoints[s.hist.pos]? = some k ∧
      t.hist.checkpoints = s.hist.checkpoints.take s.hist.pos ++ [{ k with diffs := [] }]) ∧
    t.hist.count = s.hist.pos + 1 ∧ t.hist.pos = s.hist.pos ∧
    t.hist.wcur = s.hist.slot s.params.historyCapacity s.hist.pos ∧ t.hist.live = true ∧ t.hist.liveSnap = none ∧
    t.hist.hFrame = s.hist.hFrame ∧ t.hist.attached = s.hist.attached ∧ t = { s with hist := t.hist } ∧
    (s.mayRun = true → s.execute .run = .next (({ t with loop := .running } : State).respond .ok) ∧
      s.execute .executeOneFrameIgnoringBreaks = .next { t with frameRun := true } ∧
      ∃ u, t.runInstruction = .next u ∧ s.execute .executeOneInstruction =
        .next ((u.afterInstruction false).respond (.registers (u.afterInstruction false).view))) ∧
    ∀ addr bytes, s.execute (.setRamBytes addr bytes) = .next ((t.setRamBytes addr bytes).respond .ok)) ∧
  ∀ s : State, s.hist.live = true → s.leaveHistory = s

/-- A saved recording loads back; a bad one is rejected and changes nothing. R861, R862 (decisions D29, D46). The
file as a structured value is log 14; two of the consistency clauses are log 15; that the snapshot of POS comes
back with its marks is the model's DESIGN CHOICE (log 33). -/
def Obligations.RecordingFiles : Prop :=
  (∀ s : State, s.loop = .stopped → HistoryWf s.params.historyCapacity s.hist →
    (∀ k ∈ s.hist.checkpoints, mappingConflict s.params.layout k.snap.map = false) →
    (∀ sn, s.hist.liveSnap = some sn → mappingConflict s.params.layout sn.map = false) →
    ∃ t k, s.execute (.loadRecording s.saveRecording) = .next t ∧ s.hist.checkpoints[s.hist.pos]? = some k ∧
      t.hist.checkpoints = s.hist.checkpoints ∧ t.hist.pos = s.hist.pos ∧ t.hist.live = s.hist.live ∧
      (s.hist.live = false → t.hist.liveSnap = s.hist.liveSnap) ∧ t.hist.wcur = s.hist.count - 1 ∧
      t.snapshot = k.snap ∧ t.ram = s.ram ∧ t.fault = s.fault ∧ t.loop = s.loop ∧
      t.responses = s.responses ++ [{ reply := .ok, fault := s.fault, loop := .stopped }]) ∧
  (∀ (s : State) (f : RecordingFile), s.loop = .stopped →
    f.version ≠ s.params.recordingVersion ∨ f.body = none ∨
      (∃ r, f.body = some r ∧ (r.count = 0 ∨ s.params.historyCapacity < r.count ∨ r.count ≤ r.pos ∨
        (∃ k ∈ r.checkpoints, mappingConflict s.params.layout k.snap.map = true) ∨
        ∃ k ∈ r.checkpoints, ∃ w ∈ k.diffs, physicalBytes ≤ w.addr)) →
    s.execute (.loadRecording f) = .next (s.respond .badRecording)) ∧
  ∀ (s : State) (f : RecordingFile), s.loop ≠ .stopped → s.execute (.loadRecording f) = .next (s.respond .notAllowed)

/-- GetRegisters, GetByte, GetWord, SetRamBytes, AttachDebugger. R760 (decisions D34, D35, D39, D40), R853. That an
unspecified flag makes F unspecified is log 22, that SetRamBytes records only while attached log 16. -/
def Obligations.HostAccess : Prop :=
  ∀ s : State,
    (∀ a sp, s.execute (.getByte a sp) = .next (s.respond (.byte (s.readByte a sp))) ∧
      s.execute (.getWord a sp) = .next (s.respond (.word (mkWord (s.readByte (a + 1) sp) (s.readByte a sp))))) ∧
    s.execute .getRegisters = .next (s.respond (.registers s.view)) ∧
    let u := s.cpu.unspec
    s.view.a = (if u.a = true then none else some s.cpu.a) ∧ s.view.b = (if u.b = true then none else some s.cpu.b) ∧
    s.view.c = (if u.c = true then none else some s.cpu.c) ∧ s.view.d = (if u.d = true then none else some s.cpu.d) ∧
    s.view.e = (if u.e = true then none else some s.cpu.e) ∧ s.view.h = (if u.h = true then none else some s.cpu.h) ∧
    s.view.l = (if u.l = true then none else some s.cpu.l) ∧ s.view.sp = (if u.sp = true then none else some s.cpu.sp) ∧
    s.view.f = (if u.fs = true ∨ u.fz = true ∨ u.fac = true ∨ u.fp = true ∨ u.fcy = true then none
      else some s.cpu.flags.pack) ∧
    s.view.pc = s.cpu.pc ∧ s.view.cc = s.cpu.cc ∧ s.view.inte = s.cpu.inte ∧ s.view.latch = s.cpu.latch ∧
    s.view.eip = s.cpu.eip ∧ s.view.halt = s.cpu.halt ∧ s.view.mci = s.mci ∧
    (∀ a v, ∃ t, s.execute (.setRamBytes a [v]) = .next t ∧ (∀ pa, t.ram.read pa =
      if pa = s.translate a .normal then v else s.ram.read pa) ∧ t.cpu = s.cpu ∧ t.map = s.map ∧ t.diff = s.diff) ∧
    (∀ a v vs, s.setRamBytes a (v :: vs) = (s.setRamBytes a [v]).setRamBytes (a + 1) vs) ∧
    ∀ on, s.execute (.attachDebugger on) = .next (State.respond
      (if on = true ∧ s.hist.attached = false
       then { s with hist := { checkpoints := [{ snap := s.snapshot, diffs := [] }], wcur := 0, pos := 0, live := true,
                               liveSnap := none, hFrame := s.disp.frame, attached := true } }
       else { s with hist := { s.hist with attached := on } }) .ok)
end

