-- ==== Sys2Proof/Laws/Memory.lean ====
section
/-! SUPPORT. Memory: read after write, the canonical form, and where translation can lead. -/

namespace Sys2Proof.Laws

open Sys2Proof.Machine

/-! ## Read after write -/

theorem read_without (m : Memory) (pa q : Nat) :
    (m.without pa).read q = if q = pa then unlistedByte else m.read q := by
  induction m with
  | nil => simp [Memory.without, Memory.read]
  | cons c m ih =>
    simp only [Memory.without] at ih ⊢
    by_cases h : c.1 = pa
    · simp only [List.filter_cons, h, ne_eq, not_true_eq_false, decide_false, Bool.false_eq_true, if_false, ih]
      by_cases hq : q = pa
      · simp [hq]
      · simp [hq, Memory.read, h, Ne.symm hq]
    · simp only [List.filter_cons, h, ne_eq, not_false_eq_true, decide_true, if_true, Memory.read, ih]
      by_cases hq : q = pa
      · subst hq; simp [h]
      · simp [hq]

theorem read_place (m : Memory) (pa q : Nat) (v : Byte) (hm : ∀ c ∈ m, c.1 ≠ pa) :
    (Memory.place pa v m).read q = if q = pa then v else m.read q := by
  induction m with
  | nil =>
    by_cases h : q = pa
    · simp [Memory.place, Memory.read, h]
    · simp [Memory.place, Memory.read, h, Ne.symm h]
  | cons c m ih =>
    have hc : c.1 ≠ pa := hm c (by simp)
    have ih := ih fun d hd => hm d (by simp [hd])
    by_cases hlt : pa < c.1
    · by_cases h : q = pa
      · simp [Memory.place, hlt, Memory.read, h]
      · simp [Memory.place, hlt, Memory.read, h, Ne.symm h]
    · simp only [Memory.place, hlt, if_false, Memory.read, ih]
      by_cases h : q = pa
      · subst h; simp [hc]
      · simp [h]

theorem mem_without {m : Memory} {pa : Nat} {c : Host.Cell} (h : c ∈ m.without pa) : c ∈ m ∧ c.1 ≠ pa := by
  simpa [Memory.without] using h

/-- A byte written is read back, and every other byte reads as before. -/
theorem read_write (m : Memory) (pa q : Nat) (v : Byte) :
    (m.write pa v).read q = if q = pa then v else m.read q := by
  unfold Memory.write
  by_cases hv : v = unlistedByte
  · simp only [hv, if_true, read_without]
  · simp only [hv, if_false]
    rw [read_place _ _ _ _ fun c hc => (mem_without hc).2, read_without]
    by_cases h : q = pa <;> simp [h]

@[simp] theorem read_write_same (m : Memory) (pa : Nat) (v : Byte) : (m.write pa v).read pa = v := by
  simp [read_write]

theorem read_write_ne (m : Memory) {pa q : Nat} (v : Byte) (h : q ≠ pa) : (m.write pa v).read q = m.read q := by
  simp [read_write, h]

/-! ## The canonical form -/

theorem without_wf {m : Memory} (h : m.wf) (pa : Nat) : (m.without pa).wf :=
  ⟨h.1.filter _, fun c hc => h.2 c (mem_without hc).1⟩

theorem mem_place {m : Memory} {pa : Nat} {v : Byte} {c : Host.Cell} (h : c ∈ Memory.place pa v m) :
    c = (pa, v) ∨ c ∈ m := by
  induction m with
  | nil => left; simpa [Memory.place] using h
  | cons d m ih =>
    by_cases hlt : pa < d.1
    · simpa [Memory.place, hlt] using h
    · simp only [Memory.place, hlt, if_false, List.mem_cons] at h
      rcases h with h | h
      · exact Or.inr (by simp [h])
      · rcases ih h with h | h
        · exact Or.inl h
        · exact Or.inr (by simp [h])

theorem place_sorted {m : Memory} {pa : Nat} (v : Byte) (hm : m.Pairwise (fun x y => x.1 < y.1))
    (hn : ∀ c ∈ m, c.1 ≠ pa) : (Memory.place pa v m).Pairwise (fun x y => x.1 < y.1) := by
  induction m with
  | nil => simp [Memory.place]
  | cons c m ih =>
    rw [List.pairwise_cons] at hm
    by_cases hlt : pa < c.1
    · simp only [Memory.place, hlt, if_true, List.pairwise_cons, List.mem_cons]
      refine ⟨?_, hm⟩
      rintro d (rfl | hd)
      · exact hlt
      · exact lt_trans hlt (hm.1 d hd)
    · simp only [Memory.place, hlt, if_false, List.pairwise_cons]
      refine ⟨fun d hd => ?_, ih hm.2 fun d hd => hn d (by simp [hd])⟩
      have hc := hn c (by simp)
      rcases mem_place hd with rfl | hd
      · simp only; omega
      · exact hm.1 d hd

/-- A write inside physical memory keeps the canonical form. -/
theorem write_wf {m : Memory} (h : m.wf) {pa : Nat} (hpa : pa < physicalBytes) (v : Byte) : (m.write pa v).wf := by
  unfold Memory.write
  by_cases hv : v = unlistedByte
  · simpa [hv] using without_wf h pa
  · simp only [hv, if_false]
    refine ⟨place_sorted v (without_wf h pa).1 fun c hc => (mem_without hc).2, fun c hc => ?_⟩
    rcases mem_place hc with rfl | hc
    · exact ⟨hv, hpa⟩
    · exact (without_wf h pa).2 c hc

/-- Power-on memory has the canonical form. -/
theorem reset_ram_wf : State.reset.ram.wf := by simp [State.reset, Memory.wf]

/-- Two canonical memories that read alike are equal. -/
theorem wf_ext {m n : Memory} (hm : m.wf) (hn : n.wf) (h : ∀ pa, m.read pa = n.read pa) : m = n := by
  induction m generalizing n with
  | nil =>
    cases n with
    | nil => rfl
    | cons d n =>
      have := h d.1
      simp [Memory.read] at this
      exact absurd this.symm (hn.2 d (by simp)).1
  | cons c m ih =>
    have tail {x : Host.Cell} {k : Memory} (hk : Memory.wf (x :: k)) : k.wf :=
      ⟨(List.pairwise_cons.1 hk.1).2, fun y hy => hk.2 y (by simp [hy])⟩
    have below {k : Memory} {q : Nat} (hq : ∀ y ∈ k, q < y.1) : k.read q = unlistedByte := by
      induction k with
      | nil => rfl
      | cons y k ih =>
        have := hq y (by simp)
        simp only [Memory.read]
        rw [if_neg (by omega)]
        exact ih fun z hz => hq z (by simp [hz])
    have gt {x : Host.Cell} {k : Memory} (hk : Memory.wf (x :: k)) : ∀ y ∈ k, x.1 < y.1 :=
      (List.pairwise_cons.1 hk.1).1
    cases n with
    | nil =>
      have := h c.1
      simp [Memory.read] at this
      exact absurd this (hm.2 c (by simp)).1
    | cons d n =>
      have hcd : c.1 = d.1 := by
        rcases Nat.lt_trichotomy c.1 d.1 with hlt | heq | hgt
        · have := h c.1
          simp only [Memory.read, if_true] at this
          rw [if_neg (by omega), below fun y hy => lt_trans hlt (gt hn y hy)] at this
          exact absurd this (hm.2 c (by simp)).1
        · exact heq
        · have := h d.1
          simp only [Memory.read, if_true] at this
          rw [if_neg (by omega), below fun y hy => lt_trans hgt (gt hm y hy)] at this
          exact absurd this.symm (hn.2 d (by simp)).1
      have hv : c.2 = d.2 := by
        have := h c.1
        simpa [Memory.read, hcd] using this
      have hrest : m = n := by
        refine ih (tail hm) (tail hn) fun pa => ?_
        by_cases hp : pa = c.1
        · rw [below fun y hy => hp ▸ gt hm y hy, below fun y hy => (hp.trans hcd) ▸ gt hn y hy]
        · have := h pa
          simp only [Memory.read] at this
          rwa [if_neg (Ne.symm hp), if_neg (fun e => hp (e.symm.trans hcd.symm))] at this
      rw [hrest, Prod.ext hcd hv]

/-! ## Translation -/

theorem field2_lt (v : Byte) (i : Nat) : field2 v i < 4 := (v.extractLsb' i 2).isLt

theorem pageAddress_lt (b : Fin 8) {page : Nat} (h : page < 4) (addr : Word) :
    pageAddress b page addr < physicalBytes := by
  have := addr.isLt
  have := b.isLt
  unfold pageAddress physicalBytes
  omega

/-- Translation never leaves physical memory. -/
theorem translate_lt (l : MappingLayout) (map : Mapping) (addr : Word) (space : Space) :
    Machine.translate l map addr space < physicalBytes := by
  have := addr.isLt
  unfold Machine.translate
  split
  · unfold physicalBytes; omega
  · dsimp only
    split
    · exact pageAddress_lt _ (field2_lt _ _) _
    · split
      · exact pageAddress_lt _ (field2_lt _ _) _
      · unfold physicalBytes; omega

/-- One byte write of the CPU keeps memory canonical. -/
theorem writeByte_ram_wf {s : State} (h : s.ram.wf) (addr : Word) (space : Space) (v : Byte) :
    (s.writeByte addr space v).ram.wf := write_wf h (translate_lt _ _ _ _) v

/-- A diff list applied keeps memory canonical. -/
theorem redo_wf {ws : List WriteDiff} (hw : ∀ w ∈ ws, w.addr < physicalBytes) {m : Memory} (h : m.wf) :
    (redo ws m).wf := by
  induction ws generalizing m with
  | nil => exact h
  | cons w ws ih => exact ih (fun x hx => hw x (by simp [hx])) (write_wf h (hw w (by simp)) _)

/-- A diff list undone keeps memory canonical. -/
theorem undo_wf {ws : List WriteDiff} (hw : ∀ w ∈ ws, w.addr < physicalBytes) {m : Memory} (h : m.wf) :
    (undo ws m).wf := by
  induction ws with
  | nil => exact h
  | cons w ws ih => exact write_wf (ih fun x hx => hw x (by simp [hx])) (hw w (by simp)) _

end Sys2Proof.Laws
end

