-- ==== Sys2Proof/Laws/State.lean ====
section
/-! SUPPORT. What each update of State leaves: one lemma for each field an update does not touch, and for the fields of
the CPU that register writes do not touch, all true by definition. -/

namespace Sys2Proof.Laws

open Sys2Proof.Machine

variable (s : State)

@[simp] theorem setReg_mci (r : Reg) (v : Byte) : (s.setReg r v).mci = s.mci := by cases r <;> rfl
@[simp] theorem setReg_w (r : Reg) (v : Byte) : (s.setReg r v).w = s.w := by cases r <;> rfl
@[simp] theorem setReg_z (r : Reg) (v : Byte) : (s.setReg r v).z = s.z := by cases r <;> rfl
@[simp] theorem setReg_ram (r : Reg) (v : Byte) : (s.setReg r v).ram = s.ram := by cases r <;> rfl
@[simp] theorem setReg_map (r : Reg) (v : Byte) : (s.setReg r v).map = s.map := by cases r <;> rfl
@[simp] theorem setReg_romMode (r : Reg) (v : Byte) : (s.setReg r v).romMode = s.romMode := by cases r <;> rfl
@[simp] theorem setReg_fault (r : Reg) (v : Byte) : (s.setReg r v).fault = s.fault := by cases r <;> rfl
@[simp] theorem setReg_diff (r : Reg) (v : Byte) : (s.setReg r v).diff = s.diff := by cases r <;> rfl
@[simp] theorem setReg_trace (r : Reg) (v : Byte) : (s.setReg r v).trace = s.trace := by cases r <;> rfl
@[simp] theorem setReg_io (r : Reg) (v : Byte) : (s.setReg r v).io = s.io := by cases r <;> rfl
@[simp] theorem setReg_disp (r : Reg) (v : Byte) : (s.setReg r v).disp = s.disp := by cases r <;> rfl
@[simp] theorem setReg_loop (r : Reg) (v : Byte) : (s.setReg r v).loop = s.loop := by cases r <;> rfl
@[simp] theorem setReg_frameRun (r : Reg) (v : Byte) : (s.setReg r v).frameRun = s.frameRun := by cases r <;> rfl
@[simp] theorem setReg_lastFrame (r : Reg) (v : Byte) : (s.setReg r v).lastFrame = s.lastFrame := by cases r <;> rfl
@[simp] theorem setReg_hist (r : Reg) (v : Byte) : (s.setReg r v).hist = s.hist := by cases r <;> rfl
@[simp] theorem setReg_requests (r : Reg) (v : Byte) : (s.setReg r v).requests = s.requests := by cases r <;> rfl
@[simp] theorem setReg_responses (r : Reg) (v : Byte) : (s.setReg r v).responses = s.responses := by cases r <;> rfl
@[simp] theorem setReg_hookInstalled (r : Reg) (v : Byte) : (s.setReg r v).hookInstalled = s.hookInstalled := by cases r <;> rfl
@[simp] theorem setReg_displayIn (r : Reg) (v : Byte) : (s.setReg r v).displayIn = s.displayIn := by cases r <;> rfl
@[simp] theorem setReg_portIn (r : Reg) (v : Byte) : (s.setReg r v).portIn = s.portIn := by cases r <;> rfl
@[simp] theorem setReg_hookIn (r : Reg) (v : Byte) : (s.setReg r v).hookIn = s.hookIn := by cases r <;> rfl
@[simp] theorem setReg_draws (r : Reg) (v : Byte) : (s.setReg r v).draws = s.draws := by cases r <;> rfl
@[simp] theorem setReg_params (r : Reg) (v : Byte) : (s.setReg r v).params = s.params := by cases r <;> rfl

@[simp] theorem setSp_mci (v : Word) : (s.setSp v).mci = s.mci := rfl
@[simp] theorem setSp_w (v : Word) : (s.setSp v).w = s.w := rfl
@[simp] theorem setSp_z (v : Word) : (s.setSp v).z = s.z := rfl
@[simp] theorem setSp_ram (v : Word) : (s.setSp v).ram = s.ram := rfl
@[simp] theorem setSp_map (v : Word) : (s.setSp v).map = s.map := rfl
@[simp] theorem setSp_romMode (v : Word) : (s.setSp v).romMode = s.romMode := rfl
@[simp] theorem setSp_fault (v : Word) : (s.setSp v).fault = s.fault := rfl
@[simp] theorem setSp_diff (v : Word) : (s.setSp v).diff = s.diff := rfl
@[simp] theorem setSp_trace (v : Word) : (s.setSp v).trace = s.trace := rfl
@[simp] theorem setSp_io (v : Word) : (s.setSp v).io = s.io := rfl
@[simp] theorem setSp_disp (v : Word) : (s.setSp v).disp = s.disp := rfl
@[simp] theorem setSp_loop (v : Word) : (s.setSp v).loop = s.loop := rfl
@[simp] theorem setSp_frameRun (v : Word) : (s.setSp v).frameRun = s.frameRun := rfl
@[simp] theorem setSp_lastFrame (v : Word) : (s.setSp v).lastFrame = s.lastFrame := rfl
@[simp] theorem setSp_hist (v : Word) : (s.setSp v).hist = s.hist := rfl
@[simp] theorem setSp_requests (v : Word) : (s.setSp v).requests = s.requests := rfl
@[simp] theorem setSp_responses (v : Word) : (s.setSp v).responses = s.responses := rfl
@[simp] theorem setSp_hookInstalled (v : Word) : (s.setSp v).hookInstalled = s.hookInstalled := rfl
@[simp] theorem setSp_displayIn (v : Word) : (s.setSp v).displayIn = s.displayIn := rfl
@[simp] theorem setSp_portIn (v : Word) : (s.setSp v).portIn = s.portIn := rfl
@[simp] theorem setSp_hookIn (v : Word) : (s.setSp v).hookIn = s.hookIn := rfl
@[simp] theorem setSp_draws (v : Word) : (s.setSp v).draws = s.draws := rfl
@[simp] theorem setSp_params (v : Word) : (s.setSp v).params = s.params := rfl

@[simp] theorem setPc_mci (v : Word) : (s.setPc v).mci = s.mci := rfl
@[simp] theorem setPc_w (v : Word) : (s.setPc v).w = s.w := rfl
@[simp] theorem setPc_z (v : Word) : (s.setPc v).z = s.z := rfl
@[simp] theorem setPc_ram (v : Word) : (s.setPc v).ram = s.ram := rfl
@[simp] theorem setPc_map (v : Word) : (s.setPc v).map = s.map := rfl
@[simp] theorem setPc_romMode (v : Word) : (s.setPc v).romMode = s.romMode := rfl
@[simp] theorem setPc_fault (v : Word) : (s.setPc v).fault = s.fault := rfl
@[simp] theorem setPc_diff (v : Word) : (s.setPc v).diff = s.diff := rfl
@[simp] theorem setPc_trace (v : Word) : (s.setPc v).trace = s.trace := rfl
@[simp] theorem setPc_io (v : Word) : (s.setPc v).io = s.io := rfl
@[simp] theorem setPc_disp (v : Word) : (s.setPc v).disp = s.disp := rfl
@[simp] theorem setPc_loop (v : Word) : (s.setPc v).loop = s.loop := rfl
@[simp] theorem setPc_frameRun (v : Word) : (s.setPc v).frameRun = s.frameRun := rfl
@[simp] theorem setPc_lastFrame (v : Word) : (s.setPc v).lastFrame = s.lastFrame := rfl
@[simp] theorem setPc_hist (v : Word) : (s.setPc v).hist = s.hist := rfl
@[simp] theorem setPc_requests (v : Word) : (s.setPc v).requests = s.requests := rfl
@[simp] theorem setPc_responses (v : Word) : (s.setPc v).responses = s.responses := rfl
@[simp] theorem setPc_hookInstalled (v : Word) : (s.setPc v).hookInstalled = s.hookInstalled := rfl
@[simp] theorem setPc_displayIn (v : Word) : (s.setPc v).displayIn = s.displayIn := rfl
@[simp] theorem setPc_portIn (v : Word) : (s.setPc v).portIn = s.portIn := rfl
@[simp] theorem setPc_hookIn (v : Word) : (s.setPc v).hookIn = s.hookIn := rfl
@[simp] theorem setPc_draws (v : Word) : (s.setPc v).draws = s.draws := rfl
@[simp] theorem setPc_params (v : Word) : (s.setPc v).params = s.params := rfl

@[simp] theorem setPair_mci (p : Pair) (v : Word) : (s.setPair p v).mci = s.mci := by cases p <;> rfl
@[simp] theorem setPair_w (p : Pair) (v : Word) : (s.setPair p v).w = s.w := by cases p <;> rfl
@[simp] theorem setPair_z (p : Pair) (v : Word) : (s.setPair p v).z = s.z := by cases p <;> rfl
@[simp] theorem setPair_ram (p : Pair) (v : Word) : (s.setPair p v).ram = s.ram := by cases p <;> rfl
@[simp] theorem setPair_map (p : Pair) (v : Word) : (s.setPair p v).map = s.map := by cases p <;> rfl
@[simp] theorem setPair_romMode (p : Pair) (v : Word) : (s.setPair p v).romMode = s.romMode := by cases p <;> rfl
@[simp] theorem setPair_fault (p : Pair) (v : Word) : (s.setPair p v).fault = s.fault := by cases p <;> rfl
@[simp] theorem setPair_diff (p : Pair) (v : Word) : (s.setPair p v).diff = s.diff := by cases p <;> rfl
@[simp] theorem setPair_trace (p : Pair) (v : Word) : (s.setPair p v).trace = s.trace := by cases p <;> rfl
@[simp] theorem setPair_io (p : Pair) (v : Word) : (s.setPair p v).io = s.io := by cases p <;> rfl
@[simp] theorem setPair_disp (p : Pair) (v : Word) : (s.setPair p v).disp = s.disp := by cases p <;> rfl
@[simp] theorem setPair_loop (p : Pair) (v : Word) : (s.setPair p v).loop = s.loop := by cases p <;> rfl
@[simp] theorem setPair_frameRun (p : Pair) (v : Word) : (s.setPair p v).frameRun = s.frameRun := by cases p <;> rfl
@[simp] theorem setPair_lastFrame (p : Pair) (v : Word) : (s.setPair p v).lastFrame = s.lastFrame := by cases p <;> rfl
@[simp] theorem setPair_hist (p : Pair) (v : Word) : (s.setPair p v).hist = s.hist := by cases p <;> rfl
@[simp] theorem setPair_requests (p : Pair) (v : Word) : (s.setPair p v).requests = s.requests := by cases p <;> rfl
@[simp] theorem setPair_responses (p : Pair) (v : Word) : (s.setPair p v).responses = s.responses := by cases p <;> rfl
@[simp] theorem setPair_hookInstalled (p : Pair) (v : Word) : (s.setPair p v).hookInstalled = s.hookInstalled := by cases p <;> rfl
@[simp] theorem setPair_displayIn (p : Pair) (v : Word) : (s.setPair p v).displayIn = s.displayIn := by cases p <;> rfl
@[simp] theorem setPair_portIn (p : Pair) (v : Word) : (s.setPair p v).portIn = s.portIn := by cases p <;> rfl
@[simp] theorem setPair_hookIn (p : Pair) (v : Word) : (s.setPair p v).hookIn = s.hookIn := by cases p <;> rfl
@[simp] theorem setPair_draws (p : Pair) (v : Word) : (s.setPair p v).draws = s.draws := by cases p <;> rfl
@[simp] theorem setPair_params (p : Pair) (v : Word) : (s.setPair p v).params = s.params := by cases p <;> rfl

@[simp] theorem setFlags_mci (f : Flags) : (s.setFlags f).mci = s.mci := rfl
@[simp] theorem setFlags_w (f : Flags) : (s.setFlags f).w = s.w := rfl
@[simp] theorem setFlags_z (f : Flags) : (s.setFlags f).z = s.z := rfl
@[simp] theorem setFlags_ram (f : Flags) : (s.setFlags f).ram = s.ram := rfl
@[simp] theorem setFlags_map (f : Flags) : (s.setFlags f).map = s.map := rfl
@[simp] theorem setFlags_romMode (f : Flags) : (s.setFlags f).romMode = s.romMode := rfl
@[simp] theorem setFlags_fault (f : Flags) : (s.setFlags f).fault = s.fault := rfl
@[simp] theorem setFlags_diff (f : Flags) : (s.setFlags f).diff = s.diff := rfl
@[simp] theorem setFlags_trace (f : Flags) : (s.setFlags f).trace = s.trace := rfl
@[simp] theorem setFlags_io (f : Flags) : (s.setFlags f).io = s.io := rfl
@[simp] theorem setFlags_disp (f : Flags) : (s.setFlags f).disp = s.disp := rfl
@[simp] theorem setFlags_loop (f : Flags) : (s.setFlags f).loop = s.loop := rfl
@[simp] theorem setFlags_frameRun (f : Flags) : (s.setFlags f).frameRun = s.frameRun := rfl
@[simp] theorem setFlags_lastFrame (f : Flags) : (s.setFlags f).lastFrame = s.lastFrame := rfl
@[simp] theorem setFlags_hist (f : Flags) : (s.setFlags f).hist = s.hist := rfl
@[simp] theorem setFlags_requests (f : Flags) : (s.setFlags f).requests = s.requests := rfl
@[simp] theorem setFlags_responses (f : Flags) : (s.setFlags f).responses = s.responses := rfl
@[simp] theorem setFlags_hookInstalled (f : Flags) : (s.setFlags f).hookInstalled = s.hookInstalled := rfl
@[simp] theorem setFlags_displayIn (f : Flags) : (s.setFlags f).displayIn = s.displayIn := rfl
@[simp] theorem setFlags_portIn (f : Flags) : (s.setFlags f).portIn = s.portIn := rfl
@[simp] theorem setFlags_hookIn (f : Flags) : (s.setFlags f).hookIn = s.hookIn := rfl
@[simp] theorem setFlags_draws (f : Flags) : (s.setFlags f).draws = s.draws := rfl
@[simp] theorem setFlags_params (f : Flags) : (s.setFlags f).params = s.params := rfl

@[simp] theorem setFlagsKeepCy_mci (f : Flags) : (s.setFlagsKeepCy f).mci = s.mci := rfl
@[simp] theorem setFlagsKeepCy_w (f : Flags) : (s.setFlagsKeepCy f).w = s.w := rfl
@[simp] theorem setFlagsKeepCy_z (f : Flags) : (s.setFlagsKeepCy f).z = s.z := rfl
@[simp] theorem setFlagsKeepCy_ram (f : Flags) : (s.setFlagsKeepCy f).ram = s.ram := rfl
@[simp] theorem setFlagsKeepCy_map (f : Flags) : (s.setFlagsKeepCy f).map = s.map := rfl
@[simp] theorem setFlagsKeepCy_romMode (f : Flags) : (s.setFlagsKeepCy f).romMode = s.romMode := rfl
@[simp] theorem setFlagsKeepCy_fault (f : Flags) : (s.setFlagsKeepCy f).fault = s.fault := rfl
@[simp] theorem setFlagsKeepCy_diff (f : Flags) : (s.setFlagsKeepCy f).diff = s.diff := rfl
@[simp] theorem setFlagsKeepCy_trace (f : Flags) : (s.setFlagsKeepCy f).trace = s.trace := rfl
@[simp] theorem setFlagsKeepCy_io (f : Flags) : (s.setFlagsKeepCy f).io = s.io := rfl
@[simp] theorem setFlagsKeepCy_disp (f : Flags) : (s.setFlagsKeepCy f).disp = s.disp := rfl
@[simp] theorem setFlagsKeepCy_loop (f : Flags) : (s.setFlagsKeepCy f).loop = s.loop := rfl
@[simp] theorem setFlagsKeepCy_frameRun (f : Flags) : (s.setFlagsKeepCy f).frameRun = s.frameRun := rfl
@[simp] theorem setFlagsKeepCy_lastFrame (f : Flags) : (s.setFlagsKeepCy f).lastFrame = s.lastFrame := rfl
@[simp] theorem setFlagsKeepCy_hist (f : Flags) : (s.setFlagsKeepCy f).hist = s.hist := rfl
@[simp] theorem setFlagsKeepCy_requests (f : Flags) : (s.setFlagsKeepCy f).requests = s.requests := rfl
@[simp] theorem setFlagsKeepCy_responses (f : Flags) : (s.setFlagsKeepCy f).responses = s.responses := rfl
@[simp] theorem setFlagsKeepCy_hookInstalled (f : Flags) : (s.setFlagsKeepCy f).hookInstalled = s.hookInstalled := rfl
@[simp] theorem setFlagsKeepCy_displayIn (f : Flags) : (s.setFlagsKeepCy f).displayIn = s.displayIn := rfl
@[simp] theorem setFlagsKeepCy_portIn (f : Flags) : (s.setFlagsKeepCy f).portIn = s.portIn := rfl
@[simp] theorem setFlagsKeepCy_hookIn (f : Flags) : (s.setFlagsKeepCy f).hookIn = s.hookIn := rfl
@[simp] theorem setFlagsKeepCy_draws (f : Flags) : (s.setFlagsKeepCy f).draws = s.draws := rfl
@[simp] theorem setFlagsKeepCy_params (f : Flags) : (s.setFlagsKeepCy f).params = s.params := rfl

@[simp] theorem setCy_mci (b : Bool) : (s.setCy b).mci = s.mci := rfl
@[simp] theorem setCy_w (b : Bool) : (s.setCy b).w = s.w := rfl
@[simp] theorem setCy_z (b : Bool) : (s.setCy b).z = s.z := rfl
@[simp] theorem setCy_ram (b : Bool) : (s.setCy b).ram = s.ram := rfl
@[simp] theorem setCy_map (b : Bool) : (s.setCy b).map = s.map := rfl
@[simp] theorem setCy_romMode (b : Bool) : (s.setCy b).romMode = s.romMode := rfl
@[simp] theorem setCy_fault (b : Bool) : (s.setCy b).fault = s.fault := rfl
@[simp] theorem setCy_diff (b : Bool) : (s.setCy b).diff = s.diff := rfl
@[simp] theorem setCy_trace (b : Bool) : (s.setCy b).trace = s.trace := rfl
@[simp] theorem setCy_io (b : Bool) : (s.setCy b).io = s.io := rfl
@[simp] theorem setCy_disp (b : Bool) : (s.setCy b).disp = s.disp := rfl
@[simp] theorem setCy_loop (b : Bool) : (s.setCy b).loop = s.loop := rfl
@[simp] theorem setCy_frameRun (b : Bool) : (s.setCy b).frameRun = s.frameRun := rfl
@[simp] theorem setCy_lastFrame (b : Bool) : (s.setCy b).lastFrame = s.lastFrame := rfl
@[simp] theorem setCy_hist (b : Bool) : (s.setCy b).hist = s.hist := rfl
@[simp] theorem setCy_requests (b : Bool) : (s.setCy b).requests = s.requests := rfl
@[simp] theorem setCy_responses (b : Bool) : (s.setCy b).responses = s.responses := rfl
@[simp] theorem setCy_hookInstalled (b : Bool) : (s.setCy b).hookInstalled = s.hookInstalled := rfl
@[simp] theorem setCy_displayIn (b : Bool) : (s.setCy b).displayIn = s.displayIn := rfl
@[simp] theorem setCy_portIn (b : Bool) : (s.setCy b).portIn = s.portIn := rfl
@[simp] theorem setCy_hookIn (b : Bool) : (s.setCy b).hookIn = s.hookIn := rfl
@[simp] theorem setCy_draws (b : Bool) : (s.setCy b).draws = s.draws := rfl
@[simp] theorem setCy_params (b : Bool) : (s.setCy b).params = s.params := rfl

@[simp] theorem accumulate_mci (op : AluOp) (b : Byte) : (s.accumulate op b).mci = s.mci := by cases op <;> rfl
@[simp] theorem accumulate_w (op : AluOp) (b : Byte) : (s.accumulate op b).w = s.w := by cases op <;> rfl
@[simp] theorem accumulate_z (op : AluOp) (b : Byte) : (s.accumulate op b).z = s.z := by cases op <;> rfl
@[simp] theorem accumulate_ram (op : AluOp) (b : Byte) : (s.accumulate op b).ram = s.ram := by cases op <;> rfl
@[simp] theorem accumulate_map (op : AluOp) (b : Byte) : (s.accumulate op b).map = s.map := by cases op <;> rfl
@[simp] theorem accumulate_romMode (op : AluOp) (b : Byte) : (s.accumulate op b).romMode = s.romMode := by cases op <;> rfl
@[simp] theorem accumulate_fault (op : AluOp) (b : Byte) : (s.accumulate op b).fault = s.fault := by cases op <;> rfl
@[simp] theorem accumulate_diff (op : AluOp) (b : Byte) : (s.accumulate op b).diff = s.diff := by cases op <;> rfl
@[simp] theorem accumulate_trace (op : AluOp) (b : Byte) : (s.accumulate op b).trace = s.trace := by cases op <;> rfl
@[simp] theorem accumulate_io (op : AluOp) (b : Byte) : (s.accumulate op b).io = s.io := by cases op <;> rfl
@[simp] theorem accumulate_disp (op : AluOp) (b : Byte) : (s.accumulate op b).disp = s.disp := by cases op <;> rfl
@[simp] theorem accumulate_loop (op : AluOp) (b : Byte) : (s.accumulate op b).loop = s.loop := by cases op <;> rfl
@[simp] theorem accumulate_frameRun (op : AluOp) (b : Byte) : (s.accumulate op b).frameRun = s.frameRun := by cases op <;> rfl
@[simp] theorem accumulate_lastFrame (op : AluOp) (b : Byte) : (s.accumulate op b).lastFrame = s.lastFrame := by cases op <;> rfl
@[simp] theorem accumulate_hist (op : AluOp) (b : Byte) : (s.accumulate op b).hist = s.hist := by cases op <;> rfl
@[simp] theorem accumulate_requests (op : AluOp) (b : Byte) : (s.accumulate op b).requests = s.requests := by cases op <;> rfl
@[simp] theorem accumulate_responses (op : AluOp) (b : Byte) : (s.accumulate op b).responses = s.responses := by cases op <;> rfl
@[simp] theorem accumulate_hookInstalled (op : AluOp) (b : Byte) : (s.accumulate op b).hookInstalled = s.hookInstalled := by cases op <;> rfl
@[simp] theorem accumulate_displayIn (op : AluOp) (b : Byte) : (s.accumulate op b).displayIn = s.displayIn := by cases op <;> rfl
@[simp] theorem accumulate_portIn (op : AluOp) (b : Byte) : (s.accumulate op b).portIn = s.portIn := by cases op <;> rfl
@[simp] theorem accumulate_hookIn (op : AluOp) (b : Byte) : (s.accumulate op b).hookIn = s.hookIn := by cases op <;> rfl
@[simp] theorem accumulate_draws (op : AluOp) (b : Byte) : (s.accumulate op b).draws = s.draws := by cases op <;> rfl
@[simp] theorem accumulate_params (op : AluOp) (b : Byte) : (s.accumulate op b).params = s.params := by cases op <;> rfl

@[simp] theorem addToHl_mci (v : Word) : (s.addToHl v).mci = s.mci := rfl
@[simp] theorem addToHl_w (v : Word) : (s.addToHl v).w = s.w := rfl
@[simp] theorem addToHl_z (v : Word) : (s.addToHl v).z = s.z := rfl
@[simp] theorem addToHl_ram (v : Word) : (s.addToHl v).ram = s.ram := rfl
@[simp] theorem addToHl_map (v : Word) : (s.addToHl v).map = s.map := rfl
@[simp] theorem addToHl_romMode (v : Word) : (s.addToHl v).romMode = s.romMode := rfl
@[simp] theorem addToHl_fault (v : Word) : (s.addToHl v).fault = s.fault := rfl
@[simp] theorem addToHl_diff (v : Word) : (s.addToHl v).diff = s.diff := rfl
@[simp] theorem addToHl_trace (v : Word) : (s.addToHl v).trace = s.trace := rfl
@[simp] theorem addToHl_io (v : Word) : (s.addToHl v).io = s.io := rfl
@[simp] theorem addToHl_disp (v : Word) : (s.addToHl v).disp = s.disp := rfl
@[simp] theorem addToHl_loop (v : Word) : (s.addToHl v).loop = s.loop := rfl
@[simp] theorem addToHl_frameRun (v : Word) : (s.addToHl v).frameRun = s.frameRun := rfl
@[simp] theorem addToHl_lastFrame (v : Word) : (s.addToHl v).lastFrame = s.lastFrame := rfl
@[simp] theorem addToHl_hist (v : Word) : (s.addToHl v).hist = s.hist := rfl
@[simp] theorem addToHl_requests (v : Word) : (s.addToHl v).requests = s.requests := rfl
@[simp] theorem addToHl_responses (v : Word) : (s.addToHl v).responses = s.responses := rfl
@[simp] theorem addToHl_hookInstalled (v : Word) : (s.addToHl v).hookInstalled = s.hookInstalled := rfl
@[simp] theorem addToHl_displayIn (v : Word) : (s.addToHl v).displayIn = s.displayIn := rfl
@[simp] theorem addToHl_portIn (v : Word) : (s.addToHl v).portIn = s.portIn := rfl
@[simp] theorem addToHl_hookIn (v : Word) : (s.addToHl v).hookIn = s.hookIn := rfl
@[simp] theorem addToHl_draws (v : Word) : (s.addToHl v).draws = s.draws := rfl
@[simp] theorem addToHl_params (v : Word) : (s.addToHl v).params = s.params := rfl

@[simp] theorem rotateA_mci (a : Byte) (b : Bool) : (s.rotateA a b).mci = s.mci := rfl
@[simp] theorem rotateA_w (a : Byte) (b : Bool) : (s.rotateA a b).w = s.w := rfl
@[simp] theorem rotateA_z (a : Byte) (b : Bool) : (s.rotateA a b).z = s.z := rfl
@[simp] theorem rotateA_ram (a : Byte) (b : Bool) : (s.rotateA a b).ram = s.ram := rfl
@[simp] theorem rotateA_map (a : Byte) (b : Bool) : (s.rotateA a b).map = s.map := rfl
@[simp] theorem rotateA_romMode (a : Byte) (b : Bool) : (s.rotateA a b).romMode = s.romMode := rfl
@[simp] theorem rotateA_fault (a : Byte) (b : Bool) : (s.rotateA a b).fault = s.fault := rfl
@[simp] theorem rotateA_diff (a : Byte) (b : Bool) : (s.rotateA a b).diff = s.diff := rfl
@[simp] theorem rotateA_trace (a : Byte) (b : Bool) : (s.rotateA a b).trace = s.trace := rfl
@[simp] theorem rotateA_io (a : Byte) (b : Bool) : (s.rotateA a b).io = s.io := rfl
@[simp] theorem rotateA_disp (a : Byte) (b : Bool) : (s.rotateA a b).disp = s.disp := rfl
@[simp] theorem rotateA_loop (a : Byte) (b : Bool) : (s.rotateA a b).loop = s.loop := rfl
@[simp] theorem rotateA_frameRun (a : Byte) (b : Bool) : (s.rotateA a b).frameRun = s.frameRun := rfl
@[simp] theorem rotateA_lastFrame (a : Byte) (b : Bool) : (s.rotateA a b).lastFrame = s.lastFrame := rfl
@[simp] theorem rotateA_hist (a : Byte) (b : Bool) : (s.rotateA a b).hist = s.hist := rfl
@[simp] theorem rotateA_requests (a : Byte) (b : Bool) : (s.rotateA a b).requests = s.requests := rfl
@[simp] theorem rotateA_responses (a : Byte) (b : Bool) : (s.rotateA a b).responses = s.responses := rfl
@[simp] theorem rotateA_hookInstalled (a : Byte) (b : Bool) : (s.rotateA a b).hookInstalled = s.hookInstalled := rfl
@[simp] theorem rotateA_displayIn (a : Byte) (b : Bool) : (s.rotateA a b).displayIn = s.displayIn := rfl
@[simp] theorem rotateA_portIn (a : Byte) (b : Bool) : (s.rotateA a b).portIn = s.portIn := rfl
@[simp] theorem rotateA_hookIn (a : Byte) (b : Bool) : (s.rotateA a b).hookIn = s.hookIn := rfl
@[simp] theorem rotateA_draws (a : Byte) (b : Bool) : (s.rotateA a b).draws = s.draws := rfl
@[simp] theorem rotateA_params (a : Byte) (b : Bool) : (s.rotateA a b).params = s.params := rfl

@[simp] theorem noteRead_cpu (a : Word) (sp : Space) : (s.noteRead a sp).cpu = s.cpu := rfl
@[simp] theorem noteRead_mci (a : Word) (sp : Space) : (s.noteRead a sp).mci = s.mci := rfl
@[simp] theorem noteRead_w (a : Word) (sp : Space) : (s.noteRead a sp).w = s.w := rfl
@[simp] theorem noteRead_z (a : Word) (sp : Space) : (s.noteRead a sp).z = s.z := rfl
@[simp] theorem noteRead_ram (a : Word) (sp : Space) : (s.noteRead a sp).ram = s.ram := rfl
@[simp] theorem noteRead_map (a : Word) (sp : Space) : (s.noteRead a sp).map = s.map := rfl
@[simp] theorem noteRead_romMode (a : Word) (sp : Space) : (s.noteRead a sp).romMode = s.romMode := rfl
@[simp] theorem noteRead_fault (a : Word) (sp : Space) : (s.noteRead a sp).fault = s.fault := rfl
@[simp] theorem noteRead_io (a : Word) (sp : Space) : (s.noteRead a sp).io = s.io := rfl
@[simp] theorem noteRead_disp (a : Word) (sp : Space) : (s.noteRead a sp).disp = s.disp := rfl
@[simp] theorem noteRead_loop (a : Word) (sp : Space) : (s.noteRead a sp).loop = s.loop := rfl
@[simp] theorem noteRead_frameRun (a : Word) (sp : Space) : (s.noteRead a sp).frameRun = s.frameRun := rfl
@[simp] theorem noteRead_lastFrame (a : Word) (sp : Space) : (s.noteRead a sp).lastFrame = s.lastFrame := rfl
@[simp] theorem noteRead_hist (a : Word) (sp : Space) : (s.noteRead a sp).hist = s.hist := rfl
@[simp] theorem noteRead_requests (a : Word) (sp : Space) : (s.noteRead a sp).requests = s.requests := rfl
@[simp] theorem noteRead_responses (a : Word) (sp : Space) : (s.noteRead a sp).responses = s.responses := rfl
@[simp] theorem noteRead_hookInstalled (a : Word) (sp : Space) : (s.noteRead a sp).hookInstalled = s.hookInstalled := rfl
@[simp] theorem noteRead_displayIn (a : Word) (sp : Space) : (s.noteRead a sp).displayIn = s.displayIn := rfl
@[simp] theorem noteRead_portIn (a : Word) (sp : Space) : (s.noteRead a sp).portIn = s.portIn := rfl
@[simp] theorem noteRead_hookIn (a : Word) (sp : Space) : (s.noteRead a sp).hookIn = s.hookIn := rfl
@[simp] theorem noteRead_draws (a : Word) (sp : Space) : (s.noteRead a sp).draws = s.draws := rfl
@[simp] theorem noteRead_params (a : Word) (sp : Space) : (s.noteRead a sp).params = s.params := rfl

@[simp] theorem writeByte_cpu (a : Word) (sp : Space) (v : Byte) : (s.writeByte a sp v).cpu = s.cpu := rfl
@[simp] theorem writeByte_mci (a : Word) (sp : Space) (v : Byte) : (s.writeByte a sp v).mci = s.mci := rfl
@[simp] theorem writeByte_w (a : Word) (sp : Space) (v : Byte) : (s.writeByte a sp v).w = s.w := rfl
@[simp] theorem writeByte_z (a : Word) (sp : Space) (v : Byte) : (s.writeByte a sp v).z = s.z := rfl
@[simp] theorem writeByte_map (a : Word) (sp : Space) (v : Byte) : (s.writeByte a sp v).map = s.map := rfl
@[simp] theorem writeByte_romMode (a : Word) (sp : Space) (v : Byte) : (s.writeByte a sp v).romMode = s.romMode := rfl
@[simp] theorem writeByte_fault (a : Word) (sp : Space) (v : Byte) : (s.writeByte a sp v).fault = s.fault := rfl
@[simp] theorem writeByte_io (a : Word) (sp : Space) (v : Byte) : (s.writeByte a sp v).io = s.io := rfl
@[simp] theorem writeByte_disp (a : Word) (sp : Space) (v : Byte) : (s.writeByte a sp v).disp = s.disp := rfl
@[simp] theorem writeByte_loop (a : Word) (sp : Space) (v : Byte) : (s.writeByte a sp v).loop = s.loop := rfl
@[simp] theorem writeByte_frameRun (a : Word) (sp : Space) (v : Byte) : (s.writeByte a sp v).frameRun = s.frameRun := rfl
@[simp] theorem writeByte_lastFrame (a : Word) (sp : Space) (v : Byte) : (s.writeByte a sp v).lastFrame = s.lastFrame := rfl
@[simp] theorem writeByte_hist (a : Word) (sp : Space) (v : Byte) : (s.writeByte a sp v).hist = s.hist := rfl
@[simp] theorem writeByte_requests (a : Word) (sp : Space) (v : Byte) : (s.writeByte a sp v).requests = s.requests := rfl
@[simp] theorem writeByte_responses (a : Word) (sp : Space) (v : Byte) : (s.writeByte a sp v).responses = s.responses := rfl
@[simp] theorem writeByte_hookInstalled (a : Word) (sp : Space) (v : Byte) : (s.writeByte a sp v).hookInstalled = s.hookInstalled := rfl
@[simp] theorem writeByte_displayIn (a : Word) (sp : Space) (v : Byte) : (s.writeByte a sp v).displayIn = s.displayIn := rfl
@[simp] theorem writeByte_portIn (a : Word) (sp : Space) (v : Byte) : (s.writeByte a sp v).portIn = s.portIn := rfl
@[simp] theorem writeByte_hookIn (a : Word) (sp : Space) (v : Byte) : (s.writeByte a sp v).hookIn = s.hookIn := rfl
@[simp] theorem writeByte_draws (a : Word) (sp : Space) (v : Byte) : (s.writeByte a sp v).draws = s.draws := rfl
@[simp] theorem writeByte_params (a : Word) (sp : Space) (v : Byte) : (s.writeByte a sp v).params = s.params := rfl

@[simp] theorem loadZ_cpu (a : Word) (sp : Space) : (s.loadZ a sp).cpu = s.cpu := rfl
@[simp] theorem loadZ_mci (a : Word) (sp : Space) : (s.loadZ a sp).mci = s.mci := rfl
@[simp] theorem loadZ_w (a : Word) (sp : Space) : (s.loadZ a sp).w = s.w := rfl
@[simp] theorem loadZ_ram (a : Word) (sp : Space) : (s.loadZ a sp).ram = s.ram := rfl
@[simp] theorem loadZ_map (a : Word) (sp : Space) : (s.loadZ a sp).map = s.map := rfl
@[simp] theorem loadZ_romMode (a : Word) (sp : Space) : (s.loadZ a sp).romMode = s.romMode := rfl
@[simp] theorem loadZ_fault (a : Word) (sp : Space) : (s.loadZ a sp).fault = s.fault := rfl
@[simp] theorem loadZ_io (a : Word) (sp : Space) : (s.loadZ a sp).io = s.io := rfl
@[simp] theorem loadZ_disp (a : Word) (sp : Space) : (s.loadZ a sp).disp = s.disp := rfl
@[simp] theorem loadZ_loop (a : Word) (sp : Space) : (s.loadZ a sp).loop = s.loop := rfl
@[simp] theorem loadZ_frameRun (a : Word) (sp : Space) : (s.loadZ a sp).frameRun = s.frameRun := rfl
@[simp] theorem loadZ_lastFrame (a : Word) (sp : Space) : (s.loadZ a sp).lastFrame = s.lastFrame := rfl
@[simp] theorem loadZ_hist (a : Word) (sp : Space) : (s.loadZ a sp).hist = s.hist := rfl
@[simp] theorem loadZ_requests (a : Word) (sp : Space) : (s.loadZ a sp).requests = s.requests := rfl
@[simp] theorem loadZ_responses (a : Word) (sp : Space) : (s.loadZ a sp).responses = s.responses := rfl
@[simp] theorem loadZ_hookInstalled (a : Word) (sp : Space) : (s.loadZ a sp).hookInstalled = s.hookInstalled := rfl
@[simp] theorem loadZ_displayIn (a : Word) (sp : Space) : (s.loadZ a sp).displayIn = s.displayIn := rfl
@[simp] theorem loadZ_portIn (a : Word) (sp : Space) : (s.loadZ a sp).portIn = s.portIn := rfl
@[simp] theorem loadZ_hookIn (a : Word) (sp : Space) : (s.loadZ a sp).hookIn = s.hookIn := rfl
@[simp] theorem loadZ_draws (a : Word) (sp : Space) : (s.loadZ a sp).draws = s.draws := rfl
@[simp] theorem loadZ_params (a : Word) (sp : Space) : (s.loadZ a sp).params = s.params := rfl

@[simp] theorem loadW_cpu (a : Word) (sp : Space) : (s.loadW a sp).cpu = s.cpu := rfl
@[simp] theorem loadW_mci (a : Word) (sp : Space) : (s.loadW a sp).mci = s.mci := rfl
@[simp] theorem loadW_z (a : Word) (sp : Space) : (s.loadW a sp).z = s.z := rfl
@[simp] theorem loadW_ram (a : Word) (sp : Space) : (s.loadW a sp).ram = s.ram := rfl
@[simp] theorem loadW_map (a : Word) (sp : Space) : (s.loadW a sp).map = s.map := rfl
@[simp] theorem loadW_romMode (a : Word) (sp : Space) : (s.loadW a sp).romMode = s.romMode := rfl
@[simp] theorem loadW_fault (a : Word) (sp : Space) : (s.loadW a sp).fault = s.fault := rfl
@[simp] theorem loadW_io (a : Word) (sp : Space) : (s.loadW a sp).io = s.io := rfl
@[simp] theorem loadW_disp (a : Word) (sp : Space) : (s.loadW a sp).disp = s.disp := rfl
@[simp] theorem loadW_loop (a : Word) (sp : Space) : (s.loadW a sp).loop = s.loop := rfl
@[simp] theorem loadW_frameRun (a : Word) (sp : Space) : (s.loadW a sp).frameRun = s.frameRun := rfl
@[simp] theorem loadW_lastFrame (a : Word) (sp : Space) : (s.loadW a sp).lastFrame = s.lastFrame := rfl
@[simp] theorem loadW_hist (a : Word) (sp : Space) : (s.loadW a sp).hist = s.hist := rfl
@[simp] theorem loadW_requests (a : Word) (sp : Space) : (s.loadW a sp).requests = s.requests := rfl
@[simp] theorem loadW_responses (a : Word) (sp : Space) : (s.loadW a sp).responses = s.responses := rfl
@[simp] theorem loadW_hookInstalled (a : Word) (sp : Space) : (s.loadW a sp).hookInstalled = s.hookInstalled := rfl
@[simp] theorem loadW_displayIn (a : Word) (sp : Space) : (s.loadW a sp).displayIn = s.displayIn := rfl
@[simp] theorem loadW_portIn (a : Word) (sp : Space) : (s.loadW a sp).portIn = s.portIn := rfl
@[simp] theorem loadW_hookIn (a : Word) (sp : Space) : (s.loadW a sp).hookIn = s.hookIn := rfl
@[simp] theorem loadW_draws (a : Word) (sp : Space) : (s.loadW a sp).draws = s.draws := rfl
@[simp] theorem loadW_params (a : Word) (sp : Space) : (s.loadW a sp).params = s.params := rfl

@[simp] theorem fetchByte_mci (v : Byte) : (s.fetchByte v).mci = s.mci := rfl
@[simp] theorem fetchByte_w (v : Byte) : (s.fetchByte v).w = s.w := rfl
@[simp] theorem fetchByte_z (v : Byte) : (s.fetchByte v).z = s.z := rfl
@[simp] theorem fetchByte_ram (v : Byte) : (s.fetchByte v).ram = s.ram := rfl
@[simp] theorem fetchByte_map (v : Byte) : (s.fetchByte v).map = s.map := rfl
@[simp] theorem fetchByte_romMode (v : Byte) : (s.fetchByte v).romMode = s.romMode := rfl
@[simp] theorem fetchByte_fault (v : Byte) : (s.fetchByte v).fault = s.fault := rfl
@[simp] theorem fetchByte_io (v : Byte) : (s.fetchByte v).io = s.io := rfl
@[simp] theorem fetchByte_disp (v : Byte) : (s.fetchByte v).disp = s.disp := rfl
@[simp] theorem fetchByte_loop (v : Byte) : (s.fetchByte v).loop = s.loop := rfl
@[simp] theorem fetchByte_frameRun (v : Byte) : (s.fetchByte v).frameRun = s.frameRun := rfl
@[simp] theorem fetchByte_lastFrame (v : Byte) : (s.fetchByte v).lastFrame = s.lastFrame := rfl
@[simp] theorem fetchByte_hist (v : Byte) : (s.fetchByte v).hist = s.hist := rfl
@[simp] theorem fetchByte_requests (v : Byte) : (s.fetchByte v).requests = s.requests := rfl
@[simp] theorem fetchByte_responses (v : Byte) : (s.fetchByte v).responses = s.responses := rfl
@[simp] theorem fetchByte_hookInstalled (v : Byte) : (s.fetchByte v).hookInstalled = s.hookInstalled := rfl
@[simp] theorem fetchByte_displayIn (v : Byte) : (s.fetchByte v).displayIn = s.displayIn := rfl
@[simp] theorem fetchByte_portIn (v : Byte) : (s.fetchByte v).portIn = s.portIn := rfl
@[simp] theorem fetchByte_hookIn (v : Byte) : (s.fetchByte v).hookIn = s.hookIn := rfl
@[simp] theorem fetchByte_draws (v : Byte) : (s.fetchByte v).draws = s.draws := rfl
@[simp] theorem fetchByte_params (v : Byte) : (s.fetchByte v).params = s.params := rfl

@[simp] theorem fetchZ_mci (v : Byte) : (s.fetchZ v).mci = s.mci := rfl
@[simp] theorem fetchZ_w (v : Byte) : (s.fetchZ v).w = s.w := rfl
@[simp] theorem fetchZ_ram (v : Byte) : (s.fetchZ v).ram = s.ram := rfl
@[simp] theorem fetchZ_map (v : Byte) : (s.fetchZ v).map = s.map := rfl
@[simp] theorem fetchZ_romMode (v : Byte) : (s.fetchZ v).romMode = s.romMode := rfl
@[simp] theorem fetchZ_fault (v : Byte) : (s.fetchZ v).fault = s.fault := rfl
@[simp] theorem fetchZ_io (v : Byte) : (s.fetchZ v).io = s.io := rfl
@[simp] theorem fetchZ_disp (v : Byte) : (s.fetchZ v).disp = s.disp := rfl
@[simp] theorem fetchZ_loop (v : Byte) : (s.fetchZ v).loop = s.loop := rfl
@[simp] theorem fetchZ_frameRun (v : Byte) : (s.fetchZ v).frameRun = s.frameRun := rfl
@[simp] theorem fetchZ_lastFrame (v : Byte) : (s.fetchZ v).lastFrame = s.lastFrame := rfl
@[simp] theorem fetchZ_hist (v : Byte) : (s.fetchZ v).hist = s.hist := rfl
@[simp] theorem fetchZ_requests (v : Byte) : (s.fetchZ v).requests = s.requests := rfl
@[simp] theorem fetchZ_responses (v : Byte) : (s.fetchZ v).responses = s.responses := rfl
@[simp] theorem fetchZ_hookInstalled (v : Byte) : (s.fetchZ v).hookInstalled = s.hookInstalled := rfl
@[simp] theorem fetchZ_displayIn (v : Byte) : (s.fetchZ v).displayIn = s.displayIn := rfl
@[simp] theorem fetchZ_portIn (v : Byte) : (s.fetchZ v).portIn = s.portIn := rfl
@[simp] theorem fetchZ_hookIn (v : Byte) : (s.fetchZ v).hookIn = s.hookIn := rfl
@[simp] theorem fetchZ_draws (v : Byte) : (s.fetchZ v).draws = s.draws := rfl
@[simp] theorem fetchZ_params (v : Byte) : (s.fetchZ v).params = s.params := rfl

@[simp] theorem fetchW_mci (v : Byte) : (s.fetchW v).mci = s.mci := rfl
@[simp] theorem fetchW_z (v : Byte) : (s.fetchW v).z = s.z := rfl
@[simp] theorem fetchW_ram (v : Byte) : (s.fetchW v).ram = s.ram := rfl
@[simp] theorem fetchW_map (v : Byte) : (s.fetchW v).map = s.map := rfl
@[simp] theorem fetchW_romMode (v : Byte) : (s.fetchW v).romMode = s.romMode := rfl
@[simp] theorem fetchW_fault (v : Byte) : (s.fetchW v).fault = s.fault := rfl
@[simp] theorem fetchW_io (v : Byte) : (s.fetchW v).io = s.io := rfl
@[simp] theorem fetchW_disp (v : Byte) : (s.fetchW v).disp = s.disp := rfl
@[simp] theorem fetchW_loop (v : Byte) : (s.fetchW v).loop = s.loop := rfl
@[simp] theorem fetchW_frameRun (v : Byte) : (s.fetchW v).frameRun = s.frameRun := rfl
@[simp] theorem fetchW_lastFrame (v : Byte) : (s.fetchW v).lastFrame = s.lastFrame := rfl
@[simp] theorem fetchW_hist (v : Byte) : (s.fetchW v).hist = s.hist := rfl
@[simp] theorem fetchW_requests (v : Byte) : (s.fetchW v).requests = s.requests := rfl
@[simp] theorem fetchW_responses (v : Byte) : (s.fetchW v).responses = s.responses := rfl
@[simp] theorem fetchW_hookInstalled (v : Byte) : (s.fetchW v).hookInstalled = s.hookInstalled := rfl
@[simp] theorem fetchW_displayIn (v : Byte) : (s.fetchW v).displayIn = s.displayIn := rfl
@[simp] theorem fetchW_portIn (v : Byte) : (s.fetchW v).portIn = s.portIn := rfl
@[simp] theorem fetchW_hookIn (v : Byte) : (s.fetchW v).hookIn = s.hookIn := rfl
@[simp] theorem fetchW_draws (v : Byte) : (s.fetchW v).draws = s.draws := rfl
@[simp] theorem fetchW_params (v : Byte) : (s.fetchW v).params = s.params := rfl

@[simp] theorem push_mci (v : Byte) : (s.push v).mci = s.mci := rfl
@[simp] theorem push_w (v : Byte) : (s.push v).w = s.w := rfl
@[simp] theorem push_z (v : Byte) : (s.push v).z = s.z := rfl
@[simp] theorem push_map (v : Byte) : (s.push v).map = s.map := rfl
@[simp] theorem push_romMode (v : Byte) : (s.push v).romMode = s.romMode := rfl
@[simp] theorem push_fault (v : Byte) : (s.push v).fault = s.fault := rfl
@[simp] theorem push_io (v : Byte) : (s.push v).io = s.io := rfl
@[simp] theorem push_disp (v : Byte) : (s.push v).disp = s.disp := rfl
@[simp] theorem push_loop (v : Byte) : (s.push v).loop = s.loop := rfl
@[simp] theorem push_frameRun (v : Byte) : (s.push v).frameRun = s.frameRun := rfl
@[simp] theorem push_lastFrame (v : Byte) : (s.push v).lastFrame = s.lastFrame := rfl
@[simp] theorem push_hist (v : Byte) : (s.push v).hist = s.hist := rfl
@[simp] theorem push_requests (v : Byte) : (s.push v).requests = s.requests := rfl
@[simp] theorem push_responses (v : Byte) : (s.push v).responses = s.responses := rfl
@[simp] theorem push_hookInstalled (v : Byte) : (s.push v).hookInstalled = s.hookInstalled := rfl
@[simp] theorem push_displayIn (v : Byte) : (s.push v).displayIn = s.displayIn := rfl
@[simp] theorem push_portIn (v : Byte) : (s.push v).portIn = s.portIn := rfl
@[simp] theorem push_hookIn (v : Byte) : (s.push v).hookIn = s.hookIn := rfl
@[simp] theorem push_draws (v : Byte) : (s.push v).draws = s.draws := rfl
@[simp] theorem push_params (v : Byte) : (s.push v).params = s.params := rfl

@[simp] theorem popZ_mci : (s.popZ).mci = s.mci := rfl
@[simp] theorem popZ_w : (s.popZ).w = s.w := rfl
@[simp] theorem popZ_ram : (s.popZ).ram = s.ram := rfl
@[simp] theorem popZ_map : (s.popZ).map = s.map := rfl
@[simp] theorem popZ_romMode : (s.popZ).romMode = s.romMode := rfl
@[simp] theorem popZ_fault : (s.popZ).fault = s.fault := rfl
@[simp] theorem popZ_io : (s.popZ).io = s.io := rfl
@[simp] theorem popZ_disp : (s.popZ).disp = s.disp := rfl
@[simp] theorem popZ_loop : (s.popZ).loop = s.loop := rfl
@[simp] theorem popZ_frameRun : (s.popZ).frameRun = s.frameRun := rfl
@[simp] theorem popZ_lastFrame : (s.popZ).lastFrame = s.lastFrame := rfl
@[simp] theorem popZ_hist : (s.popZ).hist = s.hist := rfl
@[simp] theorem popZ_requests : (s.popZ).requests = s.requests := rfl
@[simp] theorem popZ_responses : (s.popZ).responses = s.responses := rfl
@[simp] theorem popZ_hookInstalled : (s.popZ).hookInstalled = s.hookInstalled := rfl
@[simp] theorem popZ_displayIn : (s.popZ).displayIn = s.displayIn := rfl
@[simp] theorem popZ_portIn : (s.popZ).portIn = s.portIn := rfl
@[simp] theorem popZ_hookIn : (s.popZ).hookIn = s.hookIn := rfl
@[simp] theorem popZ_draws : (s.popZ).draws = s.draws := rfl
@[simp] theorem popZ_params : (s.popZ).params = s.params := rfl

@[simp] theorem popW_mci : (s.popW).mci = s.mci := rfl
@[simp] theorem popW_z : (s.popW).z = s.z := rfl
@[simp] theorem popW_ram : (s.popW).ram = s.ram := rfl
@[simp] theorem popW_map : (s.popW).map = s.map := rfl
@[simp] theorem popW_romMode : (s.popW).romMode = s.romMode := rfl
@[simp] theorem popW_fault : (s.popW).fault = s.fault := rfl
@[simp] theorem popW_io : (s.popW).io = s.io := rfl
@[simp] theorem popW_disp : (s.popW).disp = s.disp := rfl
@[simp] theorem popW_loop : (s.popW).loop = s.loop := rfl
@[simp] theorem popW_frameRun : (s.popW).frameRun = s.frameRun := rfl
@[simp] theorem popW_lastFrame : (s.popW).lastFrame = s.lastFrame := rfl
@[simp] theorem popW_hist : (s.popW).hist = s.hist := rfl
@[simp] theorem popW_requests : (s.popW).requests = s.requests := rfl
@[simp] theorem popW_responses : (s.popW).responses = s.responses := rfl
@[simp] theorem popW_hookInstalled : (s.popW).hookInstalled = s.hookInstalled := rfl
@[simp] theorem popW_displayIn : (s.popW).displayIn = s.displayIn := rfl
@[simp] theorem popW_portIn : (s.popW).portIn = s.portIn := rfl
@[simp] theorem popW_hookIn : (s.popW).hookIn = s.hookIn := rfl
@[simp] theorem popW_draws : (s.popW).draws = s.draws := rfl
@[simp] theorem popW_params : (s.popW).params = s.params := rfl

@[simp] theorem callPortIn_cpu (p : Byte) : (s.callPortIn p).cpu = s.cpu := rfl
@[simp] theorem callPortIn_mci (p : Byte) : (s.callPortIn p).mci = s.mci := rfl
@[simp] theorem callPortIn_w (p : Byte) : (s.callPortIn p).w = s.w := rfl
@[simp] theorem callPortIn_z (p : Byte) : (s.callPortIn p).z = s.z := rfl
@[simp] theorem callPortIn_ram (p : Byte) : (s.callPortIn p).ram = s.ram := rfl
@[simp] theorem callPortIn_map (p : Byte) : (s.callPortIn p).map = s.map := rfl
@[simp] theorem callPortIn_romMode (p : Byte) : (s.callPortIn p).romMode = s.romMode := rfl
@[simp] theorem callPortIn_fault (p : Byte) : (s.callPortIn p).fault = s.fault := rfl
@[simp] theorem callPortIn_diff (p : Byte) : (s.callPortIn p).diff = s.diff := rfl
@[simp] theorem callPortIn_disp (p : Byte) : (s.callPortIn p).disp = s.disp := rfl
@[simp] theorem callPortIn_loop (p : Byte) : (s.callPortIn p).loop = s.loop := rfl
@[simp] theorem callPortIn_frameRun (p : Byte) : (s.callPortIn p).frameRun = s.frameRun := rfl
@[simp] theorem callPortIn_lastFrame (p : Byte) : (s.callPortIn p).lastFrame = s.lastFrame := rfl
@[simp] theorem callPortIn_hist (p : Byte) : (s.callPortIn p).hist = s.hist := rfl
@[simp] theorem callPortIn_requests (p : Byte) : (s.callPortIn p).requests = s.requests := rfl
@[simp] theorem callPortIn_responses (p : Byte) : (s.callPortIn p).responses = s.responses := rfl
@[simp] theorem callPortIn_hookInstalled (p : Byte) : (s.callPortIn p).hookInstalled = s.hookInstalled := rfl
@[simp] theorem callPortIn_displayIn (p : Byte) : (s.callPortIn p).displayIn = s.displayIn := rfl
@[simp] theorem callPortIn_hookIn (p : Byte) : (s.callPortIn p).hookIn = s.hookIn := rfl
@[simp] theorem callPortIn_params (p : Byte) : (s.callPortIn p).params = s.params := rfl

@[simp] theorem rasterize_cpu : (s.rasterize).cpu = s.cpu := rfl
@[simp] theorem rasterize_mci : (s.rasterize).mci = s.mci := rfl
@[simp] theorem rasterize_w : (s.rasterize).w = s.w := rfl
@[simp] theorem rasterize_z : (s.rasterize).z = s.z := rfl
@[simp] theorem rasterize_ram : (s.rasterize).ram = s.ram := rfl
@[simp] theorem rasterize_map : (s.rasterize).map = s.map := rfl
@[simp] theorem rasterize_romMode : (s.rasterize).romMode = s.romMode := rfl
@[simp] theorem rasterize_fault : (s.rasterize).fault = s.fault := rfl
@[simp] theorem rasterize_diff : (s.rasterize).diff = s.diff := rfl
@[simp] theorem rasterize_trace : (s.rasterize).trace = s.trace := rfl
@[simp] theorem rasterize_io : (s.rasterize).io = s.io := rfl
@[simp] theorem rasterize_loop : (s.rasterize).loop = s.loop := rfl
@[simp] theorem rasterize_frameRun : (s.rasterize).frameRun = s.frameRun := rfl
@[simp] theorem rasterize_lastFrame : (s.rasterize).lastFrame = s.lastFrame := rfl
@[simp] theorem rasterize_hist : (s.rasterize).hist = s.hist := rfl
@[simp] theorem rasterize_requests : (s.rasterize).requests = s.requests := rfl
@[simp] theorem rasterize_responses : (s.rasterize).responses = s.responses := rfl
@[simp] theorem rasterize_hookInstalled : (s.rasterize).hookInstalled = s.hookInstalled := rfl
@[simp] theorem rasterize_portIn : (s.rasterize).portIn = s.portIn := rfl
@[simp] theorem rasterize_hookIn : (s.rasterize).hookIn = s.hookIn := rfl
@[simp] theorem rasterize_params : (s.rasterize).params = s.params := rfl

@[simp] theorem latchRequest_mci (b : Bool) : (s.latchRequest b).mci = s.mci := rfl
@[simp] theorem latchRequest_w (b : Bool) : (s.latchRequest b).w = s.w := rfl
@[simp] theorem latchRequest_z (b : Bool) : (s.latchRequest b).z = s.z := rfl
@[simp] theorem latchRequest_ram (b : Bool) : (s.latchRequest b).ram = s.ram := rfl
@[simp] theorem latchRequest_map (b : Bool) : (s.latchRequest b).map = s.map := rfl
@[simp] theorem latchRequest_romMode (b : Bool) : (s.latchRequest b).romMode = s.romMode := rfl
@[simp] theorem latchRequest_fault (b : Bool) : (s.latchRequest b).fault = s.fault := rfl
@[simp] theorem latchRequest_diff (b : Bool) : (s.latchRequest b).diff = s.diff := rfl
@[simp] theorem latchRequest_trace (b : Bool) : (s.latchRequest b).trace = s.trace := rfl
@[simp] theorem latchRequest_io (b : Bool) : (s.latchRequest b).io = s.io := rfl
@[simp] theorem latchRequest_disp (b : Bool) : (s.latchRequest b).disp = s.disp := rfl
@[simp] theorem latchRequest_loop (b : Bool) : (s.latchRequest b).loop = s.loop := rfl
@[simp] theorem latchRequest_frameRun (b : Bool) : (s.latchRequest b).frameRun = s.frameRun := rfl
@[simp] theorem latchRequest_lastFrame (b : Bool) : (s.latchRequest b).lastFrame = s.lastFrame := rfl
@[simp] theorem latchRequest_hist (b : Bool) : (s.latchRequest b).hist = s.hist := rfl
@[simp] theorem latchRequest_requests (b : Bool) : (s.latchRequest b).requests = s.requests := rfl
@[simp] theorem latchRequest_responses (b : Bool) : (s.latchRequest b).responses = s.responses := rfl
@[simp] theorem latchRequest_hookInstalled (b : Bool) : (s.latchRequest b).hookInstalled = s.hookInstalled := rfl
@[simp] theorem latchRequest_displayIn (b : Bool) : (s.latchRequest b).displayIn = s.displayIn := rfl
@[simp] theorem latchRequest_portIn (b : Bool) : (s.latchRequest b).portIn = s.portIn := rfl
@[simp] theorem latchRequest_hookIn (b : Bool) : (s.latchRequest b).hookIn = s.hookIn := rfl
@[simp] theorem latchRequest_draws (b : Bool) : (s.latchRequest b).draws = s.draws := rfl
@[simp] theorem latchRequest_params (b : Bool) : (s.latchRequest b).params = s.params := rfl

@[simp] theorem beginCycle_mci : (s.beginCycle).mci = s.mci := rfl
@[simp] theorem beginCycle_w : (s.beginCycle).w = s.w := rfl
@[simp] theorem beginCycle_z : (s.beginCycle).z = s.z := rfl
@[simp] theorem beginCycle_ram : (s.beginCycle).ram = s.ram := rfl
@[simp] theorem beginCycle_map : (s.beginCycle).map = s.map := rfl
@[simp] theorem beginCycle_romMode : (s.beginCycle).romMode = s.romMode := rfl
@[simp] theorem beginCycle_fault : (s.beginCycle).fault = s.fault := rfl
@[simp] theorem beginCycle_diff : (s.beginCycle).diff = s.diff := rfl
@[simp] theorem beginCycle_trace : (s.beginCycle).trace = s.trace := rfl
@[simp] theorem beginCycle_io : (s.beginCycle).io = s.io := rfl
@[simp] theorem beginCycle_loop : (s.beginCycle).loop = s.loop := rfl
@[simp] theorem beginCycle_frameRun : (s.beginCycle).frameRun = s.frameRun := rfl
@[simp] theorem beginCycle_lastFrame : (s.beginCycle).lastFrame = s.lastFrame := rfl
@[simp] theorem beginCycle_hist : (s.beginCycle).hist = s.hist := rfl
@[simp] theorem beginCycle_requests : (s.beginCycle).requests = s.requests := rfl
@[simp] theorem beginCycle_responses : (s.beginCycle).responses = s.responses := rfl
@[simp] theorem beginCycle_hookInstalled : (s.beginCycle).hookInstalled = s.hookInstalled := rfl
@[simp] theorem beginCycle_portIn : (s.beginCycle).portIn = s.portIn := rfl
@[simp] theorem beginCycle_hookIn : (s.beginCycle).hookIn = s.hookIn := rfl
@[simp] theorem beginCycle_params : (s.beginCycle).params = s.params := rfl

@[simp] theorem endCycle_w : (s.endCycle).w = s.w := rfl
@[simp] theorem endCycle_z : (s.endCycle).z = s.z := rfl
@[simp] theorem endCycle_ram : (s.endCycle).ram = s.ram := rfl
@[simp] theorem endCycle_map : (s.endCycle).map = s.map := rfl
@[simp] theorem endCycle_romMode : (s.endCycle).romMode = s.romMode := rfl
@[simp] theorem endCycle_fault : (s.endCycle).fault = s.fault := rfl
@[simp] theorem endCycle_diff : (s.endCycle).diff = s.diff := rfl
@[simp] theorem endCycle_io : (s.endCycle).io = s.io := rfl
@[simp] theorem endCycle_disp : (s.endCycle).disp = s.disp := rfl
@[simp] theorem endCycle_loop : (s.endCycle).loop = s.loop := rfl
@[simp] theorem endCycle_frameRun : (s.endCycle).frameRun = s.frameRun := rfl
@[simp] theorem endCycle_lastFrame : (s.endCycle).lastFrame = s.lastFrame := rfl
@[simp] theorem endCycle_hist : (s.endCycle).hist = s.hist := rfl
@[simp] theorem endCycle_requests : (s.endCycle).requests = s.requests := rfl
@[simp] theorem endCycle_responses : (s.endCycle).responses = s.responses := rfl
@[simp] theorem endCycle_hookInstalled : (s.endCycle).hookInstalled = s.hookInstalled := rfl
@[simp] theorem endCycle_displayIn : (s.endCycle).displayIn = s.displayIn := rfl
@[simp] theorem endCycle_portIn : (s.endCycle).portIn = s.portIn := rfl
@[simp] theorem endCycle_hookIn : (s.endCycle).hookIn = s.hookIn := rfl
@[simp] theorem endCycle_draws : (s.endCycle).draws = s.draws := rfl
@[simp] theorem endCycle_params : (s.endCycle).params = s.params := rfl

@[simp] theorem start_w (op : Byte) : (s.start op).w = s.w := rfl
@[simp] theorem start_z (op : Byte) : (s.start op).z = s.z := rfl
@[simp] theorem start_ram (op : Byte) : (s.start op).ram = s.ram := rfl
@[simp] theorem start_map (op : Byte) : (s.start op).map = s.map := rfl
@[simp] theorem start_romMode (op : Byte) : (s.start op).romMode = s.romMode := rfl
@[simp] theorem start_fault (op : Byte) : (s.start op).fault = s.fault := rfl
@[simp] theorem start_diff (op : Byte) : (s.start op).diff = s.diff := rfl
@[simp] theorem start_trace (op : Byte) : (s.start op).trace = s.trace := rfl
@[simp] theorem start_io (op : Byte) : (s.start op).io = s.io := rfl
@[simp] theorem start_disp (op : Byte) : (s.start op).disp = s.disp := rfl
@[simp] theorem start_loop (op : Byte) : (s.start op).loop = s.loop := rfl
@[simp] theorem start_frameRun (op : Byte) : (s.start op).frameRun = s.frameRun := rfl
@[simp] theorem start_lastFrame (op : Byte) : (s.start op).lastFrame = s.lastFrame := rfl
@[simp] theorem start_hist (op : Byte) : (s.start op).hist = s.hist := rfl
@[simp] theorem start_requests (op : Byte) : (s.start op).requests = s.requests := rfl
@[simp] theorem start_responses (op : Byte) : (s.start op).responses = s.responses := rfl
@[simp] theorem start_hookInstalled (op : Byte) : (s.start op).hookInstalled = s.hookInstalled := rfl
@[simp] theorem start_displayIn (op : Byte) : (s.start op).displayIn = s.displayIn := rfl
@[simp] theorem start_portIn (op : Byte) : (s.start op).portIn = s.portIn := rfl
@[simp] theorem start_hookIn (op : Byte) : (s.start op).hookIn = s.hookIn := rfl
@[simp] theorem start_draws (op : Byte) : (s.start op).draws = s.draws := rfl
@[simp] theorem start_params (op : Byte) : (s.start op).params = s.params := rfl

@[simp] theorem enterService_mci : (s.enterService).mci = s.mci := rfl
@[simp] theorem enterService_w : (s.enterService).w = s.w := rfl
@[simp] theorem enterService_z : (s.enterService).z = s.z := rfl
@[simp] theorem enterService_ram : (s.enterService).ram = s.ram := rfl
@[simp] theorem enterService_map : (s.enterService).map = s.map := rfl
@[simp] theorem enterService_romMode : (s.enterService).romMode = s.romMode := rfl
@[simp] theorem enterService_fault : (s.enterService).fault = s.fault := rfl
@[simp] theorem enterService_trace : (s.enterService).trace = s.trace := rfl
@[simp] theorem enterService_io : (s.enterService).io = s.io := rfl
@[simp] theorem enterService_disp : (s.enterService).disp = s.disp := rfl
@[simp] theorem enterService_loop : (s.enterService).loop = s.loop := rfl
@[simp] theorem enterService_frameRun : (s.enterService).frameRun = s.frameRun := rfl
@[simp] theorem enterService_lastFrame : (s.enterService).lastFrame = s.lastFrame := rfl
@[simp] theorem enterService_hist : (s.enterService).hist = s.hist := rfl
@[simp] theorem enterService_requests : (s.enterService).requests = s.requests := rfl
@[simp] theorem enterService_responses : (s.enterService).responses = s.responses := rfl
@[simp] theorem enterService_hookInstalled : (s.enterService).hookInstalled = s.hookInstalled := rfl
@[simp] theorem enterService_displayIn : (s.enterService).displayIn = s.displayIn := rfl
@[simp] theorem enterService_portIn : (s.enterService).portIn = s.portIn := rfl
@[simp] theorem enterService_hookIn : (s.enterService).hookIn = s.hookIn := rfl
@[simp] theorem enterService_draws : (s.enterService).draws = s.draws := rfl
@[simp] theorem enterService_params : (s.enterService).params = s.params := rfl

@[simp] theorem haltRefetch_cpu : (s.haltRefetch).cpu = s.cpu := rfl
@[simp] theorem haltRefetch_mci : (s.haltRefetch).mci = s.mci := rfl
@[simp] theorem haltRefetch_w : (s.haltRefetch).w = s.w := rfl
@[simp] theorem haltRefetch_z : (s.haltRefetch).z = s.z := rfl
@[simp] theorem haltRefetch_ram : (s.haltRefetch).ram = s.ram := rfl
@[simp] theorem haltRefetch_map : (s.haltRefetch).map = s.map := rfl
@[simp] theorem haltRefetch_romMode : (s.haltRefetch).romMode = s.romMode := rfl
@[simp] theorem haltRefetch_fault : (s.haltRefetch).fault = s.fault := rfl
@[simp] theorem haltRefetch_io : (s.haltRefetch).io = s.io := rfl
@[simp] theorem haltRefetch_disp : (s.haltRefetch).disp = s.disp := rfl
@[simp] theorem haltRefetch_loop : (s.haltRefetch).loop = s.loop := rfl
@[simp] theorem haltRefetch_frameRun : (s.haltRefetch).frameRun = s.frameRun := rfl
@[simp] theorem haltRefetch_lastFrame : (s.haltRefetch).lastFrame = s.lastFrame := rfl
@[simp] theorem haltRefetch_hist : (s.haltRefetch).hist = s.hist := rfl
@[simp] theorem haltRefetch_requests : (s.haltRefetch).requests = s.requests := rfl
@[simp] theorem haltRefetch_responses : (s.haltRefetch).responses = s.responses := rfl
@[simp] theorem haltRefetch_hookInstalled : (s.haltRefetch).hookInstalled = s.hookInstalled := rfl
@[simp] theorem haltRefetch_displayIn : (s.haltRefetch).displayIn = s.displayIn := rfl
@[simp] theorem haltRefetch_portIn : (s.haltRefetch).portIn = s.portIn := rfl
@[simp] theorem haltRefetch_hookIn : (s.haltRefetch).hookIn = s.hookIn := rfl
@[simp] theorem haltRefetch_draws : (s.haltRefetch).draws = s.draws := rfl
@[simp] theorem haltRefetch_params : (s.haltRefetch).params = s.params := rfl

@[simp] theorem raiseFault_cpu (c : FaultCode) : (s.raiseFault c).cpu = s.cpu := rfl
@[simp] theorem raiseFault_mci (c : FaultCode) : (s.raiseFault c).mci = s.mci := rfl
@[simp] theorem raiseFault_w (c : FaultCode) : (s.raiseFault c).w = s.w := rfl
@[simp] theorem raiseFault_z (c : FaultCode) : (s.raiseFault c).z = s.z := rfl
@[simp] theorem raiseFault_ram (c : FaultCode) : (s.raiseFault c).ram = s.ram := rfl
@[simp] theorem raiseFault_map (c : FaultCode) : (s.raiseFault c).map = s.map := rfl
@[simp] theorem raiseFault_romMode (c : FaultCode) : (s.raiseFault c).romMode = s.romMode := rfl
@[simp] theorem raiseFault_diff (c : FaultCode) : (s.raiseFault c).diff = s.diff := rfl
@[simp] theorem raiseFault_trace (c : FaultCode) : (s.raiseFault c).trace = s.trace := rfl
@[simp] theorem raiseFault_io (c : FaultCode) : (s.raiseFault c).io = s.io := rfl
@[simp] theorem raiseFault_disp (c : FaultCode) : (s.raiseFault c).disp = s.disp := rfl
@[simp] theorem raiseFault_loop (c : FaultCode) : (s.raiseFault c).loop = s.loop := rfl
@[simp] theorem raiseFault_frameRun (c : FaultCode) : (s.raiseFault c).frameRun = s.frameRun := rfl
@[simp] theorem raiseFault_lastFrame (c : FaultCode) : (s.raiseFault c).lastFrame = s.lastFrame := rfl
@[simp] theorem raiseFault_hist (c : FaultCode) : (s.raiseFault c).hist = s.hist := rfl
@[simp] theorem raiseFault_requests (c : FaultCode) : (s.raiseFault c).requests = s.requests := rfl
@[simp] theorem raiseFault_responses (c : FaultCode) : (s.raiseFault c).responses = s.responses := rfl
@[simp] theorem raiseFault_hookInstalled (c : FaultCode) : (s.raiseFault c).hookInstalled = s.hookInstalled := rfl
@[simp] theorem raiseFault_displayIn (c : FaultCode) : (s.raiseFault c).displayIn = s.displayIn := rfl
@[simp] theorem raiseFault_portIn (c : FaultCode) : (s.raiseFault c).portIn = s.portIn := rfl
@[simp] theorem raiseFault_hookIn (c : FaultCode) : (s.raiseFault c).hookIn = s.hookIn := rfl
@[simp] theorem raiseFault_draws (c : FaultCode) : (s.raiseFault c).draws = s.draws := rfl
@[simp] theorem raiseFault_params (c : FaultCode) : (s.raiseFault c).params = s.params := rfl

@[simp] theorem clearRecord_cpu : (s.clearRecord).cpu = s.cpu := rfl
@[simp] theorem clearRecord_mci : (s.clearRecord).mci = s.mci := rfl
@[simp] theorem clearRecord_w : (s.clearRecord).w = s.w := rfl
@[simp] theorem clearRecord_z : (s.clearRecord).z = s.z := rfl
@[simp] theorem clearRecord_ram : (s.clearRecord).ram = s.ram := rfl
@[simp] theorem clearRecord_map : (s.clearRecord).map = s.map := rfl
@[simp] theorem clearRecord_romMode : (s.clearRecord).romMode = s.romMode := rfl
@[simp] theorem clearRecord_fault : (s.clearRecord).fault = s.fault := rfl
@[simp] theorem clearRecord_io : (s.clearRecord).io = s.io := rfl
@[simp] theorem clearRecord_disp : (s.clearRecord).disp = s.disp := rfl
@[simp] theorem clearRecord_loop : (s.clearRecord).loop = s.loop := rfl
@[simp] theorem clearRecord_frameRun : (s.clearRecord).frameRun = s.frameRun := rfl
@[simp] theorem clearRecord_lastFrame : (s.clearRecord).lastFrame = s.lastFrame := rfl
@[simp] theorem clearRecord_hist : (s.clearRecord).hist = s.hist := rfl
@[simp] theorem clearRecord_requests : (s.clearRecord).requests = s.requests := rfl
@[simp] theorem clearRecord_responses : (s.clearRecord).responses = s.responses := rfl
@[simp] theorem clearRecord_hookInstalled : (s.clearRecord).hookInstalled = s.hookInstalled := rfl
@[simp] theorem clearRecord_displayIn : (s.clearRecord).displayIn = s.displayIn := rfl
@[simp] theorem clearRecord_portIn : (s.clearRecord).portIn = s.portIn := rfl
@[simp] theorem clearRecord_hookIn : (s.clearRecord).hookIn = s.hookIn := rfl
@[simp] theorem clearRecord_draws : (s.clearRecord).draws = s.draws := rfl
@[simp] theorem clearRecord_params : (s.clearRecord).params = s.params := rfl

@[simp] theorem fetchOpcode_mci : (s.fetchOpcode).mci = s.mci := rfl
@[simp] theorem fetchOpcode_w : (s.fetchOpcode).w = s.w := rfl
@[simp] theorem fetchOpcode_z : (s.fetchOpcode).z = s.z := rfl
@[simp] theorem fetchOpcode_ram : (s.fetchOpcode).ram = s.ram := rfl
@[simp] theorem fetchOpcode_map : (s.fetchOpcode).map = s.map := rfl
@[simp] theorem fetchOpcode_romMode : (s.fetchOpcode).romMode = s.romMode := rfl
@[simp] theorem fetchOpcode_fault : (s.fetchOpcode).fault = s.fault := rfl
@[simp] theorem fetchOpcode_io : (s.fetchOpcode).io = s.io := rfl
@[simp] theorem fetchOpcode_disp : (s.fetchOpcode).disp = s.disp := rfl
@[simp] theorem fetchOpcode_loop : (s.fetchOpcode).loop = s.loop := rfl
@[simp] theorem fetchOpcode_frameRun : (s.fetchOpcode).frameRun = s.frameRun := rfl
@[simp] theorem fetchOpcode_lastFrame : (s.fetchOpcode).lastFrame = s.lastFrame := rfl
@[simp] theorem fetchOpcode_hist : (s.fetchOpcode).hist = s.hist := rfl
@[simp] theorem fetchOpcode_requests : (s.fetchOpcode).requests = s.requests := rfl
@[simp] theorem fetchOpcode_responses : (s.fetchOpcode).responses = s.responses := rfl
@[simp] theorem fetchOpcode_hookInstalled : (s.fetchOpcode).hookInstalled = s.hookInstalled := rfl
@[simp] theorem fetchOpcode_displayIn : (s.fetchOpcode).displayIn = s.displayIn := rfl
@[simp] theorem fetchOpcode_portIn : (s.fetchOpcode).portIn = s.portIn := rfl
@[simp] theorem fetchOpcode_hookIn : (s.fetchOpcode).hookIn = s.hookIn := rfl
@[simp] theorem fetchOpcode_draws : (s.fetchOpcode).draws = s.draws := rfl
@[simp] theorem fetchOpcode_params : (s.fetchOpcode).params = s.params := rfl

@[simp] theorem forgetTemps_cpu : (s.forgetTemps).cpu = s.cpu := rfl
@[simp] theorem forgetTemps_mci : (s.forgetTemps).mci = s.mci := rfl
@[simp] theorem forgetTemps_ram : (s.forgetTemps).ram = s.ram := rfl
@[simp] theorem forgetTemps_map : (s.forgetTemps).map = s.map := rfl
@[simp] theorem forgetTemps_romMode : (s.forgetTemps).romMode = s.romMode := rfl
@[simp] theorem forgetTemps_fault : (s.forgetTemps).fault = s.fault := rfl
@[simp] theorem forgetTemps_diff : (s.forgetTemps).diff = s.diff := rfl
@[simp] theorem forgetTemps_trace : (s.forgetTemps).trace = s.trace := rfl
@[simp] theorem forgetTemps_io : (s.forgetTemps).io = s.io := rfl
@[simp] theorem forgetTemps_disp : (s.forgetTemps).disp = s.disp := rfl
@[simp] theorem forgetTemps_loop : (s.forgetTemps).loop = s.loop := rfl
@[simp] theorem forgetTemps_frameRun : (s.forgetTemps).frameRun = s.frameRun := rfl
@[simp] theorem forgetTemps_lastFrame : (s.forgetTemps).lastFrame = s.lastFrame := rfl
@[simp] theorem forgetTemps_hist : (s.forgetTemps).hist = s.hist := rfl
@[simp] theorem forgetTemps_requests : (s.forgetTemps).requests = s.requests := rfl
@[simp] theorem forgetTemps_responses : (s.forgetTemps).responses = s.responses := rfl
@[simp] theorem forgetTemps_hookInstalled : (s.forgetTemps).hookInstalled = s.hookInstalled := rfl
@[simp] theorem forgetTemps_displayIn : (s.forgetTemps).displayIn = s.displayIn := rfl
@[simp] theorem forgetTemps_portIn : (s.forgetTemps).portIn = s.portIn := rfl
@[simp] theorem forgetTemps_hookIn : (s.forgetTemps).hookIn = s.hookIn := rfl
@[simp] theorem forgetTemps_params : (s.forgetTemps).params = s.params := rfl

@[simp] theorem callHook_cpu : (s.callHook).cpu = s.cpu := rfl
@[simp] theorem callHook_mci : (s.callHook).mci = s.mci := rfl
@[simp] theorem callHook_w : (s.callHook).w = s.w := rfl
@[simp] theorem callHook_z : (s.callHook).z = s.z := rfl
@[simp] theorem callHook_ram : (s.callHook).ram = s.ram := rfl
@[simp] theorem callHook_map : (s.callHook).map = s.map := rfl
@[simp] theorem callHook_romMode : (s.callHook).romMode = s.romMode := rfl
@[simp] theorem callHook_fault : (s.callHook).fault = s.fault := rfl
@[simp] theorem callHook_diff : (s.callHook).diff = s.diff := rfl
@[simp] theorem callHook_trace : (s.callHook).trace = s.trace := rfl
@[simp] theorem callHook_io : (s.callHook).io = s.io := rfl
@[simp] theorem callHook_disp : (s.callHook).disp = s.disp := rfl
@[simp] theorem callHook_loop : (s.callHook).loop = s.loop := rfl
@[simp] theorem callHook_frameRun : (s.callHook).frameRun = s.frameRun := rfl
@[simp] theorem callHook_lastFrame : (s.callHook).lastFrame = s.lastFrame := rfl
@[simp] theorem callHook_hist : (s.callHook).hist = s.hist := rfl
@[simp] theorem callHook_requests : (s.callHook).requests = s.requests := rfl
@[simp] theorem callHook_responses : (s.callHook).responses = s.responses := rfl
@[simp] theorem callHook_hookInstalled : (s.callHook).hookInstalled = s.hookInstalled := rfl
@[simp] theorem callHook_displayIn : (s.callHook).displayIn = s.displayIn := rfl
@[simp] theorem callHook_portIn : (s.callHook).portIn = s.portIn := rfl
@[simp] theorem callHook_params : (s.callHook).params = s.params := rfl

@[simp] theorem restore_w (n : Snapshot) : (s.restore n).w = s.w := rfl
@[simp] theorem restore_z (n : Snapshot) : (s.restore n).z = s.z := rfl
@[simp] theorem restore_ram (n : Snapshot) : (s.restore n).ram = s.ram := rfl
@[simp] theorem restore_fault (n : Snapshot) : (s.restore n).fault = s.fault := rfl
@[simp] theorem restore_trace (n : Snapshot) : (s.restore n).trace = s.trace := rfl
@[simp] theorem restore_loop (n : Snapshot) : (s.restore n).loop = s.loop := rfl
@[simp] theorem restore_frameRun (n : Snapshot) : (s.restore n).frameRun = s.frameRun := rfl
@[simp] theorem restore_requests (n : Snapshot) : (s.restore n).requests = s.requests := rfl
@[simp] theorem restore_responses (n : Snapshot) : (s.restore n).responses = s.responses := rfl
@[simp] theorem restore_hookInstalled (n : Snapshot) : (s.restore n).hookInstalled = s.hookInstalled := rfl
@[simp] theorem restore_displayIn (n : Snapshot) : (s.restore n).displayIn = s.displayIn := rfl
@[simp] theorem restore_portIn (n : Snapshot) : (s.restore n).portIn = s.portIn := rfl
@[simp] theorem restore_hookIn (n : Snapshot) : (s.restore n).hookIn = s.hookIn := rfl
@[simp] theorem restore_draws (n : Snapshot) : (s.restore n).draws = s.draws := rfl
@[simp] theorem restore_params (n : Snapshot) : (s.restore n).params = s.params := rfl

@[simp] theorem historyReset_cpu : (s.historyReset).cpu = s.cpu := rfl
@[simp] theorem historyReset_mci : (s.historyReset).mci = s.mci := rfl
@[simp] theorem historyReset_w : (s.historyReset).w = s.w := rfl
@[simp] theorem historyReset_z : (s.historyReset).z = s.z := rfl
@[simp] theorem historyReset_ram : (s.historyReset).ram = s.ram := rfl
@[simp] theorem historyReset_map : (s.historyReset).map = s.map := rfl
@[simp] theorem historyReset_romMode : (s.historyReset).romMode = s.romMode := rfl
@[simp] theorem historyReset_fault : (s.historyReset).fault = s.fault := rfl
@[simp] theorem historyReset_diff : (s.historyReset).diff = s.diff := rfl
@[simp] theorem historyReset_trace : (s.historyReset).trace = s.trace := rfl
@[simp] theorem historyReset_io : (s.historyReset).io = s.io := rfl
@[simp] theorem historyReset_disp : (s.historyReset).disp = s.disp := rfl
@[simp] theorem historyReset_loop : (s.historyReset).loop = s.loop := rfl
@[simp] theorem historyReset_frameRun : (s.historyReset).frameRun = s.frameRun := rfl
@[simp] theorem historyReset_lastFrame : (s.historyReset).lastFrame = s.lastFrame := rfl
@[simp] theorem historyReset_requests : (s.historyReset).requests = s.requests := rfl
@[simp] theorem historyReset_responses : (s.historyReset).responses = s.responses := rfl
@[simp] theorem historyReset_hookInstalled : (s.historyReset).hookInstalled = s.hookInstalled := rfl
@[simp] theorem historyReset_displayIn : (s.historyReset).displayIn = s.displayIn := rfl
@[simp] theorem historyReset_portIn : (s.historyReset).portIn = s.portIn := rfl
@[simp] theorem historyReset_hookIn : (s.historyReset).hookIn = s.hookIn := rfl
@[simp] theorem historyReset_draws : (s.historyReset).draws = s.draws := rfl
@[simp] theorem historyReset_params : (s.historyReset).params = s.params := rfl

@[simp] theorem post_cpu (f : FaultCode) (r : Reply) : (s.post f r).cpu = s.cpu := rfl
@[simp] theorem post_mci (f : FaultCode) (r : Reply) : (s.post f r).mci = s.mci := rfl
@[simp] theorem post_w (f : FaultCode) (r : Reply) : (s.post f r).w = s.w := rfl
@[simp] theorem post_z (f : FaultCode) (r : Reply) : (s.post f r).z = s.z := rfl
@[simp] theorem post_ram (f : FaultCode) (r : Reply) : (s.post f r).ram = s.ram := rfl
@[simp] theorem post_map (f : FaultCode) (r : Reply) : (s.post f r).map = s.map := rfl
@[simp] theorem post_romMode (f : FaultCode) (r : Reply) : (s.post f r).romMode = s.romMode := rfl
@[simp] theorem post_fault (f : FaultCode) (r : Reply) : (s.post f r).fault = s.fault := rfl
@[simp] theorem post_diff (f : FaultCode) (r : Reply) : (s.post f r).diff = s.diff := rfl
@[simp] theorem post_trace (f : FaultCode) (r : Reply) : (s.post f r).trace = s.trace := rfl
@[simp] theorem post_io (f : FaultCode) (r : Reply) : (s.post f r).io = s.io := rfl
@[simp] theorem post_disp (f : FaultCode) (r : Reply) : (s.post f r).disp = s.disp := rfl
@[simp] theorem post_loop (f : FaultCode) (r : Reply) : (s.post f r).loop = s.loop := rfl
@[simp] theorem post_frameRun (f : FaultCode) (r : Reply) : (s.post f r).frameRun = s.frameRun := rfl
@[simp] theorem post_lastFrame (f : FaultCode) (r : Reply) : (s.post f r).lastFrame = s.lastFrame := rfl
@[simp] theorem post_hist (f : FaultCode) (r : Reply) : (s.post f r).hist = s.hist := rfl
@[simp] theorem post_requests (f : FaultCode) (r : Reply) : (s.post f r).requests = s.requests := rfl
@[simp] theorem post_hookInstalled (f : FaultCode) (r : Reply) : (s.post f r).hookInstalled = s.hookInstalled := rfl
@[simp] theorem post_displayIn (f : FaultCode) (r : Reply) : (s.post f r).displayIn = s.displayIn := rfl
@[simp] theorem post_portIn (f : FaultCode) (r : Reply) : (s.post f r).portIn = s.portIn := rfl
@[simp] theorem post_hookIn (f : FaultCode) (r : Reply) : (s.post f r).hookIn = s.hookIn := rfl
@[simp] theorem post_draws (f : FaultCode) (r : Reply) : (s.post f r).draws = s.draws := rfl
@[simp] theorem post_params (f : FaultCode) (r : Reply) : (s.post f r).params = s.params := rfl

@[simp] theorem respond_cpu (r : Reply) : (s.respond r).cpu = s.cpu := rfl
@[simp] theorem respond_mci (r : Reply) : (s.respond r).mci = s.mci := rfl
@[simp] theorem respond_w (r : Reply) : (s.respond r).w = s.w := rfl
@[simp] theorem respond_z (r : Reply) : (s.respond r).z = s.z := rfl
@[simp] theorem respond_ram (r : Reply) : (s.respond r).ram = s.ram := rfl
@[simp] theorem respond_map (r : Reply) : (s.respond r).map = s.map := rfl
@[simp] theorem respond_romMode (r : Reply) : (s.respond r).romMode = s.romMode := rfl
@[simp] theorem respond_fault (r : Reply) : (s.respond r).fault = s.fault := rfl
@[simp] theorem respond_diff (r : Reply) : (s.respond r).diff = s.diff := rfl
@[simp] theorem respond_trace (r : Reply) : (s.respond r).trace = s.trace := rfl
@[simp] theorem respond_io (r : Reply) : (s.respond r).io = s.io := rfl
@[simp] theorem respond_disp (r : Reply) : (s.respond r).disp = s.disp := rfl
@[simp] theorem respond_loop (r : Reply) : (s.respond r).loop = s.loop := rfl
@[simp] theorem respond_frameRun (r : Reply) : (s.respond r).frameRun = s.frameRun := rfl
@[simp] theorem respond_lastFrame (r : Reply) : (s.respond r).lastFrame = s.lastFrame := rfl
@[simp] theorem respond_hist (r : Reply) : (s.respond r).hist = s.hist := rfl
@[simp] theorem respond_requests (r : Reply) : (s.respond r).requests = s.requests := rfl
@[simp] theorem respond_hookInstalled (r : Reply) : (s.respond r).hookInstalled = s.hookInstalled := rfl
@[simp] theorem respond_displayIn (r : Reply) : (s.respond r).displayIn = s.displayIn := rfl
@[simp] theorem respond_portIn (r : Reply) : (s.respond r).portIn = s.portIn := rfl
@[simp] theorem respond_hookIn (r : Reply) : (s.respond r).hookIn = s.hookIn := rfl
@[simp] theorem respond_draws (r : Reply) : (s.respond r).draws = s.draws := rfl
@[simp] theorem respond_params (r : Reply) : (s.respond r).params = s.params := rfl

/-! The CPU fields a register write does not touch. -/

@[simp] theorem setReg_cpu_sp (r : Reg) (v : Byte) : (s.setReg r v).cpu.sp = s.cpu.sp := by cases r <;> rfl
@[simp] theorem setReg_cpu_pc (r : Reg) (v : Byte) : (s.setReg r v).cpu.pc = s.cpu.pc := by cases r <;> rfl
@[simp] theorem setReg_cpu_flags (r : Reg) (v : Byte) : (s.setReg r v).cpu.flags = s.cpu.flags := by cases r <;> rfl
@[simp] theorem setReg_cpu_inte (r : Reg) (v : Byte) : (s.setReg r v).cpu.inte = s.cpu.inte := by cases r <;> rfl
@[simp] theorem setReg_cpu_latch (r : Reg) (v : Byte) : (s.setReg r v).cpu.latch = s.cpu.latch := by cases r <;> rfl
@[simp] theorem setReg_cpu_eip (r : Reg) (v : Byte) : (s.setReg r v).cpu.eip = s.cpu.eip := by cases r <;> rfl
@[simp] theorem setReg_cpu_halt (r : Reg) (v : Byte) : (s.setReg r v).cpu.halt = s.cpu.halt := by cases r <;> rfl
@[simp] theorem setReg_cpu_ir (r : Reg) (v : Byte) : (s.setReg r v).cpu.ir = s.cpu.ir := by cases r <;> rfl
@[simp] theorem setReg_cpu_cc (r : Reg) (v : Byte) : (s.setReg r v).cpu.cc = s.cpu.cc := by cases r <;> rfl

@[simp] theorem setSp_cpu_a (v : Word) : (s.setSp v).cpu.a = s.cpu.a := rfl
@[simp] theorem setSp_cpu_b (v : Word) : (s.setSp v).cpu.b = s.cpu.b := rfl
@[simp] theorem setSp_cpu_c (v : Word) : (s.setSp v).cpu.c = s.cpu.c := rfl
@[simp] theorem setSp_cpu_d (v : Word) : (s.setSp v).cpu.d = s.cpu.d := rfl
@[simp] theorem setSp_cpu_e (v : Word) : (s.setSp v).cpu.e = s.cpu.e := rfl
@[simp] theorem setSp_cpu_h (v : Word) : (s.setSp v).cpu.h = s.cpu.h := rfl
@[simp] theorem setSp_cpu_l (v : Word) : (s.setSp v).cpu.l = s.cpu.l := rfl
@[simp] theorem setSp_cpu_pc (v : Word) : (s.setSp v).cpu.pc = s.cpu.pc := rfl
@[simp] theorem setSp_cpu_flags (v : Word) : (s.setSp v).cpu.flags = s.cpu.flags := rfl
@[simp] theorem setSp_cpu_inte (v : Word) : (s.setSp v).cpu.inte = s.cpu.inte := rfl
@[simp] theorem setSp_cpu_latch (v : Word) : (s.setSp v).cpu.latch = s.cpu.latch := rfl
@[simp] theorem setSp_cpu_eip (v : Word) : (s.setSp v).cpu.eip = s.cpu.eip := rfl
@[simp] theorem setSp_cpu_halt (v : Word) : (s.setSp v).cpu.halt = s.cpu.halt := rfl
@[simp] theorem setSp_cpu_ir (v : Word) : (s.setSp v).cpu.ir = s.cpu.ir := rfl
@[simp] theorem setSp_cpu_cc (v : Word) : (s.setSp v).cpu.cc = s.cpu.cc := rfl

@[simp] theorem setPc_cpu_a (v : Word) : (s.setPc v).cpu.a = s.cpu.a := rfl
@[simp] theorem setPc_cpu_b (v : Word) : (s.setPc v).cpu.b = s.cpu.b := rfl
@[simp] theorem setPc_cpu_c (v : Word) : (s.setPc v).cpu.c = s.cpu.c := rfl
@[simp] theorem setPc_cpu_d (v : Word) : (s.setPc v).cpu.d = s.cpu.d := rfl
@[simp] theorem setPc_cpu_e (v : Word) : (s.setPc v).cpu.e = s.cpu.e := rfl
@[simp] theorem setPc_cpu_h (v : Word) : (s.setPc v).cpu.h = s.cpu.h := rfl
@[simp] theorem setPc_cpu_l (v : Word) : (s.setPc v).cpu.l = s.cpu.l := rfl
@[simp] theorem setPc_cpu_sp (v : Word) : (s.setPc v).cpu.sp = s.cpu.sp := rfl
@[simp] theorem setPc_cpu_flags (v : Word) : (s.setPc v).cpu.flags = s.cpu.flags := rfl
@[simp] theorem setPc_cpu_inte (v : Word) : (s.setPc v).cpu.inte = s.cpu.inte := rfl
@[simp] theorem setPc_cpu_latch (v : Word) : (s.setPc v).cpu.latch = s.cpu.latch := rfl
@[simp] theorem setPc_cpu_eip (v : Word) : (s.setPc v).cpu.eip = s.cpu.eip := rfl
@[simp] theorem setPc_cpu_halt (v : Word) : (s.setPc v).cpu.halt = s.cpu.halt := rfl
@[simp] theorem setPc_cpu_ir (v : Word) : (s.setPc v).cpu.ir = s.cpu.ir := rfl
@[simp] theorem setPc_cpu_cc (v : Word) : (s.setPc v).cpu.cc = s.cpu.cc := rfl

@[simp] theorem setPair_cpu_a (p : Pair) (v : Word) : (s.setPair p v).cpu.a = s.cpu.a := by cases p <;> rfl
@[simp] theorem setPair_cpu_pc (p : Pair) (v : Word) : (s.setPair p v).cpu.pc = s.cpu.pc := by cases p <;> rfl
@[simp] theorem setPair_cpu_flags (p : Pair) (v : Word) : (s.setPair p v).cpu.flags = s.cpu.flags := by cases p <;> rfl
@[simp] theorem setPair_cpu_inte (p : Pair) (v : Word) : (s.setPair p v).cpu.inte = s.cpu.inte := by cases p <;> rfl
@[simp] theorem setPair_cpu_latch (p : Pair) (v : Word) : (s.setPair p v).cpu.latch = s.cpu.latch := by cases p <;> rfl
@[simp] theorem setPair_cpu_eip (p : Pair) (v : Word) : (s.setPair p v).cpu.eip = s.cpu.eip := by cases p <;> rfl
@[simp] theorem setPair_cpu_halt (p : Pair) (v : Word) : (s.setPair p v).cpu.halt = s.cpu.halt := by cases p <;> rfl
@[simp] theorem setPair_cpu_ir (p : Pair) (v : Word) : (s.setPair p v).cpu.ir = s.cpu.ir := by cases p <;> rfl
@[simp] theorem setPair_cpu_cc (p : Pair) (v : Word) : (s.setPair p v).cpu.cc = s.cpu.cc := by cases p <;> rfl

@[simp] theorem setFlags_cpu_a (f : Flags) : (s.setFlags f).cpu.a = s.cpu.a := rfl
@[simp] theorem setFlags_cpu_b (f : Flags) : (s.setFlags f).cpu.b = s.cpu.b := rfl
@[simp] theorem setFlags_cpu_c (f : Flags) : (s.setFlags f).cpu.c = s.cpu.c := rfl
@[simp] theorem setFlags_cpu_d (f : Flags) : (s.setFlags f).cpu.d = s.cpu.d := rfl
@[simp] theorem setFlags_cpu_e (f : Flags) : (s.setFlags f).cpu.e = s.cpu.e := rfl
@[simp] theorem setFlags_cpu_h (f : Flags) : (s.setFlags f).cpu.h = s.cpu.h := rfl
@[simp] theorem setFlags_cpu_l (f : Flags) : (s.setFlags f).cpu.l = s.cpu.l := rfl
@[simp] theorem setFlags_cpu_sp (f : Flags) : (s.setFlags f).cpu.sp = s.cpu.sp := rfl
@[simp] theorem setFlags_cpu_pc (f : Flags) : (s.setFlags f).cpu.pc = s.cpu.pc := rfl
@[simp] theorem setFlags_cpu_inte (f : Flags) : (s.setFlags f).cpu.inte = s.cpu.inte := rfl
@[simp] theorem setFlags_cpu_latch (f : Flags) : (s.setFlags f).cpu.latch = s.cpu.latch := rfl
@[simp] theorem setFlags_cpu_eip (f : Flags) : (s.setFlags f).cpu.eip = s.cpu.eip := rfl
@[simp] theorem setFlags_cpu_halt (f : Flags) : (s.setFlags f).cpu.halt = s.cpu.halt := rfl
@[simp] theorem setFlags_cpu_ir (f : Flags) : (s.setFlags f).cpu.ir = s.cpu.ir := rfl
@[simp] theorem setFlags_cpu_cc (f : Flags) : (s.setFlags f).cpu.cc = s.cpu.cc := rfl

@[simp] theorem setFlagsKeepCy_cpu_a (f : Flags) : (s.setFlagsKeepCy f).cpu.a = s.cpu.a := rfl
@[simp] theorem setFlagsKeepCy_cpu_b (f : Flags) : (s.setFlagsKeepCy f).cpu.b = s.cpu.b := rfl
@[simp] theorem setFlagsKeepCy_cpu_c (f : Flags) : (s.setFlagsKeepCy f).cpu.c = s.cpu.c := rfl
@[simp] theorem setFlagsKeepCy_cpu_d (f : Flags) : (s.setFlagsKeepCy f).cpu.d = s.cpu.d := rfl
@[simp] theorem setFlagsKeepCy_cpu_e (f : Flags) : (s.setFlagsKeepCy f).cpu.e = s.cpu.e := rfl
@[simp] theorem setFlagsKeepCy_cpu_h (f : Flags) : (s.setFlagsKeepCy f).cpu.h = s.cpu.h := rfl
@[simp] theorem setFlagsKeepCy_cpu_l (f : Flags) : (s.setFlagsKeepCy f).cpu.l = s.cpu.l := rfl
@[simp] theorem setFlagsKeepCy_cpu_sp (f : Flags) : (s.setFlagsKeepCy f).cpu.sp = s.cpu.sp := rfl
@[simp] theorem setFlagsKeepCy_cpu_pc (f : Flags) : (s.setFlagsKeepCy f).cpu.pc = s.cpu.pc := rfl
@[simp] theorem setFlagsKeepCy_cpu_inte (f : Flags) : (s.setFlagsKeepCy f).cpu.inte = s.cpu.inte := rfl
@[simp] theorem setFlagsKeepCy_cpu_latch (f : Flags) : (s.setFlagsKeepCy f).cpu.latch = s.cpu.latch := rfl
@[simp] theorem setFlagsKeepCy_cpu_eip (f : Flags) : (s.setFlagsKeepCy f).cpu.eip = s.cpu.eip := rfl
@[simp] theorem setFlagsKeepCy_cpu_halt (f : Flags) : (s.setFlagsKeepCy f).cpu.halt = s.cpu.halt := rfl
@[simp] theorem setFlagsKeepCy_cpu_ir (f : Flags) : (s.setFlagsKeepCy f).cpu.ir = s.cpu.ir := rfl
@[simp] theorem setFlagsKeepCy_cpu_cc (f : Flags) : (s.setFlagsKeepCy f).cpu.cc = s.cpu.cc := rfl

@[simp] theorem setCy_cpu_a (b : Bool) : (s.setCy b).cpu.a = s.cpu.a := rfl
@[simp] theorem setCy_cpu_b (b : Bool) : (s.setCy b).cpu.b = s.cpu.b := rfl
@[simp] theorem setCy_cpu_c (b : Bool) : (s.setCy b).cpu.c = s.cpu.c := rfl
@[simp] theorem setCy_cpu_d (b : Bool) : (s.setCy b).cpu.d = s.cpu.d := rfl
@[simp] theorem setCy_cpu_e (b : Bool) : (s.setCy b).cpu.e = s.cpu.e := rfl
@[simp] theorem setCy_cpu_h (b : Bool) : (s.setCy b).cpu.h = s.cpu.h := rfl
@[simp] theorem setCy_cpu_l (b : Bool) : (s.setCy b).cpu.l = s.cpu.l := rfl
@[simp] theorem setCy_cpu_sp (b : Bool) : (s.setCy b).cpu.sp = s.cpu.sp := rfl
@[simp] theorem setCy_cpu_pc (b : Bool) : (s.setCy b).cpu.pc = s.cpu.pc := rfl
@[simp] theorem setCy_cpu_inte (b : Bool) : (s.setCy b).cpu.inte = s.cpu.inte := rfl
@[simp] theorem setCy_cpu_latch (b : Bool) : (s.setCy b).cpu.latch = s.cpu.latch := rfl
@[simp] theorem setCy_cpu_eip (b : Bool) : (s.setCy b).cpu.eip = s.cpu.eip := rfl
@[simp] theorem setCy_cpu_halt (b : Bool) : (s.setCy b).cpu.halt = s.cpu.halt := rfl
@[simp] theorem setCy_cpu_ir (b : Bool) : (s.setCy b).cpu.ir = s.cpu.ir := rfl
@[simp] theorem setCy_cpu_cc (b : Bool) : (s.setCy b).cpu.cc = s.cpu.cc := rfl

@[simp] theorem accumulate_cpu_b (op : AluOp) (b : Byte) : (s.accumulate op b).cpu.b = s.cpu.b := by cases op <;> rfl
@[simp] theorem accumulate_cpu_c (op : AluOp) (b : Byte) : (s.accumulate op b).cpu.c = s.cpu.c := by cases op <;> rfl
@[simp] theorem accumulate_cpu_d (op : AluOp) (b : Byte) : (s.accumulate op b).cpu.d = s.cpu.d := by cases op <;> rfl
@[simp] theorem accumulate_cpu_e (op : AluOp) (b : Byte) : (s.accumulate op b).cpu.e = s.cpu.e := by cases op <;> rfl
@[simp] theorem accumulate_cpu_h (op : AluOp) (b : Byte) : (s.accumulate op b).cpu.h = s.cpu.h := by cases op <;> rfl
@[simp] theorem accumulate_cpu_l (op : AluOp) (b : Byte) : (s.accumulate op b).cpu.l = s.cpu.l := by cases op <;> rfl
@[simp] theorem accumulate_cpu_sp (op : AluOp) (b : Byte) : (s.accumulate op b).cpu.sp = s.cpu.sp := by cases op <;> rfl
@[simp] theorem accumulate_cpu_pc (op : AluOp) (b : Byte) : (s.accumulate op b).cpu.pc = s.cpu.pc := by cases op <;> rfl
@[simp] theorem accumulate_cpu_inte (op : AluOp) (b : Byte) : (s.accumulate op b).cpu.inte = s.cpu.inte := by cases op <;> rfl
@[simp] theorem accumulate_cpu_latch (op : AluOp) (b : Byte) : (s.accumulate op b).cpu.latch = s.cpu.latch := by cases op <;> rfl
@[simp] theorem accumulate_cpu_eip (op : AluOp) (b : Byte) : (s.accumulate op b).cpu.eip = s.cpu.eip := by cases op <;> rfl
@[simp] theorem accumulate_cpu_halt (op : AluOp) (b : Byte) : (s.accumulate op b).cpu.halt = s.cpu.halt := by cases op <;> rfl
@[simp] theorem accumulate_cpu_ir (op : AluOp) (b : Byte) : (s.accumulate op b).cpu.ir = s.cpu.ir := by cases op <;> rfl
@[simp] theorem accumulate_cpu_cc (op : AluOp) (b : Byte) : (s.accumulate op b).cpu.cc = s.cpu.cc := by cases op <;> rfl

@[simp] theorem fetchByte_cpu_a (v : Byte) : (s.fetchByte v).cpu.a = s.cpu.a := rfl
@[simp] theorem fetchByte_cpu_b (v : Byte) : (s.fetchByte v).cpu.b = s.cpu.b := rfl
@[simp] theorem fetchByte_cpu_c (v : Byte) : (s.fetchByte v).cpu.c = s.cpu.c := rfl
@[simp] theorem fetchByte_cpu_d (v : Byte) : (s.fetchByte v).cpu.d = s.cpu.d := rfl
@[simp] theorem fetchByte_cpu_e (v : Byte) : (s.fetchByte v).cpu.e = s.cpu.e := rfl
@[simp] theorem fetchByte_cpu_h (v : Byte) : (s.fetchByte v).cpu.h = s.cpu.h := rfl
@[simp] theorem fetchByte_cpu_l (v : Byte) : (s.fetchByte v).cpu.l = s.cpu.l := rfl
@[simp] theorem fetchByte_cpu_sp (v : Byte) : (s.fetchByte v).cpu.sp = s.cpu.sp := rfl
@[simp] theorem fetchByte_cpu_flags (v : Byte) : (s.fetchByte v).cpu.flags = s.cpu.flags := rfl
@[simp] theorem fetchByte_cpu_inte (v : Byte) : (s.fetchByte v).cpu.inte = s.cpu.inte := rfl
@[simp] theorem fetchByte_cpu_latch (v : Byte) : (s.fetchByte v).cpu.latch = s.cpu.latch := rfl
@[simp] theorem fetchByte_cpu_eip (v : Byte) : (s.fetchByte v).cpu.eip = s.cpu.eip := rfl
@[simp] theorem fetchByte_cpu_halt (v : Byte) : (s.fetchByte v).cpu.halt = s.cpu.halt := rfl
@[simp] theorem fetchByte_cpu_ir (v : Byte) : (s.fetchByte v).cpu.ir = s.cpu.ir := rfl
@[simp] theorem fetchByte_cpu_cc (v : Byte) : (s.fetchByte v).cpu.cc = s.cpu.cc := rfl

@[simp] theorem fetchZ_cpu_a (v : Byte) : (s.fetchZ v).cpu.a = s.cpu.a := rfl
@[simp] theorem fetchZ_cpu_b (v : Byte) : (s.fetchZ v).cpu.b = s.cpu.b := rfl
@[simp] theorem fetchZ_cpu_c (v : Byte) : (s.fetchZ v).cpu.c = s.cpu.c := rfl
@[simp] theorem fetchZ_cpu_d (v : Byte) : (s.fetchZ v).cpu.d = s.cpu.d := rfl
@[simp] theorem fetchZ_cpu_e (v : Byte) : (s.fetchZ v).cpu.e = s.cpu.e := rfl
@[simp] theorem fetchZ_cpu_h (v : Byte) : (s.fetchZ v).cpu.h = s.cpu.h := rfl
@[simp] theorem fetchZ_cpu_l (v : Byte) : (s.fetchZ v).cpu.l = s.cpu.l := rfl
@[simp] theorem fetchZ_cpu_sp (v : Byte) : (s.fetchZ v).cpu.sp = s.cpu.sp := rfl
@[simp] theorem fetchZ_cpu_flags (v : Byte) : (s.fetchZ v).cpu.flags = s.cpu.flags := rfl
@[simp] theorem fetchZ_cpu_inte (v : Byte) : (s.fetchZ v).cpu.inte = s.cpu.inte := rfl
@[simp] theorem fetchZ_cpu_latch (v : Byte) : (s.fetchZ v).cpu.latch = s.cpu.latch := rfl
@[simp] theorem fetchZ_cpu_eip (v : Byte) : (s.fetchZ v).cpu.eip = s.cpu.eip := rfl
@[simp] theorem fetchZ_cpu_halt (v : Byte) : (s.fetchZ v).cpu.halt = s.cpu.halt := rfl
@[simp] theorem fetchZ_cpu_ir (v : Byte) : (s.fetchZ v).cpu.ir = s.cpu.ir := rfl
@[simp] theorem fetchZ_cpu_cc (v : Byte) : (s.fetchZ v).cpu.cc = s.cpu.cc := rfl

@[simp] theorem fetchW_cpu_a (v : Byte) : (s.fetchW v).cpu.a = s.cpu.a := rfl
@[simp] theorem fetchW_cpu_b (v : Byte) : (s.fetchW v).cpu.b = s.cpu.b := rfl
@[simp] theorem fetchW_cpu_c (v : Byte) : (s.fetchW v).cpu.c = s.cpu.c := rfl
@[simp] theorem fetchW_cpu_d (v : Byte) : (s.fetchW v).cpu.d = s.cpu.d := rfl
@[simp] theorem fetchW_cpu_e (v : Byte) : (s.fetchW v).cpu.e = s.cpu.e := rfl
@[simp] theorem fetchW_cpu_h (v : Byte) : (s.fetchW v).cpu.h = s.cpu.h := rfl
@[simp] theorem fetchW_cpu_l (v : Byte) : (s.fetchW v).cpu.l = s.cpu.l := rfl
@[simp] theorem fetchW_cpu_sp (v : Byte) : (s.fetchW v).cpu.sp = s.cpu.sp := rfl
@[simp] theorem fetchW_cpu_flags (v : Byte) : (s.fetchW v).cpu.flags = s.cpu.flags := rfl
@[simp] theorem fetchW_cpu_inte (v : Byte) : (s.fetchW v).cpu.inte = s.cpu.inte := rfl
@[simp] theorem fetchW_cpu_latch (v : Byte) : (s.fetchW v).cpu.latch = s.cpu.latch := rfl
@[simp] theorem fetchW_cpu_eip (v : Byte) : (s.fetchW v).cpu.eip = s.cpu.eip := rfl
@[simp] theorem fetchW_cpu_halt (v : Byte) : (s.fetchW v).cpu.halt = s.cpu.halt := rfl
@[simp] theorem fetchW_cpu_ir (v : Byte) : (s.fetchW v).cpu.ir = s.cpu.ir := rfl
@[simp] theorem fetchW_cpu_cc (v : Byte) : (s.fetchW v).cpu.cc = s.cpu.cc := rfl

@[simp] theorem push_cpu_a (v : Byte) : (s.push v).cpu.a = s.cpu.a := rfl
@[simp] theorem push_cpu_b (v : Byte) : (s.push v).cpu.b = s.cpu.b := rfl
@[simp] theorem push_cpu_c (v : Byte) : (s.push v).cpu.c = s.cpu.c := rfl
@[simp] theorem push_cpu_d (v : Byte) : (s.push v).cpu.d = s.cpu.d := rfl
@[simp] theorem push_cpu_e (v : Byte) : (s.push v).cpu.e = s.cpu.e := rfl
@[simp] theorem push_cpu_h (v : Byte) : (s.push v).cpu.h = s.cpu.h := rfl
@[simp] theorem push_cpu_l (v : Byte) : (s.push v).cpu.l = s.cpu.l := rfl
@[simp] theorem push_cpu_pc (v : Byte) : (s.push v).cpu.pc = s.cpu.pc := rfl
@[simp] theorem push_cpu_flags (v : Byte) : (s.push v).cpu.flags = s.cpu.flags := rfl
@[simp] theorem push_cpu_inte (v : Byte) : (s.push v).cpu.inte = s.cpu.inte := rfl
@[simp] theorem push_cpu_latch (v : Byte) : (s.push v).cpu.latch = s.cpu.latch := rfl
@[simp] theorem push_cpu_eip (v : Byte) : (s.push v).cpu.eip = s.cpu.eip := rfl
@[simp] theorem push_cpu_halt (v : Byte) : (s.push v).cpu.halt = s.cpu.halt := rfl
@[simp] theorem push_cpu_ir (v : Byte) : (s.push v).cpu.ir = s.cpu.ir := rfl
@[simp] theorem push_cpu_cc (v : Byte) : (s.push v).cpu.cc = s.cpu.cc := rfl

@[simp] theorem popZ_cpu_a : (s.popZ).cpu.a = s.cpu.a := rfl
@[simp] theorem popZ_cpu_b : (s.popZ).cpu.b = s.cpu.b := rfl
@[simp] theorem popZ_cpu_c : (s.popZ).cpu.c = s.cpu.c := rfl
@[simp] theorem popZ_cpu_d : (s.popZ).cpu.d = s.cpu.d := rfl
@[simp] theorem popZ_cpu_e : (s.popZ).cpu.e = s.cpu.e := rfl
@[simp] theorem popZ_cpu_h : (s.popZ).cpu.h = s.cpu.h := rfl
@[simp] theorem popZ_cpu_l : (s.popZ).cpu.l = s.cpu.l := rfl
@[simp] theorem popZ_cpu_pc : (s.popZ).cpu.pc = s.cpu.pc := rfl
@[simp] theorem popZ_cpu_flags : (s.popZ).cpu.flags = s.cpu.flags := rfl
@[simp] theorem popZ_cpu_inte : (s.popZ).cpu.inte = s.cpu.inte := rfl
@[simp] theorem popZ_cpu_latch : (s.popZ).cpu.latch = s.cpu.latch := rfl
@[simp] theorem popZ_cpu_eip : (s.popZ).cpu.eip = s.cpu.eip := rfl
@[simp] theorem popZ_cpu_halt : (s.popZ).cpu.halt = s.cpu.halt := rfl
@[simp] theorem popZ_cpu_ir : (s.popZ).cpu.ir = s.cpu.ir := rfl
@[simp] theorem popZ_cpu_cc : (s.popZ).cpu.cc = s.cpu.cc := rfl

@[simp] theorem popW_cpu_a : (s.popW).cpu.a = s.cpu.a := rfl
@[simp] theorem popW_cpu_b : (s.popW).cpu.b = s.cpu.b := rfl
@[simp] theorem popW_cpu_c : (s.popW).cpu.c = s.cpu.c := rfl
@[simp] theorem popW_cpu_d : (s.popW).cpu.d = s.cpu.d := rfl
@[simp] theorem popW_cpu_e : (s.popW).cpu.e = s.cpu.e := rfl
@[simp] theorem popW_cpu_h : (s.popW).cpu.h = s.cpu.h := rfl
@[simp] theorem popW_cpu_l : (s.popW).cpu.l = s.cpu.l := rfl
@[simp] theorem popW_cpu_pc : (s.popW).cpu.pc = s.cpu.pc := rfl
@[simp] theorem popW_cpu_flags : (s.popW).cpu.flags = s.cpu.flags := rfl
@[simp] theorem popW_cpu_inte : (s.popW).cpu.inte = s.cpu.inte := rfl
@[simp] theorem popW_cpu_latch : (s.popW).cpu.latch = s.cpu.latch := rfl
@[simp] theorem popW_cpu_eip : (s.popW).cpu.eip = s.cpu.eip := rfl
@[simp] theorem popW_cpu_halt : (s.popW).cpu.halt = s.cpu.halt := rfl
@[simp] theorem popW_cpu_ir : (s.popW).cpu.ir = s.cpu.ir := rfl
@[simp] theorem popW_cpu_cc : (s.popW).cpu.cc = s.cpu.cc := rfl

@[simp] theorem beginCycle_cpu_a : (s.beginCycle).cpu.a = s.cpu.a := rfl
@[simp] theorem beginCycle_cpu_b : (s.beginCycle).cpu.b = s.cpu.b := rfl
@[simp] theorem beginCycle_cpu_c : (s.beginCycle).cpu.c = s.cpu.c := rfl
@[simp] theorem beginCycle_cpu_d : (s.beginCycle).cpu.d = s.cpu.d := rfl
@[simp] theorem beginCycle_cpu_e : (s.beginCycle).cpu.e = s.cpu.e := rfl
@[simp] theorem beginCycle_cpu_h : (s.beginCycle).cpu.h = s.cpu.h := rfl
@[simp] theorem beginCycle_cpu_l : (s.beginCycle).cpu.l = s.cpu.l := rfl
@[simp] theorem beginCycle_cpu_sp : (s.beginCycle).cpu.sp = s.cpu.sp := rfl
@[simp] theorem beginCycle_cpu_pc : (s.beginCycle).cpu.pc = s.cpu.pc := rfl
@[simp] theorem beginCycle_cpu_flags : (s.beginCycle).cpu.flags = s.cpu.flags := rfl
@[simp] theorem beginCycle_cpu_inte : (s.beginCycle).cpu.inte = s.cpu.inte := rfl
@[simp] theorem beginCycle_cpu_eip : (s.beginCycle).cpu.eip = s.cpu.eip := rfl
@[simp] theorem beginCycle_cpu_halt : (s.beginCycle).cpu.halt = s.cpu.halt := rfl
@[simp] theorem beginCycle_cpu_ir : (s.beginCycle).cpu.ir = s.cpu.ir := rfl
@[simp] theorem beginCycle_cpu_cc : (s.beginCycle).cpu.cc = s.cpu.cc := rfl

@[simp] theorem endCycle_cpu_a : (s.endCycle).cpu.a = s.cpu.a := rfl
@[simp] theorem endCycle_cpu_b : (s.endCycle).cpu.b = s.cpu.b := rfl
@[simp] theorem endCycle_cpu_c : (s.endCycle).cpu.c = s.cpu.c := rfl
@[simp] theorem endCycle_cpu_d : (s.endCycle).cpu.d = s.cpu.d := rfl
@[simp] theorem endCycle_cpu_e : (s.endCycle).cpu.e = s.cpu.e := rfl
@[simp] theorem endCycle_cpu_h : (s.endCycle).cpu.h = s.cpu.h := rfl
@[simp] theorem endCycle_cpu_l : (s.endCycle).cpu.l = s.cpu.l := rfl
@[simp] theorem endCycle_cpu_sp : (s.endCycle).cpu.sp = s.cpu.sp := rfl
@[simp] theorem endCycle_cpu_pc : (s.endCycle).cpu.pc = s.cpu.pc := rfl
@[simp] theorem endCycle_cpu_flags : (s.endCycle).cpu.flags = s.cpu.flags := rfl
@[simp] theorem endCycle_cpu_inte : (s.endCycle).cpu.inte = s.cpu.inte := rfl
@[simp] theorem endCycle_cpu_latch : (s.endCycle).cpu.latch = s.cpu.latch := rfl
@[simp] theorem endCycle_cpu_eip : (s.endCycle).cpu.eip = s.cpu.eip := rfl
@[simp] theorem endCycle_cpu_halt : (s.endCycle).cpu.halt = s.cpu.halt := rfl
@[simp] theorem endCycle_cpu_ir : (s.endCycle).cpu.ir = s.cpu.ir := rfl

@[simp] theorem start_cpu_a (op : Byte) : (s.start op).cpu.a = s.cpu.a := rfl
@[simp] theorem start_cpu_b (op : Byte) : (s.start op).cpu.b = s.cpu.b := rfl
@[simp] theorem start_cpu_c (op : Byte) : (s.start op).cpu.c = s.cpu.c := rfl
@[simp] theorem start_cpu_d (op : Byte) : (s.start op).cpu.d = s.cpu.d := rfl
@[simp] theorem start_cpu_e (op : Byte) : (s.start op).cpu.e = s.cpu.e := rfl
@[simp] theorem start_cpu_h (op : Byte) : (s.start op).cpu.h = s.cpu.h := rfl
@[simp] theorem start_cpu_l (op : Byte) : (s.start op).cpu.l = s.cpu.l := rfl
@[simp] theorem start_cpu_sp (op : Byte) : (s.start op).cpu.sp = s.cpu.sp := rfl
@[simp] theorem start_cpu_pc (op : Byte) : (s.start op).cpu.pc = s.cpu.pc := rfl
@[simp] theorem start_cpu_flags (op : Byte) : (s.start op).cpu.flags = s.cpu.flags := rfl
@[simp] theorem start_cpu_inte (op : Byte) : (s.start op).cpu.inte = s.cpu.inte := rfl
@[simp] theorem start_cpu_latch (op : Byte) : (s.start op).cpu.latch = s.cpu.latch := rfl
@[simp] theorem start_cpu_eip (op : Byte) : (s.start op).cpu.eip = s.cpu.eip := rfl
@[simp] theorem start_cpu_halt (op : Byte) : (s.start op).cpu.halt = s.cpu.halt := rfl
@[simp] theorem start_cpu_cc (op : Byte) : (s.start op).cpu.cc = s.cpu.cc := rfl

@[simp] theorem enterService_cpu_a : (s.enterService).cpu.a = s.cpu.a := rfl
@[simp] theorem enterService_cpu_b : (s.enterService).cpu.b = s.cpu.b := rfl
@[simp] theorem enterService_cpu_c : (s.enterService).cpu.c = s.cpu.c := rfl
@[simp] theorem enterService_cpu_d : (s.enterService).cpu.d = s.cpu.d := rfl
@[simp] theorem enterService_cpu_e : (s.enterService).cpu.e = s.cpu.e := rfl
@[simp] theorem enterService_cpu_h : (s.enterService).cpu.h = s.cpu.h := rfl
@[simp] theorem enterService_cpu_l : (s.enterService).cpu.l = s.cpu.l := rfl
@[simp] theorem enterService_cpu_sp : (s.enterService).cpu.sp = s.cpu.sp := rfl
@[simp] theorem enterService_cpu_pc : (s.enterService).cpu.pc = s.cpu.pc := rfl
@[simp] theorem enterService_cpu_flags : (s.enterService).cpu.flags = s.cpu.flags := rfl
@[simp] theorem enterService_cpu_eip : (s.enterService).cpu.eip = s.cpu.eip := rfl
@[simp] theorem enterService_cpu_ir : (s.enterService).cpu.ir = s.cpu.ir := rfl
@[simp] theorem enterService_cpu_cc : (s.enterService).cpu.cc = s.cpu.cc := rfl

@[simp] theorem fetchOpcode_cpu_a : (s.fetchOpcode).cpu.a = s.cpu.a := rfl
@[simp] theorem fetchOpcode_cpu_b : (s.fetchOpcode).cpu.b = s.cpu.b := rfl
@[simp] theorem fetchOpcode_cpu_c : (s.fetchOpcode).cpu.c = s.cpu.c := rfl
@[simp] theorem fetchOpcode_cpu_d : (s.fetchOpcode).cpu.d = s.cpu.d := rfl
@[simp] theorem fetchOpcode_cpu_e : (s.fetchOpcode).cpu.e = s.cpu.e := rfl
@[simp] theorem fetchOpcode_cpu_h : (s.fetchOpcode).cpu.h = s.cpu.h := rfl
@[simp] theorem fetchOpcode_cpu_l : (s.fetchOpcode).cpu.l = s.cpu.l := rfl
@[simp] theorem fetchOpcode_cpu_sp : (s.fetchOpcode).cpu.sp = s.cpu.sp := rfl
@[simp] theorem fetchOpcode_cpu_flags : (s.fetchOpcode).cpu.flags = s.cpu.flags := rfl
@[simp] theorem fetchOpcode_cpu_inte : (s.fetchOpcode).cpu.inte = s.cpu.inte := rfl
@[simp] theorem fetchOpcode_cpu_latch : (s.fetchOpcode).cpu.latch = s.cpu.latch := rfl
@[simp] theorem fetchOpcode_cpu_halt : (s.fetchOpcode).cpu.halt = s.cpu.halt := rfl
@[simp] theorem fetchOpcode_cpu_ir : (s.fetchOpcode).cpu.ir = s.cpu.ir := rfl
@[simp] theorem fetchOpcode_cpu_cc : (s.fetchOpcode).cpu.cc = s.cpu.cc := rfl

/-! The fields an update writes. -/

/-- A register write is read back from that register and leaves the others. -/
@[simp] theorem reg_setReg (r q : Reg) (v : Byte) : (s.setReg r v).reg q = if q = r then v else s.reg q := by
  cases r <;> cases q <;> rfl

@[simp] theorem setSp_cpu_sp (v : Word) : (s.setSp v).cpu.sp = v := rfl
@[simp] theorem setPc_cpu_pc (v : Word) : (s.setPc v).cpu.pc = v := rfl
@[simp] theorem setFlags_cpu_flags (f : Flags) : (s.setFlags f).cpu.flags = f := rfl
@[simp] theorem setFlagsKeepCy_cpu_flags (f : Flags) :
    (s.setFlagsKeepCy f).cpu.flags = { f with cy := s.cpu.flags.cy } := rfl
@[simp] theorem setCy_cpu_flags (b : Bool) : (s.setCy b).cpu.flags = { s.cpu.flags with cy := b } := rfl
@[simp] theorem fetchByte_cpu_pc (v : Byte) : (s.fetchByte v).cpu.pc = s.cpu.pc + 1 := rfl
@[simp] theorem fetchZ_cpu_pc (v : Byte) : (s.fetchZ v).cpu.pc = s.cpu.pc + 1 := rfl
@[simp] theorem fetchW_cpu_pc (v : Byte) : (s.fetchW v).cpu.pc = s.cpu.pc + 1 := rfl
@[simp] theorem push_cpu_sp (v : Byte) : (s.push v).cpu.sp = s.cpu.sp - 1 := rfl
@[simp] theorem popZ_cpu_sp : s.popZ.cpu.sp = s.cpu.sp + 1 := rfl
@[simp] theorem popW_cpu_sp : s.popW.cpu.sp = s.cpu.sp + 1 := rfl
@[simp] theorem fetchZ_z (v : Byte) : (s.fetchZ v).z = v := rfl
@[simp] theorem fetchW_w (v : Byte) : (s.fetchW v).w = v := rfl
@[simp] theorem loadZ_z (a : Word) (sp : Space) : (s.loadZ a sp).z = s.readByte a sp := rfl
@[simp] theorem loadW_w (a : Word) (sp : Space) : (s.loadW a sp).w = s.readByte a sp := rfl
@[simp] theorem popZ_z : s.popZ.z = s.readByte s.cpu.sp .stack := rfl
@[simp] theorem popW_w : s.popW.w = s.readByte s.cpu.sp .stack := rfl
@[simp] theorem writeByte_ram (a : Word) (sp : Space) (v : Byte) :
    (s.writeByte a sp v).ram = s.ram.write (s.translate a sp) v := rfl
@[simp] theorem push_ram (v : Byte) : (s.push v).ram = s.ram.write (s.translate (s.cpu.sp - 1) .stack) v := rfl
@[simp] theorem endCycle_cpu_cc : s.endCycle.cpu.cc = s.cpu.cc + 4 := rfl
@[simp] theorem start_mci (op : Byte) : (s.start op).mci = 0 := rfl
@[simp] theorem start_cpu_ir (op : Byte) : (s.start op).cpu.ir = op := rfl

end Sys2Proof.Laws
end

