-- ==== Sys2Proof/Laws/Cycles.lean ====
section
/-! SUPPORT. What the machine cycles around an instruction's work do, said once: to the architectural part, to any
property the work keeps, and to time. -/

namespace Sys2Proof.Laws

open Sys2Proof.Machine

/-! ## The architectural part does not see time pass -/

@[simp] theorem arch_beginCycle (s : State) : s.beginCycle.arch = s.arch := rfl
@[simp] theorem arch_endCycle (s : State) : s.endCycle.arch = s.arch := rfl
@[simp] theorem arch_start (s : State) (op : Byte) : (s.start op).arch = s.arch := rfl
@[simp] theorem arch_idleCycle (s : State) : (s.machineCycle idle).arch = s.arch := rfl
@[simp] theorem arch_forgetTemps (s : State) : s.forgetTemps.arch = s.arch := rfl
@[simp] theorem arch_clearRecord (s : State) : s.clearRecord.arch = s.arch := rfl
@[simp] theorem arch_noteRead (s : State) (a : Word) (sp : Space) : (s.noteRead a sp).arch = s.arch := rfl
@[simp] theorem arch_loadZ (s : State) (a : Word) (sp : Space) : (s.loadZ a sp).arch = s.arch := rfl
@[simp] theorem arch_loadW (s : State) (a : Word) (sp : Space) : (s.loadW a sp).arch = s.arch := rfl

theorem arch_idleCycles (n : Nat) (s : State) :
    ((List.replicate n idle).foldl (fun t act => t.machineCycle act) s).arch = s.arch := by
  induction n generalizing s with
  | zero => rfl
  | succ n ih => rw [List.replicate_succ, List.foldl_cons, ih, arch_idleCycle]

/-- What a row leaves, as far as the architectural part shows, is what its scheduled cycles leave. -/
theorem arch_runRow (s : State) (op : Byte) (mc0 : Act) (later : List Act) :
    (s.runRow op mc0 later).arch =
      (later.foldl (fun t act => t.machineCycle act) (mc0 (s.start op)).endCycle).arch := by
  rw [State.runRow, List.foldl_append, arch_idleCycles]

/-! ## A property that the work, the cycle's start and its end keep -/

theorem foldl_keeps {P : State → Prop} (hb : ∀ t, P t → P t.beginCycle) (he : ∀ t, P t → P t.endCycle)
    {acts : List Act} (ha : ∀ a ∈ acts, ∀ t, P t → P (a t)) {s : State} (h : P s) :
    P (acts.foldl (fun t act => t.machineCycle act) s) := by
  induction acts generalizing s with
  | nil => exact h
  | cons a acts ih =>
    exact ih (fun b hb' => ha b (by simp [hb'])) (he _ (ha a (by simp) _ (hb _ h)))

/-- An instruction keeps what its machine cycles' work and the cycles around it keep. -/
theorem runRow_keeps {P : State → Prop} (hb : ∀ t, P t → P t.beginCycle) (he : ∀ t, P t → P t.endCycle)
    {mc0 : Act} {later : List Act} (h0 : ∀ t, P t → P (mc0 t)) (hl : ∀ a ∈ later, ∀ t, P t → P (a t))
    {s : State} {op : Byte} (h : P (s.start op)) : P (s.runRow op mc0 later) := by
  refine foldl_keeps hb he ?_ (he _ (h0 _ h))
  intro a ha t ht
  rcases List.mem_append.1 ha with ha | ha
  · exact hl a ha t ht
  · rw [(List.mem_replicate.1 ha).2]; exact ht

/-! ## Time -/

/-- Work that leaves MCI, IR, CC and the parameters alone and adds no audio clock to the trace. -/
structure Timeless (act : Act) : Prop where
  mci    : ∀ s, (act s).mci = s.mci
  ir     : ∀ s, (act s).cpu.ir = s.cpu.ir
  cc     : ∀ s, (act s).cpu.cc = s.cpu.cc
  params : ∀ s, (act s).params = s.params
  cycles : ∀ s, cycleIndices (act s).trace = cycleIndices s.trace

theorem idle_timeless : Timeless idle := ⟨fun _ => rfl, fun _ => rfl, fun _ => rfl, fun _ => rfl, fun _ => rfl⟩

theorem Timeless.comp {f g : Act} (hf : Timeless f) (hg : Timeless g) : Timeless fun s => g (f s) :=
  ⟨fun s => (hg.mci _).trans (hf.mci s), fun s => (hg.ir _).trans (hf.ir s), fun s => (hg.cc _).trans (hf.cc s),
    fun s => (hg.params _).trans (hf.params s), fun s => (hg.cycles _).trans (hf.cycles s)⟩

theorem cycleIndices_append (a b : List (BitVec 4 × BusEvent)) :
    cycleIndices (a ++ b) = cycleIndices a ++ cycleIndices b := by simp [cycleIndices]

@[simp] theorem cycleIndices_endCycle (s : State) :
    cycleIndices s.endCycle.trace = cycleIndices s.trace ++ [s.mci.toNat] := by
  change cycleIndices (s.trace ++ [(s.mci, BusEvent.audioClock 4 (Config.beeperBit s.io))]) = _
  rw [cycleIndices_append]; rfl

@[simp] theorem beginCycle_trace' (s : State) : s.beginCycle.trace = s.trace := rfl

/-- Before the last cycle of an opcode MCI goes up by one, and after it MCI is 0. -/
theorem nextMci_toNat {table : List Nat} {ir : Byte} {mci : BitVec 4} (h : mci.toNat < mcOf table ir)
    (h6 : mcOf table ir ≤ 6) :
    (nextMci table ir mci).toNat = if mci.toNat + 1 = mcOf table ir then 0 else mci.toNat + 1 := by
  unfold nextMci
  split
  · rfl
  · rw [BitVec.toNat_add]; change (mci.toNat + 1) % 16 = _; omega

/-- The cycles from index `j` on, when they are the last of the opcode in IR: CC grows by 4 for each, MCI takes their
indices in order, and it is 0 after the last. -/
theorem foldl_time {acts : List Act} (ha : ∀ a ∈ acts, Timeless a) {s : State} {j : Nat}
    (hj : s.mci.toNat = j) (hne : acts ≠ []) (hm : j + acts.length = mcOf s.params.mc s.cpu.ir)
    (h6 : mcOf s.params.mc s.cpu.ir ≤ 6) :
    let t := acts.foldl (fun t act => t.machineCycle act) s
    t.mci = 0 ∧ t.cpu.cc = s.cpu.cc + BitVec.ofNat 64 (4 * acts.length) ∧
      cycleIndices t.trace = cycleIndices s.trace ++ List.range' j acts.length ∧ t.cpu.ir = s.cpu.ir := by
  induction acts generalizing s j with
  | nil => exact absurd rfl hne
  | cons a acts ih =>
    have h := ha a (by simp)
    have hmci : (a s.beginCycle).mci = s.mci := (h.mci _).trans rfl
    have hir : (a s.beginCycle).cpu.ir = s.cpu.ir := (h.ir _).trans rfl
    have hcc : (a s.beginCycle).cpu.cc = s.cpu.cc := (h.cc _).trans rfl
    have hpar : (a s.beginCycle).params = s.params := (h.params _).trans rfl
    have hcyc : cycleIndices (s.machineCycle a).trace = cycleIndices s.trace ++ [j] := by
      unfold State.machineCycle
      rw [cycleIndices_endCycle, h.cycles, hmci, hj, beginCycle_trace']
    have hnext : (s.machineCycle a).mci = nextMci s.params.mc s.cpu.ir s.mci := by
      change nextMci (a s.beginCycle).params.mc (a s.beginCycle).cpu.ir (a s.beginCycle).mci = _
      rw [hpar, hir, hmci]
    have hir' : (s.machineCycle a).cpu.ir = s.cpu.ir := hir
    have hcc' : (s.machineCycle a).cpu.cc = s.cpu.cc + 4 := by
      change (a s.beginCycle).cpu.cc + 4 = _; rw [hcc]
    have hpar' : (s.machineCycle a).params = s.params := hpar
    rw [List.length_cons] at hm
    have hn := nextMci_toNat (table := s.params.mc) (ir := s.cpu.ir) (mci := s.mci) (by omega) h6
    by_cases hnil : acts = []
    · subst hnil
      simp only [List.foldl_cons, List.foldl_nil, List.length_cons, List.length_nil] at hm ⊢
      refine ⟨?_, by rw [hcc']; rfl, by rw [hcyc]; rfl, hir'⟩
      rw [hnext]
      unfold nextMci
      rw [if_pos (by omega)]
    · have hpos : 0 < acts.length := List.length_pos_iff.2 hnil
      have := ih (fun b hb => ha b (by simp [hb])) (s := s.machineCycle a) (j := j + 1)
        (by rw [hnext, hn, if_neg (by omega), hj]) hnil (by rw [hpar', hir']; omega) (by rw [hpar', hir']; exact h6)
      dsimp only at this
      refine ⟨this.1, ?_, ?_, this.2.2.2.trans hir'⟩
      · simp only [List.foldl_cons, List.length_cons]
        rw [this.2.1, hcc', BitVec.add_assoc]
        congr 1
        rw [Nat.mul_add, Nat.add_comm, BitVec.ofNat_add]
        rfl
      · simp only [List.foldl_cons, List.length_cons]
        rw [this.2.2.1, hcyc, List.append_assoc]
        rfl

/-- An instruction whose schedule fits: MCI runs 0, 1, … to MC - 1 and is 0 after it, and CC grows by 4 * MC. -/
theorem runRow_time {s : State} {op : Byte} {mc0 : Act} {later : List Act} (h0 : Timeless mc0)
    (hl : ∀ a ∈ later, Timeless a) (hfit : later.length + 1 ≤ mcOf s.params.mc op) (h6 : mcOf s.params.mc op ≤ 6) :
    (s.runRow op mc0 later).mci = 0 ∧
      (s.runRow op mc0 later).cpu.cc = s.cpu.cc + BitVec.ofNat 64 (4 * mcOf s.params.mc op) ∧
      cycleIndices (s.runRow op mc0 later).trace = cycleIndices s.trace ++ List.range (mcOf s.params.mc op) ∧
      (s.runRow op mc0 later).cpu.ir = op := by
  let acts := later ++ List.replicate (mcOf s.params.mc op - 1 - later.length) idle
  let t := (mc0 (s.start op)).endCycle
  have hlen : acts.length + 1 = mcOf s.params.mc op := by simp [acts]; omega
  have hacts : ∀ a ∈ acts, Timeless a := by
    intro a ha
    rcases List.mem_append.1 ha with ha | ha
    · exact hl a ha
    · rw [(List.mem_replicate.1 ha).2]; exact idle_timeless
  have hir : t.cpu.ir = op := h0.ir _
  have hpar : t.params = s.params := h0.params _
  have hcc : t.cpu.cc = s.cpu.cc + 4 := by
    change (mc0 (s.start op)).cpu.cc + 4 = _; rw [h0.cc]; rfl
  have hmci : t.mci = nextMci s.params.mc op 0 := by
    change nextMci (mc0 (s.start op)).params.mc (mc0 (s.start op)).cpu.ir (mc0 (s.start op)).mci = _
    rw [h0.params, h0.ir, h0.mci]; rfl
  have hcyc : cycleIndices t.trace = cycleIndices s.trace ++ [0] := by
    change cycleIndices (mc0 (s.start op)).endCycle.trace = _
    rw [cycleIndices_endCycle, h0.cycles, h0.mci]; rfl
  change (acts.foldl (fun t act => t.machineCycle act) t).mci = 0 ∧
    (acts.foldl (fun t act => t.machineCycle act) t).cpu.cc = _ ∧
    cycleIndices (acts.foldl (fun t act => t.machineCycle act) t).trace = _ ∧
    (acts.foldl (fun t act => t.machineCycle act) t).cpu.ir = op
  rw [← hlen]
  by_cases hnil : acts = []
  · rw [hnil] at hlen ⊢
    simp only [List.foldl_nil, List.length_nil] at hlen ⊢
    refine ⟨?_, hcc, hcyc, hir⟩
    rw [hmci]; unfold nextMci; rw [if_pos (by simpa using hlen)]
  · have hpos : 0 < acts.length := List.length_pos_iff.2 hnil
    have hz : (0 : BitVec 4).toNat = 0 := rfl
    have := foldl_time (j := 1) hacts (s := t)
      (by rw [hmci, nextMci_toNat (by rw [hz]; omega) h6, hz, if_neg (by omega)]) hnil
      (by rw [hpar, hir]; omega) (by rw [hpar, hir]; exact h6)
    refine ⟨this.1, ?_, ?_, this.2.2.2.trans hir⟩
    · rw [this.2.1, hcc, BitVec.add_assoc]
      congr 1
      rw [Nat.mul_add, Nat.add_comm, BitVec.ofNat_add]
      rfl
    · rw [this.2.2.1, hcyc, List.append_assoc]
      congr 1
      rw [List.range_eq_range', List.range'_succ]
      rfl

end Sys2Proof.Laws
end

