-- ==== Sys2Proof/Laws/Bus.lean ====
section
/-! SUPPORT. What the work of a machine cycle does besides its registers, said once (`Did`), and what a row of machine
cycles does as a whole: its bus events at their indices, its diff record, its writes to memory, and time. -/

namespace Sys2Proof.Laws

open Sys2Proof.Machine

/-! ## The work of one machine cycle -/

/-- The event is none of the audio clocks. -/
def onBus : BusEvent → Bool
  | .audioClock _ _ => false
  | _ => true

/-- The instruction bytes among events. -/
def bytesOf (es : List BusEvent) : List Byte :=
  es.filterMap fun e =>
    match e with
    | .fetch _ _ v => some v
    | _ => none

/-- The data reads among events. -/
def readsOf (es : List BusEvent) : List (Nat × Byte) :=
  es.filterMap fun e =>
    match e with
    | .read _ _ pa v => some (pa, v)
    | _ => none

/-- The data writes among events. -/
def writesOf (es : List BusEvent) : List (Nat × Byte) :=
  es.filterMap fun e =>
    match e with
    | .write _ _ pa v => some (pa, v)
    | _ => none

/-- What is the loop's, the host's and the observer's is unchanged. -/
structure SameHost (s t : State) : Prop where
  hist      : t.hist = s.hist
  loop      : t.loop = s.loop
  frameRun  : t.frameRun = s.frameRun
  lastFrame : t.lastFrame = s.lastFrame
  requests  : t.requests = s.requests
  responses : t.responses = s.responses
  hook      : t.hookInstalled = s.hookInstalled
  hookIn    : t.hookIn = s.hookIn

theorem SameHost.refl (s : State) : SameHost s s := ⟨rfl, rfl, rfl, rfl, rfl, rfl, rfl, rfl⟩

theorem SameHost.trans {s t u : State} (h : SameHost s t) (k : SameHost t u) : SameHost s u :=
  ⟨k.hist.trans h.hist, k.loop.trans h.loop, k.frameRun.trans h.frameRun, k.lastFrame.trans h.lastFrame,
    k.requests.trans h.requests, k.responses.trans h.responses, k.hook.trans h.hook, k.hookIn.trans h.hookIn⟩

/-- A chain of writes that takes `m` to `m'`, all inside physical memory. -/
structure Writes (ws : List WriteDiff) (m m' : Memory) : Prop where
  chain    : DiffChain ws m m'
  in_range : ∀ w ∈ ws, w.addr < physicalBytes

theorem diffChain_append {ws vs : List WriteDiff} {m n k : Memory} (h : DiffChain ws m n) (h' : DiffChain vs n k) :
    DiffChain (ws ++ vs) m k := by
  induction ws generalizing m with
  | nil => cases h; exact h'
  | cons w ws ih => exact ⟨h.1, ih h.2⟩

theorem diffChain_redo {ws : List WriteDiff} {m n : Memory} (h : DiffChain ws m n) : redo ws m = n := by
  induction ws generalizing m with
  | nil => exact h
  | cons w ws ih => exact ih h.2

theorem Writes.nil (m : Memory) : Writes [] m m := ⟨rfl, fun _ h => absurd h List.not_mem_nil⟩

theorem Writes.append {ws vs : List WriteDiff} {m n k : Memory} (h : Writes ws m n) (h' : Writes vs n k) :
    Writes (ws ++ vs) m k :=
  ⟨diffChain_append h.chain h'.chain, fun w hw => (List.mem_append.1 hw).elim (h.in_range w) (h'.in_range w)⟩

theorem Writes.wf {ws : List WriteDiff} {m n : Memory} (h : Writes ws m n) (hm : m.wf) : n.wf := by
  rw [← diffChain_redo h.chain]; exact redo_wf h.in_range hm

/-- `t` comes from `s` by work that emits exactly the bus events `es`, records them in the diff record, and leaves MCI,
IR, CC, the parameters and the host's part alone. -/
structure Did (es : List BusEvent) (s t : State) : Prop where
  mci    : t.mci = s.mci
  ir     : t.cpu.ir = s.cpu.ir
  cc     : t.cpu.cc = s.cpu.cc
  params : t.params = s.params
  bus    : ∀ e ∈ es, onBus e = true
  trace  : t.trace = s.trace ++ es.map fun e => (s.mci, e)
  bytes  : t.diff.bytes = s.diff.bytes ++ bytesOf es
  reads  : t.diff.reads = s.diff.reads ++ readsOf es
  irq    : t.diff.irqTaken = s.diff.irqTaken
  writes : ∃ ws, t.diff.writes = s.diff.writes ++ ws ∧ (ws.map fun w => (w.addr, w.after)) = writesOf es ∧
    Writes ws s.ram t.ram
  host   : SameHost s t

theorem Did.trans {es es' : List BusEvent} {s t u : State} (h : Did es s t) (k : Did es' t u) :
    Did (es ++ es') s u where
  mci := k.mci.trans h.mci
  ir := k.ir.trans h.ir
  cc := k.cc.trans h.cc
  params := k.params.trans h.params
  bus e he := (List.mem_append.1 he).elim (h.bus e) (k.bus e)
  trace := by rw [k.trace, h.trace, h.mci, List.map_append, List.append_assoc]
  bytes := by rw [k.bytes, h.bytes, bytesOf, bytesOf, bytesOf, List.filterMap_append, List.append_assoc]
  reads := by rw [k.reads, h.reads, readsOf, readsOf, readsOf, List.filterMap_append, List.append_assoc]
  irq := k.irq.trans h.irq
  writes := by
    obtain ⟨ws, h1, h2, h3⟩ := h.writes
    obtain ⟨vs, k1, k2, k3⟩ := k.writes
    refine ⟨ws ++ vs, by rw [k1, h1, List.append_assoc], ?_, h3.append k3⟩
    rw [List.map_append, h2, k2, writesOf, writesOf, writesOf, List.filterMap_append]
  host := h.host.trans k.host

/-- `t` differs from `s` in the CPU's registers, flags, enables, halt bit, W and Z at most. -/
structure Quiet (s t : State) : Prop where
  mci    : t.mci = s.mci
  ir     : t.cpu.ir = s.cpu.ir
  cc     : t.cpu.cc = s.cpu.cc
  params : t.params = s.params
  trace  : t.trace = s.trace
  diff   : t.diff = s.diff
  ram    : t.ram = s.ram
  host   : SameHost s t

theorem Quiet.trans {s t u : State} (h : Quiet s t) (k : Quiet t u) : Quiet s u :=
  ⟨k.mci.trans h.mci, k.ir.trans h.ir, k.cc.trans h.cc, k.params.trans h.params, k.trace.trans h.trace,
    k.diff.trans h.diff, k.ram.trans h.ram, h.host.trans k.host⟩

theorem Quiet.did {s t : State} (h : Quiet s t) : Did [] s t where
  mci := h.mci
  ir := h.ir
  cc := h.cc
  params := h.params
  bus _ he := absurd he List.not_mem_nil
  trace := h.trace.trans (List.append_nil _).symm
  bytes := (congrArg _ h.diff).trans (List.append_nil _).symm
  reads := (congrArg _ h.diff).trans (List.append_nil _).symm
  irq := congrArg _ h.diff
  writes := ⟨[], (congrArg _ h.diff).trans (List.append_nil _).symm, rfl, h.ram ▸ Writes.nil _⟩
  host := h.host

/-- Any change of the CPU that keeps IR and CC, of W and of Z is quiet. -/
theorem quiet_cpu (s : State) (c : Cpu) (w z : Byte) (hi : c.ir = s.cpu.ir) (hc : c.cc = s.cpu.cc) :
    Quiet s { s with cpu := c, w := w, z := z } :=
  ⟨rfl, hi, hc, rfl, rfl, rfl, rfl, ⟨rfl, rfl, rfl, rfl, rfl, rfl, rfl, rfl⟩⟩

theorem quiet_refl (s : State) : Quiet s s := quiet_cpu s s.cpu s.w s.z rfl rfl

theorem quiet_setReg (s : State) (r : Reg) (v : Byte) : Quiet s (s.setReg r v) := by
  cases r <;> exact quiet_cpu s _ _ _ rfl rfl

theorem quiet_setSp (s : State) (v : Word) : Quiet s (s.setSp v) := quiet_cpu s _ _ _ rfl rfl

theorem quiet_setPc (s : State) (v : Word) : Quiet s (s.setPc v) := quiet_cpu s _ _ _ rfl rfl

theorem quiet_setPair (s : State) (p : Pair) (v : Word) : Quiet s (s.setPair p v) := by
  cases p <;> exact quiet_cpu s _ _ _ rfl rfl

theorem quiet_setFlags (s : State) (f : Flags) : Quiet s (s.setFlags f) := quiet_cpu s _ _ _ rfl rfl

theorem quiet_setFlagsKeepCy (s : State) (f : Flags) : Quiet s (s.setFlagsKeepCy f) := quiet_cpu s _ _ _ rfl rfl

theorem quiet_setCy (s : State) (b : Bool) : Quiet s (s.setCy b) := quiet_cpu s _ _ _ rfl rfl

theorem quiet_accumulate (s : State) (op : AluOp) (v : Byte) : Quiet s (s.accumulate op v) := by
  cases op <;> exact quiet_cpu s _ _ _ rfl rfl

theorem quiet_rotateA (s : State) (a : Byte) (cy : Bool) : Quiet s (s.rotateA a cy) := quiet_cpu s _ _ _ rfl rfl

theorem quiet_addToHl (s : State) (v : Word) : Quiet s (s.addToHl v) := quiet_cpu s _ _ _ rfl rfl

/-- A data read: one event, one entry in the diff record. -/
theorem did_noteRead (s : State) (a : Word) (space : Space) : Did [s.readAt a space] s (s.noteRead a space) where
  mci := rfl
  ir := rfl
  cc := rfl
  params := rfl
  bus e he := by rw [List.mem_singleton.1 he]; rfl
  trace := rfl
  bytes := (List.append_nil _).symm
  reads := rfl
  irq := rfl
  writes := ⟨[], (List.append_nil _).symm, rfl, Writes.nil _⟩
  host := ⟨rfl, rfl, rfl, rfl, rfl, rfl, rfl, rfl⟩

theorem did_loadZ (s : State) (a : Word) (space : Space) : Did [s.readAt a space] s (s.loadZ a space) :=
  (did_noteRead s a space).trans (es' := []) (quiet_cpu (s.noteRead a space) _ _ _ rfl rfl).did

theorem did_loadW (s : State) (a : Word) (space : Space) : Did [s.readAt a space] s (s.loadW a space) :=
  (did_noteRead s a space).trans (es' := []) (quiet_cpu (s.noteRead a space) _ _ _ rfl rfl).did

/-- A data write: one event, one entry with the RAM's byte before, and that one byte of memory. -/
theorem did_writeByte (s : State) (a : Word) (space : Space) (v : Byte) :
    Did [s.writeAt a space v] s (s.writeByte a space v) where
  mci := rfl
  ir := rfl
  cc := rfl
  params := rfl
  bus e he := by rw [List.mem_singleton.1 he]; rfl
  trace := rfl
  bytes := (List.append_nil _).symm
  reads := (List.append_nil _).symm
  irq := rfl
  writes := ⟨[_], rfl, rfl, ⟨rfl, rfl⟩, fun w hw => by rw [List.mem_singleton.1 hw]; exact translate_lt _ _ _ _⟩
  host := ⟨rfl, rfl, rfl, rfl, rfl, rfl, rfl, rfl⟩

/-- The fetch of an instruction byte: one event, one byte in the diff record. -/
theorem did_fetchByte (s : State) (v : Byte) : Did [s.fetchAt s.cpu.pc v] s (s.fetchByte v) where
  mci := rfl
  ir := rfl
  cc := rfl
  params := rfl
  bus e he := by rw [List.mem_singleton.1 he]; rfl
  trace := rfl
  bytes := rfl
  reads := (List.append_nil _).symm
  irq := rfl
  writes := ⟨[], (List.append_nil _).symm, rfl, Writes.nil _⟩
  host := ⟨rfl, rfl, rfl, rfl, rfl, rfl, rfl, rfl⟩

theorem did_fetchZ (s : State) (v : Byte) : Did [s.fetchAt s.cpu.pc v] s (s.fetchZ v) :=
  (did_fetchByte s v).trans (es' := []) (quiet_cpu (s.fetchByte v) _ _ _ rfl rfl).did

theorem did_fetchW (s : State) (v : Byte) : Did [s.fetchAt s.cpu.pc v] s (s.fetchW v) :=
  (did_fetchByte s v).trans (es' := []) (quiet_cpu (s.fetchByte v) _ _ _ rfl rfl).did

/-- A push of one byte: SP goes down, then one Stack-space write. -/
theorem did_push (s : State) (v : Byte) : Did [s.writeAt (s.cpu.sp - 1) .stack v] s (s.push v) :=
  (quiet_setSp s (s.cpu.sp - 1)).did.trans (did_writeByte (s.setSp (s.cpu.sp - 1)) (s.cpu.sp - 1) .stack v)

theorem did_popZ (s : State) : Did [s.readAt s.cpu.sp .stack] s s.popZ :=
  (did_loadZ s s.cpu.sp .stack).trans (es' := []) (quiet_setSp (s.loadZ s.cpu.sp .stack) (s.cpu.sp + 1)).did

theorem did_popW (s : State) : Did [s.readAt s.cpu.sp .stack] s s.popW :=
  (did_loadW s s.cpu.sp .stack).trans (es' := []) (quiet_setSp (s.loadW s.cpu.sp .stack) (s.cpu.sp + 1)).did

theorem did_callPortIn (s : State) (port : Byte) :
    Did [.portIn port (s.portInByte port)] s (s.callPortIn port) where
  mci := rfl
  ir := rfl
  cc := rfl
  params := rfl
  bus e he := by rw [List.mem_singleton.1 he]; rfl
  trace := rfl
  bytes := (List.append_nil _).symm
  reads := (List.append_nil _).symm
  irq := rfl
  writes := ⟨[], (List.append_nil _).symm, rfl, Writes.nil _⟩
  host := ⟨rfl, rfl, rfl, rfl, rfl, rfl, rfl, rfl⟩

/-- A mapping write changes the mapping and FAULT alone. -/
theorem quiet_setBankConfig (s : State) (b : Fin 8) (v : Byte) : Quiet s (s.setBankConfig b v) := by
  unfold State.setBankConfig
  dsimp only
  split <;> exact ⟨rfl, rfl, rfl, rfl, rfl, rfl, rfl, ⟨rfl, rfl, rfl, rfl, rfl, rfl, rfl, rfl⟩⟩

theorem quiet_bankPortWrite (s : State) (port v : Byte) : Quiet s (s.bankPortWrite port v) := by
  unfold State.bankPortWrite
  split
  · exact quiet_setBankConfig _ _ _
  · exact quiet_refl _

theorem did_callPortOut (s : State) (port v : Byte) : Did [.portOut port v] s (s.callPortOut port v) := by
  unfold State.callPortOut
  refine Did.trans (es := [.portOut port v]) (es' := []) ?_ (quiet_bankPortWrite _ _ _).did
  exact
    { mci := rfl, ir := rfl, cc := rfl, params := rfl, trace := rfl, irq := rfl, host := ⟨rfl, rfl, rfl, rfl, rfl, rfl, rfl, rfl⟩
      bus := fun e he => by rw [List.mem_singleton.1 he]; rfl
      bytes := (List.append_nil _).symm
      reads := (List.append_nil _).symm
      writes := ⟨[], (List.append_nil _).symm, rfl, Writes.nil _⟩ }

/-! ## A row of machine cycles -/

/-- Work that emits `f`, whatever the state. -/
abbrev Emits (act : Act) (f : State → List BusEvent) : Prop := ∀ s, Did (f s) s (act s)

theorem idle_emits : Emits idle fun _ => [] := fun s => (quiet_refl s).did

theorem cycleIndices_bus {es : List BusEvent} (h : ∀ e ∈ es, onBus e = true) (m : BitVec 4) :
    cycleIndices (es.map fun e => (m, e)) = [] := by
  induction es with
  | nil => rfl
  | cons e es ih =>
    have he := h e (by simp)
    have := ih fun x hx => h x (by simp [hx])
    cases e <;> simp_all [cycleIndices, onBus]

theorem busEvents_bus {es : List BusEvent} (h : ∀ e ∈ es, onBus e = true) (m : BitVec 4) :
    busEvents (es.map fun e => (m, e)) = es.map fun e => (m.toNat, e) := by
  induction es with
  | nil => rfl
  | cons e es ih =>
    have he := h e (by simp)
    have := ih fun x hx => h x (by simp [hx])
    cases e <;> simp_all [busEvents, onBus]

theorem busEvents_append (a b : List (BitVec 4 × BusEvent)) : busEvents (a ++ b) = busEvents a ++ busEvents b := by
  simp [busEvents]

theorem Emits.timeless {act : Act} {f : State → List BusEvent} (h : Emits act f) : Timeless act where
  mci s := (h s).mci
  ir s := (h s).ir
  cc s := (h s).cc
  params s := (h s).params
  cycles s := by rw [(h s).trace, cycleIndices_append, cycleIndices_bus (h s).bus, List.append_nil]

theorem busEvents_machineCycle {act : Act} {f : State → List BusEvent} (h : Emits act f) (s : State) :
    busEvents (s.machineCycle act).trace = busEvents s.trace ++ (f s.beginCycle).map fun e => (s.mci.toNat, e) := by
  change busEvents ((act s.beginCycle).trace ++ [((act s.beginCycle).mci, _)]) = _
  rw [(h _).trace, busEvents_append, busEvents_append, busEvents_bus (h _).bus]
  exact List.append_nil _

/-- The bus events of machine cycles from index `j` on, each act with what it emits. -/
def rowEvents : Nat → State → List (Act × (State → List BusEvent)) → List (Nat × BusEvent)
  | _, _, [] => []
  | j, s, (act, f) :: rest => (f s.beginCycle).map (fun e => (j, e)) ++ rowEvents (j + 1) (s.machineCycle act) rest

theorem machineCycle_mci {act : Act} {f : State → List BusEvent} (h : Emits act f) (s : State) :
    (s.machineCycle act).mci = nextMci s.params.mc s.cpu.ir s.mci := by
  change nextMci (act s.beginCycle).params.mc (act s.beginCycle).cpu.ir (act s.beginCycle).mci = _
  rw [(h _).params, (h _).ir, (h _).mci]; rfl

theorem foldl_events {acts : List (Act × (State → List BusEvent))} (ha : ∀ a ∈ acts, Emits a.1 a.2) {s : State}
    {j : Nat} (hj : acts ≠ [] → s.mci.toNat = j) (hm : j + acts.length ≤ mcOf s.params.mc s.cpu.ir)
    (h6 : mcOf s.params.mc s.cpu.ir ≤ 6) :
    busEvents ((acts.map Prod.fst).foldl (fun t act => t.machineCycle act) s).trace =
      busEvents s.trace ++ rowEvents j s acts := by
  induction acts generalizing s j with
  | nil => simp [rowEvents]
  | cons a acts ih =>
    have h := ha a (by simp)
    have hj' := hj (by simp)
    rw [List.length_cons] at hm
    have hpar : (s.machineCycle a.1).params = s.params := (h _).params
    have hir : (s.machineCycle a.1).cpu.ir = s.cpu.ir := (h _).ir
    rw [List.map_cons, List.foldl_cons, ih (fun b hb => ha b (by simp [hb])) (j := j + 1), busEvents_machineCycle h, hj']
    · simp [rowEvents]
    · intro hne
      have hpos : 0 < acts.length := List.length_pos_iff.2 hne
      rw [machineCycle_mci h, nextMci_toNat (by omega) h6, if_neg (by omega), hj']
    · rw [hpar, hir]; omega
    · rw [hpar, hir]; exact h6

theorem busEvents_idleCycles (n : Nat) (s : State) :
    busEvents ((List.replicate n idle).foldl (fun t act => t.machineCycle act) s).trace = busEvents s.trace := by
  induction n generalizing s with
  | zero => rfl
  | succ n ih =>
    rw [List.replicate_succ, List.foldl_cons, ih, busEvents_machineCycle idle_emits]; exact List.append_nil _

/-- The bus events of a row whose schedule fits: those of machine cycle 0, then those of the later cycles at their
indices. -/
theorem busEvents_runRow {s : State} {op : Byte} {mc0 : Act} {f0 : State → List BusEvent} (h0 : Emits mc0 f0)
    {acts : List (Act × (State → List BusEvent))} (ha : ∀ a ∈ acts, Emits a.1 a.2)
    (hfit : acts.length + 1 ≤ mcOf s.params.mc op) (h6 : mcOf s.params.mc op ≤ 6) :
    busEvents (s.runRow op mc0 (acts.map Prod.fst)).trace =
      busEvents s.trace ++ ((f0 (s.start op)).map (fun e => (0, e)) ++
        rowEvents 1 (mc0 (s.start op)).endCycle acts) := by
  have hir : (mc0 (s.start op)).endCycle.cpu.ir = op := (h0 _).ir
  have hpar : (mc0 (s.start op)).endCycle.params = s.params := (h0 _).params
  have hmci : (mc0 (s.start op)).endCycle.mci = nextMci s.params.mc op 0 := by
    change nextMci (mc0 (s.start op)).params.mc (mc0 (s.start op)).cpu.ir (mc0 (s.start op)).mci = _
    rw [(h0 _).params, (h0 _).ir, (h0 _).mci]; rfl
  have hz : (0 : BitVec 4).toNat = 0 := rfl
  rw [State.runRow, List.foldl_append, busEvents_idleCycles,
    foldl_events ha (j := 1) (fun hne => ?_) (by rw [hpar, hir]; omega) (by rw [hpar, hir]; exact h6),
    ← List.append_assoc]
  · congr 1
    change busEvents ((mc0 (s.start op)).trace ++ [((mc0 (s.start op)).mci, _)]) = _
    rw [(h0 _).trace, busEvents_append, busEvents_append, busEvents_bus (h0 _).bus]
    exact List.append_nil _
  · have hpos : 0 < acts.length := List.length_pos_iff.2 hne
    rw [hmci, nextMci_toNat (by rw [hz]; omega) h6, hz, if_neg (by omega)]

/-! ## The diff record of a row -/

/-- The state's record grew by exactly the new part of the trace, and its new writes take the memory before to the
memory after (50_sequencer.md R711). -/
structure Recorded (s t : State) (new : List (BitVec 4 × BusEvent)) : Prop where
  params : t.params = s.params
  trace  : t.trace = s.trace ++ new
  bytes  : t.diff.bytes = s.diff.bytes ++ fetchedBytes new
  reads  : t.diff.reads = s.diff.reads ++ dataReads new
  irq    : t.diff.irqTaken = s.diff.irqTaken
  writes : ∃ ws, t.diff.writes = s.diff.writes ++ ws ∧ (ws.map fun w => (w.addr, w.after)) = dataWrites new ∧
    Writes ws s.ram t.ram
  host   : SameHost s t

theorem Recorded.trans {s t u : State} {n m : List (BitVec 4 × BusEvent)} (h : Recorded s t n) (k : Recorded t u m) :
    Recorded s u (n ++ m) where
  params := k.params.trans h.params
  trace := by rw [k.trace, h.trace, List.append_assoc]
  bytes := by rw [k.bytes, h.bytes, fetchedBytes, fetchedBytes, fetchedBytes, List.filterMap_append, List.append_assoc]
  reads := by rw [k.reads, h.reads, dataReads, dataReads, dataReads, List.filterMap_append, List.append_assoc]
  irq := k.irq.trans h.irq
  writes := by
    obtain ⟨ws, h1, h2, h3⟩ := h.writes
    obtain ⟨vs, k1, k2, k3⟩ := k.writes
    refine ⟨ws ++ vs, by rw [k1, h1, List.append_assoc], ?_, h3.append k3⟩
    rw [List.map_append, h2, k2, dataWrites, dataWrites, dataWrites, List.filterMap_append]
  host := h.host.trans k.host

theorem filterMap_tag {α : Type} (m : BitVec 4) (es : List BusEvent) (g : BusEvent → Option α) :
    ((es.map fun e => (m, e)).filterMap fun e => g e.2) = es.filterMap g := by
  induction es with
  | nil => rfl
  | cons e es ih => simp only [List.map_cons, List.filterMap_cons, ih]

theorem Did.recorded {es : List BusEvent} {s t : State} (h : Did es s t) :
    Recorded s t (es.map fun e => (s.mci, e)) where
  params := h.params
  trace := h.trace
  bytes := by rw [h.bytes]; exact congrArg _ (filterMap_tag _ _ _).symm
  reads := by rw [h.reads]; exact congrArg _ (filterMap_tag _ _ _).symm
  irq := h.irq
  writes := by
    obtain ⟨ws, h1, h2, h3⟩ := h.writes
    exact ⟨ws, h1, h2.trans (filterMap_tag _ _ _).symm, h3⟩
  host := h.host

theorem recorded_beginCycle (s : State) : Recorded s s.beginCycle [] :=
  ⟨rfl, (List.append_nil _).symm, (List.append_nil _).symm, (List.append_nil _).symm, rfl,
    ⟨[], (List.append_nil _).symm, rfl, Writes.nil _⟩, ⟨rfl, rfl, rfl, rfl, rfl, rfl, rfl, rfl⟩⟩

theorem recorded_endCycle (s : State) :
    Recorded s s.endCycle [(s.mci, .audioClock 4 (Config.beeperBit s.io))] :=
  ⟨rfl, rfl, (List.append_nil _).symm, (List.append_nil _).symm, rfl,
    ⟨[], (List.append_nil _).symm, rfl, Writes.nil _⟩, ⟨rfl, rfl, rfl, rfl, rfl, rfl, rfl, rfl⟩⟩

theorem recorded_start (s : State) (op : Byte) : Recorded s (s.start op) [] :=
  ⟨rfl, (List.append_nil _).symm, (List.append_nil _).symm, (List.append_nil _).symm, rfl,
    ⟨[], (List.append_nil _).symm, rfl, Writes.nil _⟩, ⟨rfl, rfl, rfl, rfl, rfl, rfl, rfl, rfl⟩⟩

/-- The bus events of a row in order, without their indices. -/
def rowBus : State → List (Act × (State → List BusEvent)) → List BusEvent
  | _, [] => []
  | s, (act, f) :: rest => f s.beginCycle ++ rowBus (s.machineCycle act) rest

theorem rowBus_eq (j : Nat) (s : State) (acts : List (Act × (State → List BusEvent))) :
    (rowEvents j s acts).map Prod.snd = rowBus s acts := by
  induction acts generalizing s j with
  | nil => rfl
  | cons a acts ih => rw [rowEvents, rowBus, List.map_append, ih, List.map_map]; simp [Function.comp_def]

/-- A new part of the trace that shows the bus events `es`, in the three views the diff record takes. -/
structure Shows (new : List (BitVec 4 × BusEvent)) (es : List BusEvent) : Prop where
  bytes  : fetchedBytes new = bytesOf es
  reads  : dataReads new = readsOf es
  writes : dataWrites new = writesOf es

theorem Shows.append {n m : List (BitVec 4 × BusEvent)} {es fs : List BusEvent} (h : Shows n es) (k : Shows m fs) :
    Shows (n ++ m) (es ++ fs) := by
  constructor
  · rw [fetchedBytes, List.filterMap_append, bytesOf, List.filterMap_append]
    exact congrArg₂ _ h.bytes k.bytes
  · rw [dataReads, List.filterMap_append, readsOf, List.filterMap_append]
    exact congrArg₂ _ h.reads k.reads
  · rw [dataWrites, List.filterMap_append, writesOf, List.filterMap_append]
    exact congrArg₂ _ h.writes k.writes

theorem shows_tag (m : BitVec 4) (es : List BusEvent) : Shows (es.map fun e => (m, e)) es :=
  ⟨((filterMap_tag m es _).symm : bytesOf es = _).symm, ((filterMap_tag m es _).symm : readsOf es = _).symm,
    ((filterMap_tag m es _).symm : writesOf es = _).symm⟩

theorem shows_nil : Shows [] [] := ⟨rfl, rfl, rfl⟩

theorem shows_clock (m : BitVec 4) (n : Nat) (b : Bool) : Shows [(m, .audioClock n b)] [] := ⟨rfl, rfl, rfl⟩

theorem recorded_machineCycle {act : Act} {f : State → List BusEvent} (h : Emits act f) (s : State) :
    ∃ new, Recorded s (s.machineCycle act) new ∧ Shows new (f s.beginCycle) := by
  refine ⟨_, ((recorded_beginCycle s).trans (h _).recorded).trans (recorded_endCycle _), ?_⟩
  have := (shows_nil.append (shows_tag s.beginCycle.mci (f s.beginCycle))).append
    (shows_clock (act s.beginCycle).mci 4 (Config.beeperBit (act s.beginCycle).io))
  rwa [List.nil_append (f s.beginCycle), List.append_nil (f s.beginCycle)] at this

theorem foldl_recorded {acts : List (Act × (State → List BusEvent))} (ha : ∀ a ∈ acts, Emits a.1 a.2) (s : State) :
    ∃ new, Recorded s ((acts.map Prod.fst).foldl (fun t act => t.machineCycle act) s) new ∧
      Shows new (rowBus s acts) := by
  induction acts generalizing s with
  | nil => exact ⟨[], (quiet_refl s).did.recorded, shows_nil⟩
  | cons a acts ih =>
    obtain ⟨n, hn, sn⟩ := recorded_machineCycle (ha a (by simp)) s
    obtain ⟨m, hm, sm⟩ := ih (fun b hb => ha b (by simp [hb])) (s.machineCycle a.1)
    exact ⟨n ++ m, hn.trans hm, sn.append sm⟩

theorem rowBus_idle (n : Nat) (s : State) : rowBus s (List.replicate n (idle, fun _ => [])) = [] := by
  induction n generalizing s with
  | zero => rfl
  | succ n ih => rw [List.replicate_succ, rowBus, ih]; rfl

/-- The diff record of a row: exactly its bus events, and its writes take memory from before to after. -/
theorem runRow_recorded {s : State} {op : Byte} {mc0 : Act} {f0 : State → List BusEvent} (h0 : Emits mc0 f0)
    {acts : List (Act × (State → List BusEvent))} (ha : ∀ a ∈ acts, Emits a.1 a.2) :
    ∃ new, Recorded s (s.runRow op mc0 (acts.map Prod.fst)) new ∧
      Shows new (f0 (s.start op) ++ rowBus (mc0 (s.start op)).endCycle acts) := by
  have hid : ∀ a ∈ List.replicate (mcOf s.params.mc op - 1 - (acts.map Prod.fst).length)
      ((idle, fun _ => []) : Act × (State → List BusEvent)), Emits a.1 a.2 := fun a ha => by
    rw [(List.mem_replicate.1 ha).2]; exact idle_emits
  obtain ⟨n, hn, sn⟩ := foldl_recorded ha (mc0 (s.start op)).endCycle
  obtain ⟨m, hm, sm⟩ := foldl_recorded hid
    ((acts.map Prod.fst).foldl (fun t act => t.machineCycle act) (mc0 (s.start op)).endCycle)
  rw [rowBus_idle] at sm
  have hrow : s.runRow op mc0 (acts.map Prod.fst) =
      (List.replicate (mcOf s.params.mc op - 1 - (acts.map Prod.fst).length) (idle : Act)).foldl
        (fun t act => t.machineCycle act)
        ((acts.map Prod.fst).foldl (fun t act => t.machineCycle act) (mc0 (s.start op)).endCycle) :=
    List.foldl_append
  rw [List.map_replicate] at hm
  rw [hrow]
  refine ⟨_, ((((recorded_start s op).trans (h0 _).recorded).trans (recorded_endCycle _)).trans hn).trans hm, ?_⟩
  · have := (((shows_nil.append (shows_tag (s.start op).mci (f0 (s.start op)))).append
      (shows_clock (mc0 (s.start op)).mci 4 (Config.beeperBit (mc0 (s.start op)).io))).append sn).append sm
    simpa using this

/-- MC of a well-formed table is at least the candidate's and at most 6 (50_sequencer.md R701). -/
theorem mc_bounds {table : List Nat} (h : wellFormedMc table = true) (op : Byte) :
    mcOf candidateMc op ≤ mcOf table op ∧ mcOf table op ≤ 6 := by
  rw [wellFormedMc, Bool.and_eq_true, Bool.and_eq_true] at h
  have := List.all_eq_true.1 h.1.2 op.toNat (List.mem_range.2 op.isLt)
  exact of_decide_eq_true this

end Sys2Proof.Laws
end

