-- ==== Sys2Proof/Laws/Rows.lean ====
section
/-! SUPPORT. Each instruction is one row of machine cycles; what each row emits in each machine cycle. -/

namespace Sys2Proof.Laws

open Sys2Proof.Machine

/-- The work of machine cycle 0, and of the later cycles, of an instruction of the shape. -/
def rowOf : Shape → Act × List Act
  | .mov dst src => (idle, movRow dst src)
  | .movFromM dst => (idle, movFromMRow dst)
  | .movToM src => (idle, movToMRow src)
  | .mvi dst v => (idle, mviRow dst v)
  | .mviM v => (idle, mviMRow v)
  | .lxi p v => (idle, lxiRow p v)
  | .lda v => (idle, ldaRow v)
  | .sta v => (idle, staRow v)
  | .lhld v => (idle, lhldRow v)
  | .shld v => (idle, shldRow v)
  | .ldax p => (idle, ldaxRow p)
  | .stax p => (idle, staxRow p)
  | .xchg => (exchange, [])
  | .alu op src => (aluReg op src, [])
  | .aluM op => (idle, aluMRow op)
  | .aluImm op v => (idle, aluImmRow op v)
  | .inr dst => (idle, inrRow dst)
  | .dcr dst => (idle, dcrRow dst)
  | .inrM => (idle, inrMRow)
  | .dcrM => (idle, dcrMRow)
  | .inx p => (idle, inxRow p)
  | .dcx p => (idle, dcxRow p)
  | .dad p => (idle, dadRow p)
  | .daa => (decimalAdjust, [])
  | .rlc => (rotateLeft, [])
  | .rrc => (rotateRight, [])
  | .ral => (rotateLeftThroughCy, [])
  | .rar => (rotateRightThroughCy, [])
  | .cma => (complementA, [])
  | .cmc => (complementCarry, [])
  | .stc => (setCarry, [])
  | .jmp v => (idle, jmpRow v)
  | .jcc cond v => (idle, jccRow cond v)
  | .call v => (idle, callRow v)
  | .ccc cond v => (idle, cccRow cond v)
  | .ret => (idle, returnRow)
  | .rcc cond => (idle, rccRow cond)
  | .rst n => (idle, restartRow n)
  | .pchl => (idle, pchlRow)
  | .push p => (idle, pushPairRow p)
  | .pushPsw => (idle, pushPswRow)
  | .pop p => (idle, popRow p)
  | .popPsw => (idle, popPswRow)
  | .xthl => (idle, xthlRow)
  | .sphl => (idle, sphlRow)
  | .inPort port => (idle, inRow port)
  | .outPort port => (idle, outRow port)
  | .ei => (enableInterrupts, [])
  | .di => (disableInterrupts, [])
  | .hlt => (idle, haltRow)
  | .nop => (idle, [])

/-- Every instruction runs the row of its shape under its own opcode. -/
theorem exec_row (i : Instr) (s : State) :
    exec i s = .next (s.runRow (opcodeOf i) (rowOf (shapeOf i)).1 (rowOf (shapeOf i)).2) := by
  cases i <;> rfl

/-- The row of every instruction fits in the candidate count of its opcode (50_sequencer.md R701, R702). -/
theorem row_fits (i : Instr) : (rowOf (shapeOf i)).2.length + 1 ≤ mcOf candidateMc (opcodeOf i) := by
  cases i <;> exact Nat.le_of_ble_eq_true rfl

/-! ## What each machine cycle emits -/

/-- The opcode fetch of a 16-bit operand's low byte, seen from the state before it. -/
def fetchLowEvents (v : Word) : State → List BusEvent := fun s => [s.fetchAt s.cpu.pc (loByte v)]

/-- The same for the high byte. -/
def fetchHighEvents (v : Word) : State → List BusEvent := fun s => [s.fetchAt s.cpu.pc (hiByte v)]

/-- No event. -/
def silent : State → List BusEvent := fun _ => []

/-- What each later cycle of a row emits, from the state it starts in. -/
def rowEmits : Shape → List (State → List BusEvent)
  | .mov _ _ => [silent]
  | .movFromM _ => [fun s => [s.readAt s.hl .normal]]
  | .movToM src => [fun s => [s.writeAt s.hl .normal (s.reg src)]]
  | .mvi _ v => [fun s => [s.fetchAt s.cpu.pc v]]
  | .mviM v => [fun s => [s.fetchAt s.cpu.pc v], fun s => [s.writeAt s.hl .normal s.z]]
  | .lxi _ v => [fetchLowEvents v, fetchHighEvents v]
  | .lda v => [fetchLowEvents v, fetchHighEvents v, fun s => [s.readAt s.wz .normal]]
  | .sta v => [fetchLowEvents v, fetchHighEvents v, fun s => [s.writeAt s.wz .normal s.cpu.a]]
  | .lhld v => [fetchLowEvents v, fetchHighEvents v, fun s => [s.readAt s.wz .normal],
      fun s => [s.readAt (s.wz + 1) .normal]]
  | .shld v => [fetchLowEvents v, fetchHighEvents v, fun s => [s.writeAt s.wz .normal s.cpu.l],
      fun s => [s.writeAt (s.wz + 1) .normal s.cpu.h]]
  | .ldax p => [fun s => [s.readAt (s.pair p) .normal]]
  | .stax p => [fun s => [s.writeAt (s.pair p) .normal s.cpu.a]]
  | .xchg => []
  | .alu _ _ => []
  | .aluM _ => [fun s => [s.readAt s.hl .normal]]
  | .aluImm _ v => [fun s => [s.fetchAt s.cpu.pc v]]
  | .inr _ => [silent]
  | .dcr _ => [silent]
  | .inrM => [fun s => [s.readAt s.hl .normal], fun s => [s.writeAt s.hl .normal (incremented s.z).res]]
  | .dcrM => [fun s => [s.readAt s.hl .normal], fun s => [s.writeAt s.hl .normal (decremented s.z).res]]
  | .inx _ => [silent]
  | .dcx _ => [silent]
  | .dad _ => [silent, silent]
  | .daa => []
  | .rlc => []
  | .rrc => []
  | .ral => []
  | .rar => []
  | .cma => []
  | .cmc => []
  | .stc => []
  | .jmp v => [fetchLowEvents v, fetchHighEvents v]
  | .jcc _ v => [fetchLowEvents v, fetchHighEvents v]
  | .call v => [silent, fetchLowEvents v, fetchHighEvents v,
      fun s => [s.writeAt (s.cpu.sp - 1) .stack (hiByte s.cpu.pc)],
      fun s => [s.writeAt (s.cpu.sp - 1) .stack (loByte s.cpu.pc)]]
  | .ccc cond v => [silent, fetchLowEvents v, fetchHighEvents v,
      fun s => if condHolds cond s.cpu.flags then [s.writeAt (s.cpu.sp - 1) .stack (hiByte s.cpu.pc)] else [],
      fun s => if condHolds cond s.cpu.flags then [s.writeAt (s.cpu.sp - 1) .stack (loByte s.cpu.pc)] else []]
  | .ret => [fun s => [s.readAt s.cpu.sp .stack], fun s => [s.readAt s.cpu.sp .stack]]
  | .rcc cond => [silent, fun s => if condHolds cond s.cpu.flags then [s.readAt s.cpu.sp .stack] else [],
      fun s => if condHolds cond s.cpu.flags then [s.readAt s.cpu.sp .stack] else []]
  | .rst _ => [silent, fun s => [s.writeAt (s.cpu.sp - 1) .stack (hiByte s.cpu.pc)],
      fun s => [s.writeAt (s.cpu.sp - 1) .stack (loByte s.cpu.pc)]]
  | .pchl => [silent]
  | .push p => [silent, fun s => [s.writeAt (s.cpu.sp - 1) .stack (hiByte (s.pair p))],
      fun s => [s.writeAt (s.cpu.sp - 1) .stack (loByte (s.pair p))]]
  | .pushPsw => [silent, fun s => [s.writeAt (s.cpu.sp - 1) .stack s.cpu.a],
      fun s => [s.writeAt (s.cpu.sp - 1) .stack s.cpu.flags.pack]]
  | .pop _ => [fun s => [s.readAt s.cpu.sp .stack], fun s => [s.readAt s.cpu.sp .stack]]
  | .popPsw => [fun s => [s.readAt s.cpu.sp .stack], fun s => [s.readAt s.cpu.sp .stack]]
  | .xthl => [fun s => [s.readAt s.cpu.sp .stack], fun s => [s.readAt (s.cpu.sp + 1) .stack],
      fun s => [s.writeAt (s.cpu.sp + 1) .stack s.cpu.h], fun s => [s.writeAt s.cpu.sp .stack s.cpu.l], silent]
  | .sphl => [silent]
  | .inPort port => [fun s => [s.fetchAt s.cpu.pc port], fun s => [.portIn s.z (s.portInByte s.z)]]
  | .outPort port => [fun s => [s.fetchAt s.cpu.pc port], fun s => [.portOut s.z s.cpu.a]]
  | .ei => []
  | .di => []
  | .hlt => [silent]
  | .nop => []

/-- The later cycles of a row, each with what it emits. -/
def tracedRow (sh : Shape) : List (Act × (State → List BusEvent)) := (rowOf sh).2.zip (rowEmits sh)

theorem tracedRow_fst (sh : Shape) : (tracedRow sh).map Prod.fst = (rowOf sh).2 := by cases sh <;> rfl

/-- The work of machine cycle 0 after the opcode fetch emits nothing. -/
theorem mc0_emits (sh : Shape) : Emits (rowOf sh).1 silent := by
  cases sh
  case xchg =>
    exact fun s => Quiet.did (t := exchange s)
      ⟨rfl, rfl, rfl, rfl, rfl, rfl, rfl, ⟨rfl, rfl, rfl, rfl, rfl, rfl, rfl, rfl⟩⟩
  case alu op src => exact fun s => (quiet_accumulate s op _).did
  case daa =>
    exact fun s =>
      ((quiet_setFlags s (daa8 s.cpu.a s.cpu.flags).flags).trans (quiet_setReg _ .a (daa8 s.cpu.a s.cpu.flags).res)).did
  case rlc => exact fun s => (quiet_rotateA s _ _).did
  case rrc => exact fun s => (quiet_rotateA s _ _).did
  case ral => exact fun s => (quiet_rotateA s _ _).did
  case rar => exact fun s => (quiet_rotateA s _ _).did
  case cma => exact fun s => (quiet_setReg s .a (~~~s.cpu.a)).did
  case cmc => exact fun s => (quiet_setCy s _).did
  case stc => exact fun s => (quiet_setCy s _).did
  case ei =>
    exact fun s => Quiet.did (t := enableInterrupts s)
      ⟨rfl, rfl, rfl, rfl, rfl, rfl, rfl, ⟨rfl, rfl, rfl, rfl, rfl, rfl, rfl, rfl⟩⟩
  case di =>
    exact fun s => Quiet.did (t := disableInterrupts s)
      ⟨rfl, rfl, rfl, rfl, rfl, rfl, rfl, ⟨rfl, rfl, rfl, rfl, rfl, rfl, rfl, rfl⟩⟩
  all_goals exact fun s => (quiet_refl s).did

/-- Emitting work followed by quiet work. -/
theorem Did.then_quiet {es : List BusEvent} {s t u : State} (h : Did es s t) (q : Quiet t u) : Did es s u := by
  have := h.trans q.did
  rwa [List.append_nil] at this

/-- Quiet work followed by emitting work. -/
theorem Quiet.then_did {es : List BusEvent} {s t u : State} (q : Quiet s t) (h : Did es t u) : Did es s u :=
  q.did.trans h

theorem emits_none : ∀ a ∈ ([] : List (Act × (State → List BusEvent))), Emits a.1 a.2 :=
  fun _ h => absurd h List.not_mem_nil

theorem emits_cons {act : Act} {f : State → List BusEvent} {rest : List (Act × (State → List BusEvent))}
    (h : Emits act f) (hr : ∀ a ∈ rest, Emits a.1 a.2) : ∀ a ∈ (act, f) :: rest, Emits a.1 a.2 :=
  List.forall_mem_cons.2 ⟨h, hr⟩

theorem fetchLow_emits (v : Word) : Emits (fetchLow v) (fetchLowEvents v) := fun s => did_fetchZ s _

theorem fetchHigh_emits (v : Word) : Emits (fetchHigh v) (fetchHighEvents v) := fun s => did_fetchW s _

theorem idle_silent : Emits idle silent := idle_emits

/-- Every later cycle of every row emits what `rowEmits` says. -/
theorem row_emits (sh : Shape) : ∀ a ∈ tracedRow sh, Emits a.1 a.2 := by
  cases sh
  case mov dst src => exact emits_cons (fun s => (quiet_setReg s _ _).did) emits_none
  case movFromM dst => exact emits_cons (fun s => (did_loadZ s _ _).then_quiet (quiet_setReg _ _ _)) emits_none
  case movToM src => exact emits_cons (fun s => did_writeByte s _ _ _) emits_none
  case mvi dst v => exact emits_cons (fun s => (did_fetchZ s _).then_quiet (quiet_setReg _ _ _)) emits_none
  case mviM v => exact emits_cons (fun s => did_fetchZ s _) (emits_cons (fun s => did_writeByte s _ _ _) emits_none)
  case lxi p v =>
    exact emits_cons (fetchLow_emits v)
      (emits_cons (fun s => (did_fetchW s _).then_quiet (quiet_setPair _ _ _)) emits_none)
  case lda v =>
    exact emits_cons (fetchLow_emits v) (emits_cons (fetchHigh_emits v)
      (emits_cons (fun s => (did_loadZ s _ _).then_quiet (quiet_setReg _ _ _)) emits_none))
  case sta v =>
    exact emits_cons (fetchLow_emits v) (emits_cons (fetchHigh_emits v)
      (emits_cons (fun s => did_writeByte s _ _ _) emits_none))
  case lhld v =>
    exact emits_cons (fetchLow_emits v) (emits_cons (fetchHigh_emits v)
      (emits_cons (fun s => (did_noteRead s _ _).then_quiet (quiet_setReg _ _ _))
        (emits_cons (fun s => (did_noteRead s _ _).then_quiet (quiet_setReg _ _ _)) emits_none)))
  case shld v =>
    exact emits_cons (fetchLow_emits v) (emits_cons (fetchHigh_emits v)
      (emits_cons (fun s => did_writeByte s _ _ _) (emits_cons (fun s => did_writeByte s _ _ _) emits_none)))
  case ldax p => exact emits_cons (fun s => (did_loadZ s _ _).then_quiet (quiet_setReg _ _ _)) emits_none
  case stax p => exact emits_cons (fun s => did_writeByte s _ _ _) emits_none
  case aluM op => exact emits_cons (fun s => (did_loadZ s _ _).then_quiet (quiet_accumulate _ _ _)) emits_none
  case aluImm op v => exact emits_cons (fun s => (did_fetchZ s _).then_quiet (quiet_accumulate _ _ _)) emits_none
  case inr dst =>
    exact emits_cons (fun s => ((quiet_setFlagsKeepCy s _).trans (quiet_setReg _ _ _)).did) emits_none
  case dcr dst =>
    exact emits_cons (fun s => ((quiet_setFlagsKeepCy s _).trans (quiet_setReg _ _ _)).did) emits_none
  case inrM =>
    exact emits_cons (fun s => did_loadZ s _ _) (emits_cons
      (fun s => (quiet_setFlagsKeepCy s (incremented s.z).flags).then_did
        (did_writeByte (s.setFlagsKeepCy (incremented s.z).flags) s.hl .normal (incremented s.z).res)) emits_none)
  case dcrM =>
    exact emits_cons (fun s => did_loadZ s _ _) (emits_cons
      (fun s => (quiet_setFlagsKeepCy s (decremented s.z).flags).then_did
        (did_writeByte (s.setFlagsKeepCy (decremented s.z).flags) s.hl .normal (decremented s.z).res)) emits_none)
  case inx p => exact emits_cons (fun s => (quiet_setPair s _ _).did) emits_none
  case dcx p => exact emits_cons (fun s => (quiet_setPair s _ _).did) emits_none
  case dad p => exact emits_cons idle_silent (emits_cons (fun s => (quiet_addToHl s _).did) emits_none)
  case jmp v =>
    exact emits_cons (fetchLow_emits v)
      (emits_cons (fun s => (did_fetchW s _).then_quiet (quiet_setPc _ _)) emits_none)
  case jcc cond v =>
    refine emits_cons (fetchLow_emits v)
      (emits_cons (fun s => (did_fetchW s _).then_quiet ?_) emits_none)
    dsimp only
    split
    · exact quiet_setPc _ _
    · exact quiet_refl _
  case call v =>
    exact emits_cons idle_silent (emits_cons (fetchLow_emits v) (emits_cons (fetchHigh_emits v)
      (emits_cons (fun s => did_push s _)
        (emits_cons (fun s => (did_push s _).then_quiet (quiet_setPc _ _)) emits_none))))
  case ccc cond v =>
    refine emits_cons idle_silent (emits_cons (fetchLow_emits v) (emits_cons (fetchHigh_emits v)
      (emits_cons (fun s => ?_) (emits_cons (fun s => ?_) emits_none))))
    · split
      · exact did_push s _
      · exact (quiet_refl s).did
    · split
      · exact (did_push s _).then_quiet (quiet_setPc _ _)
      · exact (quiet_refl s).did
  case ret =>
    exact emits_cons (fun s => did_popZ s)
      (emits_cons (fun s => (did_popW s).then_quiet (quiet_setPc _ _)) emits_none)
  case rcc cond =>
    refine emits_cons idle_silent (emits_cons (fun s => ?_) (emits_cons (fun s => ?_) emits_none))
    · split
      · exact did_popZ s
      · exact (quiet_refl s).did
    · split
      · exact (did_popW s).then_quiet (quiet_setPc _ _)
      · exact (quiet_refl s).did
  case rst n =>
    exact emits_cons idle_silent (emits_cons (fun s => did_push s _)
      (emits_cons (fun s => (did_push s _).then_quiet (quiet_setPc _ _)) emits_none))
  case pchl => exact emits_cons (fun s => (quiet_setPc s _).did) emits_none
  case push p =>
    exact emits_cons idle_silent (emits_cons (fun s => did_push s _) (emits_cons (fun s => did_push s _) emits_none))
  case pushPsw =>
    exact emits_cons idle_silent (emits_cons (fun s => did_push s _) (emits_cons (fun s => did_push s _) emits_none))
  case pop p =>
    exact emits_cons (fun s => did_popZ s)
      (emits_cons (fun s => (did_popW s).then_quiet (quiet_setPair _ _ _)) emits_none)
  case popPsw =>
    exact emits_cons (fun s => did_popZ s)
      (emits_cons (fun s => (did_popW s).then_quiet ((quiet_setFlags _ _).trans (quiet_setReg _ _ _))) emits_none)
  case xthl =>
    exact emits_cons (fun s => did_loadZ s _ _) (emits_cons (fun s => did_loadW s _ _)
      (emits_cons (fun s => did_writeByte s _ _ _) (emits_cons (fun s => did_writeByte s _ _ _)
        (emits_cons (fun s => (quiet_setPair s _ _).did) emits_none))))
  case sphl => exact emits_cons (fun s => (quiet_setSp s _).did) emits_none
  case inPort port =>
    exact emits_cons (fun s => did_fetchZ s _)
      (emits_cons (fun s => (did_callPortIn s _).then_quiet (quiet_setReg _ _ _)) emits_none)
  case outPort port => exact emits_cons (fun s => did_fetchZ s _) (emits_cons (fun s => did_callPortOut s _ _) emits_none)
  case hlt =>
    exact emits_cons (fun s => Quiet.did (t := { s with cpu := { s.cpu with halt := true } })
      ⟨rfl, rfl, rfl, rfl, rfl, rfl, rfl, ⟨rfl, rfl, rfl, rfl, rfl, rfl, rfl, rfl⟩⟩) emits_none
  all_goals exact emits_none

end Sys2Proof.Laws
end

