-- ==== Sys2Proof/Laws/Blind.lean ====
section
/-! SUPPORT. The work of a machine cycle does not look at what passing time changes (but for the free values of IN and
OUT), so a row can be run without the cycles around it. -/

namespace Sys2Proof.Laws

open Sys2Proof.Machine

/-- What passing time changes. -/
structure Hidden where
  latch     : Bool
  ir        : Byte
  cc        : BitVec 64
  mci       : BitVec 4
  diff      : DiffRecord
  trace     : List (BitVec 4 × BusEvent)
  disp      : Display
  displayIn : List Display
  draws     : Nat

/-- The hidden part of a state. -/
def hiddenOf (s : State) : Hidden :=
  ⟨s.cpu.latch, s.cpu.ir, s.cpu.cc, s.mci, s.diff, s.trace, s.disp, s.displayIn, s.draws⟩

/-- A state with another hidden part. -/
def withHidden (s : State) (h : Hidden) : State :=
  { s with
    cpu := { s.cpu with latch := h.latch, ir := h.ir, cc := h.cc }
    mci := h.mci, diff := h.diff, trace := h.trace, disp := h.disp, displayIn := h.displayIn, draws := h.draws }

theorem beginCycle_hidden (s : State) (h : Hidden) :
    (withHidden s h).beginCycle = withHidden s (hiddenOf (withHidden s h).beginCycle) := rfl

theorem endCycle_hidden (s : State) (h : Hidden) :
    (withHidden s h).endCycle = withHidden s (hiddenOf (withHidden s h).endCycle) := rfl

theorem start_hidden (s : State) (op : Byte) : s.start op = withHidden s (hiddenOf (s.start op)) := rfl

theorem withHidden_self (s : State) : withHidden s (hiddenOf s) = s := rfl

@[simp] theorem arch_withHidden (s : State) (h : Hidden) : (withHidden s h).arch = s.arch := rfl

/-- Work that does not look at the hidden part, nor let it reach anything else. -/
abbrev Blind (act : Act) : Prop := ∀ s h, act (withHidden s h) = withHidden (act s) (hiddenOf (act (withHidden s h)))

/-- Events that do not depend on the hidden part. -/
abbrev BlindEvents (f : State → List BusEvent) : Prop := ∀ s h, f (withHidden s h) = f s

/-- Work and its events are blind. -/
structure BlindCycle (a : Act × (State → List BusEvent)) : Prop where
  act    : Blind a.1
  events : BlindEvents a.2

/-- The work of a row without the cycles around it. -/
abbrev plainRun (acts : List Act) (s : State) : State := acts.foldl (fun t act => act t) s

/-- The work of a row with the cycles around it. -/
abbrev cycleRun (acts : List Act) (s : State) : State := acts.foldl (fun t act => t.machineCycle act) s

/-- The events of a row without the cycles around it. -/
def plainEvents : Nat → State → List (Act × (State → List BusEvent)) → List (Nat × BusEvent)
  | _, _, [] => []
  | j, s, (act, f) :: rest => (f s).map (fun e => (j, e)) ++ plainEvents (j + 1) (act s) rest

theorem machineCycle_hidden {act : Act} (ha : Blind act) (s : State) (h : Hidden) :
    ∃ h', (withHidden s h).machineCycle act = withHidden (act s) h' := by
  refine ⟨hiddenOf ((withHidden s h).machineCycle act), ?_⟩
  unfold State.machineCycle
  rw [beginCycle_hidden, ha, endCycle_hidden]
  rfl

/-- A blind row run with its cycles is the row run without them, but for the hidden part. -/
theorem cycleRun_hidden {acts : List (Act × (State → List BusEvent))} (ha : ∀ a ∈ acts, BlindCycle a) (s : State)
    (h : Hidden) : ∃ h', cycleRun (acts.map Prod.fst) (withHidden s h) = withHidden (plainRun (acts.map Prod.fst) s) h' := by
  induction acts generalizing s h with
  | nil => exact ⟨h, rfl⟩
  | cons a acts ih =>
    obtain ⟨h1, e1⟩ := machineCycle_hidden (ha a (by simp)).act s h
    obtain ⟨h2, e2⟩ := ih (fun b hb => ha b (by simp [hb])) (a.1 s) h1
    refine ⟨h2, ?_⟩
    rw [List.map_cons, cycleRun, List.foldl_cons, e1]
    exact e2

/-- The events of a blind row are those of the row run without its cycles. -/
theorem rowEvents_hidden {acts : List (Act × (State → List BusEvent))} (ha : ∀ a ∈ acts, BlindCycle a) (j : Nat)
    (s : State) (h : Hidden) : rowEvents j (withHidden s h) acts = plainEvents j s acts := by
  induction acts generalizing j s h with
  | nil => rfl
  | cons a acts ih =>
    obtain ⟨h1, e1⟩ := machineCycle_hidden (ha a (by simp)).act s h
    rw [rowEvents, plainEvents, e1, ih fun b hb => ha b (by simp [hb]), beginCycle_hidden, (ha a (by simp)).events]

theorem blind_none : ∀ a ∈ ([] : List (Act × (State → List BusEvent))), BlindCycle a :=
  fun _ h => absurd h List.not_mem_nil

theorem blind_cons {act : Act} {f : State → List BusEvent} {rest : List (Act × (State → List BusEvent))}
    (h : Blind act) (k : BlindEvents f) (hr : ∀ a ∈ rest, BlindCycle a) : ∀ a ∈ (act, f) :: rest, BlindCycle a :=
  List.forall_mem_cons.2 ⟨⟨h, k⟩, hr⟩

/-- The shapes whose work draws free values. -/
def isPort : Shape → Bool
  | .inPort _ => true
  | .outPort _ => true
  | _ => false

/-- The work of machine cycle 0 is blind. -/
theorem mc0_blind (sh : Shape) : Blind (rowOf sh).1 := by
  cases sh
  case alu op src => intro s h; cases op <;> cases src <;> rfl
  all_goals exact fun _ _ => rfl

theorem silent_blind : BlindEvents silent := fun _ _ => rfl

theorem fetchLow_blind (v : Word) : Blind (fetchLow v) := fun _ _ => rfl

theorem fetchHigh_blind (v : Word) : Blind (fetchHigh v) := fun _ _ => rfl

theorem fetchLowEvents_blind (v : Word) : BlindEvents (fetchLowEvents v) := fun _ _ => rfl

theorem fetchHighEvents_blind (v : Word) : BlindEvents (fetchHighEvents v) := fun _ _ => rfl

/-- Two fetches, then blind cycles. -/
theorem blind_fetches (v : Word) {rest : List (Act × (State → List BusEvent))} (hr : ∀ a ∈ rest, BlindCycle a) :
    ∀ a ∈ (fetchLow v, fetchLowEvents v) :: (fetchHigh v, fetchHighEvents v) :: rest, BlindCycle a :=
  blind_cons (fetchLow_blind v) (fetchLowEvents_blind v) (blind_cons (fetchHigh_blind v) (fetchHighEvents_blind v) hr)

/-- An internal cycle, then blind cycles. -/
theorem blind_idle {rest : List (Act × (State → List BusEvent))} (hr : ∀ a ∈ rest, BlindCycle a) :
    ∀ a ∈ ((idle, silent) : Act × (State → List BusEvent)) :: rest, BlindCycle a :=
  blind_cons (fun _ _ => rfl) silent_blind hr

/-- Every row but those of IN and OUT is blind. -/
theorem row_blind (sh : Shape) (hp : isPort sh = false) : ∀ a ∈ tracedRow sh, BlindCycle a := by
  cases sh
  case mov dst src =>
    exact blind_cons (fun s h => by cases dst <;> cases src <;> rfl) silent_blind blind_none
  case movFromM dst => exact blind_cons (fun s h => by cases dst <;> rfl) (fun _ _ => rfl) blind_none
  case movToM src =>
    exact blind_cons (fun s h => by cases src <;> rfl) (fun s h => by cases src <;> rfl) blind_none
  case mvi dst v => exact blind_cons (fun s h => by cases dst <;> rfl) (fun _ _ => rfl) blind_none
  case mviM v =>
    exact blind_cons (fun _ _ => rfl) (fun _ _ => rfl) (blind_cons (fun _ _ => rfl) (fun _ _ => rfl) blind_none)
  case lxi p v =>
    exact blind_cons (fetchLow_blind v) (fetchLowEvents_blind v)
      (blind_cons (fun s h => by cases p <;> rfl) (fetchHighEvents_blind v) blind_none)
  case lda v => exact blind_fetches v (blind_cons (fun _ _ => rfl) (fun _ _ => rfl) blind_none)
  case sta v => exact blind_fetches v (blind_cons (fun _ _ => rfl) (fun _ _ => rfl) blind_none)
  case lhld v =>
    exact blind_fetches v (blind_cons (fun _ _ => rfl) (fun _ _ => rfl)
      (blind_cons (fun _ _ => rfl) (fun _ _ => rfl) blind_none))
  case shld v =>
    exact blind_fetches v (blind_cons (fun _ _ => rfl) (fun _ _ => rfl)
      (blind_cons (fun _ _ => rfl) (fun _ _ => rfl) blind_none))
  case ldax p => exact blind_cons (fun s h => by cases p <;> rfl) (fun s h => by cases p <;> rfl) blind_none
  case stax p => exact blind_cons (fun s h => by cases p <;> rfl) (fun s h => by cases p <;> rfl) blind_none
  case aluM op => exact blind_cons (fun s h => by cases op <;> rfl) (fun _ _ => rfl) blind_none
  case aluImm op v => exact blind_cons (fun s h => by cases op <;> rfl) (fun _ _ => rfl) blind_none
  case inr dst => exact blind_cons (fun s h => by cases dst <;> rfl) silent_blind blind_none
  case dcr dst => exact blind_cons (fun s h => by cases dst <;> rfl) silent_blind blind_none
  case inrM =>
    exact blind_cons (fun _ _ => rfl) (fun _ _ => rfl) (blind_cons (fun _ _ => rfl) (fun _ _ => rfl) blind_none)
  case dcrM =>
    exact blind_cons (fun _ _ => rfl) (fun _ _ => rfl) (blind_cons (fun _ _ => rfl) (fun _ _ => rfl) blind_none)
  case inx p => exact blind_cons (fun s h => by cases p <;> rfl) silent_blind blind_none
  case dcx p => exact blind_cons (fun s h => by cases p <;> rfl) silent_blind blind_none
  case dad p => exact blind_idle (blind_cons (fun s h => by cases p <;> rfl) silent_blind blind_none)
  case jmp v =>
    exact blind_cons (fetchLow_blind v) (fetchLowEvents_blind v)
      (blind_cons (fun _ _ => rfl) (fetchHighEvents_blind v) blind_none)
  case jcc cond v =>
    refine blind_cons (fetchLow_blind v) (fetchLowEvents_blind v)
      (blind_cons (fun s h => ?_) (fetchHighEvents_blind v) blind_none)
    change (if condHolds cond s.cpu.flags = true then _ else _) =
      withHidden (if condHolds cond s.cpu.flags = true then _ else _)
        (hiddenOf (if condHolds cond s.cpu.flags = true then _ else _))
    split <;> rfl
  case call v =>
    exact blind_idle (blind_fetches v (blind_cons (fun _ _ => rfl) (fun _ _ => rfl)
      (blind_cons (fun _ _ => rfl) (fun _ _ => rfl) blind_none)))
  case ccc cond v =>
    refine blind_idle (blind_fetches v (blind_cons (fun s h => ?_) (fun s h => rfl)
      (blind_cons (fun s h => ?_) (fun s h => rfl) blind_none)))
    · change (if condHolds cond s.cpu.flags = true then _ else _) =
        withHidden (if condHolds cond s.cpu.flags = true then _ else _)
          (hiddenOf (if condHolds cond s.cpu.flags = true then _ else _))
      split <;> rfl
    · change (if condHolds cond s.cpu.flags = true then _ else _) =
        withHidden (if condHolds cond s.cpu.flags = true then _ else _)
          (hiddenOf (if condHolds cond s.cpu.flags = true then _ else _))
      split <;> rfl
  case ret =>
    exact blind_cons (fun _ _ => rfl) (fun _ _ => rfl) (blind_cons (fun _ _ => rfl) (fun _ _ => rfl) blind_none)
  case rcc cond =>
    refine blind_idle (blind_cons (fun s h => ?_) (fun s h => rfl) (blind_cons (fun s h => ?_) (fun s h => rfl) blind_none))
    · change (if condHolds cond s.cpu.flags = true then _ else _) =
        withHidden (if condHolds cond s.cpu.flags = true then _ else _)
          (hiddenOf (if condHolds cond s.cpu.flags = true then _ else _))
      split <;> rfl
    · change (if condHolds cond s.cpu.flags = true then _ else _) =
        withHidden (if condHolds cond s.cpu.flags = true then _ else _)
          (hiddenOf (if condHolds cond s.cpu.flags = true then _ else _))
      split <;> rfl
  case rst n =>
    exact blind_idle (blind_cons (fun _ _ => rfl) (fun _ _ => rfl)
      (blind_cons (fun _ _ => rfl) (fun _ _ => rfl) blind_none))
  case pchl => exact blind_cons (fun _ _ => rfl) silent_blind blind_none
  case push p =>
    exact blind_idle (blind_cons (fun s h => by cases p <;> rfl) (fun s h => by cases p <;> rfl)
      (blind_cons (fun s h => by cases p <;> rfl) (fun s h => by cases p <;> rfl) blind_none))
  case pushPsw =>
    exact blind_idle (blind_cons (fun _ _ => rfl) (fun _ _ => rfl)
      (blind_cons (fun _ _ => rfl) (fun _ _ => rfl) blind_none))
  case pop p =>
    exact blind_cons (fun _ _ => rfl) (fun _ _ => rfl)
      (blind_cons (fun s h => by cases p <;> rfl) (fun _ _ => rfl) blind_none)
  case popPsw =>
    exact blind_cons (fun _ _ => rfl) (fun _ _ => rfl) (blind_cons (fun _ _ => rfl) (fun _ _ => rfl) blind_none)
  case xthl =>
    exact blind_cons (fun _ _ => rfl) (fun _ _ => rfl) (blind_cons (fun _ _ => rfl) (fun _ _ => rfl)
      (blind_cons (fun _ _ => rfl) (fun _ _ => rfl) (blind_cons (fun _ _ => rfl) (fun _ _ => rfl)
        (blind_cons (fun _ _ => rfl) silent_blind blind_none))))
  case sphl => exact blind_cons (fun _ _ => rfl) silent_blind blind_none
  case inPort port => exact absurd hp (by simp [isPort])
  case outPort port => exact absurd hp (by simp [isPort])
  case hlt => exact blind_cons (fun _ _ => rfl) silent_blind blind_none
  all_goals exact blind_none

end Sys2Proof.Laws
end

