-- ==== Sys2Proof/Laws/Effects.lean ====
section
/-! SUPPORT. What each row leaves in the architectural part, and its bus events at their machine-cycle indices. -/

namespace Sys2Proof.Laws

open Sys2Proof.Machine

/-! ## Words -/

theorem toNat_mkWord (hi lo : Byte) : (mkWord hi lo).toNat = hi.toNat * 256 + lo.toNat := by
  change (hi ++ lo).toNat = _
  rw [BitVec.toNat_append, ← Nat.shiftLeft_add_eq_or_of_lt lo.isLt, Nat.shiftLeft_eq]

theorem toNat_hiByte (v : Word) : (hiByte v).toNat = v.toNat / 256 := by
  have := v.isLt
  rw [hiByte, BitVec.extractLsb'_toNat, Nat.shiftRight_eq_div_pow]
  omega

theorem toNat_loByte (v : Word) : (loByte v).toNat = v.toNat % 256 := by
  rw [loByte, BitVec.extractLsb'_toNat]; rfl

@[simp] theorem mkWord_hi_lo (v : Word) : mkWord (hiByte v) (loByte v) = v := by
  apply BitVec.eq_of_toNat_eq
  rw [toNat_mkWord, toNat_hiByte, toNat_loByte]
  omega

@[simp] theorem hiByte_mkWord (hi lo : Byte) : hiByte (mkWord hi lo) = hi := by
  have := lo.isLt
  apply BitVec.eq_of_toNat_eq
  rw [toNat_hiByte, toNat_mkWord]
  omega

@[simp] theorem loByte_mkWord (hi lo : Byte) : loByte (mkWord hi lo) = lo := by
  have := lo.isLt
  apply BitVec.eq_of_toNat_eq
  rw [toNat_loByte, toNat_mkWord]
  omega

theorem add_one_one (v : Word) : v + 1 + 1 = v + 2 := by rw [BitVec.add_assoc]; rfl

/-! ## The effect of each shape -/

/-- PC pushed, the high byte first. -/
def pushPc (s : State) : State := (s.push (hiByte s.cpu.pc)).push (loByte s.cpu.pc)

/-- What an instruction of the shape leaves, as far as `arch` shows. The free values of IN and OUT are those of the
second machine cycle after the boundary's. -/
def effect (sh : Shape) (s : State) : State :=
  match sh with
  | .mov dst src => s.setReg dst (s.reg src)
  | .movFromM dst => s.setReg dst (s.readByte s.hl .normal)
  | .movToM src => s.writeByte s.hl .normal (s.reg src)
  | .mvi dst v => (s.pcOn 1).setReg dst v
  | .mviM v => (s.pcOn 1).writeByte s.hl .normal v
  | .lxi p v => (s.pcOn 2).setPair p v
  | .lda v => (s.pcOn 2).setReg .a (s.readByte v .normal)
  | .sta v => (s.pcOn 2).writeByte v .normal s.cpu.a
  | .lhld v => ((s.pcOn 2).setReg .l (s.readByte v .normal)).setReg .h (s.readByte (v + 1) .normal)
  | .shld v => ((s.pcOn 2).writeByte v .normal s.cpu.l).writeByte (v + 1) .normal s.cpu.h
  | .ldax p => s.setReg .a (s.readByte (s.pair p) .normal)
  | .stax p => s.writeByte (s.pair p) .normal s.cpu.a
  | .xchg => exchange s
  | .alu op src => s.accumulate op (s.reg src)
  | .aluM op => s.accumulate op (s.readByte s.hl .normal)
  | .aluImm op v => (s.pcOn 1).accumulate op v
  | .inr dst => (s.setFlagsKeepCy (incremented (s.reg dst)).flags).setReg dst (incremented (s.reg dst)).res
  | .dcr dst => (s.setFlagsKeepCy (decremented (s.reg dst)).flags).setReg dst (decremented (s.reg dst)).res
  | .inrM =>
    let r := incremented (s.readByte s.hl .normal)
    (s.setFlagsKeepCy r.flags).writeByte s.hl .normal r.res
  | .dcrM =>
    let r := decremented (s.readByte s.hl .normal)
    (s.setFlagsKeepCy r.flags).writeByte s.hl .normal r.res
  | .inx p => s.setPair p (s.pair p + 1)
  | .dcx p => s.setPair p (s.pair p - 1)
  | .dad p => s.addToHl (s.pair p)
  | .daa => decimalAdjust s
  | .rlc => rotateLeft s
  | .rrc => rotateRight s
  | .ral => rotateLeftThroughCy s
  | .rar => rotateRightThroughCy s
  | .cma => complementA s
  | .cmc => complementCarry s
  | .stc => setCarry s
  | .jmp v => s.setPc v
  | .jcc cond v => if condHolds cond s.cpu.flags then s.setPc v else s.pcOn 2
  | .call v => (pushPc (s.pcOn 2)).setPc v
  | .ccc cond v => if condHolds cond s.cpu.flags then (pushPc (s.pcOn 2)).setPc v else s.pcOn 2
  | .ret =>
    (s.setSp (s.cpu.sp + 2)).setPc (mkWord (s.readByte (s.cpu.sp + 1) .stack) (s.readByte s.cpu.sp .stack))
  | .rcc cond =>
    if condHolds cond s.cpu.flags then
      (s.setSp (s.cpu.sp + 2)).setPc (mkWord (s.readByte (s.cpu.sp + 1) .stack) (s.readByte s.cpu.sp .stack))
    else s
  | .rst n => (pushPc s).setPc (BitVec.ofNat 16 (8 * n.val))
  | .pchl => s.setPc s.hl
  | .push p =>
    let t := s.push (hiByte (s.pair p))
    t.push (loByte (t.pair p))
  | .pushPsw => (s.push s.cpu.a).push s.cpu.flags.pack
  | .pop p =>
    (s.setSp (s.cpu.sp + 2)).setPair p (mkWord (s.readByte (s.cpu.sp + 1) .stack) (s.readByte s.cpu.sp .stack))
  | .popPsw =>
    ((s.setSp (s.cpu.sp + 2)).setFlags (Flags.unpack (s.readByte s.cpu.sp .stack))).setReg .a
      (s.readByte (s.cpu.sp + 1) .stack)
  | .xthl =>
    ((s.writeByte (s.cpu.sp + 1) .stack s.cpu.h).writeByte s.cpu.sp .stack s.cpu.l).setPair .hl
      (mkWord (s.readByte (s.cpu.sp + 1) .stack) (s.readByte s.cpu.sp .stack))
  | .sphl => s.setSp s.hl
  | .inPort port =>
    let t : State := { s.pcOn 1 with draws := s.draws + 1 + 1 }
    (t.callPortIn port).setReg .a (t.portInByte port)
  | .outPort port => ({ s.pcOn 1 with draws := s.draws + 1 + 1 } : State).callPortOut port s.cpu.a
  | .ei => enableInterrupts s
  | .di => disableInterrupts s
  | .hlt => { s with cpu := { s.cpu with halt := true } }
  | .nop => s

/-- The fetches of a 16-bit operand at two machine cycles. -/
def fetches (s : State) (j : Nat) (v : Word) : List (Nat × BusEvent) :=
  [(j, s.fetchAt s.cpu.pc (loByte v)), (j + 1, s.fetchAt (s.cpu.pc + 1) (hiByte v))]

/-- The two writes of a push at two machine cycles. -/
def pushes (s : State) (j : Nat) (v : Word) : List (Nat × BusEvent) :=
  [(j, s.writeAt (s.cpu.sp - 1) .stack (hiByte v)), (j + 1, s.writeAt (s.cpu.sp - 1 - 1) .stack (loByte v))]

/-- The two reads of a pop at two machine cycles. -/
def pops (s : State) (j : Nat) : List (Nat × BusEvent) :=
  [(j, s.readAt s.cpu.sp .stack), (j + 1, s.readAt (s.cpu.sp + 1) .stack)]

/-- The bus events of an instruction of the shape after its opcode fetch (50_sequencer.md R702). -/
def busOf (sh : Shape) (s : State) : List (Nat × BusEvent) :=
  match sh with
  | .mov _ _ => []
  | .movFromM _ => [(1, s.readAt s.hl .normal)]
  | .movToM src => [(1, s.writeAt s.hl .normal (s.reg src))]
  | .mvi _ v => [(1, s.fetchAt s.cpu.pc v)]
  | .mviM v => [(1, s.fetchAt s.cpu.pc v), (2, s.writeAt s.hl .normal v)]
  | .lxi _ v => fetches s 1 v
  | .lda v => fetches s 1 v ++ [(3, s.readAt v .normal)]
  | .sta v => fetches s 1 v ++ [(3, s.writeAt v .normal s.cpu.a)]
  | .lhld v => fetches s 1 v ++ [(3, s.readAt v .normal), (4, s.readAt (v + 1) .normal)]
  | .shld v => fetches s 1 v ++ [(3, s.writeAt v .normal s.cpu.l), (4, s.writeAt (v + 1) .normal s.cpu.h)]
  | .ldax p => [(1, s.readAt (s.pair p) .normal)]
  | .stax p => [(1, s.writeAt (s.pair p) .normal s.cpu.a)]
  | .xchg => []
  | .alu _ _ => []
  | .aluM _ => [(1, s.readAt s.hl .normal)]
  | .aluImm _ v => [(1, s.fetchAt s.cpu.pc v)]
  | .inr _ => []
  | .dcr _ => []
  | .inrM =>
    [(1, s.readAt s.hl .normal), (2, s.writeAt s.hl .normal (incremented (s.readByte s.hl .normal)).res)]
  | .dcrM =>
    [(1, s.readAt s.hl .normal), (2, s.writeAt s.hl .normal (decremented (s.readByte s.hl .normal)).res)]
  | .inx _ => []
  | .dcx _ => []
  | .dad _ => []
  | .daa => []
  | .rlc => []
  | .rrc => []
  | .ral => []
  | .rar => []
  | .cma => []
  | .cmc => []
  | .stc => []
  | .jmp v => fetches s 1 v
  | .jcc _ v => fetches s 1 v
  | .call v => fetches s 2 v ++ pushes s 4 (s.cpu.pc + 2)
  | .ccc cond v => fetches s 2 v ++ if condHolds cond s.cpu.flags then pushes s 4 (s.cpu.pc + 2) else []
  | .ret => pops s 1
  | .rcc cond => if condHolds cond s.cpu.flags then pops s 2 else []
  | .rst _ => pushes s 2 s.cpu.pc
  | .pchl => []
  | .push p =>
    [(2, s.writeAt (s.cpu.sp - 1) .stack (hiByte (s.pair p))),
     (3, s.writeAt (s.cpu.sp - 1 - 1) .stack (loByte ((s.setSp (s.cpu.sp - 1)).pair p)))]
  | .pushPsw =>
    [(2, s.writeAt (s.cpu.sp - 1) .stack s.cpu.a), (3, s.writeAt (s.cpu.sp - 1 - 1) .stack s.cpu.flags.pack)]
  | .pop _ => pops s 1
  | .popPsw => pops s 1
  | .xthl =>
    [(1, s.readAt s.cpu.sp .stack), (2, s.readAt (s.cpu.sp + 1) .stack),
     (3, s.writeAt (s.cpu.sp + 1) .stack s.cpu.h), (4, s.writeAt s.cpu.sp .stack s.cpu.l)]
  | .sphl => []
  | .inPort port =>
    [(1, s.fetchAt s.cpu.pc port), (2, .portIn port (({ s with draws := s.draws + 1 + 1 } : State).portInByte port))]
  | .outPort port => [(1, s.fetchAt s.cpu.pc port), (2, .portOut port s.cpu.a)]
  | .ei => []
  | .di => []
  | .hlt => []
  | .nop => []

/-! ## The rows do what `effect` and `busOf` say -/

/-- The state after the two bytes of a 16-bit operand are fetched. -/
abbrev fetched (v : Word) (s : State) : State := fetchHigh v (fetchLow v s)

theorem fetched_wz (v : Word) (s : State) : (fetched v s).wz = v := mkWord_hi_lo v

theorem fetched_pc (v : Word) (s : State) : (fetched v s).cpu.pc = s.cpu.pc + 2 := add_one_one _

/-- Fetching an operand moves PC on by 2 and loads W and Z. -/
theorem fetched_eq (v : Word) (s : State) :
    fetched v s =
      { withHidden (s.pcOn 2) (hiddenOf (fetched v s)) with w := hiByte v, z := loByte v } := by
  unfold State.pcOn
  rw [show s.cpu.pc + BitVec.ofNat 16 2 = s.cpu.pc + 1 + 1 from (add_one_one _).symm]
  rfl

/-- The row of `sh` without its cycles leaves the effect of `sh`, from `s`. -/
abbrev PlainEffect (sh : Shape) (s : State) : Prop :=
  (plainRun (rowOf sh).2 ((rowOf sh).1 s)).arch = (effect sh s).arch

theorem plain_mov (dst src : Reg) (s : State) : PlainEffect (.mov dst src) s := by
  cases dst <;> cases src <;> rfl

theorem plain_movFromM (dst : Reg) (s : State) : PlainEffect (.movFromM dst) s := by cases dst <;> rfl

theorem plain_movToM (src : Reg) (s : State) : PlainEffect (.movToM src) s := by cases src <;> rfl

theorem plain_mvi (dst : Reg) (v : Byte) (s : State) : PlainEffect (.mvi dst v) s := by cases dst <;> rfl

theorem plain_lxi (p : Pair) (v : Word) (s : State) : PlainEffect (.lxi p v) s := by
  change ((fetched v s).setPair p (fetched v s).wz).arch =
    ((s.pcOn 2).setPair p v).arch
  rw [fetched_wz, fetched_eq]
  generalize s.pcOn 2 = t
  generalize hiddenOf (fetched v s) = h
  cases p <;> rfl

theorem plain_lda (v : Word) (s : State) : PlainEffect (.lda v) s := by
  change (((fetched v s).loadZ (fetched v s).wz .normal).setReg .a
    ((fetched v s).readByte (fetched v s).wz .normal)).arch =
    ((s.pcOn 2).setReg .a ((s.pcOn 2).readByte v .normal)).arch
  rw [fetched_wz, fetched_eq]
  generalize s.pcOn 2 = t
  generalize hiddenOf (fetched v s) = h
  rfl

theorem plain_sta (v : Word) (s : State) : PlainEffect (.sta v) s := by
  change ((fetched v s).writeByte (fetched v s).wz .normal (fetched v s).cpu.a).arch =
    ((s.pcOn 2).writeByte v .normal (s.pcOn 2).cpu.a).arch
  rw [fetched_wz, fetched_eq]
  generalize s.pcOn 2 = t
  generalize hiddenOf (fetched v s) = h
  rfl

theorem plain_lhld (v : Word) (s : State) : PlainEffect (.lhld v) s := by
  change ((((fetched v s).setReg .l ((fetched v s).readByte (fetched v s).wz .normal))).setReg .h
    ((fetched v s).readByte ((fetched v s).wz + 1) .normal)).arch =
    (((s.pcOn 2).setReg .l ((s.pcOn 2).readByte v .normal)).setReg .h
      ((s.pcOn 2).readByte (v + 1) .normal)).arch
  rw [fetched_wz, fetched_eq]
  generalize s.pcOn 2 = t
  generalize hiddenOf (fetched v s) = h
  rfl

theorem plain_shld (v : Word) (s : State) : PlainEffect (.shld v) s := by
  change (((fetched v s).writeByte (fetched v s).wz .normal (fetched v s).cpu.l).writeByte
    ((fetched v s).wz + 1) .normal (fetched v s).cpu.h).arch =
    (((s.pcOn 2).writeByte v .normal (s.pcOn 2).cpu.l).writeByte (v + 1) .normal (s.pcOn 2).cpu.h).arch
  rw [fetched_wz, fetched_eq]
  generalize s.pcOn 2 = t
  generalize hiddenOf (fetched v s) = h
  rfl

theorem plain_ldax (p : Pair) (s : State) : PlainEffect (.ldax p) s := by cases p <;> rfl

theorem plain_stax (p : Pair) (s : State) : PlainEffect (.stax p) s := by cases p <;> rfl

theorem plain_alu (op : AluOp) (src : Reg) (s : State) : PlainEffect (.alu op src) s := rfl

theorem plain_aluM (op : AluOp) (s : State) : PlainEffect (.aluM op) s := by cases op <;> rfl

theorem plain_aluImm (op : AluOp) (v : Byte) (s : State) : PlainEffect (.aluImm op v) s := by cases op <;> rfl

theorem plain_inr (dst : Reg) (s : State) : PlainEffect (.inr dst) s := by cases dst <;> rfl

theorem plain_dcr (dst : Reg) (s : State) : PlainEffect (.dcr dst) s := by cases dst <;> rfl

theorem plain_inx (p : Pair) (s : State) : PlainEffect (.inx p) s := by cases p <;> rfl

theorem plain_dcx (p : Pair) (s : State) : PlainEffect (.dcx p) s := by cases p <;> rfl

theorem plain_dad (p : Pair) (s : State) : PlainEffect (.dad p) s := by cases p <;> rfl

theorem plain_jmp (v : Word) (s : State) : PlainEffect (.jmp v) s := by
  change ((fetched v s).setPc (fetched v s).wz).arch = _
  rw [fetched_wz]
  rfl

theorem plain_jcc (cond : Cond) (v : Word) (s : State) : PlainEffect (.jcc cond v) s := by
  change (if condHolds cond s.cpu.flags = true then (fetched v s).setPc (fetched v s).wz else fetched v s).arch =
    (if condHolds cond s.cpu.flags = true then _ else _ : State).arch
  split
  · rw [fetched_wz]; rfl
  · rw [fetched_eq]; rfl

theorem arch_pushPc (s : State) (h : Hidden) (w z : Byte) (v : Word) :
    ((pushPc { withHidden s h with w := w, z := z }).setPc v).arch = ((pushPc s).setPc v).arch := rfl

theorem plain_call (v : Word) (s : State) : PlainEffect (.call v) s := by
  change ((pushPc (fetched v s)).setPc (fetched v s).wz).arch = ((pushPc (s.pcOn 2)).setPc v).arch
  rw [fetched_wz, fetched_eq, arch_pushPc]

/-- The two conditional pushes of `Ccc`. -/
def callIf (cond : Cond) (t : State) : State :=
  let u := if condHolds cond t.cpu.flags = true then t.push (hiByte t.cpu.pc) else t
  if condHolds cond u.cpu.flags = true then (u.push (loByte u.cpu.pc)).setPc u.wz else u

theorem callIf_taken {cond : Cond} {t : State} (h : condHolds cond t.cpu.flags = true) :
    callIf cond t = (pushPc t).setPc t.wz := by
  unfold callIf
  rw [if_pos h]
  dsimp only
  exact if_pos h

theorem callIf_not {cond : Cond} {t : State} (h : ¬condHolds cond t.cpu.flags = true) : callIf cond t = t := by
  unfold callIf
  rw [if_neg h]
  dsimp only
  exact if_neg h

theorem plain_ccc (cond : Cond) (v : Word) (s : State) : PlainEffect (.ccc cond v) s := by
  change (callIf cond (fetched v s)).arch =
    (if condHolds cond s.cpu.flags = true then (pushPc (s.pcOn 2)).setPc v else s.pcOn 2).arch
  by_cases hc : condHolds cond s.cpu.flags = true
  · rw [if_pos hc, callIf_taken (show condHolds cond (fetched v s).cpu.flags = true from hc)]
    exact plain_call v s
  · rw [if_neg hc, callIf_not (show ¬condHolds cond (fetched v s).cpu.flags = true from hc), fetched_eq]
    rfl

theorem plain_ret (s : State) : PlainEffect .ret s := by
  change _ = ((s.setSp (s.cpu.sp + 2)).setPc _).arch
  rw [← add_one_one]
  rfl

/-- The two conditional pops of `Rcc`. -/
def returnIf (cond : Cond) (t : State) : State :=
  let u := if condHolds cond t.cpu.flags = true then t.popZ else t
  if condHolds cond u.cpu.flags = true then u.popW.setPc u.popW.wz else u

theorem plain_rcc (cond : Cond) (s : State) : PlainEffect (.rcc cond) s := by
  change (returnIf cond s).arch = (if condHolds cond s.cpu.flags = true then effect .ret s else s).arch
  unfold returnIf
  by_cases hc : condHolds cond s.cpu.flags = true
  · simp only [if_pos hc]
    rw [if_pos (show condHolds cond s.popZ.cpu.flags = true from hc)]
    exact plain_ret s
  · simp only [if_neg hc]

theorem plain_push (p : Pair) (s : State) : PlainEffect (.push p) s := by cases p <;> rfl

theorem plain_pop (p : Pair) (s : State) : PlainEffect (.pop p) s := by
  change _ = ((s.setSp (s.cpu.sp + 2)).setPair p _).arch
  rw [← add_one_one]
  cases p <;> rfl

theorem plain_popPsw (s : State) : PlainEffect .popPsw s := by
  change _ = (((s.setSp (s.cpu.sp + 2)).setFlags _).setReg .a _).arch
  rw [← add_one_one]
  rfl

theorem plain_xthl (s : State) : PlainEffect .xthl s := rfl

/-- A row without its cycles leaves the effect of its shape. -/
theorem plain_effect (sh : Shape) (hp : isPort sh = false) (s : State) : PlainEffect sh s := by
  cases sh
  case mov dst src => exact plain_mov dst src s
  case movFromM dst => exact plain_movFromM dst s
  case movToM src => exact plain_movToM src s
  case mvi dst v => exact plain_mvi dst v s
  case lxi p v => exact plain_lxi p v s
  case lda v => exact plain_lda v s
  case sta v => exact plain_sta v s
  case lhld v => exact plain_lhld v s
  case shld v => exact plain_shld v s
  case ldax p => exact plain_ldax p s
  case stax p => exact plain_stax p s
  case alu op src => exact plain_alu op src s
  case aluM op => exact plain_aluM op s
  case aluImm op v => exact plain_aluImm op v s
  case inr dst => exact plain_inr dst s
  case dcr dst => exact plain_dcr dst s
  case inx p => exact plain_inx p s
  case dcx p => exact plain_dcx p s
  case dad p => exact plain_dad p s
  case jmp v => exact plain_jmp v s
  case jcc cond v => exact plain_jcc cond v s
  case call v => exact plain_call v s
  case ccc cond v => exact plain_ccc cond v s
  case ret => exact plain_ret s
  case rcc cond => exact plain_rcc cond s
  case push p => exact plain_push p s
  case pop p => exact plain_pop p s
  case popPsw => exact plain_popPsw s
  case xthl => exact plain_xthl s
  case inPort port => exact absurd hp (by simp [isPort])
  case outPort port => exact absurd hp (by simp [isPort])
  all_goals rfl

/-- The row of `sh` without its cycles emits the events of `sh`, from `s`. -/
abbrev PlainEvents (sh : Shape) (s : State) : Prop :=
  plainEvents 1 ((rowOf sh).1 s) (tracedRow sh) = busOf sh s

theorem events_lda (v : Word) (s : State) : PlainEvents (.lda v) s := by
  change fetches s 1 v ++ [(3, (fetched v s).readAt (fetched v s).wz .normal)] = _
  rw [fetched_wz]; rfl

theorem events_sta (v : Word) (s : State) : PlainEvents (.sta v) s := by
  change fetches s 1 v ++ [(3, (fetched v s).writeAt (fetched v s).wz .normal s.cpu.a)] = _
  rw [fetched_wz]; rfl

theorem events_lhld (v : Word) (s : State) : PlainEvents (.lhld v) s := by
  change fetches s 1 v ++ [(3, (fetched v s).readAt (fetched v s).wz .normal),
    (4, (fetched v s).readAt ((fetched v s).wz + 1) .normal)] = _
  rw [fetched_wz]; rfl

theorem events_shld (v : Word) (s : State) : PlainEvents (.shld v) s := by
  change fetches s 1 v ++ [(3, (fetched v s).writeAt (fetched v s).wz .normal s.cpu.l),
    (4, (fetched v s).writeAt ((fetched v s).wz + 1) .normal s.cpu.h)] = _
  rw [fetched_wz]; rfl

theorem events_call (v : Word) (s : State) : PlainEvents (.call v) s := by
  change fetches s 2 v ++ pushes s 4 (fetched v s).cpu.pc = _
  rw [fetched_pc]; rfl

/-- The events of the two conditional pushes of `Ccc`. -/
def callIfEvents (cond : Cond) (t : State) : List (Nat × BusEvent) :=
  let u := if condHolds cond t.cpu.flags = true then t.push (hiByte t.cpu.pc) else t
  (if condHolds cond t.cpu.flags = true then [t.writeAt (t.cpu.sp - 1) .stack (hiByte t.cpu.pc)] else []).map
      (fun e => (4, e)) ++
    ((if condHolds cond u.cpu.flags = true then [u.writeAt (u.cpu.sp - 1) .stack (loByte u.cpu.pc)] else []).map
      (fun e => (5, e)) ++ [])

theorem events_ccc (cond : Cond) (v : Word) (s : State) : PlainEvents (.ccc cond v) s := by
  change fetches s 2 v ++ callIfEvents cond (fetched v s) =
    fetches s 2 v ++ if condHolds cond s.cpu.flags = true then pushes s 4 (s.cpu.pc + 2) else []
  congr 1
  unfold callIfEvents
  by_cases hc : condHolds cond s.cpu.flags = true
  · have h1 : condHolds cond (fetched v s).cpu.flags = true := hc
    have h2 : condHolds cond ((fetched v s).push (hiByte (fetched v s).cpu.pc)).cpu.flags = true := hc
    rw [if_pos h1, if_pos h1, if_pos hc, ← fetched_pc v s]
    dsimp only
    rw [if_pos h2]
    rfl
  · have h1 : ¬condHolds cond (fetched v s).cpu.flags = true := hc
    rw [if_neg h1, if_neg h1, if_neg hc]
    dsimp only
    rw [if_neg h1]
    rfl

/-- The events of the two conditional pops of `Rcc`. -/
def returnIfEvents (cond : Cond) (t : State) : List (Nat × BusEvent) :=
  let u := if condHolds cond t.cpu.flags = true then t.popZ else t
  (if condHolds cond t.cpu.flags = true then [t.readAt t.cpu.sp .stack] else []).map (fun e => (2, e)) ++
    ((if condHolds cond u.cpu.flags = true then [u.readAt u.cpu.sp .stack] else []).map (fun e => (3, e)) ++ [])

theorem events_rcc (cond : Cond) (s : State) : PlainEvents (.rcc cond) s := by
  change returnIfEvents cond s = if condHolds cond s.cpu.flags = true then pops s 2 else []
  unfold returnIfEvents
  by_cases hc : condHolds cond s.cpu.flags = true
  · have h2 : condHolds cond s.popZ.cpu.flags = true := hc
    rw [if_pos hc, if_pos hc, if_pos hc]
    dsimp only
    rw [if_pos h2]
    rfl
  · rw [if_neg hc, if_neg hc, if_neg hc]
    dsimp only
    rw [if_neg hc]
    rfl

/-- The events of a row without its cycles are those of its shape. -/
theorem plain_events (sh : Shape) (hp : isPort sh = false) (s : State) : PlainEvents sh s := by
  cases sh
  case lda v => exact events_lda v s
  case sta v => exact events_sta v s
  case lhld v => exact events_lhld v s
  case shld v => exact events_shld v s
  case stax p => cases p <;> rfl
  case movToM src => cases src <;> rfl
  case call v => exact events_call v s
  case ccc cond v => exact events_ccc cond v s
  case rcc cond => exact events_rcc cond s
  case push p => cases p <;> rfl
  case inPort port => exact absurd hp (by simp [isPort])
  case outPort port => exact absurd hp (by simp [isPort])
  all_goals rfl

end Sys2Proof.Laws
end

