-- ==== Sys2Proof/Laws/Alu.lean ====
section
/-! SUPPORT. The 8-bit sums and their carries in natural numbers (41_arithmetic.md R450, R451, R461, R463, R467). -/

namespace Sys2Proof.Laws

open Sys2Proof.Machine

theorem ofBool_toNat (c : Bool) : (BitVec.ofBool c).toNat = c.toNat := by cases c <;> rfl

theorem bool_toNat_le (c : Bool) : c.toNat ≤ 1 := by cases c <;> decide

/-- The 9-bit sum does not wrap. -/
theorem sum9_toNat (a b : Byte) (c : Bool) : (sum9 a b c).toNat = a.toNat + b.toNat + c.toNat := by
  have ha := a.isLt
  have hb := b.isLt
  have hc := bool_toNat_le c
  unfold sum9
  simp only [BitVec.toNat_add, BitVec.toNat_setWidth, ofBool_toNat]
  omega

/-- The result of ADD8. -/
theorem add8_toNat (a b : Byte) (c : Bool) : (add8 a b c).res.toNat = (a.toNat + b.toNat + c.toNat) % 256 := by
  change ((sum9 a b c).setWidth 8).toNat = _
  rw [BitVec.toNat_setWidth, sum9_toNat]

/-- Bit 4 of `a ^ b ^ s` is the carry out of bit 3. -/
theorem carries_four (a b : Byte) (c : Bool) :
    (carries a b c).getLsbD 4 = decide (16 ≤ a.toNat % 16 + b.toNat % 16 + c.toNat) := by
  have ha := a.isLt
  have hb := b.isLt
  have hc := bool_toNat_le c
  have hc4 : (BitVec.ofBool c).getLsbD 4 = false := by cases c <;> rfl
  unfold carries sum9
  rw [BitVec.getLsbD_xor, BitVec.getLsbD_xor, BitVec.getLsbD_add (by omega), BitVec.getLsbD_add (by omega)]
  simp only [BitVec.carry, BitVec.toNat_add, BitVec.toNat_setWidth, BitVec.getLsbD_setWidth, ofBool_toNat, hc4,
    Bool.toNat_false]
  have e : (decide (2 ^ 4 ≤ a.toNat % 2 ^ 9 % 2 ^ 4 + b.toNat % 2 ^ 9 % 2 ^ 4 + 0) ^^
      decide (2 ^ 4 ≤ (a.toNat % 2 ^ 9 + b.toNat % 2 ^ 9) % 2 ^ 9 % 2 ^ 4 + c.toNat % 2 ^ 9 % 2 ^ 4 + 0)) =
      decide (16 ≤ a.toNat % 16 + b.toNat % 16 + c.toNat) := by
    by_cases h1 : 2 ^ 4 ≤ a.toNat % 2 ^ 9 % 2 ^ 4 + b.toNat % 2 ^ 9 % 2 ^ 4 + 0 <;>
    by_cases h2 : 2 ^ 4 ≤ (a.toNat % 2 ^ 9 + b.toNat % 2 ^ 9) % 2 ^ 9 % 2 ^ 4 + c.toNat % 2 ^ 9 % 2 ^ 4 + 0 <;>
    by_cases h3 : 16 ≤ a.toNat % 16 + b.toNat % 16 + c.toNat <;>
      simp only [h1, h2, h3, decide_true, decide_false] <;> first | rfl | omega
  rw [← e]
  cases a.getLsbD 4 <;> cases b.getLsbD 4 <;> simp

/-- Bit 8 of `a ^ b ^ s` is the carry out. -/
theorem carries_eight (a b : Byte) (c : Bool) :
    (carries a b c).getLsbD 8 = decide (256 ≤ a.toNat + b.toNat + c.toNat) := by
  have ha := a.isLt
  have hb := b.isLt
  have hc := bool_toNat_le c
  unfold carries
  rw [BitVec.getLsbD_xor, BitVec.getLsbD_xor, BitVec.getLsbD_setWidth, BitVec.getLsbD_setWidth,
    BitVec.getLsbD_of_ge a 8 (by omega), BitVec.getLsbD_of_ge b 8 (by omega), BitVec.getLsbD, sum9_toNat, Nat.testBit,
    Nat.shiftRight_eq_div_pow, Nat.one_and_eq_mod_two]
  have : (a.toNat + b.toNat + c.toNat) / 2 ^ 8 = 0 ∨ (a.toNat + b.toNat + c.toNat) / 2 ^ 8 = 1 := by omega
  rcases this with h | h <;> rw [h] <;> symm <;> simp <;> omega

theorem not_toNat (b : Byte) : (~~~b).toNat = 255 - b.toNat := by simp [BitVec.toNat_not]

/-- The flags of ADD8. -/
theorem add8_flags (a b : Byte) (c : Bool) :
    (add8 a b c).flags = szp (add8 a b c).res (decide (16 ≤ a.toNat % 16 + b.toNat % 16 + c.toNat))
      (decide (256 ≤ a.toNat + b.toNat + c.toNat)) := by
  rw [← carries_four, ← carries_eight]; rfl

theorem incremented_res (v : Byte) : (incremented v).res = v + 1 := by
  apply BitVec.eq_of_toNat_eq
  rw [incremented, add8_toNat, BitVec.toNat_add]; rfl

theorem decremented_res (v : Byte) : (decremented v).res = v - 1 := by
  apply BitVec.eq_of_toNat_eq
  change (add8 v (~~~(1 : Byte)) true).res.toNat = _
  have := v.isLt
  rw [add8_toNat, BitVec.toNat_sub]
  change (v.toNat + 254 + 1) % 256 = (256 - 1 + v.toNat) % 256
  omega

/-- INR's flags with CY kept, in natural numbers (R461). -/
theorem keep_up (s : State) (v : Byte) : s.setFlagsKeepCy (incremented v).flags =
    s.setFlagsKeepCy (szp (v + 1) (decide ((v + 1).toNat % 16 = 0)) s.cpu.flags.cy) := by
  have e : (incremented v).flags = szp (v + 1) (decide ((v + 1).toNat % 16 = 0)) (incremented v).flags.cy := by
    have hv := v.isLt
    change (add8 v 1 false).flags = szp (v + 1) _ (add8 v 1 false).flags.cy
    rw [add8_flags, show (add8 v 1 false).res = v + 1 from incremented_res v]
    have : decide (16 ≤ v.toNat % 16 + (1 : Byte).toNat % 16 + false.toNat) = decide ((v + 1).toNat % 16 = 0) := by
      rw [BitVec.toNat_add, decide_eq_decide]
      change 16 ≤ v.toNat % 16 + 1 + 0 ↔ (v.toNat + 1) % 256 % 16 = 0
      omega
    rw [this]; rfl
  rw [e]; rfl

/-- DCR's flags with CY kept, in natural numbers (R463). -/
theorem keep_dn (s : State) (v : Byte) : s.setFlagsKeepCy (decremented v).flags =
    s.setFlagsKeepCy (szp (v - 1) (decide ((v - 1).toNat % 16 ≠ 15)) s.cpu.flags.cy) := by
  have e : (decremented v).flags = szp (v - 1) (decide ((v - 1).toNat % 16 ≠ 15)) (decremented v).flags.cy := by
    have hv := v.isLt
    have e1 : (decremented v).flags = { (add8 v (~~~(1 : Byte)) true).flags with cy := (decremented v).flags.cy } := rfl
    rw [e1, add8_flags, show (add8 v (~~~(1 : Byte)) true).res = v - 1 from decremented_res v]
    have : decide (16 ≤ v.toNat % 16 + (~~~(1 : Byte)).toNat % 16 + true.toNat) = decide ((v - 1).toNat % 16 ≠ 15) := by
      rw [BitVec.toNat_sub, decide_eq_decide]
      change 16 ≤ v.toNat % 16 + 14 + 1 ↔ (256 - 1 + v.toNat) % 256 % 16 ≠ 15
      omega
    rw [this]; rfl
  rw [e]; rfl

/-- DAD in natural numbers (R467). -/
theorem dad_eq (s : State) (v : Word) : s.addToHl v =
    (s.setPair .hl (s.pair .hl + v)).setCy (decide (65536 ≤ (s.pair .hl).toNat + v.toNat)) := by
  have h1 := s.hl.isLt
  have h2 := v.isLt
  unfold State.addToHl
  have e1 : (s.hl.setWidth 17 + v.setWidth 17 : BitVec 17).toNat = s.hl.toNat + v.toNat := by
    simp only [BitVec.toNat_add, BitVec.toNat_setWidth]; omega
  have e2 : (s.hl.setWidth 17 + v.setWidth 17 : BitVec 17).setWidth 16 = s.pair .hl + v := by
    apply BitVec.eq_of_toNat_eq
    rw [BitVec.toNat_setWidth, e1, BitVec.toNat_add]; rfl
  have e3 : (s.hl.setWidth 17 + v.setWidth 17 : BitVec 17).getLsbD 16 = decide (65536 ≤ (s.pair .hl).toNat + v.toNat) := by
    rw [BitVec.getLsbD, e1, Nat.testBit, Nat.shiftRight_eq_div_pow, Nat.one_and_eq_mod_two]
    change _ = decide (65536 ≤ s.hl.toNat + v.toNat)
    have : (s.hl.toNat + v.toNat) / 2 ^ 16 = 0 ∨ (s.hl.toNat + v.toNat) / 2 ^ 16 = 1 := by omega
    rcases this with h | h <;> rw [h] <;> symm <;> simp <;> omega
  dsimp only
  rw [e2, e3]

end Sys2Proof.Laws
end

