-- ==== Sys2Proof/Laws/History.lean ====
section
/-! SUPPORT. The History Engine's operations: what each leaves, what each keeps, and that a turn forward and a turn back
undo each other (65_observer.md R850 to R862). -/

namespace Sys2Proof.Laws

open Sys2Proof.Machine

/-! ## The open checkpoint -/

/-- The writes go to the newest checkpoint. -/
theorem appendToOpen_last (ws : List WriteDiff) (ks : List Checkpoint) (k : Checkpoint) :
    appendToOpen ws (ks ++ [k]) = ks ++ [{ k with diffs := k.diffs ++ ws }] := by
  induction ks with
  | nil => rfl
  | cons c ks ih =>
    cases hks : ks ++ [k] with
    | nil => simp at hks
    | cons d ds => 
      rw [hks] at ih
      change appendToOpen ws (c :: (ks ++ [k])) = _
      rw [hks]
      change c :: appendToOpen ws (d :: ds) = _
      rw [ih]; rfl

theorem appendToOpen_length (ws : List WriteDiff) (ks : List Checkpoint) :
    (appendToOpen ws ks).length = ks.length := by
  fun_induction appendToOpen ws ks <;> simp_all

theorem appendToOpen_range {ws : List WriteDiff} {ks : List Checkpoint} (hw : ∀ w ∈ ws, w.addr < physicalBytes)
    (hk : ∀ k ∈ ks, ∀ w ∈ k.diffs, w.addr < physicalBytes) : ∀ k ∈ appendToOpen ws ks, ∀ w ∈ k.diffs, w.addr < physicalBytes := by
  fun_induction appendToOpen ws ks with
  | case1 => exact hk
  | case2 k =>
    intro k' hk' w hw'
    rw [List.mem_singleton.1 hk'] at hw'
    rcases List.mem_append.1 hw' with h | h
    · exact hk k (by simp) w h
    · exact hw w h
  | case3 k k' ks ih =>
    intro x hx
    rcases List.mem_cons.1 hx with rfl | hx
    · exact hk _ (by simp)
    · exact ih (fun y hy => hk y (by simp [hy])) x hx

/-! ## What each operation keeps of the History Engine's invariant -/

theorem historyWf_append {cap : Nat} {h : History} (hw : HistoryWf cap h) {ws : List WriteDiff}
    (hr : ∀ w ∈ ws, w.addr < physicalBytes) :
    HistoryWf cap (h.append ws) := by
  obtain ⟨h1, h2, h3, h4, h5, h6, h7⟩ := hw
  have e : (h.append ws).count = h.count := appendToOpen_length _ _
  exact ⟨e ▸ h1, e ▸ h2, e ▸ h3, h4, fun k => e ▸ h5 k, h6, appendToOpen_range hr h7⟩

theorem historyWf_openNext {cap : Nat} {h : History} (hw : HistoryWf cap h) (hl : h.live = true) (hc : 1 ≤ cap)
    (sn : Snapshot) : HistoryWf cap (h.openNext cap sn) := by
  obtain ⟨h1, h2, h3, h4, h5, h6, h7⟩ := hw
  have hcount : h.count = h.checkpoints.length := rfl
  refine ⟨?_, ?_, ?_, Nat.mod_lt _ hc, ?_, ?_, ?_⟩
  · simp [History.count, History.openNext]
  · change ((if h.count < cap then h.checkpoints else h.checkpoints.tail) ++ [_]).length ≤ cap
    rw [List.length_append, List.length_singleton]
    by_cases hlt : h.count < cap
    · rw [if_pos hlt]; exact hlt
    · rw [if_neg hlt, List.length_tail]; omega
  · simp [History.count, History.openNext]
  · intro _; simp [History.count, History.openNext]
  · intro hf; exact absurd (hl.symm.trans hf) (by simp)
  · intro k hk
    rcases List.mem_append.1 hk with hk | hk
    · have : k ∈ h.checkpoints := by
        revert hk; split
        · exact id
        · exact List.mem_of_mem_tail
      exact h7 k this
    · rw [List.mem_singleton.1 hk]; intro w hw; cases hw

/-- A recording is consistent when each of R862's clauses holds. -/
theorem consistent_iff (p : Params) (r : Recording) : r.consistent p = true ↔
  (r.count ≠ 0 ∧ r.count ≤ p.historyCapacity ∧ r.pos < r.count ∧ r.checkpoints.length = r.count) ∧
  (∀ k ∈ r.checkpoints, ∀ w ∈ k.diffs, w.addr < physicalBytes) ∧
  (∀ k ∈ r.checkpoints, mappingConflict p.layout k.snap.map = false) ∧
  (∀ sn, r.liveSnap = some sn → mappingConflict p.layout sn.map = false) ∧
  (r.live = true → r.pos + 1 = r.count) ∧ (r.live = false → r.liveSnap.isSome = true) := by
  unfold Recording.consistent
  cases r.live <;> cases r.liveSnap <;> simp [and_assoc]

/-- The part of the invariant that the History Engine's operations keep. -/
structure Kept (s : State) : Prop where
  ram_wf      : s.ram.wf
  params_wf   : s.params.wellFormed = true
  mci_zero    : s.mci = 0
  diff_wf     : DiffWf s.diff
  history_wf  : HistoryWf s.params.historyCapacity s.hist

theorem diffWf_empty : DiffWf DiffRecord.empty := ⟨by decide, by decide, by decide, by decide⟩

theorem capacity_pos {p : Params} (h : p.wellFormed = true) : 1 ≤ p.historyCapacity := by
  simp only [Params.wellFormed, wellFormedCapacity, Bool.and_eq_true, decide_eq_true_eq] at h; exact h.1.1.2

theorem kept_restore {s : State} (h : Kept s) (sn : Snapshot) : Kept (s.restore sn) := by
  obtain ⟨a, b, c, d, e⟩ := h
  refine ⟨a, b, rfl, diffWf_empty, ?_⟩
  exact ⟨e.count_pos, e.count_le, e.pos_lt, e.wcur_lt, e.live_pos, e.away_snap, e.in_range⟩

theorem kept_onInstructionRetired {s : State} (h : Kept s) : Kept s.onInstructionRetired := by
  unfold State.onInstructionRetired
  split
  · rename_i hl
    obtain ⟨a, b, c, d, e⟩ := h
    have e' := historyWf_append e d.in_range
    refine ⟨a, b, c, d, ?_⟩
    dsimp only
    split
    · exact e'
    · exact historyWf_openNext e' hl.2 (capacity_pos b) _
  · exact h

theorem kept_historyReset {s : State} (h : Kept s) : Kept s.historyReset := by
  obtain ⟨a, b, c, d, e⟩ := h
  have := capacity_pos b
  refine ⟨a, b, c, d, ⟨Nat.le_refl 1, this, by exact Nat.zero_lt_one, this, fun _ => rfl, fun h => (by cases h), ?_⟩⟩
  intro k hk w hw
  rw [List.mem_singleton.1 hk] at hw; cases hw

theorem kept_stepForward {s : State} (h : Kept s) : Kept s.stepForward := by
  obtain ⟨a, b, c, d, e⟩ := h
  obtain ⟨h1, h2, h3, h4, h5, h6, h7⟩ := e
  have hr : (redo ((s.hist.checkpoints[s.hist.pos]?.map Checkpoint.diffs).getD []) s.ram).wf := by
    refine redo_wf ?_ a
    intro w hw
    cases hk : s.hist.checkpoints[s.hist.pos]? with
    | none => rw [hk] at hw; cases hw
    | some k => rw [hk] at hw; exact h7 k (List.mem_of_getElem? hk) w hw
  unfold State.stepForward
  dsimp only
  split
  · rename_i k hk
    have hlt : s.hist.pos + 1 < s.hist.count := (List.getElem?_eq_some_iff.1 hk).1
    by_cases hlv : s.hist.live = true
    · have := h5 hlv; omega
    · refine kept_restore (s := { s with ram := _, hist := { s.hist with pos := s.hist.pos + 1 } }) ⟨hr, b, c, d, ⟨h1, h2, hlt, h4, fun k => absurd k hlv, h6, h7⟩⟩ _
  · rename_i hk
    have hge : s.hist.count ≤ s.hist.pos + 1 := List.getElem?_eq_none_iff.1 hk
    have hh : HistoryWf s.params.historyCapacity { s.hist with live := true, liveSnap := none } := ⟨h1, h2, h3, h4, fun _ => (by change s.hist.pos + 1 = s.hist.count; omega), fun h => (by cases h), h7⟩
    split
    · exact kept_restore (s := { s with ram := _, hist := { s.hist with live := true, liveSnap := none } }) ⟨hr, b, c, d, hh⟩ _
    · exact ⟨hr, b, c, d, hh⟩

theorem kept_stepReverse {s : State} (h : Kept s) : Kept s.stepReverse := by
  obtain ⟨a, b, c, d, e⟩ := h
  obtain ⟨h1, h2, h3, h4, h5, h6, h7⟩ := e
  unfold State.stepReverse
  dsimp only
  split
  · rename_i k hk
    have hlt := (List.getElem?_eq_some_iff.1 hk).1
    have hr : (undo k.diffs s.ram).wf := undo_wf (h7 k (List.mem_of_getElem? hk)) a
    refine kept_restore (s := { s with ram := _, hist := _ }) ⟨hr, b, c, d, ?_⟩ _
    dsimp only
    split
    · rename_i hl; rw [if_pos hl] at hlt
      exact ⟨h1, h2, hlt, h4, fun h => (by cases h), fun _ => rfl, h7⟩
    · rename_i hl; rw [if_neg hl] at hlt
      refine ⟨h1, h2, hlt, h4, fun h => absurd h hl, h6, h7⟩
  · refine ⟨a, b, c, d, ?_⟩
    dsimp only
    split
    · exact ⟨h1, h2, h3, h4, fun h => (by cases h), fun _ => rfl, h7⟩
    · exact ⟨h1, h2, h3, h4, h5, h6, h7⟩

theorem kept_playForward {s : State} (n : Nat) (h : Kept s) : Kept (s.playForward n) := by
  induction n generalizing s with
  | zero => exact h
  | succ n ih =>
    unfold State.playForward
    split
    · exact h
    · exact ih (kept_stepForward h)

theorem kept_playReverse {s : State} (n : Nat) (h : Kept s) : Kept (s.playReverse n) := by
  induction n generalizing s with
  | zero => exact h
  | succ n ih =>
    unfold State.playReverse
    split
    · exact ih (kept_stepReverse h)
    · exact h

theorem kept_leaveHistory {s : State} (h : Kept s) : Kept s.leaveHistory ∧ s.leaveHistory.hist.live = true := by
  unfold State.leaveHistory
  split
  · exact ⟨h, ‹_›⟩
  · obtain ⟨a, b, c, d, e⟩ := h
    obtain ⟨h1, h2, h3, h4, h5, h6, h7⟩ := e
    have hk : s.hist.checkpoints[s.hist.pos]? = some (s.hist.checkpoints[s.hist.pos]'h3) := List.getElem?_eq_getElem h3
    have h3' : s.hist.pos < s.hist.checkpoints.length := h3
    have h2' : s.hist.checkpoints.length ≤ s.params.historyCapacity := h2
    refine ⟨⟨a, b, c, d, ⟨?_, ?_, ?_, Nat.mod_lt _ (capacity_pos b), fun _ => ?_, fun h => (by cases h), ?_⟩⟩, rfl⟩
    · simp [History.count, hk]
    · simp [History.count, hk]; omega
    · simp [History.count, hk]; omega
    · simp [History.count, hk]; omega
    · intro k hk' w hw
      rw [hk] at hk'
      rcases List.mem_append.1 hk' with hk' | hk'
      · exact h7 k (List.mem_of_mem_take hk') w hw
      · simp at hk'; rw [hk'] at hw; cases hw

theorem kept_setRamBytes {s : State} (h : Kept s) (a : Word) (l : List Byte) : Kept (s.setRamBytes a l) := by
  induction l generalizing s a with
  | nil => exact h
  | cons v vs ih =>
    unfold State.setRamBytes
    dsimp only
    refine ih ?_ _
    obtain ⟨x, b, c, d, e⟩ := h
    refine ⟨write_wf x (translate_lt _ _ _ _) _, b, c, d, ?_⟩
    dsimp only
    split
    · refine historyWf_append e ?_
      intro w hw; rw [List.mem_singleton.1 hw]; exact translate_lt _ _ _ _
    · exact e

theorem kept_loadRecording {s : State} (h : Kept s) {r : Recording} (hr : r.consistent s.params = true) :
    Kept (s.loadRecording r) := by
  rw [consistent_iff] at hr
  obtain ⟨⟨c1, c2, c3, c4⟩, c5, c6, c7, c8, c9⟩ := hr
  obtain ⟨a, b, c, d, e⟩ := h
  have hh : HistoryWf s.params.historyCapacity { s.hist with checkpoints := r.checkpoints, wcur := r.count - 1, pos := r.pos, live := r.live, liveSnap := if r.live then none else r.liveSnap } := by
    refine ⟨?_, ?_, ?_, ?_, ?_, ?_, c5⟩
    · change 1 ≤ r.checkpoints.length; omega
    · change r.checkpoints.length ≤ _; omega
    · change r.pos < r.checkpoints.length; omega
    · change r.count - 1 < _; omega
    · intro hl; change r.pos + 1 = r.checkpoints.length; rw [c4]; exact c8 hl
    · intro hl; have hl : r.live = false := hl; dsimp only; rw [hl]; exact c9 hl
  unfold State.loadRecording
  dsimp only
  split
  · exact kept_restore (s := { s with hist := { s.hist with checkpoints := r.checkpoints, wcur := r.count - 1, pos := r.pos, live := r.live, liveSnap := if r.live then none else r.liveSnap } }) ⟨a, b, c, d, hh⟩ _
  · exact ⟨a, b, c, d, hh⟩

/-! ## Diff lists -/

/-- A byte written over and written back leaves memory as it was. -/
theorem write_back {m : Memory} (hm : m.wf) {a : Nat} (ha : a < physicalBytes) (v : Byte) :
    (m.write a v).write a (m.read a) = m := by
  apply wf_ext (write_wf (write_wf hm ha v) ha _) hm
  intro pa
  rw [read_write, read_write]
  by_cases h : pa = a
  · rw [if_pos h, h]
  · rw [if_neg h, if_neg h]

/-- Undoing a chain of writes gives back the memory before it. -/
theorem diffChain_undo {ws : List WriteDiff} {m n : Memory} (hm : m.wf) (hr : ∀ w ∈ ws, w.addr < physicalBytes)
    (h : DiffChain ws m n) : undo ws n = m := by
  induction ws generalizing m with
  | nil => exact h.symm
  | cons w ws ih =>
    obtain ⟨h1, h2⟩ := h
    have := ih (write_wf hm (hr w (by simp)) _) (fun x hx => hr x (by simp [hx])) h2
    change (undo ws n).write w.addr w.before = m
    rw [this, ← h1, write_back hm (hr w (by simp))]

/-! ## A turn forward and a turn back -/

/-- `HistoryExplains` with the memories named, and the bounds of the History Engine. -/
structure Explained (mems : Nat → Memory) (s : State) : Prop where
  cp : 1 ≤ s.hist.count
  lt : s.hist.pos < s.hist.count
  live_pos : s.hist.live = true → s.hist.pos + 1 = s.hist.count
  away : s.hist.live = false → s.hist.liveSnap.isSome = true
  rng : ∀ k ∈ s.hist.checkpoints, ∀ w ∈ k.diffs, w.addr < physicalBytes
  wf : ∀ i, i ≤ s.hist.count → (mems i).wf
  chain : ∀ i k, s.hist.checkpoints[i]? = some k → DiffChain k.diffs (mems i) (mems (i + 1))
  ram : s.ram = mems (if s.hist.live = true then s.hist.count else s.hist.pos)
  snap : s.hist.live = false → s.hist.checkpoints[s.hist.pos]?.map Checkpoint.snap = some s.snapshot

/-- Playback cannot tell `t` from `s`. -/
structure Alike (s t : State) : Prop where
  snap : t.snapshot = s.snapshot
  ram : t.ram = s.ram
  pos : t.hist.pos = s.hist.pos
  live : t.hist.live = s.hist.live
  cps : t.hist.checkpoints = s.hist.checkpoints
  ls : s.hist.live = false → t.hist.liveSnap = s.hist.liveSnap

theorem Alike.refl (s : State) : Alike s s := ⟨rfl, rfl, rfl, rfl, rfl, fun _ => rfl⟩
theorem Alike.trans {s t u : State} (h : Alike s t) (k : Alike t u) : Alike s u :=
  ⟨k.1.trans h.1, k.2.trans h.2, k.3.trans h.3, k.4.trans h.4, k.5.trans h.5, fun e => (k.6 (h.4.trans e)).trans (h.6 e)⟩

theorem stepForward_middle {s : State} {k k' : Checkpoint} (hk : s.hist.checkpoints[s.hist.pos]? = some k)
    (hk' : s.hist.checkpoints[s.hist.pos + 1]? = some k') :
    s.stepForward = State.restore { s with ram := redo k.diffs s.ram, hist := { s.hist with pos := s.hist.pos + 1 } } k'.snap := by
  unfold State.stepForward
  simp only [hk, hk']
  rfl

theorem stepForward_newest {s : State} {k : Checkpoint} {sn : Snapshot}
    (hk : s.hist.checkpoints[s.hist.pos]? = some k) (hk' : s.hist.checkpoints[s.hist.pos + 1]? = none)
    (hs : s.hist.liveSnap = some sn) :
    s.stepForward = State.restore { s with ram := redo k.diffs s.ram, hist := { s.hist with live := true, liveSnap := none } } sn := by
  unfold State.stepForward
  simp only [hk, hk', hs]
  rfl

theorem stepReverse_live {s : State} {k : Checkpoint} (hl : s.hist.live = true)
    (hk : s.hist.checkpoints[s.hist.count - 1]? = some k) :
    s.stepReverse = State.restore { s with ram := undo k.diffs s.ram, hist := { s.hist with liveSnap := some s.snapshot, live := false, pos := s.hist.count - 1 } } k.snap := by
  unfold State.stepReverse
  simp only [hl, if_true, hk]

theorem stepReverse_away {s : State} {k : Checkpoint} (hl : s.hist.live = false)
    (hk : s.hist.checkpoints[s.hist.pos - 1]? = some k) :
    s.stepReverse = State.restore { s with ram := undo k.diffs s.ram, hist := { s.hist with pos := s.hist.pos - 1 } } k.snap := by
  unfold State.stepReverse
  simp only [hl, Bool.false_eq_true, if_false, hk]

/-- A turn forward goes one position up, and a turn back undoes it. -/
theorem stepForward_back {mems : Nat → Memory} {s : State} (h : Explained mems s) (hl : s.hist.live = false) :
    Explained mems s.stepForward ∧ s.stepForward.hist.count = s.hist.count ∧
    (if s.stepForward.hist.live = true then s.stepForward.hist.count else s.stepForward.hist.pos) = s.hist.pos + 1 ∧ Alike s s.stepForward.stepReverse := by
  obtain ⟨h1, h2, h3, h4, h5, h6, h7, h8, h9⟩ := h
  have hk : s.hist.checkpoints[s.hist.pos]? = some (s.hist.checkpoints[s.hist.pos]'h2) := List.getElem?_eq_getElem h2
  generalize s.hist.checkpoints[s.hist.pos]'h2 = k at hk
  have hch := h7 _ _ hk
  have hr := h5 k (List.mem_of_getElem? hk)
  have hram : s.ram = mems s.hist.pos := by rw [h8, hl]; rfl
  have hredo : redo k.diffs s.ram = mems (s.hist.pos + 1) := by rw [hram]; exact diffChain_redo hch
  have hundo : undo k.diffs (mems (s.hist.pos + 1)) = mems s.hist.pos := diffChain_undo (h6 _ (by omega)) hr hch
  have hsn : k.snap = s.snapshot := by have := h9 hl; rw [hk] at this; simpa using this
  by_cases hlast : s.hist.pos + 1 < s.hist.count
  · have hk' : s.hist.checkpoints[s.hist.pos + 1]? = some (s.hist.checkpoints[s.hist.pos + 1]'hlast) := List.getElem?_eq_getElem hlast
    generalize s.hist.checkpoints[s.hist.pos + 1]'hlast = k' at hk'
    have e := stepForward_middle hk hk'
    rw [hredo] at e
    have hl' : s.stepForward.hist.live = false := by rw [e]; exact hl
    have hc' : s.stepForward.hist.count = s.hist.count := by rw [e]; rfl
    have hp' : s.stepForward.hist.pos = s.hist.pos + 1 := by rw [e]; rfl
    refine ⟨⟨by rw [hc']; exact h1, by rw [hc', hp']; exact hlast, fun x => (by rw [hl'] at x; cases x), fun _ => (by rw [e]; exact h4 hl), ?_, by rw [hc']; exact h6, ?_, ?_, ?_⟩, hc', ?_, ?_⟩
    · rw [e]; exact h5
    · rw [e]; exact h7
    · rw [hl', hp', e]; rfl
    · intro _; rw [hp', e]; change Option.map _ (s.hist.checkpoints[s.hist.pos + 1]?) = _; rw [hk']; rfl
    · rw [hl', hp']; rfl
    · have hkk : s.stepForward.hist.checkpoints[s.stepForward.hist.pos - 1]? = some k := by
        rw [hp', e]; exact hk
      rw [stepReverse_away hl' hkk]
      refine ⟨?_, ?_, ?_, hl'.trans hl.symm, ?_, fun _ => ?_⟩
      · exact hsn
      · change undo k.diffs s.stepForward.ram = _
        rw [show s.stepForward.ram = mems (s.hist.pos + 1) by rw [e]; rfl, hundo, hram]
      · change s.stepForward.hist.pos - 1 = _; rw [hp']; rfl
      · change s.stepForward.hist.checkpoints = _; rw [e]; rfl
      · change s.stepForward.hist.liveSnap = _; rw [e]; rfl
  · have hk' : s.hist.checkpoints[s.hist.pos + 1]? = none := List.getElem?_eq_none_iff.2 (by have : s.hist.count = s.hist.checkpoints.length := rfl; omega)
    have hcnt : s.hist.pos + 1 = s.hist.count := by omega
    obtain ⟨sn, hls⟩ := Option.isSome_iff_exists.1 (h4 hl)
    have e := stepForward_newest hk hk' hls
    rw [hredo] at e
    have hl' : s.stepForward.hist.live = true := by rw [e]; rfl
    have hc' : s.stepForward.hist.count = s.hist.count := by rw [e]; rfl
    have hp' : s.stepForward.hist.pos = s.hist.pos := by rw [e]; rfl
    refine ⟨⟨by rw [hc']; exact h1, by rw [hc', hp']; exact h2, fun _ => (by rw [hp', hc']; exact hcnt), fun x => (by rw [hl'] at x; cases x), ?_, by rw [hc']; exact h6, ?_, ?_, fun x => (by rw [hl'] at x; cases x)⟩, hc', ?_, ?_⟩
    · rw [e]; exact h5
    · rw [e]; exact h7
    · rw [hl', if_pos rfl, hc', e, ← hcnt]; rfl
    · rw [hl', if_pos rfl, hc', hcnt]
    · have hkk : s.stepForward.hist.checkpoints[s.stepForward.hist.count - 1]? = some k := by
        rw [hc', e, ← hcnt]; exact hk
      rw [stepReverse_live hl' hkk]
      refine ⟨?_, ?_, ?_, hl.symm, ?_, fun _ => ?_⟩
      · exact hsn
      · change undo k.diffs s.stepForward.ram = _
        rw [show s.stepForward.ram = mems (s.hist.pos + 1) by rw [e]; rfl, hundo, hram]
      · change s.stepForward.hist.count - 1 = _; rw [hc', ← hcnt]; rfl
      · change s.stepForward.hist.checkpoints = _; rw [e]; rfl
      · change some s.stepForward.snapshot = _
        rw [hls, e]; rfl

/-- The position of the playback, the live state being one past the newest. -/
def playbackIndex (s : State) : Nat := if s.hist.live = true then s.hist.count else s.hist.pos

/-- A turn back goes one position down, and a turn forward undoes it. -/
theorem stepReverse_back {mems : Nat → Memory} {s : State} (h : Explained mems s) (hi : 0 < playbackIndex s) :
    Explained mems s.stepReverse ∧ s.stepReverse.hist.count = s.hist.count ∧ s.stepReverse.hist.live = false ∧
    s.stepReverse.hist.pos + 1 = playbackIndex s ∧ Alike s s.stepReverse.stepForward := by
  obtain ⟨h1, h2, h3, h4, h5, h6, h7, h8, h9⟩ := h
  have hcc : s.hist.count = s.hist.checkpoints.length := rfl
  cases hl : s.hist.live with
  | true =>
    have hlt : s.hist.count - 1 < s.hist.checkpoints.length := by omega
    have hk : s.hist.checkpoints[s.hist.count - 1]? = some (s.hist.checkpoints[s.hist.count - 1]'hlt) := List.getElem?_eq_getElem hlt
    generalize s.hist.checkpoints[s.hist.count - 1]'hlt = k at hk
    have hch := h7 _ _ hk
    rw [show s.hist.count - 1 + 1 = s.hist.count by omega] at hch
    have hr := h5 k (List.mem_of_getElem? hk)
    have hram : s.ram = mems s.hist.count := by rw [h8, hl]; rfl
    have hundo : undo k.diffs s.ram = mems (s.hist.count - 1) := by rw [hram]; exact diffChain_undo (h6 _ (by omega)) hr hch
    have hredo : redo k.diffs (mems (s.hist.count - 1)) = mems s.hist.count := diffChain_redo hch
    have e := stepReverse_live hl hk
    rw [hundo] at e
    have hl' : s.stepReverse.hist.live = false := by rw [e]; rfl
    have hc' : s.stepReverse.hist.count = s.hist.count := by rw [e]; rfl
    have hp' : s.stepReverse.hist.pos = s.hist.count - 1 := by rw [e]; rfl
    refine ⟨⟨by rw [hc']; exact h1, by rw [hc', hp']; omega, fun x => (by rw [hl'] at x; cases x), fun _ => (by rw [e]; rfl), ?_, by rw [hc']; exact h6, ?_, ?_, ?_⟩, hc', hl', ?_, ?_⟩
    · rw [e]; exact h5
    · rw [e]; exact h7
    · rw [hl', hp', e]; rfl
    · intro _; rw [hp', e]; change Option.map _ (s.hist.checkpoints[s.hist.count - 1]?) = _; rw [hk]; rfl
    · rw [hp']; unfold playbackIndex; rw [hl, if_pos rfl]; omega
    · have hkk : s.stepReverse.hist.checkpoints[s.stepReverse.hist.pos]? = some k := by rw [hp', e]; exact hk
      have hkn : s.stepReverse.hist.checkpoints[s.stepReverse.hist.pos + 1]? = none := by
        rw [hp', e]; exact List.getElem?_eq_none_iff.2 (show s.hist.checkpoints.length ≤ _ by omega)
      have hls : s.stepReverse.hist.liveSnap = some s.snapshot := by rw [e]; rfl
      rw [stepForward_newest hkk hkn hls]
      refine ⟨rfl, ?_, ?_, hl.symm, ?_, fun x => (by rw [hl] at x; cases x)⟩
      · change redo k.diffs s.stepReverse.ram = _
        rw [show s.stepReverse.ram = mems (s.hist.count - 1) by rw [e]; rfl, hredo, hram]
      · change s.stepReverse.hist.pos = _; rw [hp']; have := h3 hl; omega
      · change s.stepReverse.hist.checkpoints = _; rw [e]; rfl
  | false =>
    have hpos : 0 < s.hist.pos := by unfold playbackIndex at hi; rw [hl] at hi; exact hi
    have hlt : s.hist.pos - 1 < s.hist.checkpoints.length := by omega
    have hk : s.hist.checkpoints[s.hist.pos - 1]? = some (s.hist.checkpoints[s.hist.pos - 1]'hlt) := List.getElem?_eq_getElem hlt
    generalize s.hist.checkpoints[s.hist.pos - 1]'hlt = k at hk
    have hk0 : s.hist.checkpoints[s.hist.pos]? = some (s.hist.checkpoints[s.hist.pos]'h2) := List.getElem?_eq_getElem h2
    generalize s.hist.checkpoints[s.hist.pos]'h2 = k0 at hk0
    have hsn : k0.snap = s.snapshot := by have := h9 hl; rw [hk0] at this; simpa using this
    have hch := h7 _ _ hk
    rw [show s.hist.pos - 1 + 1 = s.hist.pos by omega] at hch
    have hr := h5 k (List.mem_of_getElem? hk)
    have hram : s.ram = mems s.hist.pos := by rw [h8, hl]; rfl
    have hundo : undo k.diffs s.ram = mems (s.hist.pos - 1) := by rw [hram]; exact diffChain_undo (h6 _ (by omega)) hr hch
    have hredo : redo k.diffs (mems (s.hist.pos - 1)) = mems s.hist.pos := diffChain_redo hch
    have e := stepReverse_away hl hk
    rw [hundo] at e
    have hl' : s.stepReverse.hist.live = false := by rw [e]; exact hl
    have hc' : s.stepReverse.hist.count = s.hist.count := by rw [e]; rfl
    have hp' : s.stepReverse.hist.pos = s.hist.pos - 1 := by rw [e]; rfl
    refine ⟨⟨by rw [hc']; exact h1, by rw [hc', hp']; omega, fun x => (by rw [hl'] at x; cases x), fun _ => (by rw [e]; exact h4 hl), ?_, by rw [hc']; exact h6, ?_, ?_, ?_⟩, hc', hl', ?_, ?_⟩
    · rw [e]; exact h5
    · rw [e]; exact h7
    · rw [hl', hp', e]; rfl
    · intro _; rw [hp', e]; change Option.map _ (s.hist.checkpoints[s.hist.pos - 1]?) = _; rw [hk]; rfl
    · rw [hp']; unfold playbackIndex; rw [hl]; simp; omega
    · have hkk : s.stepReverse.hist.checkpoints[s.stepReverse.hist.pos]? = some k := by rw [hp', e]; exact hk
      have hkn : s.stepReverse.hist.checkpoints[s.stepReverse.hist.pos + 1]? = some k0 := by
        rw [hp', e, show s.hist.pos - 1 + 1 = s.hist.pos by omega]; exact hk0
      rw [stepForward_middle hkk hkn]
      refine ⟨hsn, ?_, ?_, hl'.trans hl.symm, ?_, fun _ => ?_⟩
      · change redo k.diffs s.stepReverse.ram = _
        rw [show s.stepReverse.ram = mems (s.hist.pos - 1) by rw [e]; rfl, hredo, hram]
      · change s.stepReverse.hist.pos + 1 = _; rw [hp']; omega
      · change s.stepReverse.hist.checkpoints = _; rw [e]; rfl
      · change s.stepReverse.hist.liveSnap = _; rw [e]; rfl

theorem alike_stepReverse {s t : State} (h : Alike s t) : Alike s.stepReverse t.stepReverse := by
  obtain ⟨a, b, c, d, e, f⟩ := h
  have hcc : t.hist.count = s.hist.count := by unfold History.count; rw [e]
  unfold State.stepReverse
  rw [a, b, c, d, e, hcc]
  dsimp only
  cases hlv : s.hist.live with
  | true =>
    simp only [if_true]
    split
    · exact ⟨rfl, rfl, rfl, rfl, e, fun _ => rfl⟩
    · exact ⟨a, rfl, c, rfl, e, fun _ => rfl⟩
  | false =>
    simp only [Bool.false_eq_true, if_false]
    split
    · exact ⟨rfl, rfl, rfl, d, e, fun _ => f hlv⟩
    · exact ⟨a, rfl, c, d, e, f⟩

theorem alike_stepForward {s t : State} (h : Alike s t) (hl : s.hist.live = false) :
    Alike s.stepForward t.stepForward := by
  obtain ⟨a, b, c, d, e, f⟩ := h
  unfold State.stepForward
  rw [b, c, e, f hl]
  dsimp only
  split
  · exact ⟨rfl, rfl, rfl, d, e, fun _ => f hl⟩
  · split
    · exact ⟨rfl, rfl, c, rfl, e, fun _ => rfl⟩
    · exact ⟨a, rfl, c, rfl, e, fun _ => rfl⟩

/-! ## What explains memory goes on explaining it -/

/-- Every memory of a history that explains memory has the canonical form. -/
theorem memories_wf {cap : Nat} {s : State} (hw : HistoryWf cap s.hist) {mems : Nat → Memory} (m1 : (mems 0).wf)
    (m2 : ∀ i k, s.hist.checkpoints[i]? = some k → DiffChain k.diffs (mems i) (mems (i + 1))) : ∀ i, i ≤ s.hist.count → (mems i).wf := by
  intro i
  induction i with
  | zero => exact fun _ => m1
  | succ i ih =>
    intro hi
    have hlt : i < s.hist.checkpoints.length := hi
    have hk : s.hist.checkpoints[i]? = some (s.hist.checkpoints[i]'hlt) := List.getElem?_eq_getElem hlt
    have hch := m2 i _ hk
    rw [← diffChain_redo hch]
    exact redo_wf (hw.in_range _ (List.mem_of_getElem? hk)) (ih (by omega))

/-- A well-formed history that explains memory, with the memories named. -/
theorem explained_of {cap : Nat} {s : State} (hw : HistoryWf cap s.hist) (h : s.HistoryExplains) : ∃ mems, Explained mems s := by
  obtain ⟨⟨mems, m1, m2, m3⟩, m4⟩ := h
  exact ⟨mems, hw.count_pos, hw.pos_lt, hw.live_pos, hw.away_snap, hw.in_range, memories_wf hw m1 m2, m2, m3, m4⟩

theorem Explained.explains {mems : Nat → Memory} {s : State} (h : Explained mems s) : s.HistoryExplains :=
  ⟨⟨mems, h.wf 0 (Nat.zero_le _), h.chain, h.ram⟩, h.snap⟩

/-- A History Engine just reset explains memory. -/
theorem historyReset_explains {s : State} (h : s.ram.wf) : s.historyReset.HistoryExplains := by
  refine ⟨⟨fun _ => s.ram, h, fun i k hk => ?_, rfl⟩, fun h => (by cases h)⟩
  have : k.diffs = [] := by
    have hm := List.mem_of_getElem? hk
    rw [List.mem_singleton.1 hm]
  rw [this]; exact rfl

/-- Writes that take memory from before to after, appended to the open list, keep it explained. -/
theorem append_explains {cap : Nat} {s t : State} (hw : HistoryWf cap s.hist) (h : s.HistoryExplains) (hl : s.hist.live = true)
    {ws : List WriteDiff} (hc : DiffChain ws s.ram t.ram) (hh : t.hist = s.hist.append ws) : t.HistoryExplains := by
  obtain ⟨⟨mems, m1, m2, m3⟩, m4⟩ := h
  rw [hl, if_pos rfl] at m3
  have hne : s.hist.checkpoints ≠ [] := by
    intro e; have := hw.count_pos; unfold History.count at this; rw [e] at this; simp at this
  obtain ⟨ks, k, hks⟩ : ∃ ks k, s.hist.checkpoints = ks ++ [k] := ⟨_, _, (List.dropLast_append_getLast hne).symm⟩
  have hcnt : s.hist.count = ks.length + 1 := by unfold History.count; rw [hks]; simp
  have hck : t.hist.checkpoints = ks ++ [{ k with diffs := k.diffs ++ ws }] := by
    rw [hh]; unfold History.append; rw [hks, appendToOpen_last]
  have hlv : t.hist.live = true := by rw [hh]; exact hl
  have hct : t.hist.count = ks.length + 1 := by unfold History.count; rw [hck]; simp
  refine ⟨⟨fun i => if i < ks.length + 1 then mems i else t.ram, ?_, ?_, ?_⟩, fun e => (by rw [hlv] at e; cases e)⟩
  · dsimp only; rw [if_pos (Nat.succ_pos _)]; exact m1
  · intro i c hi
    rw [hck] at hi
    rcases lt_trichotomy i ks.length with hlt | rfl | hgt
    · rw [List.getElem?_append_left hlt] at hi
      have := m2 i c (by rw [hks, List.getElem?_append_left hlt]; exact hi)
      dsimp only; rw [if_pos (by omega), if_pos (by omega)]; exact this
    · rw [List.getElem?_append_right (le_refl _)] at hi
      simp at hi
      have := m2 ks.length k (by rw [hks]; simp)
      dsimp only; rw [if_pos (by omega), if_neg (by omega), ← hi]
      refine diffChain_append this ?_
      rw [show mems (ks.length + 1) = s.ram by rw [m3, hcnt]]
      exact hc
    · rw [List.getElem?_eq_none_iff.2 (by simp; omega)] at hi; cases hi
  · rw [hlv, if_pos rfl, hct]; dsimp only; rw [if_neg (by omega)]

/-- A new open checkpoint, with or without an eviction, keeps memory explained. -/
theorem openNext_explains {cap : Nat} {s t : State} (hw : HistoryWf cap s.hist) (h : s.HistoryExplains) (hl : s.hist.live = true)
    (hr : t.ram = s.ram) {cap' : Nat} {sn : Snapshot} (hh : t.hist = s.hist.openNext cap' sn) : t.HistoryExplains := by
  obtain ⟨⟨mems, m1, m2, m3⟩, m4⟩ := h
  have hwf := memories_wf hw m1 m2
  rw [hl, if_pos rfl] at m3
  have hlv : t.hist.live = true := by rw [hh]; exact hl
  have key : ∀ (ks : List Checkpoint) (d : Nat), ks.length + d = s.hist.count → (∀ i, ks[i]? = s.hist.checkpoints[i + d]?) → t.hist.checkpoints = ks ++ [{ snap := sn, diffs := [] }] → t.HistoryExplains := by
    intro ks d hlen hks hck
    have hct : t.hist.count = ks.length + 1 := by unfold History.count; rw [hck]; simp
    refine ⟨⟨fun i => if i < ks.length + 1 then mems (i + d) else t.ram, ?_, ?_, ?_⟩, fun e => (by rw [hlv] at e; cases e)⟩
    · dsimp only; rw [if_pos (Nat.succ_pos _), Nat.zero_add]; exact hwf d (by omega)
    · intro i c hi
      rw [hck] at hi
      rcases lt_trichotomy i ks.length with hlt | rfl | hgt
      · rw [List.getElem?_append_left hlt, hks] at hi
        have := m2 (i + d) c hi
        dsimp only; rw [if_pos (by omega), if_pos (by omega), show i + 1 + d = i + d + 1 by omega]; exact this
      · rw [List.getElem?_append_right (le_refl _)] at hi
        simp at hi
        dsimp only; rw [if_pos (by omega), if_neg (by omega), ← hi, hlen, hr, m3]
        exact rfl
      · rw [List.getElem?_eq_none_iff.2 (by simp; omega)] at hi; cases hi
    · rw [hlv, if_pos rfl, hct]; dsimp only; rw [if_neg (by omega)]
  have hc : s.hist.checkpoints.length = s.hist.count := rfl
  have e : t.hist.checkpoints = (if s.hist.count < cap' then s.hist.checkpoints else s.hist.checkpoints.tail) ++ [{ snap := sn, diffs := [] }] := by rw [hh]; rfl
  by_cases hlt : s.hist.count < cap'
  · rw [if_pos hlt] at e
    exact key s.hist.checkpoints 0 rfl (fun i => rfl) e
  · rw [if_neg hlt] at e
    refine key s.hist.checkpoints.tail 1 ?_ (fun i => ?_) e
    · rw [List.length_tail, hc]; have := hw.count_pos; omega
    · rw [List.getElem?_tail]

end Sys2Proof.Laws
end

