-- ==== Sys2Proof/Laws/Completion.lean ====
section
/-! SUPPORT. Every instruction completes with the effect and the bus events of its shape. -/

namespace Sys2Proof.Laws

open Sys2Proof.Machine

/-- The hidden part after machine cycle 0. -/
theorem mc0_hidden (sh : Shape) (s : State) (op : Byte) :
    ∃ h, ((rowOf sh).1 (s.start op)).endCycle = withHidden ((rowOf sh).1 s) h := by
  refine ⟨hiddenOf ((rowOf sh).1 (s.start op)).endCycle, ?_⟩
  rw [start_hidden, mc0_blind, endCycle_hidden]
  rfl

/-- A row but IN's and OUT's leaves the effect of its shape. -/
theorem row_effect (sh : Shape) (hp : isPort sh = false) (s : State) (op : Byte) :
    (s.runRow op (rowOf sh).1 (rowOf sh).2).arch = (effect sh s).arch := by
  obtain ⟨h, e⟩ := mc0_hidden sh s op
  rw [arch_runRow, e, ← tracedRow_fst]
  obtain ⟨h', e'⟩ := cycleRun_hidden (row_blind sh hp) ((rowOf sh).1 s) h
  rw [show List.foldl (fun t act => t.machineCycle act) (withHidden ((rowOf sh).1 s) h) ((tracedRow sh).map Prod.fst)
    = _ from e', arch_withHidden, tracedRow_fst]
  exact plain_effect sh hp s

theorem tracedRow_length (sh : Shape) : (tracedRow sh).length = (rowOf sh).2.length := by
  rw [← tracedRow_fst, List.length_map]

/-- The bus events of a row but IN's and OUT's are those of its shape. -/
theorem row_bus (sh : Shape) (hp : isPort sh = false) (s : State) (op : Byte)
    (hfit : (rowOf sh).2.length + 1 ≤ mcOf s.params.mc op) (h6 : mcOf s.params.mc op ≤ 6) :
    busEvents (s.runRow op (rowOf sh).1 (rowOf sh).2).trace = busEvents s.trace ++ busOf sh s := by
  have := busEvents_runRow (mc0_emits sh) (row_emits sh) (s := s) (op := op)
    (by rw [tracedRow_length]; exact hfit) h6
  rw [tracedRow_fst] at this
  obtain ⟨h, e⟩ := mc0_hidden sh s op
  rw [this, e, rowEvents_hidden (row_blind sh hp), plain_events sh hp]
  rfl

/-! ## IN and OUT -/

/-- PC past the port number, Z the port number. -/
def portFetched (s : State) (port : Byte) : State := { s.pcOn 1 with z := port }

/-- The state after machine cycle 0 of IN and OUT. -/
def portStart (s : State) (op : Byte) : State := (idle (s.start op)).endCycle

/-- The state in which IN and OUT make their port access. -/
def portReady (s : State) (op port : Byte) : State :=
  ((portStart s op).machineCycle fun t => t.fetchZ port).beginCycle

theorem fetchZ_hidden (s : State) (h : Hidden) (port : Byte) :
    (withHidden s h).fetchZ port = withHidden (portFetched s port) (hiddenOf ((withHidden s h).fetchZ port)) := rfl

theorem portStart_hidden (s : State) (op : Byte) :
    ∃ h : Hidden, h.draws = s.draws ∧ portStart s op = withHidden s h := by
  obtain ⟨h, e⟩ := mc0_hidden .nop s op
  exact ⟨h, (congrArg State.draws e).symm, e⟩

/-- At the port access PC is past the port number, Z is the port number, and two more values are drawn. -/
theorem portReady_hidden (s : State) (op port : Byte) :
    ∃ h : Hidden, h.draws = s.draws + 1 + 1 ∧ portReady s op port = withHidden (portFetched s port) h := by
  obtain ⟨h, hd, e⟩ := portStart_hidden s op
  refine ⟨hiddenOf (portReady s op port), ?_, ?_⟩
  · change (portStart s op).draws + 1 + 1 = _
    rw [e]
    exact congrArg (· + 1 + 1) hd
  · unfold portReady
    rw [e]
    unfold State.machineCycle
    rw [beginCycle_hidden]
    dsimp only
    rw [fetchZ_hidden, endCycle_hidden, beginCycle_hidden]
    rfl

theorem arch_setBankConfig (s : State) (b : Fin 8) (v : Byte) :
    (s.setBankConfig b v).arch = s.arch.setBankConfig b v := by
  change (if mappingConflict s.params.layout (s.map.set b.val v) = true then _ else _ : State).arch =
    if mappingConflict s.params.layout (s.map.set b.val v) = true then _ else _
  split <;> rfl

theorem arch_bankPortWrite (s : State) (port v : Byte) :
    (s.bankPortWrite port v).arch = s.arch.bankPortWrite port v := by
  unfold State.bankPortWrite
  change (match s.params.bankPorts.lookup port with
    | some b => s.setBankConfig b v
    | none => s : State).arch = match s.params.bankPorts.lookup port with
    | some b => s.arch.setBankConfig b v
    | none => s.arch
  cases s.params.bankPorts.lookup port with
  | none => rfl
  | some b => exact arch_setBankConfig s b v

/-- IN's port access. -/
def portInAct (t : State) : State := (t.callPortIn t.z).setReg .a (t.portInByte t.z)

theorem in_access (s : State) (h : Hidden) (port : Byte) (hd : h.draws = s.draws + 1 + 1) :
    (portInAct (withHidden (portFetched s port) h)).arch = (effect (.inPort port) s).arch := by
  obtain ⟨l, ir, cc, m, d, tr, di, din, dr⟩ := h
  have hd : dr = s.draws + 1 + 1 := hd
  rw [hd]
  rfl

theorem in_value (s : State) (h : Hidden) (port : Byte) (hd : h.draws = s.draws + 1 + 1) :
    (withHidden (portFetched s port) h).portInByte port =
      ({ s with draws := s.draws + 1 + 1 } : State).portInByte port := by
  obtain ⟨l, ir, cc, m, d, tr, di, din, dr⟩ := h
  have hd : dr = s.draws + 1 + 1 := hd
  rw [hd]
  rfl

/-- OUT's port access before the mapping write. -/
def portOutAct (t : State) (port v : Byte) : State :=
  { t with
    io := Config.portOutState t.io port v t.draws
    romMode := if t.params.romPort = some port then Config.romSwitch t.io v t.draws else t.romMode
    draws := t.draws + 1
    trace := t.trace ++ [(t.mci, .portOut port v)] }

theorem out_access (s : State) (h : Hidden) (port : Byte) (hd : h.draws = s.draws + 1 + 1) :
    ((withHidden (portFetched s port) h).callPortOut port s.cpu.a).arch = (effect (.outPort port) s).arch := by
  obtain ⟨l, ir, cc, m, d, tr, di, din, dr⟩ := h
  have hd : dr = s.draws + 1 + 1 := hd
  rw [hd]
  change (State.bankPortWrite (portOutAct _ port s.cpu.a) port s.cpu.a).arch =
    (State.bankPortWrite (portOutAct _ port s.cpu.a) port s.cpu.a).arch
  rw [arch_bankPortWrite, arch_bankPortWrite]
  rfl

/-- The events of IN's later cycles. -/
theorem rowEvents_in (s : State) (port : Byte) :
    rowEvents 1 s (tracedRow (.inPort port)) =
      [(1, s.beginCycle.fetchAt s.beginCycle.cpu.pc port),
       (2, .portIn (s.machineCycle fun t => t.fetchZ port).beginCycle.z
         ((s.machineCycle fun t => t.fetchZ port).beginCycle.portInByte
           (s.machineCycle fun t => t.fetchZ port).beginCycle.z))] := rfl

/-- The events of OUT's later cycles. -/
theorem rowEvents_out (s : State) (port : Byte) :
    rowEvents 1 s (tracedRow (.outPort port)) =
      [(1, s.beginCycle.fetchAt s.beginCycle.cpu.pc port),
       (2, .portOut (s.machineCycle fun t => t.fetchZ port).beginCycle.z
         (s.machineCycle fun t => t.fetchZ port).beginCycle.cpu.a)] := rfl

theorem portStart_fetchAt (s : State) (op port : Byte) :
    (portStart s op).beginCycle.fetchAt (portStart s op).beginCycle.cpu.pc port = s.fetchAt s.cpu.pc port := rfl

theorem in_completes (port : Byte) (s : State) (op : Byte) :
    (s.runRow op idle (inRow port)).arch = (effect (.inPort port) s).arch ∧
      (3 ≤ mcOf s.params.mc op → mcOf s.params.mc op ≤ 6 →
        busEvents (s.runRow op idle (inRow port)).trace = busEvents s.trace ++ busOf (.inPort port) s) := by
  obtain ⟨h, hd, e⟩ := portReady_hidden s op port
  constructor
  · rw [arch_runRow]
    change ((portInAct (portReady s op port)).endCycle).arch = _
    rw [arch_endCycle, e]
    exact in_access s h port hd
  · intro hb h6
    have := busEvents_runRow (mc0_emits (.inPort port)) (row_emits (.inPort port)) (s := s) (op := op)
      (by rw [tracedRow_length]; exact hb) h6
    rw [tracedRow_fst] at this
    refine Eq.trans this (congrArg _ ?_)
    change rowEvents 1 (portStart s op) _ = _
    rw [rowEvents_in, portStart_fetchAt]
    change [_, (2, BusEvent.portIn (portReady s op port).z ((portReady s op port).portInByte (portReady s op port).z))] = _
    rw [e]
    change [_, (2, BusEvent.portIn port ((withHidden (portFetched s port) h).portInByte port))] = _
    rw [in_value s h port hd]
    rfl

theorem out_completes (port : Byte) (s : State) (op : Byte) :
    (s.runRow op idle (outRow port)).arch = (effect (.outPort port) s).arch ∧
      (3 ≤ mcOf s.params.mc op → mcOf s.params.mc op ≤ 6 →
        busEvents (s.runRow op idle (outRow port)).trace = busEvents s.trace ++ busOf (.outPort port) s) := by
  obtain ⟨h, hd, e⟩ := portReady_hidden s op port
  constructor
  · rw [arch_runRow]
    change (((portReady s op port).callPortOut (portReady s op port).z (portReady s op port).cpu.a).endCycle).arch = _
    rw [arch_endCycle, e]
    exact out_access s h port hd
  · intro hb h6
    have := busEvents_runRow (mc0_emits (.outPort port)) (row_emits (.outPort port)) (s := s) (op := op)
      (by rw [tracedRow_length]; exact hb) h6
    rw [tracedRow_fst] at this
    refine Eq.trans this (congrArg _ ?_)
    change rowEvents 1 (portStart s op) _ = _
    rw [rowEvents_out, portStart_fetchAt]
    change [_, (2, BusEvent.portOut (portReady s op port).z (portReady s op port).cpu.a)] = _
    rw [e]
    rfl

/-- Every instruction completes with the effect and the bus events of its shape. -/
theorem completes (i : Instr) (s : State) : Completes i s (effect (shapeOf i) s) (busOf (shapeOf i) s) := by
  have hfit := row_fits i
  cases hp : isPort (shapeOf i) with
  | false =>
    refine ⟨_, exec_row i s, row_effect _ hp _ _, fun hmc => ?_⟩
    obtain ⟨hb, h6⟩ := mc_bounds hmc (opcodeOf i)
    exact row_bus _ hp _ _ (by omega) h6
  | true =>
    refine ⟨_, exec_row i s, ?_⟩
    generalize opcodeOf i = op at hfit ⊢
    cases hs : shapeOf i
    case inPort port =>
      have := in_completes port s op
      rw [hs] at hfit
      refine ⟨this.1, fun hmc => ?_⟩
      obtain ⟨hb, h6⟩ := mc_bounds hmc op
      exact this.2 (le_trans hfit hb) h6
    case outPort port =>
      have := out_completes port s op
      rw [hs] at hfit
      refine ⟨this.1, fun hmc => ?_⟩
      obtain ⟨hb, h6⟩ := mc_bounds hmc op
      exact this.2 (le_trans hfit hb) h6
    all_goals exact absurd hp (by rw [hs]; simp [isPort])

/-- An instruction completes with any state and events that agree with its effect and its bus events. -/
theorem completes_of {i : Instr} {s u : State} {ev : List (Nat × BusEvent)}
    (h : (effect (shapeOf i) s).arch = u.arch) (hb : busOf (shapeOf i) s = ev) : Completes i s u ev := by
  obtain ⟨t, h1, h2, h3⟩ := completes i s
  exact ⟨t, h1, h2.trans h, hb ▸ h3⟩

theorem sub_one_one (v : Word) : v - 1 - 1 = v - 2 := by rw [BitVec.sub_sub]; rfl

theorem pushPc_eq (s : State) :
    pushPc s = (((s.setSp (s.cpu.sp - 1)).writeByte (s.cpu.sp - 1) .stack (hiByte s.cpu.pc)).setSp
      (s.cpu.sp - 2)).writeByte (s.cpu.sp - 2) .stack (loByte s.cpu.pc) := by
  rw [← sub_one_one]; rfl

end Sys2Proof.Laws
end

