-- ==== Sys2Proof/Laws/Exec.lean ====
section
/-! SUPPORT. What every instruction, an interrupt service and a halt cycle do to time, to the diff record and to the
host's part. -/

namespace Sys2Proof.Laws

open Sys2Proof.Machine

/-! ## Every instruction -/

theorem wellFormed_mc {p : Params} (h : p.wellFormed = true) : wellFormedMc p.mc = true := by
  simp only [Params.wellFormed, Bool.and_eq_true] at h
  exact h.1.1.1.1.1

theorem exec_next (i : Instr) (s : State) : ∃ t, exec i s = .next t := ⟨_, exec_row i s⟩

/-- The bus events of the later cycles, in order, are those of the shape. -/
theorem rowBus_busOf (sh : Shape) (s : State) (op : Byte) :
    rowBus ((rowOf sh).1 (s.start op)).endCycle (tracedRow sh) = (busOf sh s).map Prod.snd := by
  rw [← rowBus_eq 1]
  cases hp : isPort sh with
  | false =>
    obtain ⟨h, e⟩ := mc0_hidden sh s op
    rw [e, rowEvents_hidden (row_blind sh hp), plain_events sh hp]
  | true =>
    cases sh
    case inPort port =>
      obtain ⟨h, hd, e⟩ := portReady_hidden s op port
      change (rowEvents 1 (portStart s op) _).map Prod.snd = _
      rw [rowEvents_in, portStart_fetchAt]
      change [_, BusEvent.portIn (portReady s op port).z ((portReady s op port).portInByte (portReady s op port).z)] = _
      rw [e]
      change [_, BusEvent.portIn port ((withHidden (portFetched s port) h).portInByte port)] = _
      rw [in_value s h port hd]
      rfl
    case outPort port =>
      obtain ⟨h, hd, e⟩ := portReady_hidden s op port
      change (rowEvents 1 (portStart s op) _).map Prod.snd = _
      rw [rowEvents_out, portStart_fetchAt]
      change [_, BusEvent.portOut (portReady s op port).z (portReady s op port).cpu.a] = _
      rw [e]
      rfl
    all_goals exact absurd hp (by simp [isPort])

/-- An instruction records exactly its bus events, and its writes take memory from before to after. -/
theorem exec_recorded {i : Instr} {s t : State} (h : exec i s = .next t) :
    ∃ new, Recorded s t new ∧ Shows new ((busOf (shapeOf i) s).map Prod.snd) := by
  rw [exec_row] at h
  cases h
  obtain ⟨new, hr, hs⟩ := runRow_recorded (mc0_emits (shapeOf i)) (row_emits (shapeOf i)) (s := s) (op := opcodeOf i)
  rw [tracedRow_fst] at hr
  rw [rowBus_busOf] at hs
  exact ⟨new, hr, hs⟩

/-- Time: MCI runs through the opcode's cycles and ends at 0, CC grows by 4 for each. -/
theorem exec_time {i : Instr} {s t : State} (h : exec i s = .next t) (hmc : wellFormedMc s.params.mc = true) :
    t.mci = 0 ∧ t.cpu.cc = s.cpu.cc + BitVec.ofNat 64 (4 * mcOf s.params.mc (opcodeOf i)) ∧
      cycleIndices t.trace = cycleIndices s.trace ++ List.range (mcOf s.params.mc (opcodeOf i)) ∧
      t.cpu.ir = opcodeOf i := by
  rw [exec_row] at h
  cases h
  obtain ⟨hb, h6⟩ := mc_bounds hmc (opcodeOf i)
  have hfit := row_fits i
  refine runRow_time (mc0_emits _).timeless (fun a ha => ?_) (by omega) h6
  rw [← tracedRow_fst] at ha
  obtain ⟨p, hp, rfl⟩ := List.mem_map.1 ha
  exact (row_emits _ p hp).timeless

/-- The architectural part after an instruction is that of its shape's effect. -/
theorem exec_arch {i : Instr} {s t : State} (h : exec i s = .next t) : t.arch = (effect (shapeOf i) s).arch := by
  obtain ⟨u, hu, ha, _⟩ := completes i s
  cases h.symm.trans hu
  exact ha

theorem exec_bus {i : Instr} {s t : State} (h : exec i s = .next t) (hmc : wellFormedMc s.params.mc = true) :
    busEvents t.trace = busEvents s.trace ++ busOf (shapeOf i) s := by
  obtain ⟨u, hu, _, hb⟩ := completes i s
  cases h.symm.trans hu
  exact hb hmc

theorem exec_host {i : Instr} {s t : State} (h : exec i s = .next t) : SameHost s t := by
  obtain ⟨new, hr, _⟩ := exec_recorded h
  exact hr.host

theorem exec_params {i : Instr} {s t : State} (h : exec i s = .next t) : t.params = s.params := by
  obtain ⟨new, hr, _⟩ := exec_recorded h
  exact hr.params

/-- The bus events after the opcode fetch fetch exactly the rest of the instruction's bytes. -/
theorem busOf_bytes (i : Instr) (s : State) : bytesOf ((busOf (shapeOf i) s).map Prod.snd) = (encode i).tail := by
  have hc (cond : Cond) (v : Word) :
      bytesOf ((busOf (.ccc cond v) s).map Prod.snd) = [loByte v, hiByte v] := by
    change bytesOf ((fetches s 2 v ++ if condHolds cond s.cpu.flags = true then pushes s 4 (s.cpu.pc + 2) else []).map
      Prod.snd) = _
    split <;> rfl
  have hr (cond : Cond) : bytesOf ((busOf (.rcc cond) s).map Prod.snd) = [] := by
    change bytesOf ((if condHolds cond s.cpu.flags = true then pops s 2 else []).map Prod.snd) = _
    split <;> rfl
  cases i <;> first | rfl | exact hc _ _ | exact hr _

/-- At most two data reads and two data writes. -/
theorem busOf_bounds (sh : Shape) (s : State) :
    (readsOf ((busOf sh s).map Prod.snd)).length ≤ 2 ∧ (writesOf ((busOf sh s).map Prod.snd)).length ≤ 2 := by
  cases sh
  case ccc cond v =>
    change (readsOf ((fetches s 2 v ++ if condHolds cond s.cpu.flags = true then pushes s 4 (s.cpu.pc + 2) else []).map
      Prod.snd)).length ≤ 2 ∧ (writesOf ((fetches s 2 v ++
      if condHolds cond s.cpu.flags = true then pushes s 4 (s.cpu.pc + 2) else []).map Prod.snd)).length ≤ 2
    split <;> exact ⟨Nat.le_of_ble_eq_true rfl, Nat.le_of_ble_eq_true rfl⟩
  case rcc cond =>
    change (readsOf ((if condHolds cond s.cpu.flags = true then pops s 2 else []).map Prod.snd)).length ≤ 2 ∧
      (writesOf ((if condHolds cond s.cpu.flags = true then pops s 2 else []).map Prod.snd)).length ≤ 2
    split <;> exact ⟨Nat.le_of_ble_eq_true rfl, Nat.le_of_ble_eq_true rfl⟩
  all_goals exact ⟨Nat.le_of_ble_eq_true rfl, Nat.le_of_ble_eq_true rfl⟩

theorem encode_length (i : Instr) : (encode i).length = (encode i).tail.length + 1 ∧ (encode i).length ≤ 3 := by
  cases i <;> exact ⟨rfl, Nat.le_of_ble_eq_true rfl⟩

/-! ## Any row of machine cycles whose work emits -/

/-- What an instruction, a service or a halt cycle leaves, when its diff record started empty. -/
structure Ran (s t : State) (bytes : List Byte) : Prop where
  params : t.params = s.params
  mci    : t.mci = 0
  host   : SameHost s t
  bytes  : t.diff.bytes = bytes
  reads_le  : t.diff.reads.length ≤ 2
  writes_le : t.diff.writes.length ≤ 2
  writes : Writes t.diff.writes s.ram t.ram

/-- The row of an interrupt service is that of `RST 7`. -/
theorem takeInterrupt_row (s : State) :
    s.takeInterrupt = s.enterService.runRow (opcodeOf .rst7) (rowOf (.rst 7)).1 (rowOf (.rst 7)).2 := rfl

theorem takeInterrupt_exec (s : State) : exec .rst7 s.enterService = .next s.takeInterrupt := rfl

/-- A halt cycle is `HLT` after the re-read of its byte. -/
theorem haltCycle_exec (s : State) : exec .hlt s.haltRefetch = .next s.haltCycle := rfl

theorem exec_ran {i : Instr} {s t : State} (h : exec i s = .next t) (hmc : wellFormedMc s.params.mc = true)
    (hr : s.diff.reads = []) (hw : s.diff.writes = []) :
    Ran s t (s.diff.bytes ++ (encode i).tail) := by
  obtain ⟨new, hrec, hs⟩ := exec_recorded h
  obtain ⟨hb1, hb2⟩ := busOf_bounds (shapeOf i) s
  obtain ⟨ws, h1, h2, h3⟩ := hrec.writes
  rw [hw, List.nil_append] at h1
  refine ⟨hrec.params, (exec_time h hmc).1, hrec.host, ?_, ?_, ?_, ?_⟩
  · rw [hrec.bytes, hs.bytes, busOf_bytes]
  · rw [hrec.reads, hr, List.nil_append, hs.reads]; exact hb1
  · rw [h1, ← List.length_map (f := fun w : WriteDiff => (w.addr, w.after)), h2, hs.writes]; exact hb2
  · rw [h1]; exact h3

/-! ## The request latch -/

/-- What the latch update reads and writes. -/
abbrev requestPart (s : State) : Bool × Bool × Display × List Display × Params :=
  (s.cpu.latch, s.cpu.inte, s.disp, s.displayIn, s.params)

/-- Work that leaves the latch update's part alone. -/
abbrev KeepsRequest (act : Act) : Prop := ∀ s, requestPart (act s) = requestPart s

theorem setReg_request (s : State) (r : Reg) (v : Byte) : requestPart (s.setReg r v) = requestPart s := by
  cases r <;> rfl
theorem setPair_request (s : State) (p : Pair) (v : Word) : requestPart (s.setPair p v) = requestPart s := by
  cases p <;> rfl
theorem accumulate_request (s : State) (op : AluOp) (v : Byte) : requestPart (s.accumulate op v) = requestPart s := by
  cases op <;> rfl
theorem callPortOut_request (s : State) (port v : Byte) : requestPart (s.callPortOut port v) = requestPart s := by
  unfold State.callPortOut State.bankPortWrite
  dsimp only
  split
  · unfold State.setBankConfig
    dsimp only
    split <;> rfl
  · rfl

/-- The work of machine cycle 0 leaves all but INTE, which `EI` and `DI` write there. -/
theorem mc0_request (sh : Shape) (s : State) :
    requestPart ((rowOf sh).1 s) =
      (s.cpu.latch, ((rowOf sh).1 s).cpu.inte, s.disp, s.displayIn, s.params) := by
  cases sh
  case alu op src => exact congrArg (fun x => (x.1, (s.accumulate op (s.reg src)).cpu.inte, x.2.2)) (accumulate_request s op _)
  all_goals rfl

theorem row_request (sh : Shape) : ∀ a ∈ (rowOf sh).2, KeepsRequest a := by
  have hc {c : Prop} [Decidable c] {a b s : State} (ha : requestPart a = requestPart s) (hb : requestPart b = requestPart s) :
      requestPart (if c then a else b) = requestPart s := by split <;> assumption
  cases sh <;> simp only [rowOf, movRow, movFromMRow, movToMRow, mviRow, mviMRow, lxiRow, ldaRow, staRow, lhldRow,
      shldRow, ldaxRow, staxRow,
    aluMRow, aluImmRow, inrRow, dcrRow, inrMRow, dcrMRow, inxRow, dcxRow, dadRow, jmpRow, jccRow, callRow, cccRow,
    returnRow, rccRow, restartRow, pchlRow, pushPairRow, pushRow, pushPswRow, popRow, popPswRow, xthlRow, sphlRow,
        inRow,
    outRow, haltRow, List.forall_mem_cons, List.not_mem_nil, false_implies, implies_true, and_true]
  all_goals and_intros
  all_goals first
    | trivial
    | intro s
      first
        | rfl
        | exact setReg_request _ _ _
        | exact setPair_request _ _ _
        | exact accumulate_request _ _ _
        | exact callPortOut_request _ _ _
        | exact hc rfl rfl

/-- Machine cycles whose display goes through `ds`, from `s` to `t`: the inputs used up, the last display state left,
and each request latched under the policy (60_exceptions.md R805). -/
structure Latched (s t : State) (ds : List Display) : Prop where
  run       : DisplayRun s.displayIn s.disp ds
  inputs    : t.displayIn = s.displayIn.drop ds.length
  disp      : t.disp = ds.getLastD s.disp
  inte      : t.cpu.inte = s.cpu.inte
  params    : t.params = s.params
  latch     : t.cpu.latch =
    (s.cpu.latch || (decide (s.params.latchPolicy = .always) || s.cpu.inte) && ds.any (·.request))

/-- One machine cycle latches its request. -/
theorem beginCycle_latch (s : State) :
    s.beginCycle.cpu.latch =
      (s.cpu.latch || (decide (s.params.latchPolicy = .always) || s.cpu.inte) && s.beginCycle.disp.request) := by
  change nextLatch s.params.latchPolicy s.cpu.inte s.cpu.latch s.beginCycle.disp.request = _
  cases s.params.latchPolicy <;> simp [nextLatch]

/-- The next state of the display, and the inputs left. -/
theorem displayRun_cons (s : State) (ds : List Display) (h : DisplayRun s.displayIn.tail s.beginCycle.disp ds) :
    DisplayRun s.displayIn s.disp (s.beginCycle.disp :: ds) := by
  have e : s.beginCycle.disp = s.nextDisplay := rfl
  rw [e] at h ⊢
  unfold State.nextDisplay at h ⊢
  cases hd : s.displayIn <;> rw [hd] at h
  · exact ⟨⟨_, rfl⟩, h⟩
  · exact ⟨rfl, h⟩

theorem foldl_latched : ∀ (acts : List Act) (s : State), (∀ a ∈ acts, KeepsRequest a) →
    ∃ ds, ds.length = acts.length ∧ Latched s (acts.foldl (fun t act => t.machineCycle act) s) ds
  | [], s, _ => ⟨[], rfl, trivial, rfl, rfl, rfl, rfl, by simp⟩
  | a :: acts, s, ha => by
    obtain ⟨ds, hl, h⟩ := foldl_latched acts (s.machineCycle a) fun b hb => ha b (List.mem_cons_of_mem _ hb)
    have hk : requestPart (s.machineCycle a) = requestPart s.beginCycle := ha a List.mem_cons_self _
    simp only [requestPart, Prod.mk.injEq] at hk
    obtain ⟨k1, k2, k3, k4, k5⟩ := hk
    refine ⟨s.beginCycle.disp :: ds, congrArg (· + 1) hl, displayRun_cons s ds ?_, ?_, ?_, h.inte.trans k2,
      h.params.trans k5, ?_⟩
    · rw [← show (s.machineCycle a).displayIn = s.displayIn.tail from k4, ← k3]; exact h.run
    · exact h.inputs.trans (by rw [show (s.machineCycle a).displayIn = s.displayIn.tail from k4]; simp)
    · refine h.disp.trans ?_
      rw [k3]; cases ds <;> rfl
    · refine h.latch.trans ?_
      rw [k1, k2, k5, beginCycle_latch, List.any_cons, Bool.or_assoc, Bool.and_or_distrib_left]
      rfl

/-- The machine cycles of an instruction after cycle 0 latch their requests under the INTE the instruction leaves. -/
theorem exec_latched {i : Instr} {s t : State} (h : exec i s = .next t) (hmc : wellFormedMc s.params.mc = true) :
    ∃ ds, ds.length + 1 = mcOf s.params.mc (opcodeOf i) ∧ Latched { s with cpu := { s.cpu with inte := t.cpu.inte } } t ds := by
  rw [exec_row] at h
  cases h
  obtain ⟨hb, _⟩ := mc_bounds hmc (opcodeOf i)
  have hfit := row_fits i
  obtain ⟨ds, hl, k⟩ := foldl_latched ((rowOf (shapeOf i)).2 ++
      List.replicate (mcOf s.params.mc (opcodeOf i) - 1 - (rowOf (shapeOf i)).2.length) idle)
    ((rowOf (shapeOf i)).1 (s.start (opcodeOf i))).endCycle (fun a ha => by
      rcases List.mem_append.1 ha with ha | ha
      · exact row_request _ a ha
      · rw [(List.mem_replicate.1 ha).2]; exact fun _ => rfl)
  have hm := mc0_request (shapeOf i) (s.start (opcodeOf i))
  simp only [requestPart, Prod.mk.injEq] at hm
  obtain ⟨m1, -, m3, m4, m5⟩ := hm
  refine ⟨ds, by rw [hl, List.length_append, List.length_replicate]; omega, ?_⟩
  have hi := k.inte
  refine ⟨?_, k.inputs.trans ?_, k.disp.trans ?_, rfl, k.params.trans m5, k.latch.trans ?_⟩
  · have := k.run
    rw [show ((rowOf (shapeOf i)).1 (s.start (opcodeOf i))).endCycle.displayIn = s.displayIn from m4,
      show ((rowOf (shapeOf i)).1 (s.start (opcodeOf i))).endCycle.disp = s.disp from m3] at this
    exact this
  · rw [show ((rowOf (shapeOf i)).1 (s.start (opcodeOf i))).endCycle.displayIn = s.displayIn from m4]
  · rw [show ((rowOf (shapeOf i)).1 (s.start (opcodeOf i))).endCycle.disp = s.disp from m3]
  · rw [← hi, show ((rowOf (shapeOf i)).1 (s.start (opcodeOf i))).endCycle.cpu.latch = s.cpu.latch from m1,
      show ((rowOf (shapeOf i)).1 (s.start (opcodeOf i))).endCycle.params = s.params from m5]
    rfl

/-- No instruction loses a latched request. -/
theorem exec_latch {i : Instr} {s t : State} (h : exec i s = .next t) (hl : s.cpu.latch = true) : t.cpu.latch =
    true := by
  rw [exec_row] at h
  cases h
  refine runRow_keeps (P := fun t => t.cpu.latch = true) (fun t ht => ?_) (fun t ht => ht)
    (fun t ht => (congrArg Prod.fst (mc0_request _ t)).trans ht)
    (fun a ha t ht => (congrArg Prod.fst (row_request _ a ha t)).trans ht) hl
  change nextLatch t.params.latchPolicy t.cpu.inte t.cpu.latch _ = true
  rw [ht]
  cases t.params.latchPolicy <;> rfl

end Sys2Proof.Laws
end

