-- ==== Sys2Proof/Laws/Loop.lean ====
section
/-! SUPPORT. The boundary decision, one instruction of the loop, and what each of them keeps. -/

namespace Sys2Proof.Laws

open Sys2Proof.Machine

/-! ## Decoding never fails on three bytes -/

theorem opcodeMap_total (op : Byte) : ∃ f, opcodeMap[op.toNat]? = some f := by
  have hl : opcodeMap.length = 256 := by
    simp only [opcodeMap, List.length_append]
    rfl
  exact ⟨_, List.getElem?_eq_getElem (by rw [hl]; exact op.isLt)⟩

/-- Any three bytes decode. -/
theorem decode_three (op b1 b2 : Byte) : ∃ i rest, decode [op, b1, b2] = .ok (i, rest) := by
  obtain ⟨f, hf⟩ := opcodeMap_total op
  unfold decode
  dsimp only
  rw [hf]
  cases f <;> exact ⟨_, _, rfl⟩

/-! ## The boundary (50_sequencer.md R704) -/

/-- What the boundary answers, case by case. -/
theorem boundary_service {s : State} (h : s.serviceDue = true) : s.boundary = .next s.clearRecord.takeInterrupt :=
  if_pos h

theorem boundary_halt {s : State} (h : s.serviceDue = false) (hh : s.cpu.halt = true) :
    s.boundary = .next s.clearRecord.haltCycle := by
  unfold State.boundary
  rw [if_neg (show ¬s.clearRecord.serviceDue = true by rw [show s.clearRecord.serviceDue = s.serviceDue from rfl, h]; simp),
    if_pos (show s.clearRecord.cpu.halt = true from hh)]

theorem boundary_exec {s : State} (h : s.serviceDue = false) (hh : s.cpu.halt = false) {i : Instr} {rest : List Byte}
    (hd : decode s.fetchBytes = .ok (i, rest)) : s.boundary = exec i s.clearRecord.fetchOpcode := by
  unfold State.boundary
  rw [if_neg (show ¬s.clearRecord.serviceDue = true by rw [show s.clearRecord.serviceDue = s.serviceDue from rfl, h]; simp),
    if_neg (show ¬s.clearRecord.cpu.halt = true by rw [show s.clearRecord.cpu.halt = s.cpu.halt from rfl, hh]; simp),
    show s.clearRecord.fetchBytes = s.fetchBytes from rfl, hd]

/-- The boundary is a service, a halt cycle or the decoded instruction. -/
theorem boundary_cases (s : State) :
    (s.serviceDue = true ∧ s.boundary = .next s.clearRecord.takeInterrupt) ∨
    (s.serviceDue = false ∧ s.cpu.halt = true ∧ s.boundary = .next s.clearRecord.haltCycle) ∨
    (s.serviceDue = false ∧ s.cpu.halt = false ∧
      ∃ i rest, decode s.fetchBytes = .ok (i, rest) ∧ s.boundary = exec i s.clearRecord.fetchOpcode) := by
  cases hs : s.serviceDue with
  | true => exact .inl ⟨rfl, boundary_service hs⟩
  | false =>
    cases hh : s.cpu.halt with
    | true => exact .inr (.inl ⟨rfl, rfl, boundary_halt hs hh⟩)
    | false =>
      obtain ⟨i, rest, hd⟩ := decode_three (s.readByte s.cpu.pc .normal) (s.readByte (s.cpu.pc + 1) .normal)
        (s.readByte (s.cpu.pc + 2) .normal)
      exact .inr (.inr ⟨rfl, rfl, i, rest, hd, boundary_exec hs hh hd⟩)

theorem sameHost_enterService (s : State) : SameHost s s.enterService := ⟨rfl, rfl, rfl, rfl, rfl, rfl, rfl, rfl⟩
theorem sameHost_haltRefetch (s : State) : SameHost s s.haltRefetch := ⟨rfl, rfl, rfl, rfl, rfl, rfl, rfl, rfl⟩
theorem sameHost_fetchOpcode (s : State) : SameHost s s.fetchOpcode := ⟨rfl, rfl, rfl, rfl, rfl, rfl, rfl, rfl⟩
theorem sameHost_clearRecord (s : State) : SameHost s s.clearRecord := ⟨rfl, rfl, rfl, rfl, rfl, rfl, rfl, rfl⟩
theorem sameHost_beginCycle (s : State) : SameHost s s.beginCycle := ⟨rfl, rfl, rfl, rfl, rfl, rfl, rfl, rfl⟩
theorem sameHost_forgetTemps (s : State) : SameHost s s.forgetTemps := ⟨rfl, rfl, rfl, rfl, rfl, rfl, rfl, rfl⟩

/-- The boundary always answers, and what it leaves is bounded. -/
theorem boundary_ran (s : State) (hmc : wellFormedMc s.params.mc = true) :
    ∃ t bytes, s.boundary = .next t ∧ Ran s t bytes ∧ bytes.length ≤ 3 := by
  obtain ⟨_, hb⟩ | ⟨_, _, hb⟩ | ⟨_, _, i, rest, hd, hb⟩ := boundary_cases s
  · have h := exec_ran (takeInterrupt_exec s.clearRecord) hmc rfl rfl
    exact ⟨_, _, hb, ⟨h.params, h.mci,
      ((sameHost_clearRecord s).trans (sameHost_enterService s.clearRecord)).trans h.host, h.bytes, h.reads_le,
      h.writes_le, h.writes⟩, Nat.le_of_ble_eq_true rfl⟩
  · have h := exec_ran (haltCycle_exec s.clearRecord) hmc rfl rfl
    exact ⟨_, _, hb, ⟨h.params, h.mci,
      ((sameHost_clearRecord s).trans (sameHost_haltRefetch s.clearRecord)).trans h.host, h.bytes, h.reads_le,
      h.writes_le, h.writes⟩, Nat.le_of_ble_eq_true rfl⟩
  · obtain ⟨t, ht⟩ := exec_next i s.clearRecord.fetchOpcode
    have h := exec_ran ht hmc rfl rfl
    refine ⟨t, _, hb.trans ht, ⟨h.params, h.mci,
      ((sameHost_clearRecord s).trans (sameHost_fetchOpcode s.clearRecord)).trans h.host, h.bytes, h.reads_le,
      h.writes_le, h.writes⟩, ?_⟩
    have := encode_length i
    change ([_] ++ (encode i).tail).length ≤ 3
    rw [List.length_append, List.length_singleton]
    omega

theorem runInstruction_next {s t : State} (h : s.beginCycle.boundary = .next t) :
    s.runInstruction = .next t.forgetTemps := by
  unfold State.runInstruction
  rw [h]; rfl

/-- One instruction of the loop always answers, and what it leaves is bounded. -/
theorem runInstruction_ran (s : State) (hmc : wellFormedMc s.params.mc = true) :
    ∃ t bytes, s.runInstruction = .next t ∧ Ran s t bytes ∧ bytes.length ≤ 3 := by
  obtain ⟨t, bytes, hb, h, hl⟩ := boundary_ran s.beginCycle hmc
  exact ⟨t.forgetTemps, bytes, runInstruction_next hb, ⟨h.params, h.mci,
    ((sameHost_beginCycle s).trans h.host).trans (sameHost_forgetTemps t), h.bytes, h.reads_le, h.writes_le,
    h.writes⟩, hl⟩

/-- One instruction of the loop always answers. -/
theorem runInstruction_answers (s : State) : ∃ t, s.runInstruction = .next t := by
  obtain ⟨_, hb⟩ | ⟨_, _, hb⟩ | ⟨_, _, i, rest, hd, hb⟩ := boundary_cases s.beginCycle
  · exact ⟨_, runInstruction_next hb⟩
  · exact ⟨_, runInstruction_next hb⟩
  · obtain ⟨t, ht⟩ := exec_next i s.beginCycle.clearRecord.fetchOpcode
    exact ⟨_, runInstruction_next (hb.trans ht)⟩

theorem execute_answers (c : Command) (s : State) : ∃ t, s.execute c = .next t := by
  cases c
  case executeOneInstruction =>
    unfold State.execute
    dsimp only
    split
    · obtain ⟨t, ht⟩ := runInstruction_answers s.leaveHistory
      rw [ht]
      exact ⟨_, rfl⟩
    · exact ⟨_, rfl⟩
  all_goals exact ⟨_, rfl⟩

theorem takeCommand_answers (s : State) : ∃ t, s.takeCommand = .next t := by
  unfold State.takeCommand
  split
  · exact ⟨_, rfl⟩
  · exact execute_answers _ _

/-- Every step answers a next state. -/
theorem step_answers (s : State) : ∃ t, step s = .next t := by
  unfold step State.loopStep
  split
  · exact ⟨_, rfl⟩
  · split
    · unfold State.runningStep
      obtain ⟨t, ht⟩ := runInstruction_answers s
      rw [ht]
      exact takeCommand_answers _
    · exact ⟨_, rfl⟩
  · split
    · unfold State.frameStep
      obtain ⟨t, ht⟩ := runInstruction_answers s
      rw [ht]
      exact ⟨_, rfl⟩
    · exact takeCommand_answers s

end Sys2Proof.Laws
end

