-- ==== Sys2Proof/Laws/Commands.lean ====
section
/-! SUPPORT. What the host commands and the end of an instruction leave alone (55_orchestrator.md R754 to R760). -/

namespace Sys2Proof.Laws

open Sys2Proof.Machine

theorem mayRun_iff (s : State) : s.mayRun = true ↔ s.loop = .stopped ∧ s.fault = .none := by
  unfold State.mayRun State.isStopped; simp

theorem isStopped_iff (s : State) : s.isStopped = true ↔ s.loop = .stopped := by unfold State.isStopped; simp

/-- What the end of an instruction leaves of the loop. -/
structure Ended (s t : State) (ignoring : Bool) : Prop where
  loop      : t.loop = loopAfter s.fault s.hookBreak ignoring s.loop
  fault     : t.fault = s.fault
  requests  : t.requests = s.requests
  responses : t.responses = s.responses
  frameRun  : t.frameRun = s.frameRun
  params    : t.params = s.params
  hookIn    : t.hookIn = if s.hookInstalled then s.hookIn.tail else s.hookIn
  lastFrame : t.lastFrame = s.disp.frame
  disp      : t.disp = s.disp
  live      : s.hist.live = true → t.hist.live = true

theorem afterInstruction_ended (s : State) (b : Bool) : Ended s (s.afterInstruction b) b := by
  unfold State.afterInstruction State.onInstructionRetired
  dsimp only
  split
  · refine ⟨rfl, rfl, rfl, rfl, rfl, rfl, rfl, rfl, rfl, fun h => ?_⟩
    dsimp only; split <;> exact h
  · exact ⟨rfl, rfl, rfl, rfl, rfl, rfl, rfl, rfl, rfl, fun h => h⟩

theorem loopAfter_stopped {fault : FaultCode} {brk ignoring : Bool} : loopAfter fault brk ignoring .stopped =
    .stopped := by
  unfold loopAfter; split; rfl; split <;> rfl

/-- One instruction of the loop leaves the host's part alone. -/
theorem runInstruction_host {s t : State} (h : s.runInstruction = .next t) : SameHost s t := by
  unfold State.runInstruction at h
  cases hb : s.beginCycle.boundary with
  | next u =>
    rw [hb] at h
    cases h
    refine ((sameHost_beginCycle s).trans ?_).trans (sameHost_forgetTemps u)
    obtain ⟨_, hb'⟩ | ⟨_, _, hb'⟩ | ⟨_, _, i, rest, hd, hb'⟩ := boundary_cases s.beginCycle
    · rw [hb'] at hb; cases hb
      exact ((sameHost_clearRecord _).trans (sameHost_enterService _)).trans (exec_host (takeInterrupt_exec _))
    · rw [hb'] at hb; cases hb
      exact ((sameHost_clearRecord _).trans (sameHost_haltRefetch _)).trans (exec_host (haltCycle_exec _))
    · rw [hb'] at hb
      exact ((sameHost_clearRecord _).trans (sameHost_fetchOpcode _)).trans (exec_host hb)
  | fault e => rw [hb] at h; cases h
  | refused e => rw [hb] at h; cases h

/-- One instruction of the loop leaves the parameters alone. -/
theorem runInstruction_params {s t : State} (h : s.runInstruction = .next t) : t.params = s.params := by
  have key {u : State} (hb : s.beginCycle.boundary = .next u) (hp : u.params = s.params) : t.params = s.params := by
    rw [runInstruction_next hb] at h
    cases h; exact hp
  obtain ⟨_, hb⟩ | ⟨_, _, hb⟩ | ⟨_, _, i, rest, _, hb⟩ := boundary_cases s.beginCycle
  · have hp := exec_params (takeInterrupt_exec s.beginCycle.clearRecord)
    exact key hb hp
  · have hp := exec_params (haltCycle_exec s.beginCycle.clearRecord)
    exact key hb hp
  · obtain ⟨u, hu⟩ := exec_next i s.beginCycle.clearRecord.fetchOpcode
    have hp := exec_params hu
    exact key (hb.trans hu) hp

/-- One instruction of the loop keeps what the invariant says of memory, time, the diff record and the history. -/
theorem runInstruction_kept {s : State} (h : Kept s) : ∃ t, s.runInstruction = .next t ∧ Kept t ∧ SameHost s t := by
  obtain ⟨a, b, c, d, e⟩ := h
  have hmc : wellFormedMc s.params.mc = true := by
    have hw := b
    simp only [Params.wellFormed, Bool.and_eq_true] at hw; exact hw.1.1.1.1.1
  obtain ⟨t, bytes, ht, r, hb⟩ := runInstruction_ran s hmc
  refine ⟨t, ht, ⟨r.writes.wf a, r.params ▸ b, r.mci, ⟨by rw [r.bytes]; exact hb, r.reads_le, r.writes_le,
      r.writes.in_range⟩, ?_⟩, r.host⟩
  rw [r.params, r.host.hist]; exact e

theorem kept_afterInstruction {s : State} (h : Kept s) (b : Bool) : Kept (s.afterInstruction b) := by
  have := kept_onInstructionRetired (s := s.callHook) ⟨h.1, h.2, h.3, h.4, h.5⟩
  obtain ⟨x, b, c, d, e⟩ := this
  exact ⟨x, b, c, d, e⟩

/-- FAULT, LOOP, both queues, a frame run and the parameters are unchanged. -/
structure SameControl (s t : State) : Prop where
  fault     : t.fault = s.fault
  loop      : t.loop = s.loop
  requests  : t.requests = s.requests
  responses : t.responses = s.responses
  frameRun  : t.frameRun = s.frameRun
  params    : t.params = s.params

theorem SameControl.refl (s : State) : SameControl s s := ⟨rfl, rfl, rfl, rfl, rfl, rfl⟩
theorem SameControl.trans {s t u : State} (h : SameControl s t) (k : SameControl t u) : SameControl s u :=
  ⟨k.1.trans h.1, k.2.trans h.2, k.3.trans h.3, k.4.trans h.4, k.5.trans h.5, k.6.trans h.6⟩

theorem sameControl_stepForward (s : State) : SameControl s s.stepForward := by
  unfold State.stepForward
  dsimp only
  split
  · exact ⟨rfl, rfl, rfl, rfl, rfl, rfl⟩
  · split <;> exact ⟨rfl, rfl, rfl, rfl, rfl, rfl⟩

theorem sameControl_stepReverse (s : State) : SameControl s s.stepReverse := by
  unfold State.stepReverse
  dsimp only
  split <;> exact ⟨rfl, rfl, rfl, rfl, rfl, rfl⟩

theorem sameControl_playForward (n : Nat) (s : State) : SameControl s (s.playForward n) := by
  induction n generalizing s with
  | zero => exact .refl s
  | succ n ih =>
    unfold State.playForward
    split
    · exact .refl s
    · exact (sameControl_stepForward s).trans (ih _)

theorem sameControl_playReverse (n : Nat) (s : State) : SameControl s (s.playReverse n) := by
  induction n generalizing s with
  | zero => exact .refl s
  | succ n ih =>
    unfold State.playReverse
    split
    · exact (sameControl_stepReverse s).trans (ih _)
    · exact .refl s

theorem sameControl_setRamBytes (s : State) (a : Word) (l : List Byte) : SameControl s (s.setRamBytes a l) := by
  induction l generalizing s a with
  | nil => exact .refl s
  | cons v vs ih =>
    have h := ih ({ s with ram := s.ram.write (s.hostWrite a v).addr v
                           hist := if s.hist.attached then s.hist.append [s.hostWrite a v] else s.hist } : State) (a + 1)
    exact ⟨h.1, h.2, h.3, h.4, h.5, h.6⟩

theorem sameControl_leaveHistory (s : State) : SameControl s s.leaveHistory := by
  unfold State.leaveHistory
  split <;> exact ⟨rfl, rfl, rfl, rfl, rfl, rfl⟩

theorem sameControl_attachDebugger (s : State) (b : Bool) : SameControl s (s.attachDebugger b) := by
  unfold State.attachDebugger
  dsimp only
  split <;> exact ⟨rfl, rfl, rfl, rfl, rfl, rfl⟩

theorem sameControl_loadRecording (s : State) (r : Recording) : SameControl s (s.loadRecording r) := by
  unfold State.loadRecording
  dsimp only
  split <;> exact ⟨rfl, rfl, rfl, rfl, rfl, rfl⟩

/-! ## The queues (55_orchestrator.md R755) -/

/-- A command that has answered leaves the requests, a frame run and the parameters, and has posted one response, with
the fault it met, or else FAULT as it then is (R756, R760). -/
structure Answered (s t : State) : Prop where
  requests  : t.requests = s.requests
  frameRun  : t.frameRun = s.frameRun
  params    : t.params = s.params
  responses : ∃ r, t.responses =
    s.responses ++ [{ reply := r, fault := if s.fault = .none then t.fault else s.fault, loop := t.loop }]

theorem answered_post {s u : State} {f : FaultCode} (r : Reply) (h1 : u.requests = s.requests)
    (h2 : u.frameRun = s.frameRun) (h3 : u.params = s.params) (h4 : u.responses = s.responses)
    (h5 : f = if s.fault = .none then u.fault else s.fault) : Answered s (u.post f r) :=
  ⟨h1, h2, h3, r, by rw [h5]; exact congrArg (· ++ [_]) h4⟩

theorem answered_respond {s u : State} (r : Reply) (h1 : u.requests = s.requests) (h2 : u.frameRun = s.frameRun)
    (h3 : u.params = s.params) (h4 : u.responses = s.responses) (h5 : s.fault = .none ∨ u.fault = s.fault) :
    Answered s (u.respond r) :=
  answered_post r h1 h2 h3 h4 (by rcases h5 with h | h <;> simp [h])

theorem SameControl.answered {s u : State} (h : SameControl s u) (r : Reply) : Answered s (u.respond r) :=
  answered_respond r h.requests h.frameRun h.params h.responses (.inr h.fault)

/-- Every command posts one response, but an allowed frame command, which begins the frame run that will post it. -/
theorem execute_answered {s t : State} {c : Command} (h : s.execute c = .next t) :
    Answered s t ∨
      (c = .executeOneFrameIgnoringBreaks ∧ s.mayRun = true ∧ t = { s.leaveHistory with frameRun := true }) := by
  have kk {u : State} (k : SameControl s u) {r : Reply} (e : (.next (u.respond r) : Result) = .next t) :
      Answered s t ∨
        (c = .executeOneFrameIgnoringBreaks ∧ s.mayRun = true ∧ t = { s.leaveHistory with frameRun := true }) := by
    cases e; exact .inl (k.answered r)
  have same := SameControl.refl s
  have leave := sameControl_leaveHistory s
  have cleared (f : FaultCode) : f = if f = .none then .none else f := by cases f <;> rfl
  cases c
  case run =>
    rw [State.execute] at h
    split at h
    · cases h
      exact .inl (answered_respond .ok leave.requests leave.frameRun leave.params leave.responses (.inr leave.fault))
    · exact kk same h
  case stop => cases h; exact .inl (answered_respond .ok rfl rfl rfl rfl (.inr rfl))
  case reset => cases h; exact .inl (answered_post .ok rfl rfl rfl rfl (cleared s.fault))
  case restart => cases h; exact .inl (answered_post .ok rfl rfl rfl rfl (cleared s.fault))
  case exit => cases h; exact .inl (answered_respond .ok rfl rfl rfl rfl (.inr rfl))
  case executeOneInstruction =>
    rw [State.execute] at h
    split at h
    · obtain ⟨v, hv⟩ := runInstruction_answers s.leaveHistory
      rw [hv] at h
      cases h
      have hh := runInstruction_host hv
      have ha := afterInstruction_ended v false
      exact .inl (answered_respond _ (ha.requests.trans (hh.requests.trans leave.requests))
        (ha.frameRun.trans (hh.frameRun.trans leave.frameRun))
        (ha.params.trans ((runInstruction_params hv).trans leave.params))
        (ha.responses.trans (hh.responses.trans leave.responses)) (.inl ((mayRun_iff s).1 ‹_›).2))
    · exact kk same h
  case executeOneFrameIgnoringBreaks =>
    rw [State.execute] at h
    split at h
    · cases h; exact .inr ⟨rfl, ‹_›, rfl⟩
    · exact kk same h
  case getRegisters => exact kk same h
  case getByte => exact kk same h
  case getWord => exact kk same h
  case setRamBytes a l => exact kk (leave.trans (sameControl_setRamBytes _ a l)) h
  case attachDebugger b => exact kk (sameControl_attachDebugger s b) h
  case playForward n =>
    rw [State.execute] at h
    split at h
    · exact kk (sameControl_playForward n s) h
    · exact kk same h
  case playReverse n =>
    rw [State.execute] at h
    split at h
    · exact kk (sameControl_playReverse n s) h
    · exact kk same h
  case saveRecording => exact kk same h
  case loadRecording f =>
    rw [State.execute] at h
    split at h
    · split at h
      · exact kk (sameControl_loadRecording s _) h
      · exact kk same h
    · exact kk same h

/-- A command taken is no longer waiting and owes its response, or has posted it. -/
theorem takeCommand_inFlight {s t : State} (h : s.takeCommand = .next t) :
    t.inFlight ≤ s.inFlight ∧ t.params = s.params := by
  unfold State.takeCommand at h
  split at h
  · cases h; exact ⟨Nat.le_refl _, rfl⟩
  · rename_i c rest hr
    have hl : s.requests.length = rest.length + 1 := by rw [hr]; rfl
    obtain k | ⟨-, -, rfl⟩ := execute_answered h
    · obtain ⟨r, k4⟩ := k.responses
      have h1 : t.requests.length = rest.length := congrArg List.length k.requests
      have h2 : t.responses.length = s.responses.length + 1 := by rw [k4, List.length_append]; rfl
      have h3 : t.frameRun = s.frameRun := k.frameRun
      refine ⟨?_, k.params⟩
      unfold State.inFlight
      rw [h1, h2, h3, hl]
      omega
    · have k := sameControl_leaveHistory { s with requests := rest }
      have h1 : ({ s with requests := rest } : State).leaveHistory.requests.length = rest.length :=
        congrArg List.length k.requests
      have h2 : ({ s with requests := rest } : State).leaveHistory.responses = s.responses := k.responses
      refine ⟨?_, k.params⟩
      unfold State.inFlight
      dsimp only
      rw [h1, h2, hl, if_pos rfl]
      omega

end Sys2Proof.Laws
end

