-- ==== Sys2Proof/Laws/Encoding.lean ====
section
/-! SUPPORT. The opcode map and the encoder agree, row by row: the decoder's answer for each opcode byte encodes back to
that byte and the operand bytes read. -/

namespace Sys2Proof.Laws

/-- What the map holds at opcode byte `n` encodes to that byte and its operand bytes, as many as R311 gives. -/
def FormOk (n : Nat) : Form → Prop
  | .f1 i => encode i = [BitVec.ofNat 8 n] ∧ opcodeLength (BitVec.ofNat 8 n) = 1
  | .f2 k => (∀ v, encode (k v) = [BitVec.ofNat 8 n, v]) ∧ opcodeLength (BitVec.ofNat 8 n) = 2
  | .f3 k => (∀ v, encode (k v) = [BitVec.ofNat 8 n, loByte v, hiByte v]) ∧ opcodeLength (BitVec.ofNat 8 n) = 3

/-- A run of the map from opcode byte `n` on is right. -/
def RowOk : Nat → List Form → Prop
  | _, [] => True
  | n, f :: fs => FormOk n f ∧ RowOk (n + 1) fs

theorem RowOk.append {n m : Nat} {fs gs : List Form} (h : RowOk n fs) (k : RowOk m gs) (hm : n + fs.length = m) :
    RowOk n (fs ++ gs) := by
  induction fs generalizing n with
  | nil => rw [← hm] at k; exact k
  | cons f fs ih =>
    rw [List.length_cons] at hm
    exact ⟨h.1, ih h.2 (by omega)⟩

theorem RowOk.get {n j : Nat} {fs : List Form} {f : Form} (h : RowOk n fs) (hf : fs[j]? = some f) : FormOk (n + j) f := by
  induction fs generalizing n j with
  | nil => simp at hf
  | cons g fs ih =>
    cases j with
    | zero => cases hf; exact h.1
    | succ j =>
      have := ih h.2 (j := j) (by simpa using hf)
      rwa [Nat.add_right_comm] at this

theorem row0_ok : RowOk 0 opcodeRow0 := by
  unfold opcodeRow0
  repeat first
    | refine ⟨⟨rfl, rfl⟩, ?_⟩
    | refine ⟨⟨fun _ => rfl, rfl⟩, ?_⟩
  exact trivial

theorem row1_ok : RowOk 16 opcodeRow1 := by
  unfold opcodeRow1
  repeat first
    | refine ⟨⟨rfl, rfl⟩, ?_⟩
    | refine ⟨⟨fun _ => rfl, rfl⟩, ?_⟩
  exact trivial

theorem row2_ok : RowOk 32 opcodeRow2 := by
  unfold opcodeRow2
  repeat first
    | refine ⟨⟨rfl, rfl⟩, ?_⟩
    | refine ⟨⟨fun _ => rfl, rfl⟩, ?_⟩
  exact trivial

theorem row3_ok : RowOk 48 opcodeRow3 := by
  unfold opcodeRow3
  repeat first
    | refine ⟨⟨rfl, rfl⟩, ?_⟩
    | refine ⟨⟨fun _ => rfl, rfl⟩, ?_⟩
  exact trivial

theorem row4_ok : RowOk 64 opcodeRow4 := by
  unfold opcodeRow4
  repeat first
    | refine ⟨⟨rfl, rfl⟩, ?_⟩
    | refine ⟨⟨fun _ => rfl, rfl⟩, ?_⟩
  exact trivial

theorem row5_ok : RowOk 80 opcodeRow5 := by
  unfold opcodeRow5
  repeat first
    | refine ⟨⟨rfl, rfl⟩, ?_⟩
    | refine ⟨⟨fun _ => rfl, rfl⟩, ?_⟩
  exact trivial

theorem row6_ok : RowOk 96 opcodeRow6 := by
  unfold opcodeRow6
  repeat first
    | refine ⟨⟨rfl, rfl⟩, ?_⟩
    | refine ⟨⟨fun _ => rfl, rfl⟩, ?_⟩
  exact trivial

theorem row7_ok : RowOk 112 opcodeRow7 := by
  unfold opcodeRow7
  repeat first
    | refine ⟨⟨rfl, rfl⟩, ?_⟩
    | refine ⟨⟨fun _ => rfl, rfl⟩, ?_⟩
  exact trivial

theorem row8_ok : RowOk 128 opcodeRow8 := by
  unfold opcodeRow8
  repeat first
    | refine ⟨⟨rfl, rfl⟩, ?_⟩
    | refine ⟨⟨fun _ => rfl, rfl⟩, ?_⟩
  exact trivial

theorem row9_ok : RowOk 144 opcodeRow9 := by
  unfold opcodeRow9
  repeat first
    | refine ⟨⟨rfl, rfl⟩, ?_⟩
    | refine ⟨⟨fun _ => rfl, rfl⟩, ?_⟩
  exact trivial

theorem rowA_ok : RowOk 160 opcodeRowA := by
  unfold opcodeRowA
  repeat first
    | refine ⟨⟨rfl, rfl⟩, ?_⟩
    | refine ⟨⟨fun _ => rfl, rfl⟩, ?_⟩
  exact trivial

theorem rowB_ok : RowOk 176 opcodeRowB := by
  unfold opcodeRowB
  repeat first
    | refine ⟨⟨rfl, rfl⟩, ?_⟩
    | refine ⟨⟨fun _ => rfl, rfl⟩, ?_⟩
  exact trivial

theorem rowC_ok : RowOk 192 opcodeRowC := by
  unfold opcodeRowC
  repeat first
    | refine ⟨⟨rfl, rfl⟩, ?_⟩
    | refine ⟨⟨fun _ => rfl, rfl⟩, ?_⟩
  exact trivial

theorem rowD_ok : RowOk 208 opcodeRowD := by
  unfold opcodeRowD
  repeat first
    | refine ⟨⟨rfl, rfl⟩, ?_⟩
    | refine ⟨⟨fun _ => rfl, rfl⟩, ?_⟩
  exact trivial

theorem rowE_ok : RowOk 224 opcodeRowE := by
  unfold opcodeRowE
  repeat first
    | refine ⟨⟨rfl, rfl⟩, ?_⟩
    | refine ⟨⟨fun _ => rfl, rfl⟩, ?_⟩
  exact trivial

theorem rowF_ok : RowOk 240 opcodeRowF := by
  unfold opcodeRowF
  repeat first
    | refine ⟨⟨rfl, rfl⟩, ?_⟩
    | refine ⟨⟨fun _ => rfl, rfl⟩, ?_⟩
  exact trivial

theorem row0_length : opcodeRow0.length = 16 := rfl
theorem row1_length : opcodeRow1.length = 16 := rfl
theorem row2_length : opcodeRow2.length = 16 := rfl
theorem row3_length : opcodeRow3.length = 16 := rfl
theorem row4_length : opcodeRow4.length = 16 := rfl
theorem row5_length : opcodeRow5.length = 16 := rfl
theorem row6_length : opcodeRow6.length = 16 := rfl
theorem row7_length : opcodeRow7.length = 16 := rfl
theorem row8_length : opcodeRow8.length = 16 := rfl
theorem row9_length : opcodeRow9.length = 16 := rfl
theorem rowA_length : opcodeRowA.length = 16 := rfl
theorem rowB_length : opcodeRowB.length = 16 := rfl
theorem rowC_length : opcodeRowC.length = 16 := rfl
theorem rowD_length : opcodeRowD.length = 16 := rfl
theorem rowE_length : opcodeRowE.length = 16 := rfl
theorem rowF_length : opcodeRowF.length = 16 := rfl

/-- The whole map is right. -/
theorem opcodeMap_ok : RowOk 0 opcodeMap := by
  unfold opcodeMap
  have h0 := row0_ok
  have h1 := h0.append row1_ok (by simp only [row0_length])
  have h2 := h1.append row2_ok (by simp only [List.length_append, row0_length, row1_length])
  have h3 := h2.append row3_ok (by simp only [List.length_append, row0_length, row1_length, row2_length])
  have h4 := h3.append row4_ok (by simp only [List.length_append, row0_length, row1_length, row2_length, row3_length])
  have h5 := h4.append row5_ok (by simp only [List.length_append, row0_length, row1_length, row2_length, row3_length, row4_length])
  have h6 := h5.append row6_ok (by simp only [List.length_append, row0_length, row1_length, row2_length, row3_length, row4_length, row5_length])
  have h7 := h6.append row7_ok (by simp only [List.length_append, row0_length, row1_length, row2_length, row3_length, row4_length, row5_length, row6_length])
  have h8 := h7.append row8_ok (by simp only [List.length_append, row0_length, row1_length, row2_length, row3_length, row4_length, row5_length, row6_length, row7_length])
  have h9 := h8.append row9_ok (by simp only [List.length_append, row0_length, row1_length, row2_length, row3_length, row4_length, row5_length, row6_length, row7_length, row8_length])
  have h10 := h9.append rowA_ok (by simp only [List.length_append, row0_length, row1_length, row2_length, row3_length, row4_length, row5_length, row6_length, row7_length, row8_length, row9_length])
  have h11 := h10.append rowB_ok (by simp only [List.length_append, row0_length, row1_length, row2_length, row3_length, row4_length, row5_length, row6_length, row7_length, row8_length, row9_length, rowA_length])
  have h12 := h11.append rowC_ok (by simp only [List.length_append, row0_length, row1_length, row2_length, row3_length, row4_length, row5_length, row6_length, row7_length, row8_length, row9_length, rowA_length, rowB_length])
  have h13 := h12.append rowD_ok (by simp only [List.length_append, row0_length, row1_length, row2_length, row3_length, row4_length, row5_length, row6_length, row7_length, row8_length, row9_length, rowA_length, rowB_length, rowC_length])
  have h14 := h13.append rowE_ok (by simp only [List.length_append, row0_length, row1_length, row2_length, row3_length, row4_length, row5_length, row6_length, row7_length, row8_length, row9_length, rowA_length, rowB_length, rowC_length, rowD_length])
  have h15 := h14.append rowF_ok (by simp only [List.length_append, row0_length, row1_length, row2_length, row3_length, row4_length, row5_length, row6_length, row7_length, row8_length, row9_length, rowA_length, rowB_length, rowC_length, rowD_length, rowE_length])
  exact h15

theorem opcodeMap_form {op : Byte} {f : Form} (h : opcodeMap[op.toNat]? = some f) : FormOk op.toNat f := by
  have := opcodeMap_ok.get h
  rwa [Nat.zero_add] at this

end Sys2Proof.Laws
end

