-- ==== Sys2Proof/Laws/Frames.lean ====
section
/-! SUPPORT. What the shared operations and the effect of each shape leave unchanged. -/

namespace Sys2Proof.Laws

open Sys2Proof.Machine

/-! ## The shared operations -/

/-- A mapping write through a port changes the mapping and FAULT alone, and FAULT only from none to a conflict. -/
theorem bankPortWrite_frame (s : State) (port v : Byte) : (∃ m f, s.bankPortWrite port v = { s with map := m, fault := f }) ∧
   ((s.bankPortWrite port v).fault ≠ s.fault → s.fault = .none ∧ (s.bankPortWrite port v).fault = .mappingConflict ∧
      (s.params.bankPorts.lookup port).isSome = true) := by
  unfold State.bankPortWrite
  split
  · rename_i b hb
    unfold State.setBankConfig
    dsimp only
    split
    · refine ⟨⟨_, _, rfl⟩, ?_⟩
      unfold State.raiseFault
      dsimp only
      split <;> simp_all
    · exact ⟨⟨_, _, rfl⟩, fun h => absurd rfl h⟩
  · exact ⟨⟨_, _, rfl⟩, fun h => absurd rfl h⟩

/-- OUT's port access changes the mapping, FAULT, the I/O state, ROM mode,
    the count of free values and the trace alone. -/
theorem callPortOut_frame (s : State) (port v : Byte) : (∃ m f io rm d tr, s.callPortOut port v =
   { s with map := m, fault := f, io := io, romMode := rm, draws := d, trace := tr }) ∧
   ((s.callPortOut port v).fault ≠ s.fault → s.fault = .none ∧ (s.callPortOut port v).fault = .mappingConflict ∧
      (s.params.bankPorts.lookup port).isSome = true) := by
  unfold State.callPortOut
  dsimp only
  obtain ⟨⟨m, f, e⟩, e2⟩ := bankPortWrite_frame ({ s with
    io := Config.portOutState s.io port v s.draws
    romMode := if s.params.romPort = some port then Config.romSwitch s.io v s.draws else s.romMode
    draws := s.draws + 1
    trace := s.trace ++ [(s.mci, .portOut port v)] } : State) port v
  refine ⟨?_, e2⟩
  rw [e]
  exact ⟨_, _, _, _, _, _, rfl⟩

/-! ## What every instruction but IN, OUT, EI, DI and HLT leaves alone -/

/-- `t` differs from `s` in the CPU, memory, the diff record and the trace at most, and in INTE, EIP and HALT not. -/
structure Held (s t : State) : Prop where
  rest : ∃ c ram diff tr, t = { s with cpu := c, ram := ram, diff := diff, trace := tr }
  inte : t.cpu.inte = s.cpu.inte
  eip  : t.cpu.eip = s.cpu.eip
  halt : t.cpu.halt = s.cpu.halt

theorem Held.trans {s t u : State} (h : Held s t) (k : Held t u) : Held s u := by
  obtain ⟨_, _, _, _, e⟩ := h.rest
  obtain ⟨_, _, _, _, e'⟩ := k.rest
  exact ⟨⟨_, _, _, _, e'.trans (by rw [e])⟩, k.inte.trans h.inte, k.eip.trans h.eip, k.halt.trans h.halt⟩

theorem held_refl (s : State) : Held s s := ⟨⟨_, _, _, _, rfl⟩, rfl, rfl, rfl⟩

theorem held_setReg (s : State) (r : Reg) (v : Byte) : Held s (s.setReg r v) := by
  cases r <;> exact ⟨⟨_, _, _, _, rfl⟩, rfl, rfl, rfl⟩

theorem held_setPair (s : State) (p : Pair) (v : Word) : Held s (s.setPair p v) := by
  cases p <;> exact ⟨⟨_, _, _, _, rfl⟩, rfl, rfl, rfl⟩

theorem held_accumulate (s : State) (op : AluOp) (v : Byte) : Held s (s.accumulate op v) := by
  cases op <;> exact ⟨⟨_, _, _, _, rfl⟩, rfl, rfl, rfl⟩

theorem held_pcOn (s : State) (n : Nat) : Held s (s.pcOn n) := ⟨⟨_, _, _, _, rfl⟩, rfl, rfl, rfl⟩

theorem held_setSp (s : State) (v : Word) : Held s (s.setSp v) := ⟨⟨_, _, _, _, rfl⟩, rfl, rfl, rfl⟩

theorem held_setPc (s : State) (v : Word) : Held s (s.setPc v) := ⟨⟨_, _, _, _, rfl⟩, rfl, rfl, rfl⟩

theorem held_keepCy (s : State) (f : Flags) : Held s (s.setFlagsKeepCy f) := ⟨⟨_, _, _, _, rfl⟩, rfl, rfl, rfl⟩

theorem held_setFlags (s : State) (f : Flags) : Held s (s.setFlags f) := ⟨⟨_, _, _, _, rfl⟩, rfl, rfl, rfl⟩

theorem held_setCy (s : State) (b : Bool) : Held s (s.setCy b) := ⟨⟨_, _, _, _, rfl⟩, rfl, rfl, rfl⟩

theorem held_addToHl (s : State) (v : Word) : Held s (s.addToHl v) := ⟨⟨_, _, _, _, rfl⟩, rfl, rfl, rfl⟩

theorem held_rotateA (s : State) (a : Byte) (cy : Bool) : Held s (s.rotateA a cy) := ⟨⟨_, _, _, _, rfl⟩, rfl, rfl, rfl⟩

theorem held_writeByte (s : State) (a : Word) (space : Space) (v : Byte) : Held s (s.writeByte a space v) :=
  ⟨⟨_, _, _, _, rfl⟩, rfl, rfl, rfl⟩

theorem held_push (s : State) (v : Byte) : Held s (s.push v) := (held_setSp s _).trans (held_writeByte _ _ _ _)

theorem held_pushPc (s : State) : Held s (pushPc s) := (held_push s _).trans (held_push _ _)

theorem held_ite {c : Prop} [Decidable c] {s a b : State} (ha : Held s a) (hb : Held s b) :
    Held s (if c then a else b) := by split <;> assumption

theorem effect_held (sh : Shape) (s : State) (hp : isPort sh = false) (he : sh ≠ .ei) (hd : sh ≠ .di)
    (hh : sh ≠ .hlt) : Held s (effect sh s) := by
  cases sh
  case inPort => exact absurd hp (by simp [isPort])
  case outPort => exact absurd hp (by simp [isPort])
  case ei => exact absurd rfl he
  case di => exact absurd rfl hd
  case hlt => exact absurd rfl hh
  case mov => exact held_setReg _ _ _
  case movFromM => exact held_setReg _ _ _
  case mvi => exact (held_pcOn s 1).trans (held_setReg _ _ _)
  case lxi => exact (held_pcOn s 2).trans (held_setPair _ _ _)
  case alu => exact held_accumulate _ _ _
  case aluM => exact held_accumulate _ _ _
  case aluImm => exact (held_pcOn s 1).trans (held_accumulate _ _ _)
  case inr => exact (held_keepCy s _).trans (held_setReg _ _ _)
  case dcr => exact (held_keepCy s _).trans (held_setReg _ _ _)
  case inx => exact held_setPair _ _ _
  case dcx => exact held_setPair _ _ _
  case pop => exact (held_setSp s _).trans (held_setPair _ _ _)
  case jcc => exact held_ite (held_setPc _ _) (held_pcOn _ _)
  case ccc => exact held_ite (((held_pcOn s 2).trans (held_pushPc _)).trans (held_setPc _ _)) (held_pcOn _ _)
  case rcc => exact held_ite ((held_setSp _ _).trans (held_setPc _ _)) (held_refl s)
  case movToM => exact held_writeByte _ _ _ _
  case mviM => exact (held_pcOn s 1).trans (held_writeByte _ _ _ _)
  case lda => exact (held_pcOn s 2).trans (held_setReg _ .a _)
  case sta => exact (held_pcOn s 2).trans (held_writeByte _ _ _ _)
  case lhld => exact ((held_pcOn s 2).trans (held_setReg _ .l _)).trans (held_setReg _ .h _)
  case shld => exact ((held_pcOn s 2).trans (held_writeByte _ _ _ _)).trans (held_writeByte _ _ _ _)
  case ldax => exact held_setReg _ .a _
  case stax => exact held_writeByte _ _ _ _
  case xchg => exact ⟨⟨_, _, _, _, rfl⟩, rfl, rfl, rfl⟩
  case inrM => exact (held_keepCy s _).trans (held_writeByte _ _ _ _)
  case dcrM => exact (held_keepCy s _).trans (held_writeByte _ _ _ _)
  case dad => exact held_addToHl _ _
  case daa => exact (held_setFlags s _).trans (held_setReg _ .a _)
  case rlc => exact held_rotateA _ _ _
  case rrc => exact held_rotateA _ _ _
  case ral => exact held_rotateA _ _ _
  case rar => exact held_rotateA _ _ _
  case cma => exact held_setReg _ .a _
  case cmc => exact held_setCy _ _
  case stc => exact held_setCy _ _
  case jmp => exact held_setPc _ _
  case call => exact ((held_pcOn s 2).trans (held_pushPc _)).trans (held_setPc _ _)
  case ret => exact (held_setSp _ _).trans (held_setPc _ _)
  case rst => exact (held_pushPc s).trans (held_setPc _ _)
  case pchl => exact held_setPc _ _
  case push => exact (held_push s _).trans (held_push _ _)
  case pushPsw => exact (held_push s _).trans (held_push _ _)
  case popPsw => exact ((held_setSp s _).trans (held_setFlags _ _)).trans (held_setReg _ .a _)
  case xthl => exact ((held_writeByte s _ _ _).trans (held_writeByte _ _ _ _)).trans (held_setPair _ .hl _)
  case sphl => exact held_setSp _ _
  case nop => exact held_refl s

/-- One instruction alone has each of the shapes IN, OUT, EI, DI and HLT. -/
theorem shape_only (i : Instr) :
    (∀ p, shapeOf i = .inPort p → i = .inPort p) ∧ (∀ p, shapeOf i = .outPort p → i = .outPort p) ∧
      (shapeOf i = .ei → i = .ei) ∧ (shapeOf i = .di → i = .di) ∧ (shapeOf i = .hlt → i = .hlt) := by
  cases i <;> simp [shapeOf]

/-! ## Registers and memory -/

theorem arch_reg {s t : State} (h : s.arch = t.arch) (r : Reg) : s.reg r = t.reg r := by
  have := congrArg (fun u => State.reg u r) h
  cases r <;> exact this

theorem callPortOut_ram (s : State) (port v : Byte) : (s.callPortOut port v).ram = s.ram := by
  obtain ⟨⟨_, _, _, _, _, _, e⟩, _⟩ := callPortOut_frame s port v
  rw [e]

theorem push_push_ram (s : State) (hi lo : Byte) : ((s.push hi).push lo).ram =
    (s.ram.write (s.translate (s.cpu.sp - 1) .stack) hi).write (s.translate (s.cpu.sp - 1 - 1) .stack) lo := rfl

theorem same_none {s t : State} (pas : List Nat) (h : t.ram = s.ram) : SameBytesExcept s t pas :=
  fun pa _ => congrArg (fun m : Memory => m.read pa) h

theorem same_one {s t : State} {a : Nat} {v : Byte} (h : t.ram = s.ram.write a v) : SameBytesExcept s t [a] := by
  intro pa hpa
  rw [h, read_write_ne _ _ (by simpa using hpa)]

theorem same_two {s t : State} {a b : Nat} {v w : Byte} (h : t.ram = (s.ram.write a v).write b w) :
    SameBytesExcept s t [a, b] := by
  intro pa hpa
  simp only [List.mem_cons, List.not_mem_nil, or_false, not_or] at hpa
  rw [h, read_write_ne _ _ hpa.2, read_write_ne _ _ hpa.1]

end Sys2Proof.Laws
end

