-- ==== Sys2Proof/Laws/Mapping.lean ====
section
/-! SUPPORT. Which banks are enabled, active and in conflict (10_state.md R119, 20_memory.md R215). -/

namespace Sys2Proof.Laws

open Sys2Proof.Machine

/-- With the default layout a bank is enabled exactly when its register is 0x10 or more. -/
theorem default_enabled : ∀ m : Byte, bankEnabled defaultLayout m = decide (16 ≤ m.toNat) := by decide

theorem mem_enabled {l : MappingLayout} {map : Mapping} {b : Fin 8} :
    b ∈ enabledBanks l map ↔ bankEnabled l (map.get b) = true := by
  simp [enabledBanks]

theorem sorted_enabled (l : MappingLayout) (map : Mapping) : (enabledBanks l map).Pairwise (· < ·) :=
  List.Pairwise.filter _ (List.pairwise_lt_finRange 8)

/-- No bank is active exactly when none is enabled. -/
theorem active_none {l : MappingLayout} {map : Mapping} :
    activeBank l map = none ↔ ∀ b, bankEnabled l (map.get b) = false := by
  unfold activeBank
  rw [List.head?_eq_none_iff]
  constructor
  · intro h b
    have := mem_enabled (l := l) (map := map) (b := b)
    rw [h] at this
    simpa using this
  · intro h
    rw [List.eq_nil_iff_forall_not_mem]
    intro b hb
    rw [mem_enabled, h b] at hb
    cases hb

/-- The active bank is the lowest enabled one. -/
theorem active_some {l : MappingLayout} {map : Mapping} {b : Fin 8} :
    activeBank l map = some b ↔ bankEnabled l (map.get b) = true ∧ ∀ c, c < b → bankEnabled l (map.get c) = false := by
  unfold activeBank
  have hs := sorted_enabled l map
  have hm : ∀ c, c ∈ enabledBanks l map ↔ bankEnabled l (map.get c) = true := fun c => mem_enabled
  cases he : enabledBanks l map with
  | nil =>
    rw [he] at hm
    constructor
    · intro h; cases h
    · intro h; exact absurd ((hm b).2 h.1) List.not_mem_nil
  | cons d ds =>
    rw [he] at hm hs
    rw [List.pairwise_cons] at hs
    constructor
    · intro h
      cases h
      refine ⟨(hm _).1 List.mem_cons_self, fun c hc => ?_⟩
      by_contra hn
      have := (hm c).2 (by simpa using hn)
      rcases List.mem_cons.1 this with rfl | h
      · exact absurd hc (lt_irrefl _)
      · exact absurd hc (not_lt.2 (le_of_lt (hs.1 c h)))
    · intro ⟨h1, h2⟩
      rcases List.mem_cons.1 ((hm b).2 h1) with rfl | h
      · rfl
      · have := h2 d (hs.1 b h)
        rw [(hm d).1 (by simp)] at this
        cases this

/-- A conflict is two enabled banks. -/
theorem conflict_iff {l : MappingLayout} {map : Mapping} : mappingConflict l map = true ↔
    ∃ c d, c ≠ d ∧ bankEnabled l (map.get c) = true ∧ bankEnabled l (map.get d) = true := by
  unfold mappingConflict
  rw [decide_eq_true_iff]
  have hs := sorted_enabled l map
  have hm : ∀ c, c ∈ enabledBanks l map ↔ bankEnabled l (map.get c) = true := fun c => mem_enabled
  constructor
  · intro h
    match he : enabledBanks l map, h with
    | c :: d :: rest, _ =>
      rw [he] at hm hs
      refine ⟨c, d, ?_, (hm c).1 (by simp), (hm d).1 (by simp)⟩
      exact ne_of_lt ((List.pairwise_cons.1 hs).1 d (by simp))
  · rintro ⟨c, d, hne, hc, hd⟩
    rw [← hm] at hc hd
    match he : enabledBanks l map with
    | [] => rw [he] at hc; cases hc
    | [x] => rw [he] at hc hd; simp at hc hd; exact absurd (hc.trans hd.symm) hne
    | x :: y :: rest => simp

theorem map_get_set (map : Mapping) (b c : Fin 8) (v : Byte) : (map.set b.val v).get c = if c =
    b then v else map.get c := by
  rw [Vector.get_eq_getElem, Vector.getElem_set, Vector.get_eq_getElem]
  by_cases h : c = b
  · subst h; simp
  · rw [if_neg h, if_neg (fun e => h (Fin.ext e.symm))]

end Sys2Proof.Laws
end

