-- ==== Sys2Proof/Tests/Slice0.lean ====
section
/-! SUPPORT. Tests: ill-formed terms that the checks refuse, words written out from the opcode map, the spec's vectors
one step at a time, and a witness for the hypotheses of each statement. Expected results are those of
95_test_vectors.md, or of the rule named. -/

namespace Sys2Proof.Tests

open Sys2Proof.Machine Sys2Proof.Laws

set_option Elab.async false

/-! ## What is ill formed is refused -/

theorem test_bytes_none : wellFormedBytes [] = false := by decide
theorem test_bytes_short : wellFormedBytes [0x3E] = false := by decide
theorem test_bytes_short_word : wellFormedBytes [0xC3, 0x00] = false := by decide
theorem test_bytes_long : wellFormedBytes [0x00, 0x00] = false := by decide
theorem test_bytes_ok : wellFormedBytes [0xC3, 0x00, 0x20] = true := by decide
theorem test_mc_short : wellFormedMc (candidateMc.take 255) = false := by decide +kernel
theorem test_mc_below_schedule : wellFormedMc (candidateMc.set 0xCD 5) = false := by decide +kernel
theorem test_mc_above_six : wellFormedMc (candidateMc.set 0x40 7) = false := by decide +kernel
theorem test_mc_twin_differs : wellFormedMc (candidateMc.set 0x08 2) = false := by decide +kernel
theorem test_layout_overlap : wellFormedLayout { defaultLayout with spage := 1 } = false := by decide
theorem test_layout_outside : wellFormedLayout { defaultLayout with enE := 8 } = false := by decide
theorem test_layout_ok : wellFormedLayout defaultLayout = true := by decide
theorem test_rom_long : wellFormedRom (List.replicate 65537 0) = false := by
  unfold wellFormedRom
  rw [List.length_replicate]
  decide
theorem test_rom_longest : wellFormedRom (List.replicate 65536 0) = true := by
  unfold wellFormedRom
  rw [List.length_replicate]
  decide
theorem test_capacity_none : wellFormedCapacity 0 = false := by decide
theorem test_depth_none : wellFormedDepth 0 = false := by decide
theorem test_bank_ports_twice : wellFormedBankPorts [(0x10, 1), (0x10, 2)] = false := by decide
theorem test_params_refused : Params.wellFormed { Params.default with historyCapacity := 0 } = false := by
  decide +kernel
theorem test_params_ok : Params.wellFormed Params.default = true := by decide +kernel
theorem test_decode_none : decode [] = .error .truncated := by decide
theorem test_decode_short : decode [0x06] = .error .truncated := by decide
theorem test_decode_short_word : decode [0xCD, 0x10] = .error .truncated := by decide

/-! ## Words written out from the opcode map (30_encoding.md R300 to R309) -/

theorem test_word_mov : decode [0b01_111_000#8] = .ok (.movAB, []) := by decide +kernel
theorem test_word_mov_to_m : decode [0b01_110_101#8] = .ok (.movML, []) := by decide +kernel
theorem test_word_lxi : decode [0b00_11_0001#8, 0xCD#8, 0xAB#8] = .ok (.lxiSp 0xABCD, []) := by decide +kernel
theorem test_word_lhld : decode [0b00_10_1010#8, 0x01#8, 0x80#8] = .ok (.lhld 0x8001, []) := by decide +kernel
theorem test_word_inr : decode [0b00_011_100#8] = .ok (.inrE, []) := by decide +kernel
theorem test_word_dad : decode [0b00_01_1001#8] = .ok (.dadD, []) := by decide +kernel
theorem test_word_alu : decode [0b10_011_100#8] = .ok (.sbbH, []) := by decide +kernel
theorem test_word_alu_imm : decode [0b11_110_110#8, 0x0F#8] = .ok (.ori 0x0F, []) := by decide +kernel
theorem test_word_rotate : decode [0b00_011_111#8] = .ok (.rar, []) := by decide +kernel
theorem test_word_jcc : decode [0b11_101_010#8, 0x34#8, 0x12#8] = .ok (.jpe 0x1234, []) := by decide +kernel
theorem test_word_rst : decode [0b11_101_111#8] = .ok (.rst5, []) := by decide +kernel
theorem test_word_push : decode [0b11_10_0101#8] = .ok (.pushH, []) := by decide +kernel
theorem test_word_out : decode [0b11_010_011#8, 0xFE#8] = .ok (.outPort 0xFE, []) := by decide +kernel
theorem test_word_duplicate : decode [0b11_001_011#8, 0x00#8, 0x3C#8] = .ok (.jmpCB 0x3C00, []) := by decide +kernel
theorem test_table_word : decodeTableWord 24 0x1234CD = some (.call 0x1234) := by decide +kernel
theorem test_fetch_word : step (State.reset.withFetchWord 8 0x3C) =
    (andThen (exec .inrA (State.reset.withFetchWord 8 0x3C).beginCycle.clearRecord.fetchOpcode)
      fun t => (t.forgetTemps.afterInstruction false).takeCommand) := rfl

/-! ## One step from 0x0100 (95_test_vectors.md, Part 2) -/

/-- The machine Running at 0x0100 with the given bytes there, CPU and memory. -/
def at100 (bytes : List Byte) (c : Cpu) (m : Memory) : State :=
  { State.reset with
    loop := .running
    cpu := { c with pc := 0x0100 }
    ram := (bytes.zipIdx).foldl (fun m x => m.write (0x0100 + x.2) x.1) m }

/-- One step answers a next state that passes the check. -/
def shows (s : State) (f : State → Bool) : Bool :=
  match step s with
  | .next t => f t
  | _ => false

theorem test_mov_b_c : shows (at100 [0x41] { Cpu.init with c := 0x5A } [])
    (fun t => t.cpu.b == 0x5A && t.cpu.pc == 0x0101 && t.cpu.cc == 8) = true := by decide +kernel

theorem test_mov_e_m : shows (at100 [0x5E] { Cpu.init with h := 0x20, l := 0x00 } [(0x2000, 0x77)])
    (fun t => t.cpu.e == 0x77 && t.cpu.pc == 0x0101 && t.cpu.cc == 8) = true := by decide +kernel

theorem test_mov_m_h_stores_h_itself : shows (at100 [0x74] { Cpu.init with h := 0x20, l := 0x02 } [])
    (fun t => t.cpu.pc == 0x0101 && t.ram.read 0x2002 == 0x20 && t.cpu.cc == 8) = true := by decide +kernel

theorem test_mvi_d_0xf0 : shows (at100 [0x16, 0xF0] Cpu.init [])
    (fun t => t.cpu.d == 0xF0 && t.cpu.pc == 0x0102 && t.cpu.cc == 8) = true := by decide +kernel

theorem test_mvi_m_0x42 : shows (at100 [0x36, 0x42] { Cpu.init with h := 0x30, l := 0x00 } [])
    (fun t => t.cpu.pc == 0x0102 && t.ram.read 0x3000 == 0x42 && t.cpu.cc == 12) = true := by decide +kernel

theorem test_lxi_h_0x1234 : shows (at100 [0x21, 0x34, 0x12] Cpu.init [])
    (fun t => t.cpu.h == 0x12 && t.cpu.l == 0x34 && t.cpu.pc == 0x0103 && t.cpu.cc == 12) = true := by decide +kernel

theorem test_lxi_sp_0xffff : shows (at100 [0x31, 0xFF, 0xFF] Cpu.init [])
    (fun t => t.cpu.sp == 0xFFFF && t.cpu.pc == 0x0103 && t.cpu.cc == 12) = true := by decide +kernel

theorem test_lda_0x2000 : shows (at100 [0x3A, 0x00, 0x20] Cpu.init [(0x2000, 0xA5)])
    (fun t => t.cpu.a == 0xA5 && t.cpu.pc == 0x0103 && t.cpu.cc == 16) = true := by decide +kernel

theorem test_sta_0x2001 : shows (at100 [0x32, 0x01, 0x20] { Cpu.init with a := 0x3C } [])
    (fun t => t.cpu.pc == 0x0103 && t.ram.read 0x2001 == 0x3C && t.cpu.cc == 16) = true := by decide +kernel

theorem test_lhld_0xffff_wraps : shows (at100 [0x2A, 0xFF, 0xFF] Cpu.init [(0x0000, 0x22), (0xFFFF, 0x11)])
    (fun t => t.cpu.h == 0x22 && t.cpu.l == 0x11 && t.cpu.pc == 0x0103 && t.cpu.cc == 20) = true := by decide +kernel

theorem test_shld_0x2002 : shows (at100 [0x22, 0x02, 0x20] { Cpu.init with h := 0xBE, l := 0xEF } [])
    (fun t => t.cpu.pc == 0x0103 && t.ram.read 0x2002 == 0xEF && t.ram.read 0x2003 == 0xBE &&
        t.cpu.cc == 20) = true := by decide +kernel

theorem test_ldax_b : shows (at100 [0x0A] { Cpu.init with b := 0x20, c := 0x10 } [(0x2010, 0x66)])
    (fun t => t.cpu.a == 0x66 && t.cpu.pc == 0x0101 && t.cpu.cc == 8) = true := by decide +kernel

theorem test_stax_d : shows (at100 [0x12] { Cpu.init with a := 0x13, d := 0x20, e := 0x21 } [])
    (fun t => t.cpu.pc == 0x0101 && t.ram.read 0x2021 == 0x13 && t.cpu.cc == 8) = true := by decide +kernel

theorem test_xchg : shows (at100 [0xEB] { Cpu.init with d := 0x12, e := 0x34, h := 0x56, l := 0x78 } [])
    (fun t => t.cpu.d == 0x56 && t.cpu.e == 0x78 && t.cpu.h == 0x12 && t.cpu.l == 0x34 && t.cpu.pc == 0x0101 &&
        t.cpu.cc == 4) = true := by decide +kernel

theorem test_add_b : shows (at100 [0x80] { Cpu.init with a := 0x2E, b := 0x6C } [])
    (fun t => t.cpu.a == 0x9A && t.cpu.pc == 0x0101 && t.cpu.flags.pack == 0x96 &&
        t.cpu.cc == 4) = true := by decide +kernel

theorem test_add_a_doubling : shows (at100 [0x87] { Cpu.init with a := 0x88 } [])
    (fun t => t.cpu.a == 0x10 && t.cpu.pc == 0x0101 && t.cpu.flags.pack == 0x13 &&
        t.cpu.cc == 4) = true := by decide +kernel

theorem test_add_m : shows (at100 [0x86] { Cpu.init with a := 0x01, h := 0x20, l := 0x00 } [(0x2000, 0x0F)])
    (fun t => t.cpu.a == 0x10 && t.cpu.pc == 0x0101 && t.cpu.flags.pack == 0x12 &&
        t.cpu.cc == 8) = true := by decide +kernel

theorem test_adc_c_with_cy_1_0xff_0x00_1 : shows (at100 [0x89] { Cpu.init with a := 0xFF, c := 0x00, flags := Flags.unpack 0x03 } [])
    (fun t => t.cpu.a == 0x00 && t.cpu.pc == 0x0101 && t.cpu.flags.pack == 0x57 &&
        t.cpu.cc == 4) = true := by decide +kernel

theorem test_sub_a : shows (at100 [0x97] { Cpu.init with a := 0x3E } [])
    (fun t => t.cpu.a == 0x00 && t.cpu.pc == 0x0101 && t.cpu.flags.pack == 0x56 &&
        t.cpu.cc == 4) = true := by decide +kernel

theorem test_sub_b_0x10_0x01_ac_0 : shows (at100 [0x90] { Cpu.init with a := 0x10, b := 0x01 } [])
    (fun t => t.cpu.a == 0x0F && t.cpu.pc == 0x0101 && t.cpu.flags.pack == 0x06 &&
        t.cpu.cc == 4) = true := by decide +kernel

theorem test_sbb_l_with_cy_1_0x00_0xff_1 : shows (at100 [0x9D] { Cpu.init with a := 0x00, l := 0xFF, flags := Flags.unpack 0x03 } [])
    (fun t => t.cpu.pc == 0x0101 && t.cpu.flags.pack == 0x47 && t.cpu.cc == 4) = true := by decide +kernel

theorem test_adi_0x42 : shows (at100 [0xC6, 0x42] { Cpu.init with a := 0x14 } [])
    (fun t => t.cpu.a == 0x56 && t.cpu.pc == 0x0102 && t.cpu.flags.pack == 0x06 &&
        t.cpu.cc == 8) = true := by decide +kernel

theorem test_aci_0x00_with_cy_1 : shows (at100 [0xCE, 0x00] { Cpu.init with a := 0x0F, flags := Flags.unpack 0x03 } [])
    (fun t => t.cpu.a == 0x10 && t.cpu.pc == 0x0102 && t.cpu.flags.pack == 0x12 &&
        t.cpu.cc == 8) = true := by decide +kernel

theorem test_sui_0x01 : shows (at100 [0xD6, 0x01] { Cpu.init with a := 0x00 } [])
    (fun t => t.cpu.a == 0xFF && t.cpu.pc == 0x0102 && t.cpu.flags.pack == 0x87 &&
        t.cpu.cc == 8) = true := by decide +kernel

theorem test_sbi_0x01_with_cy_1 : shows (at100 [0xDE, 0x01] { Cpu.init with a := 0x02, flags := Flags.unpack 0x03 } [])
    (fun t => t.cpu.a == 0x00 && t.cpu.pc == 0x0102 && t.cpu.flags.pack == 0x56 &&
        t.cpu.cc == 8) = true := by decide +kernel

theorem test_inr_a_0xff_cy_kept : shows (at100 [0x3C] { Cpu.init with a := 0xFF, flags := Flags.unpack 0x03 } [])
    (fun t => t.cpu.a == 0x00 && t.cpu.pc == 0x0101 && t.cpu.flags.pack == 0x57 &&
        t.cpu.cc == 8) = true := by decide +kernel

theorem test_inr_m : shows (at100 [0x34] { Cpu.init with h := 0x20, l := 0x00 } [(0x2000, 0x7F)])
    (fun t => t.cpu.pc == 0x0101 && t.cpu.flags.pack == 0x92 && t.ram.read 0x2000 == 0x80 &&
        t.cpu.cc == 12) = true := by decide +kernel

theorem test_dcr_c_0x00 : shows (at100 [0x0D] { Cpu.init with c := 0x00 } [])
    (fun t => t.cpu.c == 0xFF && t.cpu.pc == 0x0101 && t.cpu.flags.pack == 0x86 &&
        t.cpu.cc == 8) = true := by decide +kernel

theorem test_dcr_c_0x10 : shows (at100 [0x0D] { Cpu.init with c := 0x10 } [])
    (fun t => t.cpu.c == 0x0F && t.cpu.pc == 0x0101 && t.cpu.flags.pack == 0x06 &&
        t.cpu.cc == 8) = true := by decide +kernel

theorem test_dcr_m : shows (at100 [0x35] { Cpu.init with h := 0x20, l := 0x00 } [(0x2000, 0x80)])
    (fun t => t.cpu.pc == 0x0101 && t.ram.read 0x2000 == 0x7F && t.cpu.cc == 12) = true := by decide +kernel

theorem test_inx_h_0x00ff : shows (at100 [0x23] { Cpu.init with h := 0x00, l := 0xFF } [])
    (fun t => t.cpu.h == 0x01 && t.cpu.l == 0x00 && t.cpu.pc == 0x0101 && t.cpu.cc == 8) = true := by decide +kernel

theorem test_inx_sp_0xffff_wraps : shows (at100 [0x33] { Cpu.init with sp := 0xFFFF } [])
    (fun t => t.cpu.sp == 0x0000 && t.cpu.pc == 0x0101 && t.cpu.cc == 8) = true := by decide +kernel

theorem test_dcx_b_0x0000_wraps : shows (at100 [0x0B] Cpu.init [])
    (fun t => t.cpu.b == 0xFF && t.cpu.c == 0xFF && t.cpu.pc == 0x0101 && t.cpu.cc == 8) = true := by decide +kernel

theorem test_dad_b : shows (at100 [0x09] { Cpu.init with b := 0x33, c := 0x9F, h := 0xA1, l := 0x7B } [])
    (fun t => t.cpu.h == 0xD5 && t.cpu.l == 0x1A && t.cpu.pc == 0x0101 && t.cpu.cc == 12) = true := by decide +kernel

theorem test_dad_sp : shows (at100 [0x39] { Cpu.init with sp := 0x0002, h := 0xFF, l := 0xFF } [])
    (fun t => t.cpu.h == 0x00 && t.cpu.l == 0x01 && t.cpu.pc == 0x0101 && t.cpu.flags.pack == 0x03 &&
        t.cpu.cc == 12) = true := by decide +kernel

theorem test_daa_0x9b : shows (at100 [0x27] { Cpu.init with a := 0x9B } [])
    (fun t => t.cpu.a == 0x01 && t.cpu.pc == 0x0101 && t.cpu.flags.pack == 0x13 &&
        t.cpu.cc == 4) = true := by decide +kernel

theorem test_daa_0x00_with_ac_1 : shows (at100 [0x27] { Cpu.init with a := 0x00, flags := Flags.unpack 0x12 } [])
    (fun t => t.cpu.a == 0x06 && t.cpu.pc == 0x0101 && t.cpu.flags.pack == 0x06 &&
        t.cpu.cc == 4) = true := by decide +kernel

theorem test_ana_b_ac_from_bit_3 : shows (at100 [0xA0] { Cpu.init with a := 0x08, b := 0x00 } [])
    (fun t => t.cpu.a == 0x00 && t.cpu.pc == 0x0101 && t.cpu.flags.pack == 0x56 &&
        t.cpu.cc == 4) = true := by decide +kernel

theorem test_ana_m : shows (at100 [0xA6] { Cpu.init with a := 0xF0, h := 0x20, l := 0x00 } [(0x2000, 0x3C)])
    (fun t => t.cpu.a == 0x30 && t.cpu.pc == 0x0101 && t.cpu.flags.pack == 0x16 &&
        t.cpu.cc == 8) = true := by decide +kernel

theorem test_xra_c : shows (at100 [0xA9] { Cpu.init with a := 0xF0, c := 0x0F } [])
    (fun t => t.cpu.a == 0xFF && t.cpu.pc == 0x0101 && t.cpu.flags.pack == 0x86 &&
        t.cpu.cc == 4) = true := by decide +kernel

theorem test_ora_d : shows (at100 [0xB2] { Cpu.init with a := 0x33, d := 0x0C, flags := Flags.unpack 0x01 } [])
    (fun t => t.cpu.a == 0x3F && t.cpu.pc == 0x0101 && t.cpu.flags.pack == 0x06 &&
        t.cpu.cc == 4) = true := by decide +kernel

theorem test_cmp_e_a_e : shows (at100 [0xBB] { Cpu.init with a := 0x02, e := 0x05 } [])
    (fun t => t.cpu.pc == 0x0101 && t.cpu.flags.pack == 0x83 && t.cpu.cc == 4) = true := by decide +kernel

theorem test_ani_0x0f : shows (at100 [0xE6, 0x0F] { Cpu.init with a := 0x3A } [])
    (fun t => t.cpu.a == 0x0A && t.cpu.pc == 0x0102 && t.cpu.flags.pack == 0x16 &&
        t.cpu.cc == 8) = true := by decide +kernel

theorem test_xri_0xff : shows (at100 [0xEE, 0xFF] { Cpu.init with a := 0x3A } [])
    (fun t => t.cpu.a == 0xC5 && t.cpu.pc == 0x0102 && t.cpu.flags.pack == 0x86 &&
        t.cpu.cc == 8) = true := by decide +kernel

theorem test_ori_0x80 : shows (at100 [0xF6, 0x80] { Cpu.init with a := 0x01 } [])
    (fun t => t.cpu.a == 0x81 && t.cpu.pc == 0x0102 && t.cpu.flags.pack == 0x86 &&
        t.cpu.cc == 8) = true := by decide +kernel

theorem test_cpi_0x40_a_0x40 : shows (at100 [0xFE, 0x40] { Cpu.init with a := 0x3F } [])
    (fun t => t.cpu.pc == 0x0102 && t.cpu.flags.pack == 0x97 && t.cpu.cc == 8) = true := by decide +kernel

theorem test_rlc_0xf2 : shows (at100 [0x07] { Cpu.init with a := 0xF2 } [])
    (fun t => t.cpu.a == 0xE5 && t.cpu.pc == 0x0101 && t.cpu.flags.pack == 0x03 &&
        t.cpu.cc == 4) = true := by decide +kernel

theorem test_rrc_0x01 : shows (at100 [0x0F] { Cpu.init with a := 0x01 } [])
    (fun t => t.cpu.a == 0x80 && t.cpu.pc == 0x0101 && t.cpu.flags.pack == 0x03 &&
        t.cpu.cc == 4) = true := by decide +kernel

theorem test_ral_0xb5_cy_0 : shows (at100 [0x17] { Cpu.init with a := 0xB5 } [])
    (fun t => t.cpu.a == 0x6A && t.cpu.pc == 0x0101 && t.cpu.flags.pack == 0x03 &&
        t.cpu.cc == 4) = true := by decide +kernel

theorem test_rar_0x6a_cy_1 : shows (at100 [0x1F] { Cpu.init with a := 0x6A, flags := Flags.unpack 0x03 } [])
    (fun t => t.cpu.a == 0xB5 && t.cpu.pc == 0x0101 && t.cpu.flags.pack == 0x02 &&
        t.cpu.cc == 4) = true := by decide +kernel

theorem test_cma : shows (at100 [0x2F] { Cpu.init with a := 0x51 } [])
    (fun t => t.cpu.a == 0xAE && t.cpu.pc == 0x0101 && t.cpu.cc == 4) = true := by decide +kernel

theorem test_cmc_cy_1 : shows (at100 [0x3F] { Cpu.init with flags := Flags.unpack 0x03 } [])
    (fun t => t.cpu.pc == 0x0101 && t.cpu.flags.pack == 0x02 && t.cpu.cc == 4) = true := by decide +kernel

theorem test_stc : shows (at100 [0x37] Cpu.init [])
    (fun t => t.cpu.pc == 0x0101 && t.cpu.flags.pack == 0x03 && t.cpu.cc == 4) = true := by decide +kernel

theorem test_jmp_0x3c00 : shows (at100 [0xC3, 0x00, 0x3C] Cpu.init [])
    (fun t => t.cpu.pc == 0x3C00 && t.cpu.cc == 12) = true := by decide +kernel

theorem test_jz_0x2000_z_1_taken : shows (at100 [0xCA, 0x00, 0x20] { Cpu.init with flags := Flags.unpack 0x42 } [])
    (fun t => t.cpu.pc == 0x2000 && t.cpu.cc == 12) = true := by decide +kernel

theorem test_jz_0x2000_z_0_not_taken : shows (at100 [0xCA, 0x00, 0x20] Cpu.init [])
    (fun t => t.cpu.pc == 0x0103 && t.cpu.cc == 12) = true := by decide +kernel

theorem test_jpe_0x2000_p_1 : shows (at100 [0xEA, 0x00, 0x20] { Cpu.init with flags := Flags.unpack 0x06 } [])
    (fun t => t.cpu.pc == 0x2000 && t.cpu.cc == 12) = true := by decide +kernel

theorem test_jm_0x2000_s_0 : shows (at100 [0xFA, 0x00, 0x20] Cpu.init [])
    (fun t => t.cpu.pc == 0x0103 && t.cpu.cc == 12) = true := by decide +kernel

theorem test_call_0x2000 : shows (at100 [0xCD, 0x00, 0x20] { Cpu.init with sp := 0x8000 } [])
    (fun t => t.cpu.sp == 0x7FFE && t.cpu.pc == 0x2000 && t.ram.read 0x7FFF == 0x01 && t.ram.read 0x7FFE == 0x03 &&
        t.cpu.cc == 24) = true := by decide +kernel

theorem test_call_0x2000_sp_0x0000_wraps : shows (at100 [0xCD, 0x00, 0x20] Cpu.init [])
    (fun t => t.cpu.sp == 0xFFFE && t.cpu.pc == 0x2000 && t.ram.read 0xFFFF == 0x01 && t.ram.read 0xFFFE == 0x03 &&
        t.cpu.cc == 24) = true := by decide +kernel

theorem test_cnz_0x2000_z_1_not_taken_same_mc : shows (at100 [0xC4, 0x00, 0x20] { Cpu.init with sp := 0x8000, flags := Flags.unpack 0x42 } [])
    (fun t => t.cpu.pc == 0x0103 && t.cpu.cc == 24) = true := by decide +kernel

theorem test_cc_0x2000_cy_1_taken : shows (at100 [0xDC, 0x00, 0x20] { Cpu.init with sp := 0x8000, flags := Flags.unpack 0x03 } [])
    (fun t => t.cpu.sp == 0x7FFE && t.cpu.pc == 0x2000 && t.ram.read 0x7FFF == 0x01 && t.ram.read 0x7FFE == 0x03 &&
        t.cpu.cc == 24) = true := by decide +kernel

theorem test_ret : shows (at100 [0xC9] { Cpu.init with sp := 0x7FFE } [(0x7FFE, 0x03), (0x7FFF, 0x01)])
    (fun t => t.cpu.sp == 0x8000 && t.cpu.pc == 0x0103 && t.cpu.cc == 12) = true := by decide +kernel

theorem test_rnz_z_0_taken : shows (at100 [0xC0] { Cpu.init with sp := 0x7FFE } [(0x7FFE, 0x03), (0x7FFF, 0x01)])
    (fun t => t.cpu.sp == 0x8000 && t.cpu.pc == 0x0103 && t.cpu.cc == 16) = true := by decide +kernel

theorem test_rz_z_0_not_taken_same_mc : shows (at100 [0xC8] { Cpu.init with sp := 0x7FFE } [(0x7FFE, 0x03), (0x7FFF, 0x01)])
    (fun t => t.cpu.pc == 0x0101 && t.cpu.cc == 16) = true := by decide +kernel

theorem test_rst_0 : shows (at100 [0xC7] { Cpu.init with sp := 0x8000 } [])
    (fun t => t.cpu.sp == 0x7FFE && t.cpu.pc == 0x0000 && t.ram.read 0x7FFF == 0x01 && t.ram.read 0x7FFE == 0x01 &&
        t.cpu.cc == 16) = true := by decide +kernel

theorem test_rst_7 : shows (at100 [0xFF] { Cpu.init with sp := 0x8000 } [])
    (fun t => t.cpu.sp == 0x7FFE && t.cpu.pc == 0x0038 && t.ram.read 0x7FFF == 0x01 && t.ram.read 0x7FFE == 0x01 &&
        t.cpu.cc == 16) = true := by decide +kernel

theorem test_pchl : shows (at100 [0xE9] { Cpu.init with h := 0x41, l := 0x3E } [])
    (fun t => t.cpu.pc == 0x413E && t.cpu.cc == 8) = true := by decide +kernel

theorem test_push_b : shows (at100 [0xC5] { Cpu.init with b := 0x8F, c := 0x9D, sp := 0x3A2C } [])
    (fun t => t.cpu.sp == 0x3A2A && t.cpu.pc == 0x0101 && t.ram.read 0x3A2B == 0x8F && t.ram.read 0x3A2A == 0x9D &&
        t.cpu.cc == 16) = true := by decide +kernel

theorem test_push_psw_fixed_bits : shows (at100 [0xF5] { Cpu.init with a := 0x1F, flags := Flags.unpack 0x47, sp := 0x502A } [])
    (fun t => t.cpu.sp == 0x5028 && t.cpu.pc == 0x0101 && t.ram.read 0x5029 == 0x1F && t.ram.read 0x5028 == 0x47 &&
        t.cpu.cc == 16) = true := by decide +kernel

theorem test_pop_h : shows (at100 [0xE1] { Cpu.init with sp := 0x1239 } [(0x1239, 0x3D), (0x123A, 0x93)])
    (fun t => t.cpu.h == 0x93 && t.cpu.l == 0x3D && t.cpu.sp == 0x123B && t.cpu.pc == 0x0101 &&
        t.cpu.cc == 12) = true := by decide +kernel

theorem test_pop_psw_0xff_fixed_bits_forced : shows (at100 [0xF1] { Cpu.init with sp := 0x7FFE } [(0x7FFE, 0xFF), (0x7FFF, 0xAA)])
    (fun t => t.cpu.a == 0xAA && t.cpu.sp == 0x8000 && t.cpu.pc == 0x0101 && t.cpu.flags.pack == 0xD7 &&
        t.cpu.cc == 12) = true := by decide +kernel

theorem test_xthl : shows (at100 [0xE3] { Cpu.init with h := 0x0B, l := 0x3C, sp := 0x10AD } [(0x10AD, 0xF0), (0x10AE, 0x0D)])
    (fun t => t.cpu.h == 0x0D && t.cpu.l == 0xF0 && t.cpu.pc == 0x0101 && t.ram.read 0x10AE == 0x0B &&
        t.ram.read 0x10AD == 0x3C && t.cpu.cc == 24) = true := by decide +kernel

theorem test_sphl : shows (at100 [0xF9] { Cpu.init with h := 0x50, l := 0x6C } [])
    (fun t => t.cpu.sp == 0x506C && t.cpu.pc == 0x0101 && t.cpu.cc == 8) = true := by decide +kernel

theorem test_ei : shows (at100 [0xFB] Cpu.init [])
    (fun t => t.cpu.pc == 0x0101 && t.cpu.inte == true && t.cpu.eip == true &&
        t.cpu.cc == 4) = true := by decide +kernel

theorem test_di : shows { at100 [0xF3] { Cpu.init with inte := true } [] with displayIn := [⟨0, false, []⟩] }
    (fun t => t.cpu.pc == 0x0101 && t.cpu.inte == false && t.cpu.cc == 4) = true := by decide +kernel

theorem test_hlt : shows (at100 [0x76] Cpu.init [])
    (fun t => t.cpu.pc == 0x0101 && t.cpu.halt == true && t.cpu.cc == 8) = true := by decide +kernel

theorem test_nop : shows (at100 [0x00] Cpu.init [])
    (fun t => t.cpu.pc == 0x0101 && t.cpu.cc == 4) = true := by decide +kernel

theorem test_nop_dup_0x20_not_rim : shows (at100 [0x20] { Cpu.init with a := 0x55 } [])
    (fun t => t.cpu.pc == 0x0101 && t.cpu.cc == 4) = true := by decide +kernel

theorem test_jmp_dup_0xcb : shows (at100 [0xCB, 0x00, 0x3C] Cpu.init [])
    (fun t => t.cpu.pc == 0x3C00 && t.cpu.cc == 12) = true := by decide +kernel

theorem test_ret_dup_0xd9 : shows (at100 [0xD9] { Cpu.init with sp := 0x7FFE } [(0x7FFE, 0x03), (0x7FFF, 0x01)])
    (fun t => t.cpu.sp == 0x8000 && t.cpu.pc == 0x0103 && t.cpu.cc == 12) = true := by decide +kernel

theorem test_call_dup_0xed : shows (at100 [0xED, 0x00, 0x20] { Cpu.init with sp := 0x8000 } [])
    (fun t => t.cpu.sp == 0x7FFE && t.cpu.pc == 0x2000 && t.ram.read 0x7FFF == 0x01 && t.ram.read 0x7FFE == 0x03 &&
        t.cpu.cc == 24) = true := by decide +kernel

/-- `IN 0x10` with the port answering 0x5A. -/
theorem test_in_0x10 : shows { at100 [0xDB, 0x10] Cpu.init [] with portIn := [0x5A] }
    (fun t => t.cpu.a == 0x5A && t.cpu.pc == 0x0102 && t.cpu.cc == 12 && t.diff.reads == [] &&
        t.portIn == []) = true := by
  decide +kernel

/-- `OUT 0x10`: port_out(10, C3) in machine cycle 2. -/
theorem test_out_0x10 : shows (at100 [0xD3, 0x10] { Cpu.init with a := 0xC3 } [])
    (fun t => (busEvents t.trace).getLast? == some (2, .portOut 0x10 0xC3) && t.cpu.pc == 0x0102) = true := by
  decide +kernel

/-- E1: `LXI H,0x1234` reads its three bytes in machine cycles 0, 1 and 2. -/
theorem test_lxi_schedule : shows (at100 [0x21, 0x34, 0x12] Cpu.init [])
    (fun t => busEvents t.trace ==
        [(0, .fetch 0x0100 0x0100 0x21), (1, .fetch 0x0101 0x0101 0x34), (2, .fetch 0x0102 0x0102 0x12)] &&
      cycleIndices t.trace == [0, 1, 2] && t.mci == 0) = true := by decide +kernel

/-! ## The diff record (R1, R2, R4 to R6) -/

theorem test_diff_xthl :
    shows (at100 [0xE3] { Cpu.init with sp := 0x10AD, h := 0x0B, l := 0x3C } [(0x10AD, 0xF0), (0x10AE, 0x0D)])
      (fun t => t.diff == { bytes := [0xE3], reads := [(0x10AD, 0xF0), (0x10AE, 0x0D)],
                            writes := [⟨0x10AE, 0x0D, 0x0B⟩, ⟨0x10AD, 0xF0, 0x3C⟩], irqTaken := false }) = true := by
  decide +kernel

theorem test_diff_shld : shows (at100 [0x22, 0x02, 0x20] { Cpu.init with h := 0xBE, l := 0xEF } [])
    (fun t => t.diff == { bytes := [0x22, 0x02, 0x20], reads := [],
                          writes := [⟨0x2002, 0x00, 0xEF⟩, ⟨0x2003, 0x00, 0xBE⟩], irqTaken := false }) = true := by
  decide +kernel

theorem test_diff_service :
    shows { at100 [] { Cpu.init with sp := 0x8000, inte := true, latch := true } [] with
            cpu := { Cpu.init with pc := 0x0102, sp := 0x8000, inte := true, latch := true } }
      (fun t => t.diff == { bytes := [0xFF], reads := [],
                            writes := [⟨0x7FFF, 0x00, 0x01⟩, ⟨0x7FFE, 0x00, 0x02⟩], irqTaken := true } &&
        t.cpu.pc == 0x0038 && !t.cpu.inte && !t.cpu.latch && t.cpu.cc == 16) = true := by decide +kernel

theorem test_diff_halt_cycle :
    shows { at100 [0x76] Cpu.init [] with cpu := { Cpu.init with pc := 0x0101, halt := true } }
      (fun t => t.diff == { bytes := [0x76], reads := [], writes := [], irqTaken := false } &&
        t.cpu.pc == 0x0101 && t.cpu.cc == 8 && t.cpu.halt) = true := by decide +kernel

/-- R6: with bank 0 holding 0x10 a push goes to page 0 of bank 0. -/
theorem test_diff_push_stack_page :
    shows { at100 [0xC5] { Cpu.init with sp := 0x8000, b := 0x12, c := 0x34 } [] with map := Mapping.reset.set 0 0x10 }
      (fun t => t.diff.writes == [⟨0x17FFF, 0x00, 0x12⟩, ⟨0x17FFE, 0x00, 0x34⟩]) = true := by decide +kernel

/-! ## Interrupts (V3, V4) -/

/-- V4: a latched request is serviced before the `DI` at 0x0100. -/
theorem test_service_before_di :
    shows (at100 [0xF3] { Cpu.init with sp := 0x8000, inte := true, latch := true } [])
      (fun t => t.ram.read 0x7FFF == 0x01 && t.ram.read 0x7FFE == 0x00 && t.cpu.pc == 0x0038) = true := by
  decide +kernel

/-- V2: EIP shields the instruction after `EI`, which its fetch clears. -/
theorem test_eip_shields : shows (at100 [0x00] { Cpu.init with inte := true, latch := true, eip := true } [])
    (fun t => t.cpu.pc == 0x0101 && !t.cpu.eip && t.cpu.latch && t.cpu.inte) = true := by decide +kernel

/-- V1: a request while INTE is 0 is lost with `WhenEnabled` and kept with `Always`. -/
theorem test_latch_policies :
    shows { at100 [0x00] Cpu.init [] with displayIn := [⟨0, true, []⟩] } (fun t => !t.cpu.latch) = true ∧
    shows { at100 [0x00] Cpu.init [] with
            displayIn := [⟨0, true, []⟩], params := { Params.default with latchPolicy := .always } }
      (fun t => t.cpu.latch) = true := by decide +kernel

/-! ## Translation and the boot ROM (T1 to T16, O1 to O5) -/

/-- The mapping after one write. -/
def mapped (b : Fin 8) (v : Byte) : Mapping := Mapping.reset.set b.val v

theorem test_translate_identity : translate defaultLayout Mapping.reset 0xB000 .normal = 0xB000 := by decide +kernel
theorem test_translate_t2 : translate defaultLayout (mapped 2 0x21) 0xB000 .normal = 0x0AB000 := by decide +kernel
theorem test_translate_t3 : translate defaultLayout (mapped 2 0x21) 0x9000 .normal = 0x009000 := by decide +kernel
theorem test_translate_t4 : translate defaultLayout (mapped 2 0x21) 0xB000 .stack = 0x0AB000 := by decide +kernel
theorem test_translate_t5 : translate defaultLayout (mapped 0 0x1C) 0x1234 .stack = 0x041234 := by decide +kernel
theorem test_translate_t6 : translate defaultLayout (mapped 0 0x1C) 0x1234 .normal = 0x001234 := by decide +kernel
theorem test_translate_t7 : translate defaultLayout (mapped 7 0xC3) 0x8000 .normal = 0x208000 := by decide +kernel
theorem test_translate_t9 : translate defaultLayout (mapped 7 0xC3) 0xFFFF .normal = 0x20FFFF := by decide +kernel
theorem test_translate_t10 : translate defaultLayout (mapped 7 0xC3) 0xDFFF .normal = 0x00DFFF := by decide +kernel
theorem test_translate_t12 : translate defaultLayout (mapped 3 0x2E) 0xC000 .stack = 0x0FC000 := by decide +kernel
theorem test_translate_t14 : activeBank defaultLayout (mapped 1 0x03) = none := by decide +kernel
theorem test_translate_t15 :
    let m := (mapped 1 0x20).set 4 0x40
    activeBank defaultLayout m = some 1 ∧ mappingConflict defaultLayout m = true ∧
      translate defaultLayout m 0xA000 .normal = 0x05A000 ∧ translate defaultLayout m 0x8000 .normal = 0x008000 := by
  decide +kernel

/-- A machine in ROM mode with a ROM of 17 bytes whose byte 0x10 is 0xAA, over a RAM byte 0x55. -/
def overlaid : State :=
  { State.reset with ram := [(0x0010, 0x55)], params := { Params.default with rom := List.replicate 16 0 ++ [0xAA] } }

theorem test_overlay_o1 : overlaid.readByte 0x0010 .normal = 0xAA := by decide +kernel
theorem test_overlay_o2 :
    let t := overlaid.writeByte 0x0010 .normal 0x77
    t.ram.read 0x0010 = 0x77 ∧ t.readByte 0x0010 .normal = 0xAA ∧ t.diff.writes = [⟨0x0010, 0x55, 0x77⟩] ∧
      ({ t with romMode := false } : State).readByte 0x0010 .normal = 0x77 := by decide +kernel
theorem test_overlay_o4 :
    ({ overlaid with ram := [(0x0011, 0x42)] } : State).readByte 0x0011 .normal = 0x42 := by decide +kernel
theorem test_overlay_o5 :
    ({ overlaid with map := mapped 0 0x10, ram := [(0x10010, 0x42)] } : State).readByte 0x0010 .stack = 0x42 := by
  decide +kernel

/-! ## Faults, host and reset (F1 to F7, Z1 to Z3) -/

/-- F1: port 0x11 writes bank 4 while bank 1 is enabled. -/
def conflicting : State :=
  { at100 [0xD3, 0x11] { Cpu.init with a := 0x40 } [] with
    map := mapped 1 0x20, params := { Params.default with bankPorts := [(0x11, 4)] } }

theorem test_conflict_f1 : shows conflicting
    (fun t => t.fault == .mappingConflict && t.loop == .stopped && t.cpu.pc == 0x0102 &&
        t.map.get 4 == 0x40) = true := by
  decide +kernel

/-- What a command answers, checked. -/
def answers (s : State) (c : Command) (f : State → Bool) : Bool :=
  match s.execute c with
  | .next t => f t
  | _ => false

/-- F1's state after the step. -/
def conflicted : State := { conflicting with map := (mapped 1 0x20).set 4 0x40, fault := .mappingConflict, loop := .stopped }

theorem test_run_f2 : answers conflicted .run
    (fun t => t.fault == .mappingConflict && t.loop == .stopped &&
      t.responses == [⟨.notAllowed, .mappingConflict, .stopped⟩]) = true := by decide +kernel
theorem test_reset_f3 : answers conflicted .reset
    (fun t => t.fault == .none && t.map == Mapping.reset && t.romMode && t.loop == .stopped &&
        t.cpu == Cpu.init && t.responses == [⟨.ok, .mappingConflict, .stopped⟩]) = true := by
  decide +kernel
theorem test_restart_f4 : answers conflicted .restart
    (fun t => t.fault == .none && t.map == Mapping.reset && !t.romMode && t.view.a == none &&
        t.cpu.pc == 0) = true := by
  decide +kernel
theorem test_get_byte_f5 : answers { conflicted with ram := [(0x05A000, 0x99)] } (.getByte 0xA000 .normal)
    (fun t => t.responses == [⟨.byte 0x99, .mappingConflict, .stopped⟩]) = true := by decide +kernel
theorem test_get_word_f7 : answers { State.reset with ram := [(0x0000, 0xAB), (0xFFFF, 0xCD)] } (.getWord 0xFFFF .normal)
    (fun t => t.responses == [⟨.word 0xABCD, .none, .stopped⟩]) = true := by decide +kernel
theorem test_execute_f8 : answers { State.reset with loop := .running } .executeOneInstruction
    (fun t => t.responses == [⟨.notAllowed, .none, .running⟩] && t.cpu == Cpu.init) = true := by decide +kernel

/-! ## The History Engine (H1 to H7) -/

/-- Snapshot of frame 1 of H1. -/
def frameOne : Snapshot := { Snapshot.powerOn with cpu := { Cpu.init with pc := 0x0010 }, disp := ⟨1, false, []⟩ }

/-- The state of H1: two checkpoints, live in frame 1. -/
def twoFrames : State :=
  { State.reset with
    cpu := { Cpu.init with pc := 0x0020 }
    disp := ⟨1, false, []⟩
    lastFrame := 1
    ram := [(0x2000, 0x33), (0x2001, 0x22)]
    params := { Params.default with historyCapacity := 3 }
    hist := { checkpoints := [⟨Snapshot.powerOn, [⟨0x2000, 0x00, 0x11⟩, ⟨0x2001, 0x00, 0x22⟩]⟩,
                              ⟨frameOne, [⟨0x2000, 0x11, 0x33⟩]⟩]
              wcur := 1, pos := 1, live := true, liveSnap := none, hFrame := 1, attached := true } }

/-- The state of H3. -/
def backToZero : State := twoFrames.playReverse 5

theorem test_reverse_h2 :
    let t := twoFrames.playReverse 1
    t.snapshot = frameOne ∧ t.ram = [(0x2000, 0x11), (0x2001, 0x22)] ∧ t.hist.pos = 1 ∧ t.hist.live = false ∧
      t.hist.liveSnap = some twoFrames.snapshot := by decide +kernel
theorem test_reverse_h3 :
    backToZero.snapshot = Snapshot.powerOn ∧ backToZero.ram = [] ∧ backToZero.hist.pos = 0 ∧
      backToZero.hist.live = false := by decide +kernel
theorem test_forward_h4 :
    let t := backToZero.playForward 2
    t.snapshot = twoFrames.snapshot ∧ t.ram = twoFrames.ram ∧ t.hist.live = true ∧ t.hist.pos = 1 := by decide +kernel
theorem test_eviction_h5 :
    let next (s : State) (n : Nat) : State := { s with disp := ⟨n, false, []⟩ }.onInstructionRetired
    let t := next (next (next twoFrames 2) 3) 4
    t.hist.count = 3 ∧ t.hist.pos = 2 ∧ t.hist.checkpoints.map (fun k => k.snap.disp.frame) = [2, 3, 4] := by
  decide +kernel
theorem test_run_h6 : answers backToZero .run
    (fun t => t.hist.count == 1 && t.hist.live && t.hist.checkpoints == [⟨Snapshot.powerOn, []⟩] &&
      t.loop == .running) = true := by decide +kernel
theorem test_load_h7 : answers twoFrames (.loadRecording { version := 2, body := none })
    (fun t => t.responses == [⟨.badRecording, .none, .stopped⟩] && t.hist == twoFrames.hist) = true := by
  decide +kernel

/-! ## Witnesses: a state and operands that meet the hypotheses of each statement -/

/-- The parameters of the power-on machine meet every well-formedness hypothesis (Completes, UndocumentedOpcodesDuplicate,
CyclesOfAnInstruction, InterruptService, HaltCycle). -/
theorem witness_params : State.reset.params.wellFormed = true ∧ wellFormedMc State.reset.params.mc = true :=
  ⟨test_params_ok, wellFormed_mc test_params_ok⟩

/-- Every statement of a frame, and of time and the diff record, has an instruction that answers a next state. -/
theorem witness_exec : ∃ t, exec (.lxiSp 0xFFFF) State.reset = .next t := exec_next _ _

/-- RegisterFrame: a register not written and one written, SP written and not, a conditional call either way. -/
theorem witness_register_frame :
    (∃ t, exec (.mviB 5) State.reset = .next t) ∧ Reg.c ∉ writtenRegs (shapeOf (.mviB 5)) ∧
      Reg.b ∈ writtenRegs (shapeOf (.mviB 5)) ∧ writesSp (shapeOf (.mviB 5)) State.reset.cpu.flags = false ∧
      writesSp (shapeOf .inxSp) State.reset.cpu.flags = true ∧
      writesSp (shapeOf (.cnz 0)) State.reset.cpu.flags = true ∧
      writesSp (shapeOf (.cz 0)) State.reset.cpu.flags = false := ⟨exec_next _ _, by decide⟩

/-- FlagFrame: each of its four clauses. -/
theorem witness_flag_frame :
    (∃ t, exec .inrB State.reset = .next t) ∧ writesSzap (shapeOf .inrB) = true ∧ writesCy (shapeOf .inrB) = false ∧
      writesSzap (shapeOf .stc) = false ∧ writesCy (shapeOf .stc) = true := ⟨exec_next _ _, by decide⟩

/-- MemoryFrame: a form that stores two bytes, an address outside them, and a form that stores none. -/
theorem witness_memory_frame :
    (∃ t, exec (.shld 0xFFFF) State.reset = .next t) ∧
        storedAddrs (shapeOf (.shld 0xFFFF)) State.reset = [0xFFFF, 0x0000] ∧
      0x10000 ∉ storedAddrs (shapeOf (.shld 0xFFFF)) State.reset ∧ storedAddrs (shapeOf .cmpM) State.reset = [] :=
  ⟨exec_next _ _, by decide +kernel⟩

/-- ControlStateFrame: an instruction that is none of the exceptions, and a latched request. -/
theorem witness_control_frame :
    (∃ t, exec .nop { State.reset with cpu := { Cpu.init with latch := true } } = .next t) ∧
      (∀ port, Instr.nop ≠ .outPort port) ∧ (∀ port, Instr.nop ≠ .inPort port) ∧ Instr.nop ≠ .ei ∧ Instr.nop ≠ .di ∧
      Instr.nop ≠ .hlt := ⟨exec_next _ _, by simp⟩

/-- NothingTraps: an instruction that changes FAULT. -/
theorem witness_fault_changes : (match exec (.outPort 0x11) conflicting with
    | .next t => decide (t.fault ≠ conflicting.fault)
    | _ => false) = true := by decide +kernel

/-- DiffRecordOfAnInstruction and CyclesOfAnInstruction. -/
theorem witness_diff_record : ∃ t, exec .xthl State.reset = .next t := exec_next _ _

/-- PortInput: an input is given. -/
theorem witness_port_input : ({ State.reset with portIn := [0x5A] } : State).portIn = 0x5A :: [] := rfl

/-- PortOutput: the port is not the ROM port; the port writes a mapping register. -/
theorem witness_port_output : State.reset.params.romPort ≠ some 0x10 ∧
        conflicting.params.bankPorts.lookup 0x11 = some 4 := by
  decide

/-- InterruptEnablesHaltAndNop: a request is latched when `DI` runs. -/
theorem witness_di : ∃ t, exec .di { State.reset with cpu := { Cpu.init with latch := true } } = .next t := exec_next _ _

/-- UndocumentedOpcodesDuplicate: each pair of its list. -/
theorem witness_twins : ((0x08 : Byte), (0x00 : Byte)) ∈ undocumentedTwins ∧
        ((0xFD : Byte), (0xCD : Byte)) ∈ undocumentedTwins := by
  decide

/-- RegistersAndPairs and the operand lists: a register or pair equal to the one written, and one not. -/
theorem witness_registers : Reg.a = Reg.a ∧ Reg.b ≠ Reg.a ∧ Pair.hl ≠ Pair.sp := by decide

/-- DecimalAdjust's corrections at the bounds of their ranges: both, one, the other, none. -/
theorem witness_decimal_adjust :
    (daa8 0x9A (Flags.unpack 0x02)).res = 0x00 ∧ (daa8 0x99 (Flags.unpack 0x02)).res = 0x99 ∧
      (daa8 0x0A (Flags.unpack 0x02)).res = 0x10 ∧ (daa8 0xA0 (Flags.unpack 0x02)).res = 0x00 ∧
      (daa8 0x8A (Flags.unpack 0x02)).res = 0x90 ∧ (daa8 0x9F (Flags.unpack 0x02)).res = 0x05 := by decide +kernel

/-- AddressTranslation: no active bank; an active bank; each clause of the page at the ends of its range. -/
theorem witness_translation :
    activeBank defaultLayout Mapping.reset = none ∧ activeBank defaultLayout (mapped 7 0xFF) = some 7 ∧
      translate defaultLayout (mapped 7 0xFF) 0x0000 .stack = 0x200000 ∧
      translate defaultLayout (mapped 7 0xEF) 0x7FFF .normal = 0x007FFF ∧
      translate defaultLayout (mapped 7 0xEF) 0x8000 .normal = 0x208000 ∧
      translate defaultLayout (mapped 7 0xAF) 0x9FFF .normal = 0x009FFF ∧
      translate defaultLayout (mapped 7 0xCF) 0xA000 .normal = 0x00A000 ∧
      translate defaultLayout (mapped 7 0x2F) 0xDFFF .normal = 0x20DFFF ∧
      translate defaultLayout (mapped 7 0x6F) 0xE000 .normal = 0x00E000 ∧
      translate defaultLayout (mapped 7 0x8F) 0xFFFF .normal = 0x20FFFF := by decide +kernel

/-- MappingWrite: a write that makes a conflict, with FAULT none and with FAULT set, and one that does not. -/
theorem witness_mapping_write :
    (conflicting.setBankConfig 4 0x40).fault = .mappingConflict ∧
      ({ conflicting with fault := .decodeIncomplete } : State).setBankConfig 4 0x40 =
        { conflicting with fault := .decodeIncomplete, map := (mapped 1 0x20).set 4 0x40 } ∧
      (conflicting.setBankConfig 1 0x10).fault = .none := by decide +kernel

/-- MemoryReadAndWrite: in ROM mode below and at the length of the ROM, and out of ROM mode. -/
theorem witness_rom :
    overlaid.romMode = true ∧ overlaid.translate 0x0010 .normal < overlaid.params.rom.length ∧
      overlaid.params.rom.length ≤ overlaid.translate 0x0011 .normal ∧ (at100 [] Cpu.init []).romMode = true ∧
      ({ overlaid with romMode := false } : State).romMode = false := by decide +kernel

/-- A request of the last cycle of `LDA` (4 cycles) is latched while INTE is 1, and lost while it is 0 (R805). -/
theorem test_late_request :
    let lda (inte : Bool) : State := { at100 [0x3A, 0x00, 0x20] { Cpu.init with inte := inte } [] with
      displayIn := [⟨0, false, []⟩, ⟨0, false, []⟩, ⟨0, false, []⟩, ⟨0, true, []⟩] }
    shows (lda true) (fun t => t.cpu.latch) = true ∧ shows (lda false) (fun t => !t.cpu.latch) = true := by
  decide +kernel

/-- RequestLatch: an instruction that answers with well-formed parameters; service due and not. -/
theorem witness_latched :
    State.reset.params.wellFormed = true ∧ (∃ t, exec .ei State.reset = .next t) ∧ State.reset.serviceDue = false ∧
      ({ State.reset with cpu := { Cpu.init with inte := true, latch := true } } : State).serviceDue = true :=
  ⟨test_params_ok, exec_next _ _, by decide, by decide⟩

/-- RequestLatch: a display input is given. -/
theorem witness_display : ({ State.reset with displayIn := [⟨1, true, []⟩] } : State).displayIn = ⟨1, true, []⟩ :: [] := rfl

/-- InterruptService: service is due. -/
theorem witness_service :
    ({ State.reset with cpu := { Cpu.init with inte := true, latch := true } } : State).serviceDue = true := by decide

/-- InterruptService: a Running machine whose first request makes service due, and one with none. -/
theorem witness_service_step :
    let s (irq : Bool) : State := { at100 [0x00] { Cpu.init with inte := true } [] with displayIn := [⟨0, irq, []⟩] }
    (s true).loop = .running ∧ (s true).fault = .none ∧ (s true).beginCycle.cpu.latch = true ∧
      (s false).beginCycle.cpu.latch = false ∧ (s false).serviceDue = false := by decide +kernel

/-- HaltCycle: a Running halted machine whose latch update makes no service due. -/
theorem witness_halted_step :
    let s : State := { at100 [] { Cpu.init with halt := true } [] with displayIn := [⟨0, true, []⟩] }
    s.loop = .running ∧ s.fault = .none ∧ s.beginCycle.serviceDue = false ∧ s.cpu.halt = true := by decide +kernel

/-- HaltCycle: halted with no service due, with interrupts disabled and with EIP. -/
theorem witness_halted :
    let s : State := { State.reset with cpu := { Cpu.init with halt := true } }
    let e : State := { State.reset with cpu := { Cpu.init with halt := true, inte := true, latch := true, eip := true } }
    s.serviceDue = false ∧ s.cpu.halt = true ∧ e.serviceDue = false ∧ e.cpu.halt = true := by decide

/-- StepRunsTheDecodedInstruction: Running at 0x0100 with `CALL 0x2000` there. -/
theorem witness_step :
    let s := at100 [0xCD, 0x00, 0x20] Cpu.init []
    s.loop = .running ∧ s.fault = .none ∧ s.beginCycle.serviceDue = false ∧ s.cpu.halt = false ∧
      decode s.fetchBytes = .ok (.call 0x2000, []) := by decide +kernel

/-- The invariant's bounds at a running state (StepKeepsInvariant), which a step then leaves. -/
theorem witness_invariant : (at100 [] Cpu.init []).Inv ∧ ∃ t, step (at100 [] Cpu.init []) = .next t := by
  refine ⟨⟨by decide, test_params_ok, rfl, diffWf_empty, ⟨by decide, by decide, by decide, by decide, by decide,
    by decide, by decide⟩, by decide, by decide, by decide⟩, step_answers _⟩

/-- FaultStopsTheLoop: a running instruction that sets FAULT, and a machine with FAULT set. -/
theorem witness_fault :
    conflicting.loop = .running ∧ conflicting.fault = .none ∧ (match conflicting.runInstruction with
      | .next t => decide (t.fault ≠ .none)
      | _ => false) = true ∧ conflicted.fault ≠ .none ∧ (∃ t, conflicted.execute .stop = .next t) :=
  ⟨by decide, by decide, by decide +kernel, by decide, execute_answers _ _⟩

/-- LoopAndCommands: Exiting; Stopped with and without a request; Running; a frame run that goes on, ends at a frame
boundary, ends at a fault; each command it names. -/
theorem witness_loop :
    let frameRun (d : Display) : State := { at100 [0x00] Cpu.init [] with loop := .stopped, frameRun := true, displayIn := [d] }
    ({ State.reset with loop := .exiting } : State).loop = .exiting ∧
      (State.reset.loop = .stopped ∧ State.reset.frameRun = false ∧ State.reset.requests = [] ∧
        State.reset.fault = .none) ∧
      ({ State.reset with requests := [.run] } : State).requests = .run :: [] ∧
      ((at100 [] Cpu.init []).loop = .running ∧ (at100 [] Cpu.init []).fault = .none) ∧
      (match (frameRun ⟨0, false, []⟩).runInstruction with
        | .next t => decide (t.disp.frame = State.reset.lastFrame ∧ t.fault = .none)
        | _ => false) = true ∧
      (match (frameRun ⟨1, false, []⟩).runInstruction with
        | .next t => decide (t.disp.frame ≠ State.reset.lastFrame)
        | _ => false) = true ∧
      (match ({ conflicting with loop := .stopped, frameRun := true } : State).runInstruction with
        | .next t => decide (t.fault ≠ .none)
        | _ => false) = true := by decide +kernel

/-- LoopAndCommands: the clauses of the debug hook, with a fault, with a break heeded and ignored, and with none. -/
theorem witness_break :
    let s (b : Bool) : State := { at100 [0x00] Cpu.init [] with hookInstalled := true, hookIn := [b] }
    (s true).loop = .running ∧ (s true).fault = .none ∧ (s true).requests = [] ∧ (s true).hookBreak = true ∧
      (s false).hookBreak = false ∧ ((s true).afterInstruction true).loop = .running ∧
      ((s true).afterInstruction false).loop = .stopped ∧ ((s false).afterInstruction false).loop = .running ∧
      (({ s false with fault := .mappingConflict } : State).afterInstruction true).loop = .stopped ∧
      State.reset.hookInstalled = false := by decide +kernel

/-- LoopAndCommands: the clauses of the queues, at QUEUE_DEPTH 2: empty, one slot left, each queue full, and commands
turned away. -/
theorem witness_queues :
    let s : State := { State.reset with params := { Params.default with queueDepth := 2 } }
    let r : Response := { reply := .ok, fault := .none, loop := .stopped }
    s.hostSubmit .run = some { s with requests := [.run] } ∧
      ({ s with responses := [r] } : State).hostSubmit .run = some { s with requests := [.run], responses := [r] } ∧
      ({ s with requests := [.run, .stop] } : State).hostSubmit .run = none ∧
      ({ s with responses := [r, r] } : State).hostSubmit .run = none ∧
      ({ s with responses := [r] } : State).hostTake = some (r, s) ∧
      (∃ t, step { s with requests := [.run], responses := [r] } = .next t) ∧
      State.reset.hist.live = true ∧ conflicted.fault ≠ .none ∧ (at100 [] Cpu.init []).loop ≠ .stopped :=
  ⟨by decide +kernel, by decide +kernel, by decide +kernel, by decide +kernel, by decide +kernel, step_answers _, by decide,
    by decide, by decide⟩

theorem witness_commands :
    (∃ t, State.reset.execute .run = .next t) ∧ (∃ t, State.reset.execute .stop = .next t) ∧
      (∃ t, State.reset.execute .exit = .next t) ∧ ∃ t, State.reset.execute .executeOneInstruction = .next t :=
  ⟨execute_answers _ _, execute_answers _ _, execute_answers _ _, execute_answers _ _⟩

/-- HistoryRecording: live and attached with room and with every slot taken, in the same frame and in a new one; and
detached. -/
theorem witness_recording :
    let full : State := { twoFrames with params := { Params.default with historyCapacity := 2 } }
    twoFrames.hist.attached = true ∧ twoFrames.hist.live = true ∧ 1 ≤ twoFrames.params.historyCapacity ∧
      twoFrames.hist.checkpoints =
        [⟨Snapshot.powerOn, [⟨0x2000, 0x00, 0x11⟩, ⟨0x2001, 0x00, 0x22⟩]⟩] ++ [⟨frameOne, [⟨0x2000, 0x11, 0x33⟩]⟩] ∧
      1 + 1 < twoFrames.params.historyCapacity ∧ twoFrames.disp.frame = twoFrames.hist.hFrame ∧
      ({ twoFrames with disp := ⟨2, false, []⟩ } : State).disp.frame ≠ twoFrames.hist.hFrame ∧
      twoFrames.hist.wcur < twoFrames.params.historyCapacity ∧
      1 + 1 = full.params.historyCapacity ∧ full.hist.wcur < full.params.historyCapacity ∧
      State.reset.hist.attached = false ∧ backToZero.hist.live = false := by decide +kernel

/-- The history of H1 is well formed. -/
theorem witness_history_live : HistoryWf twoFrames.params.historyCapacity twoFrames.hist :=
  ⟨by decide, by decide, by decide, by decide, by decide, by decide, by decide⟩

/-- The memory at the start of each frame of H1, and live. -/
def memories : Nat → Memory
  | 0 => []
  | 1 => [(0x2000, 0x11), (0x2001, 0x22)]
  | _ => [(0x2000, 0x33), (0x2001, 0x22)]

/-- H1 explains its memory (PlaybackRoundTrip while live, HistoryExplainsMemory). -/
theorem witness_explains_live : twoFrames.HistoryExplains := by
  refine ⟨⟨memories, by decide, fun i k hk => ?_, by decide⟩, fun h => absurd h (by decide)⟩
  match i, hk with
  | 0, hk => cases hk; exact ⟨by decide, by decide, rfl⟩
  | 1, hk => cases hk; exact ⟨by decide, rfl⟩
  | n + 2, hk => cases hk

/-- Away from the live state, at position 0 of H3: well formed, explained, with turns left either way
(PlaybackRoundTrip, LeavingHistory, HistoryExplainsMemory). -/
theorem witness_history_away :
    HistoryWf backToZero.params.historyCapacity backToZero.hist ∧ backToZero.HistoryExplains ∧ backToZero.ram.wf ∧
      backToZero.hist.live = false ∧ backToZero.hist.pos + 2 ≤ backToZero.hist.count ∧ backToZero.mayRun = true ∧
      2 ≤ twoFrames.hist.count ∧ twoFrames.ram.wf ∧ (twoFrames.playReverse 1).hist.live = false ∧
      1 ≤ (twoFrames.playReverse 1).hist.pos := by
  have h : twoFrames.hist.count = 2 := by decide
  obtain ⟨_, he⟩ := explained_of witness_history_live witness_explains_live
  have h1 := stepReverse_back he (by decide)
  have h2 := stepReverse_back h1.1 (by decide +kernel)
  have e : backToZero = twoFrames.stepReverse.stepReverse := by decide +kernel
  refine ⟨⟨by decide +kernel, by decide +kernel, by decide +kernel, by decide +kernel, by decide +kernel,
    by decide +kernel, by decide +kernel⟩, by rw [e]; exact h2.1.explains, ?_⟩
  decide +kernel

/-- HistoryExplainsMemory: an invariant state that is attached, live and explained, and runs an instruction; and each
command that resets the history. -/
theorem witness_explains_step :
    twoFrames.Inv ∧ twoFrames.hist.attached = true ∧ twoFrames.hist.live = true ∧
      (∃ t, twoFrames.runInstruction = .next t) ∧ State.reset.ram.wf ∧ (∃ t, State.reset.execute .reset = .next t) ∧
      (∃ t, State.reset.execute .restart = .next t) ∧ State.reset.hist.attached = false ∧
      ∃ t, State.reset.execute (.attachDebugger true) = .next t := by
  refine ⟨⟨by decide, by decide +kernel, rfl, diffWf_empty, witness_history_live, by decide, by decide, by decide⟩,
    by decide, by decide, runInstruction_answers _, by decide, execute_answers _ _, execute_answers _ _, by decide,
    execute_answers _ _⟩

/-- RecordingFiles: a stopped machine with a well-formed history that loads back, live and away; each ground of
rejection at its bound; and a machine that is not stopped. -/
theorem witness_recording_files :
    let r : Recording := { count := 2, pos := 1, checkpoints := twoFrames.hist.checkpoints, live := true, liveSnap := none }
    let bad : Checkpoint := ⟨{ Snapshot.powerOn with map := (mapped 1 0x20).set 4 0x40 }, []⟩
    twoFrames.loop = .stopped ∧
      (∀ k ∈ twoFrames.hist.checkpoints, mappingConflict twoFrames.params.layout k.snap.map = false) ∧
      (∀ k ∈ backToZero.hist.checkpoints, mappingConflict backToZero.params.layout k.snap.map = false) ∧
      backToZero.hist.liveSnap = some twoFrames.snapshot ∧
      mappingConflict backToZero.params.layout twoFrames.snapshot.map = false ∧
      r.consistent twoFrames.params = true ∧
        Recording.consistent twoFrames.params { r with count := 0, checkpoints := [] } = false ∧
      Recording.consistent { Params.default with historyCapacity := 1 } r = false ∧
      Recording.consistent twoFrames.params { r with pos := 2 } = false ∧
      Recording.consistent twoFrames.params { r with count := 1, pos := 0, checkpoints := [bad] } = false ∧
      Recording.consistent twoFrames.params
        { r with count := 1, pos := 0, checkpoints := [⟨Snapshot.powerOn, [⟨physicalBytes, 0, 1⟩]⟩] } = false ∧
      Recording.consistent twoFrames.params
        { r with count := 1, pos := 0, checkpoints := [⟨Snapshot.powerOn, [⟨physicalBytes - 1, 0, 1⟩]⟩] } = true ∧
      (2 : Byte) ≠ twoFrames.params.recordingVersion ∧ (at100 [] Cpu.init []).loop ≠ .stopped := by decide +kernel

/-- HostAccess: nothing unspecified, and a detached machine to attach to. -/
theorem witness_host : State.reset.cpu.unspec = Unspecified.clear ∧ State.reset.hist.attached = false := by decide

end Sys2Proof.Tests
end

section
/-! The invariant (O50, O51): it holds at power-on, and every step of the loop keeps it. -/

namespace Sys2Proof.Proofs

open Sys2Proof.Machine Sys2Proof.Laws

/-! ## The invariant, taken apart -/

/-- A running machine has no fault and is live: what the invariant asks of LOOP outside a frame run. -/
abbrev RunsLive (s : State) : Prop := s.loop = .running → s.fault = .none ∧ s.hist.live = true

theorem kept_of_inv {s : State} (h : s.Inv) : Kept s :=
  ⟨h.ram_wf, h.params_wf, h.mci_zero, h.diff_wf, h.history_wf⟩

theorem runsLive_of_inv {s : State} (h : s.Inv) : RunsLive s :=
  fun hr => ⟨h.running_ok hr, h.live_to_run (.inl hr)⟩

/-- Outside a frame run the invariant is what the History Engine's operations keep, and `RunsLive`. -/
theorem inv_of_no_frameRun {s : State} (hk : Kept s) (hf : s.frameRun = false) (hr : RunsLive s) : s.Inv where
  ram_wf := hk.ram_wf
  params_wf := hk.params_wf
  mci_zero := hk.mci_zero
  diff_wf := hk.diff_wf
  history_wf := hk.history_wf
  running_ok h := (hr h).1
  frame_ok h := by simp [hf] at h
  live_to_run h := by
    rcases h with h | h
    · exact (hr h).2
    · simp [hf] at h

/-- Stopped with no fault and live, the machine may be inside a frame run. -/
theorem inv_of_stopped {s : State} (hk : Kept s) (hs : s.loop = .stopped) (hf : s.fault = .none)
    (hl : s.hist.live = true) : s.Inv where
  ram_wf := hk.ram_wf
  params_wf := hk.params_wf
  mci_zero := hk.mci_zero
  diff_wf := hk.diff_wf
  history_wf := hk.history_wf
  running_ok _ := hf
  frame_ok _ := ⟨hs, hf⟩
  live_to_run _ := hl

/-- A running machine is in no frame run. -/
theorem no_frameRun_of_inv {s : State} (h : s.Inv) (hr : s.loop = .running) : s.frameRun = false := by
  cases hf : s.frameRun with
  | false => rfl
  | true => have := (h.frame_ok hf).1; simp [hr] at this

/-- LOOP and a frame run are none of what the History Engine's operations keep. -/
theorem kept_setLoop {s : State} (h : Kept s) (l : LoopState) (b : Bool) : Kept { s with loop := l, frameRun := b } :=
  ⟨h.ram_wf, h.params_wf, h.mci_zero, h.diff_wf, h.history_wf⟩

theorem runsLive_of_stopped {s : State} (h : s.loop = .stopped) : RunsLive s := fun hr => by simp [h] at hr

/-! ## Responses -/

/-- A response posted changes nothing that the invariant speaks of. -/
theorem inv_post {s : State} (h : s.Inv) (f : FaultCode) (r : Reply) : (s.post f r).Inv :=
  ⟨h.ram_wf, h.params_wf, h.mci_zero, h.diff_wf, h.history_wf, h.running_ok, h.frame_ok, h.live_to_run⟩

theorem inv_respond {s : State} (h : s.Inv) (r : Reply) : (s.respond r).Inv := inv_post h _ r

/-! ## One instruction and what follows it -/

theorem loopAfter_running {f : FaultCode} {brk ignoring : Bool} {l : LoopState}
    (h : loopAfter f brk ignoring l = .running) : f = .none ∧ l = .running := by
  unfold loopAfter at h
  split at h
  · cases h
  · split at h
    · cases h
    · exact ⟨not_not.1 ‹_›, h⟩

/-- One instruction of the loop and its end, from `s` to `u`: the invariant's part that they keep, and what they leave
of LOOP, a frame run and LIVE. -/
structure RanOne (s u : State) : Prop where
  kept     : Kept u
  frameRun : u.frameRun = s.frameRun
  running  : u.loop = .running → s.loop = .running ∧ u.fault = .none
  stopped  : s.loop = .stopped → u.loop = .stopped
  live     : s.hist.live = true → u.hist.live = true

theorem runInstruction_ranOne {s t : State} (h : Kept s) (ht : s.runInstruction = .next t) (ignoring : Bool) :
    RanOne s (t.afterInstruction ignoring) := by
  obtain ⟨u, hu, hk, host⟩ := runInstruction_kept h
  cases ht.symm.trans hu
  have e := afterInstruction_ended t ignoring
  refine ⟨kept_afterInstruction hk _, e.frameRun.trans host.frameRun, fun hr => ?_, fun hs => ?_,
    fun hl => e.live (host.hist ▸ hl)⟩
  · obtain ⟨hf, hl⟩ := loopAfter_running (e.loop.symm.trans hr)
    exact ⟨host.loop.symm.trans hl, e.fault.trans hf⟩
  · rw [e.loop, host.loop, hs]; exact loopAfter_stopped

theorem RanOne.runsLive {s u : State} (h : RanOne s u) (hl : s.hist.live = true) : RunsLive u :=
  fun hr => ⟨(h.running hr).2, h.live hl⟩

/-! ## Host commands -/

theorem kept_hostReset {s : State} (h : Kept s) : Kept s.hostReset :=
  kept_historyReset ⟨h.ram_wf, h.params_wf, rfl, diffWf_empty, h.history_wf⟩

theorem kept_hostRestart {s : State} (h : Kept s) : Kept s.hostRestart :=
  kept_historyReset ⟨h.ram_wf, h.params_wf, rfl, diffWf_empty, h.history_wf⟩

/-- The bounds of the History Engine do not speak of ATTACHED. -/
theorem kept_setAttached {s : State} (h : Kept s) (on : Bool) :
    Kept { s with hist := { s.hist with attached := on } } := by
  obtain ⟨hram, hpar, hmci, hdiff, ⟨h1, h2, h3, h4, h5, h6, h7⟩⟩ := h
  exact ⟨hram, hpar, hmci, hdiff, ⟨h1, h2, h3, h4, h5, h6, h7⟩⟩

theorem kept_attachDebugger {s : State} (h : Kept s) (on : Bool) : Kept (s.attachDebugger on) := by
  unfold State.attachDebugger
  dsimp only
  split
  · exact kept_historyReset (kept_setAttached h on)
  · exact kept_setAttached h on

/-- Attaching may reset the History Engine, which is then live; it never leaves the live state. -/
theorem attachDebugger_live {s : State} (h : s.hist.live = true) (on : Bool) :
    (s.attachDebugger on).hist.live = true := by
  unfold State.attachDebugger
  dsimp only
  split
  · rfl
  · exact h

theorem setRamBytes_live {s : State} (h : s.hist.live = true) (a : Word) (bytes : List Byte) :
    (s.setRamBytes a bytes).hist.live = true := by
  induction bytes generalizing s a with
  | nil => exact h
  | cons v vs ih =>
    refine ih ?_ _
    dsimp only
    split <;> exact h

theorem accepted_consistent {p : Params} {f : RecordingFile} {r : Recording} (h : f.accepted p = some r) :
    r.consistent p = true := by
  unfold RecordingFile.accepted at h
  split at h
  · exact (Option.filter_eq_some_iff.1 h).2
  · cases h

/-- A response after work that keeps FAULT, LOOP and a frame run, and stays live if the machine runs. -/
theorem inv_respond_of_sameControl {s t : State} (h : s.Inv) (hf : s.frameRun = false) (hk : Kept t)
    (hc : SameControl s t) (hl : s.loop = .running → t.hist.live = true) (r : Reply) : (t.respond r).Inv :=
  inv_respond (inv_of_no_frameRun hk (hc.frameRun.trans hf) fun hr =>
    ⟨hc.fault.trans (h.running_ok (hc.loop.symm.trans hr)), hl (hc.loop.symm.trans hr)⟩) r

/-- A command for a Stopped loop: done and answered, or turned away. -/
theorem inv_ite_isStopped {s t u : State} (h : s.isStopped = true → t.Inv) (k : u.Inv) :
    (if s.isStopped = true then t else u).Inv := by
  split
  · exact h ‹_›
  · exact k

/-- Every host command keeps the invariant; none is taken inside a frame run. -/
theorem execute_inv {s t : State} {c : Command} (h : s.Inv) (hf : s.frameRun = false) (ht : s.execute c = .next t) :
    t.Inv := by
  have hk := kept_of_inv h
  obtain ⟨hlk, hll⟩ := kept_leaveHistory hk
  have hlc := sameControl_leaveHistory s
  have reply (r : Reply) : (s.respond r).Inv := inv_respond h r
  have stopped {u : State} (hs : s.isStopped = true) (hu : Kept u) (hc : SameControl s u) (r : Reply) :
      (u.respond r).Inv :=
    inv_respond_of_sameControl h hf hu hc (fun hr => by simp [(isStopped_iff s).1 hs] at hr) r
  cases c
  case run =>
    cases ht
    split
    · have hfault := ((mayRun_iff s).1 ‹_›).2
      refine inv_respond (s := { s.leaveHistory with loop := .running }) (inv_of_no_frameRun
        (kept_setLoop hlk _ _) (hlc.frameRun.trans hf) fun _ => ⟨hlc.fault.trans hfault, hll⟩) _
    · exact reply _
  case stop =>
    cases ht
    exact inv_respond (s := { s with loop := .stopped })
      (inv_of_no_frameRun (kept_setLoop hk _ _) hf (runsLive_of_stopped rfl)) _
  case exit =>
    cases ht
    exact inv_respond (s := { s with loop := .exiting })
      (inv_of_no_frameRun (kept_setLoop hk _ _) hf fun hr => by cases hr) _
  case reset =>
    cases ht
    exact inv_post (inv_of_no_frameRun (kept_hostReset hk) hf fun _ => ⟨rfl, rfl⟩) _ _
  case restart =>
    cases ht
    exact inv_post (inv_of_no_frameRun (kept_hostRestart hk) hf fun _ => ⟨rfl, rfl⟩) _ _
  case executeOneInstruction =>
    rw [State.execute] at ht
    split at ht
    · obtain ⟨v, hv⟩ := runInstruction_answers s.leaveHistory
      have ran := runInstruction_ranOne hlk hv false
      rw [hv] at ht
      cases ht
      exact inv_respond (inv_of_no_frameRun ran.kept (ran.frameRun.trans (hlc.frameRun.trans hf)) (ran.runsLive hll)) _
    · cases ht; exact reply _
  case executeOneFrameIgnoringBreaks =>
    cases ht
    split
    · obtain ⟨hstop, hfault⟩ := (mayRun_iff s).1 ‹_›
      exact inv_of_stopped (kept_setLoop hlk _ _) (hlc.loop.trans hstop) (hlc.fault.trans hfault) hll
    · exact reply _
  case getRegisters | getByte | getWord | saveRecording => cases ht; exact reply _
  case setRamBytes a bytes =>
    cases ht
    exact inv_respond_of_sameControl h hf (kept_setRamBytes hlk a bytes)
      (hlc.trans (sameControl_setRamBytes _ a bytes)) (fun _ => setRamBytes_live hll a bytes) _
  case attachDebugger on =>
    cases ht
    exact inv_respond_of_sameControl h hf (kept_attachDebugger hk on) (sameControl_attachDebugger s on)
      (fun hr => attachDebugger_live (runsLive_of_inv h hr).2 on) _
  case playForward n =>
    cases ht
    exact inv_ite_isStopped (fun hs => stopped hs (kept_playForward n hk) (sameControl_playForward n s) _) (reply _)
  case playReverse n =>
    cases ht
    exact inv_ite_isStopped (fun hs => stopped hs (kept_playReverse n hk) (sameControl_playReverse n s) _) (reply _)
  case loadRecording f =>
    cases ht
    refine inv_ite_isStopped (fun hs => ?_) (reply _)
    split
    · exact stopped hs (kept_loadRecording hk (accepted_consistent ‹_›)) (sameControl_loadRecording s _) _
    · exact reply _

theorem takeCommand_inv {s t : State} (h : s.Inv) (hf : s.frameRun = false) (ht : s.takeCommand = .next t) : t.Inv := by
  unfold State.takeCommand at ht
  split at ht
  · cases ht; exact h
  · refine execute_inv ?_ ?_ ht
    · exact ⟨h.ram_wf, h.params_wf, h.mci_zero, h.diff_wf, h.history_wf, h.running_ok, h.frame_ok, h.live_to_run⟩
    · exact hf

/-! ## The loop -/

theorem runningStep_inv {s t : State} (h : s.Inv) (hr : s.loop = .running) (ht : s.runningStep = .next t) : t.Inv := by
  obtain ⟨v, hv⟩ := runInstruction_answers s
  have ran := runInstruction_ranOne (kept_of_inv h) hv false
  have hf := ran.frameRun.trans (no_frameRun_of_inv h hr)
  unfold State.runningStep at ht
  rw [hv] at ht
  exact takeCommand_inv (inv_of_no_frameRun ran.kept hf (ran.runsLive (runsLive_of_inv h hr).2)) hf ht

theorem frameStep_inv {s t : State} (h : s.Inv) (hf : s.frameRun = true) (ht : s.frameStep = .next t) : t.Inv := by
  obtain ⟨v, hv⟩ := runInstruction_answers s
  have ran := runInstruction_ranOne (kept_of_inv h) hv true
  have hstop := ran.stopped (h.frame_ok hf).1
  have hk := ran.kept
  unfold State.frameStep at ht
  rw [hv] at ht
  cases ht
  split
  · exact inv_respond (s := { v.afterInstruction true with frameRun := false })
      (inv_of_no_frameRun (kept_setLoop hk _ _) rfl (runsLive_of_stopped hstop)) _
  · have hfault := not_not.1 (not_or.1 ‹_›).2
    exact inv_of_stopped hk hstop hfault (ran.live (h.live_to_run (.inr hf)))

/-- Settles O51: the invariant is kept by an instruction of the loop, by a turn of a frame run, and by every command. -/
theorem stepKeepsInvariant : Obligations.StepKeepsInvariant := by
  intro s t h ht
  unfold step State.loopStep at ht
  cases hl : s.loop <;> rw [hl] at ht <;> dsimp only at ht
  case exiting => cases ht; exact h
  case running =>
    rw [if_pos (h.running_ok hl)] at ht
    exact runningStep_inv h hl ht
  case stopped =>
    split at ht
    · exact frameStep_inv h ‹_› ht
    · exact takeCommand_inv h (Bool.eq_false_iff.2 ‹_›) ht

/-! ## Power-on -/

theorem params_default_wellFormed : Params.default.wellFormed = true := by decide +kernel

theorem reset_history_wf : HistoryWf State.reset.params.historyCapacity State.reset.hist :=
  ⟨by decide, by decide, by decide, by decide, by decide, by decide, by decide⟩

/-- Settles O50: power-on is Stopped, with empty memory, an empty diff record and one checkpoint. -/
theorem powerOnInvariant : Obligations.PowerOnInvariant :=
  inv_of_no_frameRun ⟨reset_ram_wf, params_default_wellFormed, rfl, diffWf_empty, reset_history_wf⟩ rfl
    (runsLive_of_stopped rfl)

end Sys2Proof.Proofs
end

section
/-! Which registers and flags an instruction writes (O35, O36): one frame for both with their "unspecified" marks, read
off the effect of the instruction's shape. -/

namespace Sys2Proof.Proofs

open Sys2Proof.Machine Sys2Proof.Laws

/-! ## The frame -/

/-- What work does to a part of the CPU with its "unspecified" mark: if `written`, the mark is clear after it, else
value and mark are as before. -/
def KeptOrCleared {α μ : Type} (written : Bool) (clear : μ) (before after : α × μ) : Prop :=
  match written with
  | true => after.2 = clear
  | false => after = before

section
variable {α μ : Type} {w w' : Bool} {c : μ} {x y z : α × μ}

theorem KeptOrCleared.kept (h : KeptOrCleared w c x y) (hw : w = false) : y = x := by subst hw; exact h

theorem KeptOrCleared.cleared (h : KeptOrCleared w c x y) (hw : w = true) : y.2 = c := by subst hw; exact h

/-- A part is written by work after work when either writes it. -/
theorem KeptOrCleared.trans (h : KeptOrCleared w c x y) (k : KeptOrCleared w' c y z) :
    KeptOrCleared (w || w') c x z := by
  cases w' with
  | true => rw [Bool.or_true]; exact k
  | false => rw [Bool.or_false, k.kept rfl]; exact h

end

/-- A data register with its mark. -/
abbrev regPart (s : State) (r : Reg) : Byte × Bool := (s.reg r, s.cpu.unspec.of r)

/-- SP with its mark. -/
abbrev spPart (s : State) : Word × Bool := (s.cpu.sp, s.cpu.unspec.sp)

/-- S, Z, AC and P with their marks. -/
abbrev szapPart (s : State) : (Bool × Bool × Bool × Bool) × (Bool × Bool × Bool × Bool) :=
  ((s.cpu.flags.s, s.cpu.flags.z, s.cpu.flags.ac, s.cpu.flags.p),
    (s.cpu.unspec.fs, s.cpu.unspec.fz, s.cpu.unspec.fac, s.cpu.unspec.fp))

/-- CY with its mark. -/
abbrev cyPart (s : State) : Bool × Bool := (s.cpu.flags.cy, s.cpu.unspec.fcy)

/-- From `s` to `t` the registers `ws` are written, SP if `sp`, S, Z, AC and P if `szap`, CY if `cy`, and no other. -/
structure CpuFrame (ws : List Reg) (sp szap cy : Bool) (s t : State) : Prop where
  reg  : ∀ r, KeptOrCleared (ws.contains r) false (regPart s r) (regPart t r)
  sp   : KeptOrCleared sp false (spPart s) (spPart t)
  szap : KeptOrCleared szap (false, false, false, false) (szapPart s) (szapPart t)
  cy   : KeptOrCleared cy false (cyPart s) (cyPart t)

/-- Work after work writes what either writes. -/
theorem CpuFrame.trans {ws ws' : List Reg} {sp sp' szap szap' cy cy' : Bool} {s t u : State}
    (h : CpuFrame ws sp szap cy s t) (k : CpuFrame ws' sp' szap' cy' t u) :
    CpuFrame (ws ++ ws') (sp || sp') (szap || szap') (cy || cy') s u where
  reg r := by rw [List.contains_append]; exact (h.reg r).trans (k.reg r)
  sp := h.sp.trans k.sp
  szap := h.szap.trans k.szap
  cy := h.cy.trans k.cy

/-- The registers of a frame may be listed in any order. -/
theorem CpuFrame.relist {ws ws' : List Reg} {sp szap cy : Bool} {s t : State} (h : CpuFrame ws sp szap cy s t)
    (e : ∀ r, ws'.contains r = ws.contains r) : CpuFrame ws' sp szap cy s t :=
  ⟨fun r => by rw [e r]; exact h.reg r, h.sp, h.szap, h.cy⟩

/-! ## The shared operations -/

theorem cpuFrame_refl (s : State) : CpuFrame [] false false false s s := ⟨fun _ => rfl, rfl, rfl, rfl⟩

theorem cpuFrame_setReg (s : State) (r : Reg) (v : Byte) : CpuFrame [r] false false false s (s.setReg r v) where
  reg q := by cases r <;> cases q <;> rfl
  sp := by cases r <;> rfl
  szap := by cases r <;> rfl
  cy := by cases r <;> rfl

theorem cpuFrame_setSp (s : State) (v : Word) : CpuFrame [] true false false s (s.setSp v) :=
  ⟨fun _ => rfl, rfl, rfl, rfl⟩

theorem cpuFrame_setFlags (s : State) (f : Flags) : CpuFrame [] false true true s (s.setFlags f) :=
  ⟨fun _ => rfl, rfl, rfl, rfl⟩

theorem cpuFrame_setFlagsKeepCy (s : State) (f : Flags) : CpuFrame [] false true false s (s.setFlagsKeepCy f) :=
  ⟨fun _ => rfl, rfl, rfl, rfl⟩

theorem cpuFrame_setCy (s : State) (b : Bool) : CpuFrame [] false false true s (s.setCy b) :=
  ⟨fun _ => rfl, rfl, rfl, rfl⟩

theorem cpuFrame_setPc (s : State) (v : Word) : CpuFrame [] false false false s (s.setPc v) :=
  ⟨fun _ => rfl, rfl, rfl, rfl⟩

theorem cpuFrame_pcOn (s : State) (n : Nat) : CpuFrame [] false false false s (s.pcOn n) :=
  ⟨fun _ => rfl, rfl, rfl, rfl⟩

theorem cpuFrame_writeByte (s : State) (a : Word) (space : Space) (v : Byte) :
    CpuFrame [] false false false s (s.writeByte a space v) := ⟨fun _ => rfl, rfl, rfl, rfl⟩

theorem cpuFrame_callPortOut (s : State) (port v : Byte) :
    CpuFrame [] false false false s (s.callPortOut port v) := by
  obtain ⟨⟨_, _, _, _, _, _, e⟩, _⟩ := callPortOut_frame s port v
  rw [e]
  exact ⟨fun _ => rfl, rfl, rfl, rfl⟩

theorem cpuFrame_setPair (s : State) (p : Pair) (v : Word) :
    CpuFrame (pairRegs p) (decide (p = .sp)) false false s (s.setPair p v) := by
  cases p
  case bc => exact (cpuFrame_setReg s .b _).trans (cpuFrame_setReg _ .c _)
  case de => exact (cpuFrame_setReg s .d _).trans (cpuFrame_setReg _ .e _)
  case hl => exact (cpuFrame_setReg s .h _).trans (cpuFrame_setReg _ .l _)
  case sp => exact cpuFrame_setSp s v

theorem cpuFrame_push (s : State) (v : Byte) : CpuFrame [] true false false s (s.push v) :=
  (cpuFrame_setSp s _).trans (cpuFrame_writeByte _ _ _ _)

theorem cpuFrame_pushPc (s : State) : CpuFrame [] true false false s (pushPc s) :=
  (cpuFrame_push s _).trans (cpuFrame_push _ _)

/-- An ALU operation writes every flag, and A unless it is `CMP`. -/
theorem cpuFrame_accumulate (s : State) (op : AluOp) (v : Byte) :
    CpuFrame (if op = .cmp then [] else [.a]) false true true s (s.accumulate op v) := by
  cases op
  case cmp => exact cpuFrame_setFlags s _
  all_goals exact (cpuFrame_setFlags s _).trans (cpuFrame_setReg _ .a _)

theorem cpuFrame_rotateA (s : State) (a : Byte) (cy : Bool) : CpuFrame [.a] false false true s (s.rotateA a cy) :=
  (cpuFrame_setReg s .a a).trans (cpuFrame_setCy _ cy)

theorem cpuFrame_addToHl (s : State) (v : Word) : CpuFrame [.h, .l] false false true s (s.addToHl v) :=
  (cpuFrame_setPair s .hl _).trans (cpuFrame_setCy _ _)

/-- Work done only when a condition holds, that writes SP at most. -/
theorem cpuFrame_ite (c : Bool) {sp : Bool} {s t u : State} (h : CpuFrame [] sp false false s t)
    (k : CpuFrame [] false false false s u) :
    CpuFrame [] (sp && c) false false s (if c = true then t else u) := by
  cases c
  · rw [Bool.and_false]; exact k
  · rw [Bool.and_true]; exact h

/-! ## The effect of each shape -/

/-- The effect of each shape writes exactly what the lists of files 40 to 45 and of R108 say. -/
theorem effect_cpuFrame (sh : Shape) (s : State) :
    CpuFrame (writtenRegs sh) (writesSp sh s.cpu.flags) (writesSzap sh) (writesCy sh) s (effect sh s) := by
  cases sh
  case mov dst src => exact cpuFrame_setReg s dst _
  case movFromM dst => exact cpuFrame_setReg s dst _
  case movToM src => exact cpuFrame_writeByte s _ _ _
  case mvi dst v => exact (cpuFrame_pcOn s 1).trans (cpuFrame_setReg _ dst v)
  case mviM v => exact (cpuFrame_pcOn s 1).trans (cpuFrame_writeByte _ _ _ _)
  case lxi p v => exact (cpuFrame_pcOn s 2).trans (cpuFrame_setPair _ p v)
  case lda v => exact (cpuFrame_pcOn s 2).trans (cpuFrame_setReg _ .a _)
  case sta v => exact (cpuFrame_pcOn s 2).trans (cpuFrame_writeByte _ _ _ _)
  case lhld v =>
    exact CpuFrame.relist (ws := [.l, .h])
      (((cpuFrame_pcOn s 2).trans (cpuFrame_setReg _ .l _)).trans (cpuFrame_setReg _ .h _))
      fun r => by cases r <;> rfl
  case shld v => exact ((cpuFrame_pcOn s 2).trans (cpuFrame_writeByte _ _ _ _)).trans (cpuFrame_writeByte _ _ _ _)
  case ldax p => exact cpuFrame_setReg s .a _
  case stax p => exact cpuFrame_writeByte s _ _ _
  case xchg => exact (cpuFrame_setPair s .hl _).trans (cpuFrame_setPair _ .de _)
  case alu op src => exact cpuFrame_accumulate s op _
  case aluM op => exact cpuFrame_accumulate s op _
  case aluImm op v => exact (cpuFrame_pcOn s 1).trans (cpuFrame_accumulate _ op v)
  case inr dst => exact (cpuFrame_setFlagsKeepCy s _).trans (cpuFrame_setReg _ dst _)
  case dcr dst => exact (cpuFrame_setFlagsKeepCy s _).trans (cpuFrame_setReg _ dst _)
  case inrM => exact (cpuFrame_setFlagsKeepCy s _).trans (cpuFrame_writeByte _ _ _ _)
  case dcrM => exact (cpuFrame_setFlagsKeepCy s _).trans (cpuFrame_writeByte _ _ _ _)
  case inx p => exact cpuFrame_setPair s p _
  case dcx p => exact cpuFrame_setPair s p _
  case dad p => exact cpuFrame_addToHl s _
  case daa => exact (cpuFrame_setFlags s _).trans (cpuFrame_setReg _ .a _)
  case rlc => exact cpuFrame_rotateA s _ _
  case rrc => exact cpuFrame_rotateA s _ _
  case ral => exact cpuFrame_rotateA s _ _
  case rar => exact cpuFrame_rotateA s _ _
  case cma => exact cpuFrame_setReg s .a _
  case cmc => exact cpuFrame_setCy s _
  case stc => exact cpuFrame_setCy s _
  case jmp v => exact cpuFrame_setPc s v
  case jcc cond v => exact cpuFrame_ite (condHolds cond s.cpu.flags) (cpuFrame_setPc s v) (cpuFrame_pcOn s 2)
  case call v => exact ((cpuFrame_pcOn s 2).trans (cpuFrame_pushPc _)).trans (cpuFrame_setPc _ v)
  case ccc cond v =>
    exact cpuFrame_ite (condHolds cond s.cpu.flags)
      (((cpuFrame_pcOn s 2).trans (cpuFrame_pushPc _)).trans (cpuFrame_setPc _ v)) (cpuFrame_pcOn s 2)
  case ret => exact (cpuFrame_setSp s _).trans (cpuFrame_setPc _ _)
  case rcc cond =>
    exact cpuFrame_ite (condHolds cond s.cpu.flags) ((cpuFrame_setSp s _).trans (cpuFrame_setPc _ _)) (cpuFrame_refl s)
  case rst n => exact (cpuFrame_pushPc s).trans (cpuFrame_setPc _ _)
  case pchl => exact cpuFrame_setPc s _
  case push p => exact (cpuFrame_push s _).trans (cpuFrame_push _ _)
  case pushPsw => exact (cpuFrame_push s _).trans (cpuFrame_push _ _)
  case pop p => exact (cpuFrame_setSp s _).trans (cpuFrame_setPair _ p _)
  case popPsw => exact ((cpuFrame_setSp s _).trans (cpuFrame_setFlags _ _)).trans (cpuFrame_setReg _ .a _)
  case xthl =>
    exact ((cpuFrame_writeByte s _ _ _).trans (cpuFrame_writeByte _ _ _ _)).trans (cpuFrame_setPair _ .hl _)
  case sphl => exact cpuFrame_setSp s _
  case inPort port =>
    have call : CpuFrame [] false false false s (State.callPortIn { s.pcOn 1 with draws := s.draws + 1 + 1 } port) :=
      ⟨fun _ => rfl, rfl, rfl, rfl⟩
    exact call.trans (cpuFrame_setReg _ .a _)
  case outPort port =>
    have fetched : CpuFrame [] false false false s { s.pcOn 1 with draws := s.draws + 1 + 1 } :=
      ⟨fun _ => rfl, rfl, rfl, rfl⟩
    exact fetched.trans (cpuFrame_callPortOut _ port _)
  case ei | di | hlt | nop => exact ⟨fun _ => rfl, rfl, rfl, rfl⟩

/-- The architectural part has the same registers and flags with the same marks. -/
theorem cpuFrame_to_arch (s : State) : CpuFrame [] false false false s s.arch := ⟨fun _ => rfl, rfl, rfl, rfl⟩

theorem cpuFrame_from_arch (s : State) : CpuFrame [] false false false s.arch s := ⟨fun _ => rfl, rfl, rfl, rfl⟩

/-- A frame does not tell apart two states with the same architectural part. -/
theorem CpuFrame.of_arch {ws : List Reg} {sp szap cy : Bool} {s t u : State} (h : CpuFrame ws sp szap cy s u)
    (e : t.arch = u.arch) : CpuFrame ws sp szap cy s t := by
  have same : CpuFrame [] false false false u t := (e ▸ cpuFrame_to_arch u).trans (cpuFrame_from_arch t)
  simpa only [List.append_nil, Bool.or_false] using h.trans same

/-- Every instruction writes exactly what the lists of its shape say. -/
theorem exec_cpuFrame {i : Instr} {s t : State} (h : exec i s = .next t) :
    CpuFrame (writtenRegs (shapeOf i)) (writesSp (shapeOf i) s.cpu.flags) (writesSzap (shapeOf i))
      (writesCy (shapeOf i)) s t :=
  (effect_cpuFrame (shapeOf i) s).of_arch (exec_arch h)

/-- Settles O35, from the frame of the registers and flags of every instruction. -/
theorem registerFrame : Obligations.RegisterFrame := by
  intro i s t h
  have f := exec_cpuFrame h
  exact ⟨fun r hr => Prod.mk.inj ((f.reg r).kept (by simpa using hr)), fun r hr => (f.reg r).cleared (by simpa using hr),
    fun hs => Prod.mk.inj (f.sp.kept hs), f.sp.cleared⟩

/-- Settles O36, from the frame of the registers and flags of every instruction. -/
theorem flagFrame : Obligations.FlagFrame := by
  intro i s t h
  have f := exec_cpuFrame h
  refine ⟨fun hw => ?_, fun hw => ?_, fun hw => Prod.mk.inj (f.cy.kept hw), f.cy.cleared⟩
  · simpa only [szapPart, Prod.mk.injEq, and_assoc] using f.szap.kept hw
  · simpa only [szapPart, Prod.mk.injEq] using f.szap.cleared hw

end Sys2Proof.Proofs
end

section
/-! Which instructions change the control state (O38), read off the effect of the instruction's shape. -/

namespace Sys2Proof.Proofs

open Sys2Proof.Machine Sys2Proof.Laws

/-- From `s` to `t` an instruction of shape `sh` changes only what R109 to R125 let it: the mapping, ROM mode and FAULT
by `OUT`, the I/O state and port inputs by `IN` and `OUT`, INTE by `EI` and `DI`, EIP by `EI`, HALT by `HLT`. -/
structure ControlFrame (sh : Shape) (s t : State) : Prop where
  mapping : (∀ port, sh ≠ .outPort port) → t.map = s.map ∧ t.romMode = s.romMode ∧ t.fault = s.fault
  ports   : (∀ port, sh ≠ .outPort port) → (∀ port, sh ≠ .inPort port) → t.io = s.io ∧ t.portIn = s.portIn
  inte    : sh ≠ .ei → sh ≠ .di → t.cpu.inte = s.cpu.inte
  eip     : sh ≠ .ei → t.cpu.eip = s.cpu.eip
  halt    : sh ≠ .hlt → t.cpu.halt = s.cpu.halt

theorem Held.controlFrame {s t : State} (h : Held s t) (sh : Shape) : ControlFrame sh s t := by
  obtain ⟨⟨c, ram, diff, tr, e⟩, hi, he, hh⟩ := h
  exact ⟨fun _ => by rw [e]; exact ⟨rfl, rfl, rfl⟩, fun _ _ => by rw [e]; exact ⟨rfl, rfl⟩, fun _ _ => hi, fun _ => he,
    fun _ => hh⟩

theorem effect_controlFrame (sh : Shape) (s : State) : ControlFrame sh s (effect sh s) := by
  cases sh
  case inPort port =>
    exact ⟨fun _ => ⟨rfl, rfl, rfl⟩, fun _ h => absurd rfl (h port), fun _ _ => rfl, fun _ => rfl, fun _ => rfl⟩
  case outPort port =>
    obtain ⟨⟨_, _, _, _, _, _, e⟩, _⟩ :=
      callPortOut_frame { s.pcOn 1 with draws := s.draws + 1 + 1 } port s.cpu.a
    have e : effect (.outPort port) s = _ := e
    rw [e]
    exact ⟨fun h => absurd rfl (h port), fun h => absurd rfl (h port), fun _ _ => rfl, fun _ => rfl, fun _ => rfl⟩
  case ei =>
    exact ⟨fun _ => ⟨rfl, rfl, rfl⟩, fun _ _ => ⟨rfl, rfl⟩, fun h => absurd rfl h, fun h => absurd rfl h, fun _ => rfl⟩
  case di =>
    exact ⟨fun _ => ⟨rfl, rfl, rfl⟩, fun _ _ => ⟨rfl, rfl⟩, fun _ h => absurd rfl h, fun _ => rfl, fun _ => rfl⟩
  case hlt =>
    exact ⟨fun _ => ⟨rfl, rfl, rfl⟩, fun _ _ => ⟨rfl, rfl⟩, fun _ _ => rfl, fun _ => rfl, fun h => absurd rfl h⟩
  all_goals exact Held.controlFrame (effect_held _ s rfl (by simp) (by simp) (by simp)) _

/-- States alike in the architectural part have the same control state, LATCH apart. -/
theorem ControlFrame.of_arch {sh : Shape} {s t u : State} (h : ControlFrame sh s u) (e : t.arch = u.arch) :
    ControlFrame sh s t where
  mapping hp :=
    have ⟨hm, hr, hf⟩ := h.mapping hp
    ⟨(congrArg State.map e).trans hm, (congrArg State.romMode e).trans hr, (congrArg State.fault e).trans hf⟩
  ports hp hq :=
    have ⟨hio, hin⟩ := h.ports hp hq
    ⟨(congrArg State.io e).trans hio, (congrArg State.portIn e).trans hin⟩
  inte he hd := (congrArg (fun x => x.cpu.inte) e).trans (h.inte he hd)
  eip he := (congrArg (fun x => x.cpu.eip) e).trans (h.eip he)
  halt hh := (congrArg (fun x => x.cpu.halt) e).trans (h.halt hh)

theorem exec_irqTaken {i : Instr} {s t : State} (h : exec i s = .next t) : t.diff.irqTaken = s.diff.irqTaken := by
  obtain ⟨_, hr, _⟩ := exec_recorded h
  exact hr.irq

/-- Settles O38: the shape's effect gives the CPU and the machine, the latch rule LATCH, the diff record IRQ_TAKEN, and
the bus work the host's part. -/
theorem controlStateFrame : Obligations.ControlStateFrame := by
  intro i s t h
  have f := (effect_controlFrame (shapeOf i) s).of_arch (exec_arch h)
  obtain ⟨hin, hout, hei, hdi, hhlt⟩ := shape_only i
  have host := exec_host h
  have noOut (n : ∀ port, i ≠ .outPort port) : ∀ port, shapeOf i ≠ .outPort port := fun p e => n p (hout p e)
  have noIn (n : ∀ port, i ≠ .inPort port) : ∀ port, shapeOf i ≠ .inPort port := fun p e => n p (hin p e)
  exact ⟨fun n => f.mapping (noOut n), fun n m => f.ports (noOut n) (noIn m),
    fun n m => f.inte (mt hei n) (mt hdi m), fun n => f.eip (mt hei n), fun n => f.halt (mt hhlt n), exec_latch h,
    exec_irqTaken h, exec_params h, host.hist, host.loop, host.frameRun, host.lastFrame, host.requests,
    host.responses, host.hook, host.hookIn⟩

end Sys2Proof.Proofs
end

section
/-! Registers, pairs and the flags byte, read and written (O6, O7). -/

namespace Sys2Proof.Proofs

open Sys2Proof.Machine Sys2Proof.Laws

/-- A pair written reads back, and leaves the other pairs (R101). -/
theorem pair_setPair (s : State) (p q : Pair) (v : Word) : (s.setPair p v).pair q = if q = p then v else s.pair q := by
  cases p <;> cases q
  case bc.bc | de.de | hl.hl => exact mkWord_hi_lo v
  all_goals rfl

/-- Settles O6: reading after writing, for a register, a pair, and a pair whose register is written. -/
theorem registersAndPairs : Obligations.RegistersAndPairs := by
  refine ⟨fun s r q v => ⟨?_, ?_, ?_, ?_, ?_⟩, fun s => ⟨rfl, rfl, rfl, rfl⟩, fun hi lo => ?_, pair_setPair,
    fun s v => ⟨rfl, rfl, rfl, rfl, rfl, rfl, rfl⟩, fun s v => ⟨rfl, rfl⟩⟩
  · exact reg_setReg s r q v
  · exact setReg_cpu_sp s r v
  · exact setReg_cpu_pc s r v
  · exact setReg_cpu_flags s r v
  · exact setReg_ram s r v
  · rw [toNat_mkWord, Nat.mul_comm]

/-- The bits of F (R106, R107). -/
theorem getLsbD_pack (f : Flags) :
    f.pack.getLsbD 7 = f.s ∧ f.pack.getLsbD 6 = f.z ∧ f.pack.getLsbD 5 = false ∧ f.pack.getLsbD 4 = f.ac ∧
    f.pack.getLsbD 3 = false ∧ f.pack.getLsbD 2 = f.p ∧ f.pack.getLsbD 1 = true ∧ f.pack.getLsbD 0 = f.cy := by
  obtain ⟨s, z, ac, p, cy⟩ := f
  revert s z ac p cy
  decide

/-- Writing F drops bits 5, 3 and 1 of the byte (R107). -/
theorem pack_unpack (v : Byte) : (Flags.unpack v).pack = v &&& 0xD7 ||| 0x02 := by
  obtain ⟨h7, h6, h5, h4, h3, h2, h1, h0⟩ := getLsbD_pack (Flags.unpack v)
  refine BitVec.eq_of_getLsbD_eq fun i hi => ?_
  rw [BitVec.getLsbD_or, BitVec.getLsbD_and]
  interval_cases i
  · exact h0.trans (by simp [Flags.unpack])
  · exact h1.trans (by simp)
  · exact h2.trans (by simp [Flags.unpack])
  · exact h3.trans (by simp)
  · exact h4.trans (by simp [Flags.unpack])
  · exact h5.trans (by simp)
  · exact h6.trans (by simp [Flags.unpack])
  · exact h7.trans (by simp [Flags.unpack])

/-- Settles O7: F bit by bit. -/
theorem flagsByte : Obligations.FlagsByte := by
  refine ⟨fun f => ?_, fun v => ⟨rfl, pack_unpack v⟩⟩
  obtain ⟨h7, h6, h5, h4, h3, h2, h1, h0⟩ := getLsbD_pack f
  exact ⟨h7, h6, h5, h4, h3, h2, h1, h0, by rw [Flags.unpack, h7, h6, h4, h2, h0]⟩

end Sys2Proof.Proofs
end

section
/-! Memory, the mapping and one-byte accesses (O37, O42, O43, O44). -/

namespace Sys2Proof.Proofs

open Sys2Proof.Machine Sys2Proof.Laws

/-! ## Memory changes only at the addresses stored to -/

/-- A chain of writes leaves every byte but those at its own addresses. -/
theorem read_of_diffChain {ws : List WriteDiff} {m n : Memory} (h : DiffChain ws m n) {pa : Nat}
    (hpa : pa ∉ ws.map (·.addr)) : n.read pa = m.read pa := by
  induction ws generalizing m with
  | nil => cases h; rfl
  | cons w ws ih =>
    rw [List.map_cons, List.mem_cons, not_or] at hpa
    obtain ⟨hne, hrest⟩ := hpa
    exact (ih h.2 hrest).trans (read_write_ne m w.after hne)

/-- The writes on the bus go to the addresses that `storedAddrs` lists, in its order. -/
theorem busOf_storedAddrs (sh : Shape) (s : State) :
    (writesOf ((busOf sh s).map Prod.snd)).map Prod.fst = storedAddrs sh s := by
  cases sh
  case ccc cond v =>
    dsimp only [busOf, storedAddrs]
    split <;> rfl
  case rcc cond =>
    dsimp only [busOf, storedAddrs]
    split <;> rfl
  all_goals rfl

/-- An instruction takes memory from before to after by writes to the addresses it stores to. -/
theorem exec_diffChain {i : Instr} {s t : State} (h : exec i s = .next t) :
    ∃ ws : List WriteDiff, ws.map (·.addr) = storedAddrs (shapeOf i) s ∧ DiffChain ws s.ram t.ram := by
  obtain ⟨new, hrec, hshows⟩ := exec_recorded h
  obtain ⟨ws, -, hbus, hchain⟩ := hrec.writes
  refine ⟨ws, ?_, hchain.chain⟩
  calc ws.map (·.addr) = (ws.map fun w => (w.addr, w.after)).map Prod.fst := by rw [List.map_map]; rfl
    _ = (writesOf ((busOf (shapeOf i) s).map Prod.snd)).map Prod.fst := by rw [hbus, hshows.writes]
    _ = storedAddrs (shapeOf i) s := busOf_storedAddrs _ s

/-- A read of physical memory depends on the ROM image, ROM mode and the RAM byte alone. -/
theorem readPhys_congr {s t : State} {pa : Nat} (hp : t.params = s.params) (hm : t.romMode = s.romMode)
    (hr : t.ram.read pa = s.ram.read pa) : t.readPhys pa = s.readPhys pa := by
  unfold State.readPhys
  rw [hp, hm, hr]

/-- Settles O37: memory goes from before to after by the writes on the bus, and those go to the listed addresses. -/
theorem memoryFrame : Obligations.MemoryFrame := by
  intro i s t h
  obtain ⟨ws, haddrs, hchain⟩ := exec_diffChain h
  have hsame : SameBytesExcept s t (storedAddrs (shapeOf i) s) := fun _ hpa => read_of_diffChain hchain (haddrs ▸ hpa)
  have hp := exec_params h
  refine ⟨hsame, fun hnone => ?_, congrArg Params.rom hp, fun hm pa hpa => readPhys_congr hp hm (hsame pa hpa)⟩
  rw [hnone, List.map_eq_nil_iff] at haddrs
  subst haddrs
  exact Eq.symm hchain

/-! ## Translation -/

/-- With no active bank the physical address is the logical one (R210). -/
theorem translate_of_no_bank {l : MappingLayout} {map : Mapping} (h : activeBank l map = none) (addr : Word)
    (space : Space) : Machine.translate l map addr space = addr.toNat := by
  unfold Machine.translate
  rw [h]

/-- With an active bank: the stack page, the mapped page, or the logical address (R210). -/
theorem translate_of_bank {l : MappingLayout} {map : Mapping} {b : Fin 8} (h : activeBank l map = some b) (addr : Word)
    (space : Space) : Machine.translate l map addr space =
      if (map.get b).getLsbD l.sen = true ∧ space = .stack then pageAddress b (field2 (map.get b) l.spage) addr
      else if inMappedRange l (map.get b) addr = true then pageAddress b (field2 (map.get b) l.mpage) addr
      else addr.toNat := by
  unfold Machine.translate
  rw [h]

theorem field2_eq (v : Byte) (i : Nat) : field2 v i = v.toNat / 2 ^ i % 4 := by
  rw [field2, BitVec.extractLsb'_toNat, Nat.shiftRight_eq_div_pow]

/-- The mapped ranges under the default bit positions (R210, R118), as inequalities of numbers. -/
theorem inMappedRange_default (m : Byte) (addr : Word) : inMappedRange defaultLayout m addr = true ↔
    (m.getLsbD 6 = true ∧ 0x8000 ≤ addr.toNat ∧ addr.toNat ≤ 0x9FFF) ∨
      (m.getLsbD 5 = true ∧ 0xA000 ≤ addr.toNat ∧ addr.toNat ≤ 0xDFFF) ∨
      (m.getLsbD 7 = true ∧ 0xE000 ≤ addr.toNat) := by
  simp only [inMappedRange, defaultLayout, Bool.or_eq_true, Bool.and_eq_true, decide_eq_true_eq, or_assoc]
  rfl

/-- Settles O42, from the lemmas on enabled and active banks and the cases of `translate`. -/
theorem addressTranslation : Obligations.AddressTranslation := by
  have off (m : Byte) : bankEnabled defaultLayout m = false ↔ m.toNat < 16 := by
    rw [default_enabled, decide_eq_false_iff_not, not_le]
  refine ⟨fun map => ⟨fun b => default_enabled _, fun b => ?_, ?_⟩, fun map addr space => ⟨?_, fun b hb => ?_⟩,
    translate_lt⟩
  · rw [active_some, default_enabled, decide_eq_true_eq]
    simp only [off]
  · simp only [active_none, off]
  · exact fun hn => translate_of_no_bank hn addr space
  · simp only [translate_of_bank hb, inMappedRange_default, field2_eq, pageAddress]
    simp only [defaultLayout, Nat.pow_zero, Nat.div_one, Nat.reducePow]

/-! ## The mapping write -/

/-- A mapping write writes one mapping register. -/
@[simp] theorem setBankConfig_map (s : State) (b : Fin 8) (v : Byte) :
    (s.setBankConfig b v).map = s.map.set b.val v := by
  unfold State.setBankConfig
  dsimp only
  split <;> rfl

/-- A mapping write raises a fault when two banks are then enabled, and only then (R215). -/
theorem setBankConfig_fault (s : State) (b : Fin 8) (v : Byte) : (s.setBankConfig b v).fault =
    if mappingConflict s.params.layout (s.setBankConfig b v).map = true then
      if s.fault = .none then .mappingConflict else s.fault
    else s.fault := by
  rw [setBankConfig_map]
  unfold State.setBankConfig
  dsimp only
  split <;> rfl

/-- A mapping write changes nothing but the mapping and FAULT. -/
theorem setBankConfig_frame (s : State) (b : Fin 8) (v : Byte) :
    s.setBankConfig b v = { s with map := (s.setBankConfig b v).map, fault := (s.setBankConfig b v).fault } := by
  unfold State.setBankConfig
  dsimp only
  split <;> rfl

/-- Settles O43: the lemmas on the active bank and on conflicts, at the mapping written. -/
theorem mappingWrite : Obligations.MappingWrite := by
  intro s b v
  have hget (c : Fin 8) : (s.setBankConfig b v).map.get c = if c = b then v else s.map.get c := by
    rw [setBankConfig_map, map_get_set]
  refine ⟨?_, fun c hc => ?_, fun c => active_some, active_none, fun htwo => ?_, fun hone => ?_,
    setBankConfig_frame s b v⟩
  · rw [hget, if_pos rfl]
  · rw [hget, if_neg hc]
  · rw [setBankConfig_fault, if_pos (conflict_iff.2 htwo)]
  · have hno : ¬ mappingConflict s.params.layout (s.setBankConfig b v).map = true := fun hc =>
      have ⟨c, d, hne, hon, hon'⟩ := conflict_iff.1 hc
      hne (hone c d hon hon')
    rw [setBankConfig_fault, if_neg hno]

/-! ## One-byte accesses -/

/-- In ROM mode, below ROM_LEN, a read gives the ROM's byte (R220). -/
theorem readPhys_rom {s : State} {pa : Nat} (hm : s.romMode = true) (hpa : pa < s.params.rom.length) :
    s.readPhys pa = s.params.rom[pa] := by
  rw [State.readPhys, if_pos ⟨hm, hpa⟩, List.getD_eq_getElem _ _ hpa]

/-- Out of ROM mode, or from ROM_LEN on, a read gives the RAM's byte (R218). -/
theorem readPhys_ram {s : State} {pa : Nat} (h : s.romMode = false ∨ s.params.rom.length ≤ pa) :
    s.readPhys pa = s.ram.read pa := by
  refine if_neg fun ⟨hm, hlt⟩ => ?_
  rcases h with h | h
  · rw [hm] at h; cases h
  · omega

/-- Settles O44: what a read gives by ROM mode and address, and the one RAM byte a write changes. -/
theorem memoryReadAndWrite : Obligations.MemoryReadAndWrite := by
  intro s addr space v
  refine ⟨fun hr => readPhys_rom hr.1 hr.2, readPhys_ram, arch_noteRead s addr space, rfl,
    fun pb => read_write s.ram _ pb v, rfl, rfl, ?_⟩
  exact (readPhys_ram (.inl rfl)).trans (read_write_same s.ram (s.translate addr space) v)

end Sys2Proof.Proofs
end

section
/-! The encoding (O1 to O5): the opcode map and the encoder invert each other, row by row, so decoding inverts encoding
both ways; the twelve undocumented opcodes have the shapes of their twins. -/

namespace Sys2Proof.Proofs

open Sys2Proof.Machine Sys2Proof.Laws

/-! ## Decoding inverts encoding -/

/-- The instruction is the one of this row of the opcode map, for some value of the row's operand. -/
def InRow (i : Instr) : Form → Prop
  | .f1 j => j = i
  | .f2 k => ∃ v, k v = i
  | .f3 k => ∃ v, k v = i

/-- Each instruction stands in the opcode map at its own opcode byte. -/
theorem opcodeMap_opcodeOf (i : Instr) : ∃ f, opcodeMap[(opcodeOf i).toNat]? = some f ∧ InRow i f := by
  cases i
  case lxiB v | lxiD v | lxiH v | lxiSp v | shld v | lhld v | sta v | lda v | jmp v | jmpCB v | jnz v | jz v | jnc v
    | jc v | jpo v | jpe v | jp v | jm v | call v | callDD v | callED v | callFD v | cnz v | cz v | cnc v | cc v | cpo v
    | cpe v | cp v | cm v => exact ⟨_, rfl, v, rfl⟩
  case mviB v | mviC v | mviD v | mviE v | mviH v | mviL v | mviM v | mviA v | adi v | aci v | sui v | sbi v | ani v
    | xri v | ori v | cpi v | inPort v | outPort v => exact ⟨_, rfl, v, rfl⟩
  all_goals exact ⟨_, rfl, rfl⟩

/-- The bytes of an instruction of a row of the map decode to that instruction. -/
theorem decode_encode_of_inRow {op : Byte} {f : Form} {i : Instr} (hf : opcodeMap[op.toNat]? = some f)
    (hi : InRow i f) (rest : List Byte) : decode (encode i ++ rest) = .ok (i, rest) := by
  cases f <;> obtain ⟨he, -⟩ := opcodeMap_form hf
  case f1 j => cases hi; simp [he, decode, hf]
  case f2 k | f3 k => obtain ⟨v, rfl⟩ := hi; simp [he, decode, hf]

/-- Settles O1: each instruction stands at its opcode byte in the map, whose rows encode to the bytes they decode. -/
theorem decodeInvertsEncode : Obligations.DecodeInvertsEncode := by
  intro i rest
  obtain ⟨f, hf, hi⟩ := opcodeMap_opcodeOf i
  exact decode_encode_of_inRow hf hi rest

/-! ## Every byte decodes -/

theorem opcodeMap_length : opcodeMap.length = 256 := by
  simp only [opcodeMap, List.length_append, row0_length, row1_length, row2_length, row3_length, row4_length,
    row5_length, row6_length, row7_length, row8_length, row9_length, rowA_length, rowB_length, rowC_length, rowD_length,
    rowE_length, rowF_length]

/-- Any opcode byte and two bytes after it begin with the encoding of an instruction, as long as R311 says. -/
theorem exists_encode_append (op b1 b2 : Byte) :
    ∃ i rest, encode i ++ rest = [op, b1, b2] ∧ (encode i).length = opcodeLength op := by
  obtain ⟨f, hf⟩ : ∃ f, opcodeMap[op.toNat]? = some f :=
    ⟨_, List.getElem?_eq_getElem (opcodeMap_length ▸ op.isLt)⟩
  cases f <;> obtain ⟨he, hl⟩ := opcodeMap_form hf
  case f1 i => exact ⟨i, [b1, b2], by simp [he], by simpa [he] using hl.symm⟩
  case f2 k => exact ⟨k b1, [b2], by simp [he], by simpa [he] using hl.symm⟩
  case f3 k => exact ⟨k (mkWord b2 b1), [], by simp [he], by simpa [he] using hl.symm⟩

/-- Settles O2: the bytes begin with an encoding, which decodes to its instruction. -/
theorem everyByteDecodes : Obligations.EveryByteDecodes := by
  intro op b1 b2
  obtain ⟨i, rest, hbytes, hlen⟩ := exists_encode_append op b1 b2
  obtain ⟨htail, hle⟩ := encode_length i
  exact ⟨i, rest, hbytes ▸ decodeInvertsEncode i rest, hbytes, hlen, by omega, by omega⟩

/-! ## The undocumented opcodes -/

/-- Each undocumented opcode decodes to an instruction of its twin's shape with the same operand bytes. -/
theorem twins_decode : ∀ p ∈ undocumentedTwins, ∀ b1 b2 : Byte, ∃ i j rest,
    decode [p.1, b1, b2] = .ok (i, rest) ∧ decode [p.2, b1, b2] = .ok (j, rest) ∧ shapeOf i = shapeOf j ∧
      encode i = p.1 :: (encode j).tail ∧ encode j = p.2 :: (encode j).tail := by
  unfold undocumentedTwins
  simp only [List.forall_mem_cons, List.not_mem_nil, false_implies, implies_true, and_true]
  and_intros
  all_goals exact fun b1 b2 => ⟨_, _, _, rfl, rfl, rfl, rfl, rfl⟩

/-- A well-formed `MC` gives an undocumented opcode its twin's count. -/
theorem mcOf_twin {table : List Nat} (h : wellFormedMc table = true) {p : Byte × Byte} (hp : p ∈ undocumentedTwins) :
    mcOf table p.1 = mcOf table p.2 := by
  rw [wellFormedMc, Bool.and_eq_true] at h
  exact of_decide_eq_true (List.all_eq_true.1 h.2 p hp)

/-- Instructions of one shape have the same effect; with equal counts they take the same ticks and make the same bus
events. -/
theorem exec_of_shape_eq {i j : Instr} (hs : shapeOf i = shapeOf j) (s : State) :
    ∃ t u, exec i s = .next t ∧ exec j s = .next u ∧ t.arch = u.arch ∧
      (wellFormedMc s.params.mc = true → mcOf s.params.mc (opcodeOf i) = mcOf s.params.mc (opcodeOf j) →
        t.cpu.cc = u.cpu.cc ∧ busEvents t.trace = busEvents u.trace) := by
  obtain ⟨t, ht⟩ := exec_next i s
  obtain ⟨u, hu⟩ := exec_next j s
  refine ⟨t, u, ht, hu, ?_, fun hmc heq => ⟨?_, ?_⟩⟩
  · rw [exec_arch ht, exec_arch hu, hs]
  · obtain ⟨-, hcc, -⟩ := exec_time ht hmc
    obtain ⟨-, hcc', -⟩ := exec_time hu hmc
    rw [hcc, hcc', heq]
  · rw [exec_bus ht hmc, exec_bus hu hmc, hs]

theorem opcodeOf_of_encode {i : Instr} {op : Byte} {operands : List Byte} (h : encode i = op :: operands) :
    opcodeOf i = op := by
  rw [opcodeOf, h]; rfl

/-- Settles O5: an undocumented opcode has the shape of its twin, and a well-formed `MC` the same count for both. -/
theorem undocumentedOpcodesDuplicate : Obligations.UndocumentedOpcodesDuplicate := by
  intro p hp b1 b2
  obtain ⟨i, j, rest, hi, hj, hs, ei, ej⟩ := twins_decode p hp b1 b2
  refine ⟨i, j, rest, hi, hj, ei, ej, fun s => ?_⟩
  obtain ⟨t, u, ht, hu, harch, htime⟩ := exec_of_shape_eq hs s
  refine ⟨t, u, ht, hu, harch, fun hwf => ?_⟩
  have hmc := wellFormed_mc hwf
  have heq := mcOf_twin hmc hp
  refine ⟨heq, htime hmc ?_⟩
  rw [opcodeOf_of_encode ei, opcodeOf_of_encode ej, heq]

/-! ## Operand codes and sample words -/

theorem encode_mov (dst src : Reg) : encode (.mov dst src) = [0b01#2 ++ regCode dst ++ regCode src] := by
  cases dst <;> cases src <;> rfl

theorem encode_movFromM (r : Reg) : encode (.movFromM r) = [0b01#2 ++ regCode r ++ 0b110#3] := by cases r <;> rfl

theorem encode_movToM (r : Reg) : encode (.movToM r) = [0b01#2 ++ 0b110#3 ++ regCode r] := by cases r <;> rfl

theorem encode_inx (p : Pair) : encode (.inx p) = [0b00#2 ++ pairCode p ++ 0b0011#4] := by cases p <;> rfl

theorem encode_dad (p : Pair) : encode (.dad p) = [0b00#2 ++ pairCode p ++ 0b1001#4] := by cases p <;> rfl

theorem opcodeOf_jcc (cond : Cond) (v : Word) : opcodeOf (.jcc cond v) = 0b11#2 ++ condCode cond ++ 0b010#3 := by
  cases cond <;> rfl

theorem opcodeOf_ccc (cond : Cond) (v : Word) : opcodeOf (.ccc cond v) = 0b11#2 ++ condCode cond ++ 0b100#3 := by
  cases cond <;> rfl

theorem opcodeOf_rcc (cond : Cond) : opcodeOf (.rcc cond) = 0b11#2 ++ condCode cond ++ 0b000#3 := by cases cond <;> rfl

theorem encode_aluReg (op : AluOp) (r : Reg) : encode (.aluReg op r) = [0b10#2 ++ aluCode op ++ regCode r] := by
  cases op <;> cases r <;> rfl

theorem encode_aluM (op : AluOp) : encode (.aluM op) = [0b10#2 ++ aluCode op ++ 0b110#3] := by cases op <;> rfl

theorem encode_aluImm (op : AluOp) (v : Byte) : encode (.aluImm op v) = [0b11#2 ++ aluCode op ++ 0b110#3, v] := by
  cases op <;> rfl

/-- Settles O3: the encodings of each family of instructions by its operand codes, and the places in the map of the
instructions that are in no family. -/
theorem operandCodes : Obligations.OperandCodes :=
  ⟨encode_mov, fun r => ⟨encode_movFromM r, encode_movToM r⟩, rfl, fun p => ⟨encode_inx p, encode_dad p⟩, rfl, rfl, rfl,
    fun _ => rfl, fun _ => rfl, fun cond v => ⟨opcodeOf_jcc cond v, opcodeOf_ccc cond v, opcodeOf_rcc cond⟩, rfl,
    fun op r v => ⟨encode_aluReg op r, encode_aluM op, encode_aluImm op v⟩, rfl⟩

/-- Settles O4: each word is the encoding of its instruction, so decoding gives that instruction back. -/
theorem sampleWordsDecode : Obligations.SampleWordsDecode :=
  ⟨decodeInvertsEncode .movAB [], decodeInvertsEncode (.lxiH 0x4000) [], decodeInvertsEncode (.mviM 0xAA) [],
    decodeInvertsEncode .addM [], decodeInvertsEncode (.cpi 0x40) [], decodeInvertsEncode .daa [],
    decodeInvertsEncode (.jnz 0x2000) [], decodeInvertsEncode (.callED 0x2000) [], decodeInvertsEncode .rst3 [],
    decodeInvertsEncode .pushPsw [], decodeInvertsEncode (.inPort 0x10) [], decodeInvertsEncode .hlt [],
    decodeInvertsEncode .nop20 []⟩

end Sys2Proof.Proofs
end

section
/-! The data-transfer instructions (O13 to O19): each completes with the effect and the bus events of its shape, which
are those the statement writes out. -/

namespace Sys2Proof.Proofs

open Sys2Proof.Machine Sys2Proof.Laws

/-- An instruction of a known shape completes with that shape's effect and bus events. -/
theorem completes_of_shape {i : Instr} {sh : Shape} (h : shapeOf i = sh) (s : State) :
    Completes i s (effect sh s) (busOf sh s) := h ▸ completes i s

/-! ## The families by operand -/

theorem shapeOf_mov (dst src : Reg) : shapeOf (.mov dst src) = .mov dst src := by cases dst <;> cases src <;> rfl

theorem shapeOf_movFromM (dst : Reg) : shapeOf (.movFromM dst) = .movFromM dst := by cases dst <;> rfl

theorem shapeOf_movToM (src : Reg) : shapeOf (.movToM src) = .movToM src := by cases src <;> rfl

theorem shapeOf_mvi (dst : Reg) (v : Byte) : shapeOf (.mvi dst v) = .mvi dst v := by cases dst <;> rfl

theorem shapeOf_lxi (p : Pair) (v : Word) : shapeOf (.lxi p v) = .lxi p v := by cases p <;> rfl

theorem encode_mvi (dst : Reg) (v : Byte) : encode (.mvi dst v) = [0b00#2 ++ regCode dst ++ 0b110#3, v] := by
  cases dst <;> rfl

theorem encode_lxi (p : Pair) (v : Word) :
    encode (.lxi p v) = [0b00#2 ++ pairCode p ++ 0b0001#4, loByte v, hiByte v] := by cases p <;> rfl

/-! ## Moves -/

/-- Settles O13: the forms of `MOV` have the shapes of their operands, whose address is the HL of the start. -/
theorem move : Obligations.Move := by
  intro s dst src
  refine ⟨⟨encode_mov dst src, ?_⟩, ⟨encode_movFromM dst, ?_⟩, encode_movToM src, ?_⟩
  · exact completes_of_shape (shapeOf_mov dst src) s
  · exact completes_of_shape (shapeOf_movFromM dst) s
  · exact completes_of_shape (shapeOf_movToM src) s

/-- Settles O14: the forms of `MVI` have the shapes of their operands; the store of `MVI M` follows the fetch. -/
theorem moveImmediate : Obligations.MoveImmediate := by
  intro s dst v
  refine ⟨⟨encode_mvi dst v, ?_⟩, rfl, ?_⟩
  · exact completes_of_shape (shapeOf_mvi dst v) s
  · exact completes (.mviM v) s

/-- Settles O15: `LXI` has the shape of its pair, whose operand is fetched low byte first. -/
theorem loadPairImmediate : Obligations.LoadPairImmediate := by
  intro s p v
  exact ⟨encode_lxi p v, completes_of_shape (shapeOf_lxi p v) s⟩

/-! ## Direct and indirect accesses -/

/-- Settles O16: `LDA` and `STA` are shapes of their own; both fetches come before the access. -/
theorem directAccumulator : Obligations.DirectAccumulator := by
  intro s v
  exact ⟨⟨rfl, completes (.lda v) s⟩, rfl, completes (.sta v) s⟩

/-- Settles O17: `LHLD` and `SHLD` are shapes of their own, L's access first, H's at the address after it. -/
theorem directPair : Obligations.DirectPair := by
  intro s v
  exact ⟨⟨rfl, completes (.lhld v) s⟩, rfl, completes (.shld v) s⟩

/-- Settles O18: `LDAX` and `STAX` have the shape of their pair, BC or DE. -/
theorem indirectAccumulator : Obligations.IndirectAccumulator := by
  intro s
  exact ⟨⟨rfl, completes .ldaxB s⟩, ⟨rfl, completes .ldaxD s⟩, ⟨rfl, completes .staxB s⟩, rfl, completes .staxD s⟩

/-! ## Exchange, PCHL and SPHL -/

/-- Settles O19: `XCHG`, `PCHL` and `SPHL` are shapes of their own, with no bus event. -/
theorem exchangeAndHlTargets : Obligations.ExchangeAndHlTargets := by
  intro s
  exact ⟨⟨rfl, completes .xchg s⟩, ⟨rfl, completes .pchl s⟩, rfl, completes .sphl s⟩

end Sys2Proof.Proofs
end

section
/-! Arithmetic (O8 to O10, O12, O20 to O23): ADD8 and SUB8 in natural numbers; each arithmetic instruction completes with
the effect of its shape, whose result and flags are those the statement writes out. -/

namespace Sys2Proof.Proofs

open Sys2Proof.Machine Sys2Proof.Laws

/-! ## ADD8 and SUB8 -/

theorem szp_s_iff (v : Byte) (ac cy : Bool) : (szp v ac cy).s = true ↔ 128 ≤ v.toNat := by
  change v.getLsbD 7 = true ↔ _
  rw [← BitVec.msb_eq_getLsbD_last, BitVec.msb_eq_decide, decide_eq_true_iff]

theorem szp_z_iff (v : Byte) (ac cy : Bool) : (szp v ac cy).z = true ↔ v = 0 := beq_iff_eq

theorem szp_p_iff (v : Byte) (ac cy : Bool) :
    (szp v ac cy).p = true ↔ (List.range 8).countP (fun k => v.getLsbD k) % 2 = 0 := by
  rw [List.countP_eq_length_filter]; exact beq_iff_eq

/-- CY of ADD8 is the carry out of bit 7. -/
theorem add8_cy_iff (a b : Byte) (c : Bool) :
    (add8 a b c).flags.cy = true ↔ 256 ≤ a.toNat + b.toNat + c.toNat := by
  rw [add8_flags]; exact decide_eq_true_iff

/-- AC of ADD8 is the carry out of bit 3. -/
theorem add8_ac_iff (a b : Byte) (c : Bool) :
    (add8 a b c).flags.ac = true ↔ 16 ≤ a.toNat % 16 + b.toNat % 16 + c.toNat := by
  rw [add8_flags]; exact decide_eq_true_iff

/-- Settles O8: the 9-bit sum does not wrap, so its carries are those of the sum in natural numbers. -/
theorem additionLaw : Obligations.AdditionLaw :=
  ⟨fun a b c => ⟨sum9_toNat a b c, add8_toNat a b c, rfl, add8_cy_iff a b c, add8_ac_iff a b c⟩,
    fun v ac cy => ⟨rfl, rfl, szp_z_iff v ac cy, szp_s_iff v ac cy, szp_p_iff v ac cy⟩⟩

theorem bool_not_toNat (c : Bool) : (!c).toNat = 1 - c.toNat := by cases c <;> rfl

/-- Adding the complement and the inverted borrow subtracts (R451). -/
theorem sub8_toNat (a b : Byte) (bin : Bool) :
    (sub8 a b bin).res.toNat = (256 + a.toNat - b.toNat + 256 - bin.toNat) % 256 := by
  have hb := b.isLt
  have hbin := bool_toNat_le bin
  change (add8 a (~~~b) (!bin)).res.toNat = _
  rw [add8_toNat, not_toNat, bool_not_toNat]
  omega

/-- CY of SUB8 is the borrow: the inverse of the carry of the addition (R451, C2). -/
theorem sub8_cy_iff (a b : Byte) (bin : Bool) :
    (sub8 a b bin).flags.cy = true ↔ a.toNat < b.toNat + bin.toNat := by
  have hb := b.isLt
  have hbin := bool_toNat_le bin
  change (!(add8 a (~~~b) (!bin)).flags.cy) = true ↔ _
  rw [Bool.not_eq_true', ← Bool.not_eq_true, add8_cy_iff, not_toNat, bool_not_toNat]
  omega

/-- AC of SUB8 is the carry out of bit 3 of the addition, not inverted (R451). -/
theorem sub8_ac_iff (a b : Byte) (bin : Bool) :
    (sub8 a b bin).flags.ac = true ↔ 16 ≤ a.toNat % 16 + (255 - b.toNat) % 16 + (1 - bin.toNat) := by
  rw [← not_toNat, ← bool_not_toNat]; exact add8_ac_iff a (~~~b) (!bin)

/-- Settles O9: SUB8 is ADD8 of the complement by definition, read in natural numbers. -/
theorem subtractionLaw : Obligations.SubtractionLaw := by
  intro a b bin
  exact ⟨rfl, rfl, sub8_toNat a b bin, sub8_cy_iff a b bin, sub8_ac_iff a b bin⟩

/-! ## Operations on A and an operand -/

theorem shapeOf_aluReg (op : AluOp) (r : Reg) : shapeOf (.aluReg op r) = .alu op r := by cases op <;> cases r <;> rfl

/-- Settles O10: the register forms have the shape of their operation and register, the memory forms that of their
operation. -/
theorem addAndSubtract : Obligations.AddAndSubtract := by
  intro s r
  have onReg (op : AluOp) := completes_of_shape (shapeOf_aluReg op r) s
  exact ⟨⟨encode_aluReg .add r, onReg .add⟩, ⟨rfl, completes .addM s⟩, ⟨encode_aluReg .adc r, onReg .adc⟩,
    ⟨rfl, completes .adcM s⟩, ⟨encode_aluReg .sub r, onReg .sub⟩, ⟨rfl, completes .subM s⟩,
    ⟨encode_aluReg .sbb r, onReg .sbb⟩, rfl, completes .sbbM s⟩

/-- Settles O12: the immediate forms have the shape of their operation and operand, with PC past the operand. -/
theorem aluImmediate : Obligations.AluImmediate := by
  intro s v
  exact ⟨⟨rfl, completes (.adi v) s⟩, ⟨rfl, completes (.aci v) s⟩, ⟨rfl, completes (.sui v) s⟩,
    ⟨rfl, completes (.sbi v) s⟩, ⟨rfl, completes (.ani v) s⟩, ⟨rfl, completes (.xri v) s⟩, ⟨rfl, completes (.ori v) s⟩,
    rfl, completes (.cpi v) s⟩

/-! ## INR and DCR, INX and DCX -/

/-- An instruction completes with its shape's effect and bus events in any form they are equal to. -/
theorem completes_of_effect {i : Instr} {sh : Shape} {s u : State} {ev : List (Nat × BusEvent)} (h : shapeOf i = sh)
    (hu : effect sh s = u) (hev : busOf sh s = ev) : Completes i s u ev := by
  subst hu hev; exact completes_of_shape h s

theorem shapeOf_inr (r : Reg) : shapeOf (.inr r) = .inr r := by cases r <;> rfl

theorem shapeOf_dcr (r : Reg) : shapeOf (.dcr r) = .dcr r := by cases r <;> rfl

theorem shapeOf_inx (p : Pair) : shapeOf (.inx p) = .inx p := by cases p <;> rfl

theorem shapeOf_dcx (p : Pair) : shapeOf (.dcx p) = .dcx p := by cases p <;> rfl

theorem encode_inr (r : Reg) : encode (.inr r) = [0b00#2 ++ regCode r ++ 0b100#3] := by cases r <;> rfl

theorem encode_dcr (r : Reg) : encode (.dcr r) = [0b00#2 ++ regCode r ++ 0b101#3] := by cases r <;> rfl

theorem encode_dcx (p : Pair) : encode (.dcx p) = [0b00#2 ++ pairCode p ++ 0b1011#4] := by cases p <;> rfl

/-- Settles O20: AC of adding 1 and of adding 0xFF is read off the result's low nibble (`keep_up`, `keep_dn`). -/
theorem incrementAndDecrement : Obligations.IncrementAndDecrement := by
  intro s r
  refine ⟨⟨encode_inr r, completes_of_effect (shapeOf_inr r) ?_ rfl⟩, ⟨rfl, completes_of_effect (sh := .inrM) rfl ?_ ?_⟩,
    ⟨encode_dcr r, completes_of_effect (shapeOf_dcr r) ?_ rfl⟩, rfl, completes_of_effect (sh := .dcrM) rfl ?_ ?_⟩
  · simp only [effect, keep_up, incremented_res]
  · simp only [effect, keep_up, incremented_res]
  · simp only [busOf, incremented_res]
  · simp only [effect, keep_dn, decremented_res]
  · simp only [effect, keep_dn, decremented_res]
  · simp only [busOf, decremented_res]

/-- Settles O21: `INX` and `DCX` have the shape of their pair, whose effect writes that pair alone. -/
theorem pairIncrementAndDecrement : Obligations.PairIncrementAndDecrement := by
  intro s p
  refine ⟨⟨encode_inx p, ?_⟩, encode_dcx p, ?_⟩
  · exact completes_of_shape (shapeOf_inx p) s
  · exact completes_of_shape (shapeOf_dcx p) s

/-! ## DAD and DAA -/

theorem shapeOf_dad (p : Pair) : shapeOf (.dad p) = .dad p := by cases p <;> rfl

/-- Settles O22: bit 16 of the 17-bit sum is the carry (`dad_eq`). -/
theorem doubleAdd : Obligations.DoubleAdd := by
  intro s p
  exact ⟨encode_dad p, completes_of_effect (shapeOf_dad p) (dad_eq s (s.pair p)) rfl⟩

/-- DAA corrects the low digit (R468). -/
def daaLow (a : Byte) (f : Flags) : Bool := f.ac || decide (9 < a.toNat % 16)

/-- DAA corrects the high digit, and makes a carry (R468). -/
def daaHigh (a : Byte) (f : Flags) : Bool :=
  f.cy || decide (9 < a.toNat / 16 ∨ 9 ≤ a.toNat / 16 ∧ 9 < a.toNat % 16)

theorem lowNibble_toNat (a : Byte) : (a.extractLsb' 0 4).toNat = a.toNat % 16 := BitVec.extractLsb'_toNat ..

theorem highNibble_toNat (a : Byte) : (a.extractLsb' 4 4).toNat = a.toNat / 16 := by
  have ha := a.isLt
  rw [BitVec.extractLsb'_toNat, Nat.shiftRight_eq_div_pow]
  omega

/-- The model's correction in natural numbers; the CY it keeps is already a reason for the high correction. -/
theorem daaCorrection_eq (a : Byte) (f : Flags) : daaCorrection a f =
    ((if daaLow a f then 0x06 else 0x00) + (if daaHigh a f then 0x60 else 0x00), daaHigh a f) := by
  have hlow : (f.ac || decide (9 < a.extractLsb' 0 4)) = daaLow a f := by
    simp only [BitVec.lt_def, lowNibble_toNat]; rfl
  have hhigh : (f.cy || decide (9 < a.extractLsb' 4 4) ||
      (decide (9 ≤ a.extractLsb' 4 4) && decide (9 < a.extractLsb' 0 4))) = daaHigh a f := by
    simp only [BitVec.lt_def, BitVec.le_def, lowNibble_toNat, highNibble_toNat]
    rw [daaHigh, Bool.decide_or, Bool.decide_and, Bool.or_assoc]; rfl
  have hcy : (f.cy || daaHigh a f) = daaHigh a f := by rw [daaHigh, ← Bool.or_assoc, Bool.or_self]
  unfold daaCorrection
  dsimp only
  rw [hlow, hhigh, hcy]

/-- Settles O23: `DAA` adds the correction, and CY is whether the high one applied. -/
theorem decimalAdjust : Obligations.DecimalAdjust := by
  intro s
  refine ⟨rfl, completes_of_effect (sh := .daa) rfl ?_ rfl⟩
  change (s.setFlags (daa8 s.cpu.a s.cpu.flags).flags).setReg .a (daa8 s.cpu.a s.cpu.flags).res = _
  rw [daa8, daaCorrection_eq]
  rfl

end Sys2Proof.Proofs
end

section
/-! Logic, compare, rotates and carry (O11, O24): each instruction completes with the effect of its shape; the rotates
and CMA are written with the shifts and the subtraction of the statement. -/

namespace Sys2Proof.Proofs

open Sys2Proof.Machine Sys2Proof.Laws

/-! ## Logic and compare -/

/-- Settles O11: the register forms have the shape of their operation and register, the memory forms that of their
operation; `CMP` has the flags of SUB8 and no result. -/
theorem logicAndCompare : Obligations.LogicAndCompare := by
  intro s r
  have onReg (op : AluOp) := completes_of_shape (shapeOf_aluReg op r) s
  exact ⟨⟨encode_aluReg .ana r, onReg .ana⟩, ⟨rfl, completes .anaM s⟩, ⟨encode_aluReg .xra r, onReg .xra⟩,
    ⟨rfl, completes .xraM s⟩, ⟨encode_aluReg .ora r, onReg .ora⟩, ⟨rfl, completes .oraM s⟩,
    ⟨encode_aluReg .cmp r, onReg .cmp⟩, rfl, completes .cmpM s⟩

/-! ## Rotates, complements and carry -/

/-- Only bit 7 is left of a byte shifted right by seven. -/
theorem ushiftRight_seven (a : Byte) : a >>> 7 = (BitVec.ofBool (a.getLsbD 7)).setWidth 8 := by
  ext i hi
  rw [BitVec.getElem_ushiftRight, BitVec.getElem_setWidth, BitVec.getLsbD_ofBool]
  rcases Nat.eq_zero_or_pos i with rfl | hpos
  · rfl
  · rw [BitVec.getLsbD_of_ge a (7 + i) (by omega), decide_eq_false hpos.ne', Bool.false_and]

/-- Only bit 0 is left of a byte shifted left by seven. -/
theorem shiftLeft_seven (a : Byte) : a <<< 7 = (BitVec.ofBool (a.getLsbD 0)).setWidth 8 <<< 7 := by
  rw [← BitVec.and_one_eq_setWidth_ofBool_getLsbD]
  apply BitVec.eq_of_toNat_eq
  rw [BitVec.toNat_shiftLeft, BitVec.toNat_shiftLeft, BitVec.toNat_and, Nat.shiftLeft_eq, Nat.shiftLeft_eq]
  change a.toNat * 128 % 256 = (a.toNat &&& 1) * 128 % 256
  rw [Nat.and_one_is_mod]
  omega

/-- A left rotate by one brings bit 7 to bit 0 (R508). -/
theorem rotateLeft_one (a : Byte) : a.rotateLeft 1 = a <<< 1 ||| (BitVec.ofBool (a.getLsbD 7)).setWidth 8 := by
  rw [← ushiftRight_seven]; rfl

/-- A right rotate by one brings bit 0 to bit 7 (R509). -/
theorem rotateRight_one (a : Byte) : a.rotateRight 1 = a >>> 1 ||| (BitVec.ofBool (a.getLsbD 0)).setWidth 8 <<< 7 := by
  rw [← shiftLeft_seven]; rfl

/-- Settles O24: the rotates by one bring round the bit that CY takes (`rotateLeft_one`, `rotateRight_one`), and the
complement of A is 0xFF less A; the others are their shapes' effects as they stand. -/
theorem rotatesComplementsAndCarry : Obligations.RotatesComplementsAndCarry := by
  intro s
  refine ⟨⟨rfl, completes_of_effect (sh := .rlc) rfl ?_ rfl⟩, ⟨rfl, completes_of_effect (sh := .rrc) rfl ?_ rfl⟩,
    ⟨rfl, completes .ral s⟩, ⟨rfl, completes .rar s⟩, ⟨rfl, completes_of_effect (sh := .cma) rfl ?_ rfl⟩,
    ⟨rfl, completes .cmc s⟩, rfl, completes .stc s⟩
  · exact congrArg (s.rotateA · (s.cpu.a.getLsbD 7)) (rotateLeft_one s.cpu.a)
  · exact congrArg (s.rotateA · (s.cpu.a.getLsbD 0)) (rotateRight_one s.cpu.a)
  · exact congrArg (s.setReg .a) (BitVec.allOnes_sub_eq_not s.cpu.a).symm

end Sys2Proof.Proofs
end

section
/-! Jumps, calls, returns and restarts (O25 to O28): each instruction completes with the effect of its shape; a push of
PC is two writes below SP, and a conditional form reads its condition as the instruction starts. -/

namespace Sys2Proof.Proofs

open Sys2Proof.Machine Sys2Proof.Laws

/-! ## The families by condition -/

theorem shapeOf_jcc (cond : Cond) (v : Word) : shapeOf (.jcc cond v) = .jcc cond v := by cases cond <;> rfl

theorem shapeOf_ccc (cond : Cond) (v : Word) : shapeOf (.ccc cond v) = .ccc cond v := by cases cond <;> rfl

theorem shapeOf_rcc (cond : Cond) : shapeOf (.rcc cond) = .rcc cond := by cases cond <;> rfl

theorem encode_jcc (cond : Cond) (v : Word) :
    encode (.jcc cond v) = [0b11#2 ++ condCode cond ++ 0b010#3, loByte v, hiByte v] := by cases cond <;> rfl

theorem encode_ccc (cond : Cond) (v : Word) :
    encode (.ccc cond v) = [0b11#2 ++ condCode cond ++ 0b100#3, loByte v, hiByte v] := by cases cond <;> rfl

theorem encode_rcc (cond : Cond) : encode (.rcc cond) = [0b11#2 ++ condCode cond ++ 0b000#3] := by cases cond <;> rfl

/-! ## Jumps -/

/-- Settles O25: `Jcc` has the shape of its condition, and PC past the operand is all that two fetches leave when it
fails. -/
theorem jumps : Obligations.Jumps := by
  refine ⟨fun f => ⟨rfl, rfl, rfl, rfl, rfl, rfl, rfl, rfl⟩, fun s v cond => ?_⟩
  refine ⟨⟨rfl, completes (.jmp v) s⟩, ⟨rfl, completes (.jmpCB v) s⟩, encode_jcc cond v, ?_⟩
  exact completes_of_shape (shapeOf_jcc cond v) s

/-! ## Calls -/

/-- The writes of a push, the second two below SP (R553). -/
theorem pushes_eq (s : State) (j : Nat) (v : Word) : pushes s j v =
    [(j, s.writeAt (s.cpu.sp - 1) .stack (hiByte v)), (j + 1, s.writeAt (s.cpu.sp - 2) .stack (loByte v))] := by
  rw [← sub_one_one]; rfl

/-- `CALL` and its three duplicates have one shape, each at its own opcode byte (R653). -/
theorem call_forms (v : Word) :
    ∀ p ∈ [(Instr.call v, (0xCD : Byte)), (.callDD v, 0xDD), (.callED v, 0xED), (.callFD v, 0xFD)],
      encode p.1 = [p.2, loByte v, hiByte v] ∧ shapeOf p.1 = .call v := by
  simp only [List.forall_mem_cons, List.not_mem_nil, false_implies, implies_true, and_true]
  exact ⟨⟨rfl, rfl⟩, ⟨rfl, rfl⟩, ⟨rfl, rfl⟩, rfl, rfl⟩

/-- Settles O26: a call pushes the PC of after the operand (`pushPc_eq`, `pushes_eq`); `Ccc` has the shape of its
condition. -/
theorem calls : Obligations.Calls := by
  intro s v cond ret t u1 called fetch2 pushed
  have hcalled : (pushPc t).setPc v = called := congrArg (·.setPc v) (pushPc_eq t)
  have hpushed : pushes s 4 ret = pushed := pushes_eq s 4 ret
  refine ⟨fun p hp => ?_, encode_ccc cond v, completes_of_effect (shapeOf_ccc cond v) ?_ ?_⟩
  · obtain ⟨hencode, hshape⟩ := call_forms v p hp
    exact ⟨hencode, completes_of_effect hshape hcalled (congrArg (fetch2 ++ ·) hpushed)⟩
  · rw [← hcalled]; rfl
  · rw [← hpushed]; rfl

/-! ## Returns -/

/-- Settles O27: `RET*` has the shape of `RET`, and `Rcc` that of its condition, with the pops one cycle later. -/
theorem returns : Obligations.Returns := by
  intro s cond
  exact ⟨⟨rfl, completes .ret s⟩, ⟨rfl, completes .retD9 s⟩, encode_rcc cond, completes_of_shape (shapeOf_rcc cond) s⟩

/-! ## Restarts -/

/-- Each `RST n` stands at its own opcode byte and has the shape of its number (R557). -/
theorem rst_forms :
    ∀ p ∈ [(Instr.rst0, (0 : Fin 8)), (.rst1, 1), (.rst2, 2), (.rst3, 3), (.rst4, 4), (.rst5, 5), (.rst6, 6), (.rst7, 7)],
      encode p.1 = [0b11#2 ++ BitVec.ofNat 3 p.2.val ++ 0b111#3] ∧ shapeOf p.1 = .rst p.2 := by
  simp only [List.forall_mem_cons, List.not_mem_nil, false_implies, implies_true, and_true]
  exact ⟨⟨rfl, rfl⟩, ⟨rfl, rfl⟩, ⟨rfl, rfl⟩, ⟨rfl, rfl⟩, ⟨rfl, rfl⟩, ⟨rfl, rfl⟩, ⟨rfl, rfl⟩, rfl, rfl⟩

/-- Settles O28: a restart pushes PC as it stands (`pushPc_eq`, `pushes_eq`) and jumps by its number. -/
theorem restarts : Obligations.Restarts := by
  intro s u1 u2 p hp
  obtain ⟨hencode, hshape⟩ := rst_forms p hp
  refine ⟨hencode, completes_of_effect hshape ?_ (pushes_eq s 2 s.cpu.pc)⟩
  exact congrArg (·.setPc (BitVec.ofNat 16 (8 * p.2.val))) (pushPc_eq s)

end Sys2Proof.Proofs
end

section
/-! The stack, ports and control (O29 to O34): each instruction completes with the effect of its shape; two pushes
write one and two below SP, and the free values of `IN` and `OUT` are those drawn in machine cycle 2. -/

namespace Sys2Proof.Proofs

open Sys2Proof.Machine Sys2Proof.Laws

/-! ## Pushes and pops -/

/-- The bytes of two pushes are written one and two below SP (R600). -/
theorem push_push (s : State) (hi lo : Byte) : (s.push hi).push lo =
    (((s.setSp (s.cpu.sp - 1)).writeByte (s.cpu.sp - 1) .stack hi).setSp (s.cpu.sp - 2)).writeByte (s.cpu.sp - 2)
      .stack lo := by
  rw [← sub_one_one]; rfl

/-- A push leaves the data registers, so every pair but SP. -/
theorem pair_push (s : State) (v : Byte) {p : Pair} (hp : p ≠ .sp) : (s.push v).pair p = s.pair p := by
  cases p
  case sp => exact absurd rfl hp
  all_goals rfl

theorem effect_push {s : State} {p : Pair} {hi lo : Byte} (hp : p ≠ .sp) (hpair : s.pair p = mkWord hi lo) :
    effect (.push p) s = (s.push hi).push lo := by
  change (s.push (hiByte (s.pair p))).push (loByte ((s.push (hiByte (s.pair p))).pair p)) = _
  rw [pair_push s _ hp, hpair, hiByte_mkWord, loByte_mkWord]

theorem busOf_push {s : State} {p : Pair} {hi lo : Byte} (hp : p ≠ .sp) (hpair : s.pair p = mkWord hi lo) :
    busOf (.push p) s = [(2, s.writeAt (s.cpu.sp - 1) .stack hi), (3, s.writeAt (s.cpu.sp - 2) .stack lo)] := by
  change [(2, s.writeAt (s.cpu.sp - 1) .stack (hiByte (s.pair p))),
    (3, s.writeAt (s.cpu.sp - 1 - 1) .stack (loByte ((s.push (hiByte (s.pair p))).pair p)))] = _
  rw [pair_push s _ hp, hpair, hiByte_mkWord, loByte_mkWord, sub_one_one]

/-- Settles O29: the second push of a pair still finds its low byte (`effect_push`, `busOf_push`), and lands two below
SP (`push_push`). -/
theorem pushes : Obligations.Pushes := by
  intro s pushed ev
  have onPair {i : Instr} {p : Pair} {hi lo : Byte} (hshape : shapeOf i = .push p) (hp : p ≠ .sp)
      (hpair : s.pair p = mkWord hi lo) : Completes i s (pushed hi lo) (ev hi lo) :=
    completes_of_effect hshape ((effect_push hp hpair).trans (push_push s hi lo)) (busOf_push hp hpair)
  refine ⟨⟨rfl, onPair (p := .bc) rfl (by decide) rfl⟩, ⟨rfl, onPair (p := .de) rfl (by decide) rfl⟩,
    ⟨rfl, onPair (p := .hl) rfl (by decide) rfl⟩, rfl, ?_⟩
  refine completes_of_effect (sh := .pushPsw) rfl (push_push s s.cpu.a s.cpu.flags.pack) ?_
  rw [busOf, sub_one_one]

/-- Settles O30: `POP` has the shape of its pair, and `POP PSW` unpacks the flags from the byte at SP. -/
theorem pops : Obligations.Pops := by
  intro s
  exact ⟨⟨rfl, completes .popB s⟩, ⟨rfl, completes .popD s⟩, ⟨rfl, completes .popH s⟩, rfl, completes .popPsw s⟩

/-- Settles O31: `XTHL` is a shape of its own; both reads come before the writes. -/
theorem exchangeTopOfStack : Obligations.ExchangeTopOfStack := by
  intro s
  exact ⟨rfl, completes .xthl s⟩

/-! ## Ports -/

/-- The state with the count of free values that the port access of `IN` and `OUT` finds in machine cycle 2. -/
def atPortCycle (s : State) : State := { s with draws := s.draws + 1 + 1 }

/-- An input that is given is the byte answered. -/
theorem portInByte_given {s : State} {v : Byte} {rest : List Byte} (h : s.portIn = v :: rest) (port : Byte) :
    s.portInByte port = v := by
  rw [State.portInByte, h]

/-- Settles O32: the byte and the collaborator's state are those the port access of machine cycle 2 answers. -/
theorem portInput : Obligations.PortInput := by
  intro s port
  refine ⟨rfl, (atPortCycle s).portInByte port, ((atPortCycle s).callPortIn port).io, fun v rest h => ?_, ?_⟩
  · exact portInByte_given (s := atPortCycle s) h port
  · exact completes_of (i := .inPort port) rfl rfl

/-- A port access is a mapping write on what the access leaves, and reads nothing that `arch` hides. -/
theorem arch_callPortOut {s t : State} {port v : Byte} (h : (portOutAct s port v).arch = t.arch) :
    (s.callPortOut port v).arch = (t.bankPortWrite port v).arch := by
  change ((portOutAct s port v).bankPortWrite port v).arch = _
  rw [arch_bankPortWrite, h, arch_bankPortWrite]

/-- Settles O33: the collaborator's state and ROM mode are those the port access of machine cycle 2 leaves; the mapping
write comes after it (`arch_callPortOut`). -/
theorem portOutput : Obligations.PortOutput := by
  intro s port
  refine ⟨rfl, (portOutAct (atPortCycle s) port s.cpu.a).io, (portOutAct (atPortCycle s) port s.cpu.a).romMode,
    fun h => if_neg h, ?_⟩
  intro t
  have haccess : (portOutAct (atPortCycle (s.pcOn 1)) port s.cpu.a).arch = t.arch := rfl
  exact completes_of (i := .outPort port) (arch_callPortOut haccess) rfl

/-! ## Interrupt enables, HLT and NOP -/

/-- `NOP` and its seven duplicates have one shape, each at its own opcode byte (R611, R650). -/
theorem nop_forms :
    ∀ p ∈ [(Instr.nop, (0x00 : Byte)), (.nop08, 0x08), (.nop10, 0x10), (.nop18, 0x18), (.nop20, 0x20), (.nop28, 0x28),
      (.nop30, 0x30), (.nop38, 0x38)], encode p.1 = [p.2] ∧ shapeOf p.1 = .nop := by
  simp only [List.forall_mem_cons, List.not_mem_nil, false_implies, implies_true, and_true]
  exact ⟨⟨rfl, rfl⟩, ⟨rfl, rfl⟩, ⟨rfl, rfl⟩, ⟨rfl, rfl⟩, ⟨rfl, rfl⟩, ⟨rfl, rfl⟩, ⟨rfl, rfl⟩, rfl, rfl⟩

/-- Settles O34: `EI`, `DI` and `HLT` are shapes of their own, and no instruction loses a latched request
(`exec_latch`). -/
theorem interruptEnablesHaltAndNop : Obligations.InterruptEnablesHaltAndNop := by
  intro s
  refine ⟨⟨rfl, completes .ei s⟩, ⟨rfl, completes .di s, fun t ht hl => exec_latch ht hl⟩, ⟨rfl, completes .hlt s⟩, ?_⟩
  intro p hp
  obtain ⟨hencode, hshape⟩ := nop_forms p hp
  exact ⟨hencode, completes_of_shape hshape s⟩

end Sys2Proof.Proofs
end

section
/-! The sequencer (O40, O41, O47, O48): an instruction's machine cycles and diff record, the halt cycle, and the
instruction a step runs. -/

namespace Sys2Proof.Proofs

open Sys2Proof.Machine Sys2Proof.Laws

/-! ## One instruction: its machine cycles and its diff record -/

/-- Settles O40: the time of an instruction (`exec_time`), whose count is at least its schedule's length and at most 6
when `MC` is well formed. -/
theorem cyclesOfAnInstruction : Obligations.CyclesOfAnInstruction := by
  intro i s t hwf h
  have hmc := wellFormed_mc hwf
  obtain ⟨hlow, hhigh⟩ := mc_bounds hmc (opcodeOf i)
  have hfits := row_fits i
  obtain ⟨hmci, hcc, hcycles, hir⟩ := exec_time h hmc
  exact ⟨by omega, hhigh, hmci, hir, hcc, hcycles⟩

/-- An encoding is its opcode byte and the operand bytes after it. -/
theorem opcodeOf_cons_tail (i : Instr) : opcodeOf i :: (encode i).tail = encode i := by
  obtain ⟨hlength, -⟩ := encode_length i
  rw [opcodeOf]
  cases h : encode i with
  | nil => simp [h] at hlength
  | cons op operands => rfl

/-- Settles O41: the new part of the trace shows the bus events of the shape, which fetch the operand bytes and make at
most two reads and two writes. -/
theorem diffRecordOfAnInstruction : Obligations.DiffRecordOfAnInstruction := by
  intro i s t h
  obtain ⟨new, hrec, hshows⟩ := exec_recorded h
  obtain ⟨ws, hws, hbus, hchain⟩ := hrec.writes
  obtain ⟨hreads, hwrites⟩ := busOf_bounds (shapeOf i) s
  refine ⟨new, ws, hrec.trace, hrec.bytes, hrec.reads, hws, hbus, hchain.chain, ?_, hshows.reads ▸ hreads, ?_⟩
  · rw [hshows.bytes, busOf_bytes, opcodeOf_cons_tail]
  · calc ws.length = (dataWrites new).length := by rw [← hbus, List.length_map]
      _ ≤ 2 := hshows.writes ▸ hwrites

/-! ## A step of the running loop -/

/-- A step of a Running machine with no fault is what the boundary starts after the first latch update, then what the
loop does after an instruction and at most one command (R751, R754). -/
theorem step_of_boundary {s t : State} (hloop : s.loop = .running) (hfault : s.fault = .none)
    (hb : s.beginCycle.boundary = .next t) : step s = (t.forgetTemps.afterInstruction false).takeCommand := by
  unfold step State.loopStep
  rw [hloop]
  dsimp only
  rw [if_pos hfault, State.runningStep, runInstruction_next hb]
  rfl

/-! ## The halt cycle -/

/-- An instruction that makes no bus event leaves the diff record as it was. -/
theorem exec_diff_of_no_bus {i : Instr} {s t : State} (h : exec i s = .next t) (hbus : busOf (shapeOf i) s = []) :
    t.diff = s.diff := by
  obtain ⟨new, hrec, hshows⟩ := exec_recorded h
  obtain ⟨ws, hws, hdata, -⟩ := hrec.writes
  have hbytes : t.diff.bytes = s.diff.bytes := by rw [hrec.bytes, hshows.bytes, hbus]; exact List.append_nil _
  have hreads : t.diff.reads = s.diff.reads := by rw [hrec.reads, hshows.reads, hbus]; exact List.append_nil _
  have hnone : ws = [] := by
    rw [hshows.writes, hbus] at hdata
    exact List.map_eq_nil_iff.1 hdata
  have hwrites : t.diff.writes = s.diff.writes := by rw [hws, hnone, List.append_nil]
  calc t.diff = ⟨t.diff.bytes, t.diff.reads, t.diff.writes, t.diff.irqTaken⟩ := rfl
    _ = s.diff := by rw [hbytes, hreads, hwrites, hrec.irq]

/-- In a halted machine the halt cycle's `HALT <- 1` changes nothing (R712). -/
theorem haltCycle_arch {s : State} (hhalt : s.cpu.halt = true) : s.haltCycle.arch = s.arch := by
  rw [exec_arch (haltCycle_exec s)]
  change ({ s with cpu := { s.cpu with halt := true } } : State).arch = s.arch
  rw [← hhalt]

/-- The halt cycle's one access is the re-read of the byte before PC (R712). -/
theorem haltCycle_diff (s : State) : s.haltCycle.diff = s.haltRefetch.diff :=
  exec_diff_of_no_bus (haltCycle_exec s) rfl

theorem haltCycle_busEvents {s : State} (hmc : wellFormedMc s.params.mc = true) :
    busEvents s.haltCycle.trace = busEvents s.haltRefetch.trace := by
  rw [exec_bus (haltCycle_exec s) hmc]
  exact List.append_nil _

/-- A halt cycle at the boundary changes nothing that `arch` shows, and records the one byte it reads again. -/
theorem boundary_halted {s : State} (hservice : s.serviceDue = false) (hhalt : s.cpu.halt = true) :
    s.boundary = .next s.clearRecord.haltCycle ∧ s.clearRecord.haltCycle.arch = s.arch ∧
      s.clearRecord.haltCycle.diff =
        { bytes := [s.readByte (s.cpu.pc - 1) .normal], reads := [], writes := [], irqTaken := false } :=
  ⟨boundary_halt hservice hhalt, haltCycle_arch (s := s.clearRecord) hhalt, haltCycle_diff s.clearRecord⟩

theorem halt_of_arch {s t : State} (h : t.arch = s.arch) : t.cpu.halt = s.cpu.halt :=
  show t.arch.cpu.halt = s.arch.cpu.halt by rw [h]

theorem pc_of_arch {s t : State} (h : t.arch = s.arch) : t.cpu.pc = s.cpu.pc :=
  show t.arch.cpu.pc = s.arch.cpu.pc by rw [h]

/-- Settles O47: a halt cycle is `HLT` after the re-read (`haltCycle_exec`), at the boundary and in a step. -/
theorem haltCycle : Obligations.HaltCycle := by
  refine ⟨fun s hservice hhalt => ?_, fun s hloop hfault hservice hhalt => ?_⟩
  · obtain ⟨hb, harch, hdiff⟩ := boundary_halted hservice hhalt
    refine ⟨_, hb, harch, (halt_of_arch harch).trans hhalt, pc_of_arch harch, hdiff, fun hwf => ?_⟩
    have hmc := wellFormed_mc hwf
    obtain ⟨-, hcc, -, hir⟩ := exec_time (haltCycle_exec s.clearRecord) hmc
    exact ⟨hir, hcc, haltCycle_busEvents (s := s.clearRecord) hmc⟩
  · obtain ⟨hb, harch, hdiff⟩ := boundary_halted hservice hhalt
    exact ⟨_, hb, step_of_boundary hloop hfault hb, harch, (halt_of_arch harch).trans hhalt, hdiff⟩

/-! ## The instruction fetched -/

/-- The opcode of a decoded instruction is the first byte. -/
theorem opcodeOf_of_decode {op b1 b2 : Byte} {i : Instr} {rest : List Byte}
    (h : decode [op, b1, b2] = .ok (i, rest)) : opcodeOf i = op := by
  obtain ⟨j, rest', hj, hbytes, -⟩ := everyByteDecodes op b1 b2
  cases h.symm.trans hj
  rw [← opcodeOf_cons_tail, List.cons_append] at hbytes
  exact List.head_eq_of_cons_eq hbytes

/-- Settles O48: the boundary after the first latch update runs the decoded instruction, whose opcode is the byte
fetched. -/
theorem stepRunsTheDecodedInstruction : Obligations.StepRunsTheDecodedInstruction := by
  intro s i rest hloop hfault hservice hhalt hdecode u
  have hop : opcodeOf i = s.readByte s.cpu.pc .normal := opcodeOf_of_decode hdecode
  obtain ⟨t, ht⟩ := exec_next i u
  have hb : s.beginCycle.boundary = .next t := (boundary_exec hservice hhalt hdecode).trans ht
  rw [hop]
  exact ⟨rfl, rfl, rfl, rfl, rfl, t, ht, step_of_boundary hloop hfault hb⟩

end Sys2Proof.Proofs
end

section
/-! The host's commands Reset and Restart, and its reads and writes of the machine (O52, O60). -/

namespace Sys2Proof.Proofs

open Sys2Proof.Machine Sys2Proof.Laws

/-! ## Reset and Restart -/

theorem mapping_reset_get (b : Fin 8) : Mapping.reset.get b = 0 := by revert b; decide

/-- What the two commands share after the CPU's own reset, which leaves some CPU and an empty diff record: the rest of
the machine, the History Engine's one checkpoint, and the response with the fault met (R760, D26). -/
theorem machineReset_post_leaves (s : State) (c : Cpu) (n : Nat) (rom : Bool) :
    let u : State := { s with cpu := c, mci := 0, w := 0, z := 0, diff := DiffRecord.empty, draws := n }
    let t := (u.machineReset rom).post s.fault .ok
    (∀ b : Fin 8, t.map.get b = 0) ∧ t.romMode = rom ∧ t.fault = .none ∧ t.lastFrame = s.disp.frame ∧
      t.diff = DiffRecord.empty ∧
      t.hist = { checkpoints := [{ snap := t.snapshot, diffs := [] }], wcur := 0, pos := 0, live := true,
                 liveSnap := none, hFrame := s.disp.frame, attached := s.hist.attached } ∧
      t.loop = s.loop ∧ t.ram = s.ram ∧
      t.responses = s.responses ++ [{ reply := .ok, fault := s.fault, loop := s.loop }] :=
  ⟨mapping_reset_get, rfl, rfl, rfl, rfl, rfl, rfl, rfl, rfl⟩

theorem reg_of_init {s : State} (h : s.cpu = Cpu.init) (r : Reg) : s.reg r = 0 := by
  cases r <;> rw [State.reg, h] <;> rfl

/-- Settles O52: `Reset` gives the CPU its power-on value, `Restart` one whose marks are all set, and the rest is what
both share. -/
theorem resetAndRestart : Obligations.ResetAndRestart := by
  intro s
  constructor
  · have shared := machineReset_post_leaves s Cpu.init s.draws true
    exact ⟨_, rfl, rfl, rfl, rfl, reg_of_init rfl, rfl, rfl, shared⟩
  · have shared := machineReset_post_leaves s (Cpu.afterReset s.draws) (s.draws + 7) false
    exact ⟨_, rfl, rfl, rfl, rfl, rfl, rfl, rfl, rfl, rfl, rfl, rfl, rfl, rfl, rfl, rfl, rfl, rfl, rfl, shared⟩

/-! ## The registers reported -/

/-- F is reported when no flag is marked (R760). -/
theorem view_f (s : State) :
    let u := s.cpu.unspec
    s.view.f = if u.fs = true ∨ u.fz = true ∨ u.fac = true ∨ u.fp = true ∨ u.fcy = true then none
      else some s.cpu.flags.pack := by
  simp only [State.view, reported, Bool.or_eq_true, or_assoc]

/-! ## SetRamBytes and AttachDebugger -/

/-- Leaving history changes nothing but the History Engine (R859). -/
theorem leaveHistory_frame (s : State) : s.leaveHistory = { s with hist := s.leaveHistory.hist } := by
  unfold State.leaveHistory
  split <;> rfl

/-- `SetRamBytes` of one byte writes the RAM byte at the translated address, and of the rest touches the History Engine
alone (R760). -/
theorem setRamBytes_one_leaves (s : State) (addr : Word) (v : Byte) :
    let t := s.leaveHistory.setRamBytes addr [v]
    t.ram = s.ram.write (s.translate addr .normal) v ∧ t.cpu = s.cpu ∧ t.map = s.map ∧ t.diff = s.diff := by
  rw [leaveHistory_frame]
  exact ⟨rfl, rfl, rfl, rfl⟩

/-- Attaching a detached engine resets the History Engine; any other use sets ATTACHED alone (R760, R853). -/
theorem attachDebugger_eq (s : State) (on : Bool) : s.attachDebugger on =
    if on = true ∧ s.hist.attached = false
    then { s with hist := { checkpoints := [{ snap := s.snapshot, diffs := [] }], wcur := 0, pos := 0, live := true,
                            liveSnap := none, hFrame := s.disp.frame, attached := true } }
    else { s with hist := { s.hist with attached := on } } := by
  unfold State.attachDebugger
  dsimp only
  cases on
  · rfl
  · cases s.hist.attached <;> rfl

/-- Settles O60: the reads answer from the state unchanged, the view is `reported` field by field, and `SetRamBytes`
and `AttachDebugger` are the lemmas above. -/
theorem hostAccess : Obligations.HostAccess := by
  intro s
  refine ⟨fun a sp => ⟨rfl, rfl⟩, rfl, rfl, rfl, rfl, rfl, rfl, rfl, rfl, rfl, view_f s, rfl, rfl, rfl, rfl, rfl, rfl,
    rfl, fun a v => ?_, fun a v vs => rfl, fun on => ?_⟩
  · obtain ⟨hram, hkept⟩ := setRamBytes_one_leaves s a v
    refine ⟨_, rfl, fun pa => ?_, hkept⟩
    rw [respond_ram, hram, read_write]
  · rw [← attachDebugger_eq]
    rfl

end Sys2Proof.Proofs
end

section
/-! The execution loop (O53, O54): what one step does in each state of LOOP, what the end of an instruction makes of it,
which commands are turned away, and the bound on both queues. -/

namespace Sys2Proof.Proofs

open Sys2Proof.Machine Sys2Proof.Laws

/-! ## One step -/

theorem step_exiting {s : State} (h : s.loop = .exiting) : step s = .next s := by
  rw [step, State.loopStep, h]

theorem step_stopped {s : State} (h : s.loop = .stopped) (hf : s.frameRun = false) : step s = s.takeCommand := by
  rw [step, State.loopStep, h, hf]
  rfl

theorem step_frameRun {s : State} (h : s.loop = .stopped) (hf : s.frameRun = true) : step s = s.frameStep := by
  rw [step, State.loopStep, h, hf]
  rfl

theorem step_running {s t : State} (hloop : s.loop = .running) (hfault : s.fault = .none)
    (ht : s.runInstruction = .next t) : step s = (t.afterInstruction false).takeCommand := by
  rw [step, State.loopStep, hloop]
  dsimp only
  rw [if_pos hfault, State.runningStep, ht]
  rfl

theorem takeCommand_nil {s : State} (h : s.requests = []) : s.takeCommand = .next s := by
  rw [State.takeCommand, h]

theorem takeCommand_cons {s : State} {c : Command} {rest : List Command} (h : s.requests = c :: rest) :
    s.takeCommand = ({ s with requests := rest } : State).execute c := by
  rw [State.takeCommand, h]

/-- A turn of a frame run crosses a frame boundary when FRAME is no longer LAST_FRAME, which the instruction itself
leaves (R754, R759). -/
theorem frameCrossed_iff {s t : State} (ht : s.runInstruction = .next t) :
    t.frameCrossed = true ↔ t.disp.frame ≠ s.lastFrame := by
  rw [State.frameCrossed, decide_eq_true_iff, (runInstruction_host ht).lastFrame]

/-- A frame run's turn ends the run, with its response, at a frame boundary or a fault (R759). -/
theorem frameStep_ends {s t : State} (ht : s.runInstruction = .next t)
    (h : t.disp.frame ≠ s.lastFrame ∨ t.fault ≠ .none) :
    s.frameStep = .next (({ t.afterInstruction true with frameRun := false } : State).respond
      (.registers (t.afterInstruction true).view)) := by
  rw [State.frameStep, ht]
  refine congrArg Host.Outcome.next (if_pos ?_)
  rwa [frameCrossed_iff ht, (afterInstruction_ended t true).fault]

/-- A frame run's turn goes on while neither has come (R759). -/
theorem frameStep_goes_on {s t : State} (ht : s.runInstruction = .next t)
    (h : ¬(t.disp.frame ≠ s.lastFrame ∨ t.fault ≠ .none)) : s.frameStep = .next (t.afterInstruction true) := by
  rw [State.frameStep, ht]
  refine congrArg Host.Outcome.next (if_neg ?_)
  rwa [frameCrossed_iff ht, (afterInstruction_ended t true).fault]

/-! ## The end of an instruction -/

theorem loopAfter_fault {f : FaultCode} (h : f ≠ .none) (brk ignoring : Bool) (l : LoopState) :
    loopAfter f brk ignoring l = .stopped := if_pos h

/-- A Running loop is stopped by a fault or by a break that is not ignored, and else runs on (R754, R756). -/
theorem loopAfter_of_running (f : FaultCode) (brk ignoring : Bool) :
    (loopAfter f brk ignoring .running = .stopped ↔ f ≠ .none ∨ brk = true ∧ ignoring = false) ∧
      (loopAfter f brk ignoring .running = .running ∨ loopAfter f brk ignoring .running = .stopped) := by
  by_cases hf : f = .none
  · subst hf
    cases brk <;> cases ignoring <;> simp [loopAfter]
  · simp [loopAfter_fault hf, hf]

/-- Only an installed hook breaks (R753). -/
theorem hookBreak_of_none {s : State} (h : s.hookInstalled = false) : s.hookBreak = false := by
  rw [State.hookBreak, h, Bool.false_and]

/-- An installed hook breaks as its input says (R753, log 19). -/
theorem hookBreak_of_input {s : State} {b : Bool} {rest : List Bool} (h : s.hookInstalled = true)
    (hin : s.hookIn = b :: rest) : s.hookBreak = b := by
  rw [State.hookBreak, h, hin, Bool.true_and]

/-- The end of an instruction uses up the input of an installed hook. -/
theorem afterInstruction_hookIn {s : State} {b : Bool} {rest : List Bool} (ignoring : Bool)
    (h : s.hookInstalled = true) (hin : s.hookIn = b :: rest) : (s.afterInstruction ignoring).hookIn = rest := by
  rw [(afterInstruction_ended s ignoring).hookIn, if_pos h, hin, List.tail_cons]

/-- The end of an instruction stops a Running loop at a fault or a break heeded, and only then (R754, R756). -/
theorem afterInstruction_loop (s : State) (ignoring : Bool) :
    let t := s.afterInstruction ignoring
    s.loop = .running → (t.loop = .stopped ↔ s.fault ≠ .none ∨ s.hookBreak = true ∧ ignoring = false) ∧
      (t.loop = .running ∨ t.loop = .stopped) := by
  intro t hrun
  rw [show t.loop = _ from (afterInstruction_ended s ignoring).loop, hrun]
  exact loopAfter_of_running s.fault s.hookBreak ignoring

/-- A Running machine whose hook breaks, with no command waiting, is Stopped after the step (R754). -/
theorem step_break {s : State} {rest : List Bool} (hloop : s.loop = .running) (hfault : s.fault = .none)
    (hreq : s.requests = []) (hhook : s.hookInstalled = true) (hin : s.hookIn = true :: rest) :
    ∃ u, step s = .next u ∧ u.loop = .stopped ∧ u.lastFrame = u.disp.frame ∧ u.hookIn = rest := by
  obtain ⟨t, ht⟩ := runInstruction_answers s
  have host := runInstruction_host ht
  have ended := afterInstruction_ended t false
  have hhook' := host.hook.trans hhook
  have hin' := host.hookIn.trans hin
  have hbreak := hookBreak_of_input hhook' hin'
  refine ⟨t.afterInstruction false, ?_, ?_, ended.lastFrame.trans (congrArg Display.frame ended.disp).symm,
    afterInstruction_hookIn false hhook' hin'⟩
  · rw [step_running hloop hfault ht, takeCommand_nil (ended.requests.trans (host.requests.trans hreq))]
  · exact (afterInstruction_loop t false (host.loop.trans hloop)).1.2 (.inr ⟨hbreak, rfl⟩)

/-! ## Commands turned away -/

theorem not_mayRun {s : State} (h : s.loop ≠ .stopped ∨ s.fault ≠ .none) : ¬s.mayRun = true := by
  rw [mayRun_iff]
  rintro ⟨hs, hf⟩
  exact h.elim (absurd hs) (absurd hf)

/-- `Run` and the two execute commands are turned away unless the machine is Stopped with no fault (R756, R760). -/
theorem execute_turned_away {s : State} {c : Command} (h : s.loop ≠ .stopped ∨ s.fault ≠ .none)
    (hc : c ∈ [.run, .executeOneInstruction, .executeOneFrameIgnoringBreaks]) :
    s.execute c = .next (s.respond .notAllowed) := by
  have hno := not_mayRun h
  simp only [List.mem_cons, List.not_mem_nil, or_false] at hc
  obtain rfl | rfl | rfl := hc
  · exact congrArg Host.Outcome.next (if_neg hno)
  · exact if_neg hno
  · exact congrArg Host.Outcome.next (if_neg hno)

/-! ## A machine with a fault -/

/-- A command that does not run, stop, end or reset the machine answers after work that leaves FAULT and LOOP alone. -/
theorem execute_sameControl {s t : State} {c : Command} (hc : c ∉ [.run, .stop, .reset, .restart,
    .executeOneInstruction, .executeOneFrameIgnoringBreaks, .exit]) (h : s.execute c = .next t) :
    ∃ u r, SameControl s u ∧ t = u.respond r := by
  have unchanged := SameControl.refl s
  cases c
  case run | stop | reset | restart | executeOneInstruction | executeOneFrameIgnoringBreaks | exit =>
    exact absurd (by simp) hc
  case getRegisters | getByte | getWord | saveRecording => cases h; exact ⟨s, _, unchanged, rfl⟩
  case setRamBytes a bytes =>
    cases h
    exact ⟨_, _, (sameControl_leaveHistory s).trans (sameControl_setRamBytes _ a bytes), rfl⟩
  case attachDebugger on => cases h; exact ⟨_, _, sameControl_attachDebugger s on, rfl⟩
  case playForward n =>
    cases h
    split
    · exact ⟨_, _, sameControl_playForward n s, rfl⟩
    · exact ⟨s, _, unchanged, rfl⟩
  case playReverse n =>
    cases h
    split
    · exact ⟨_, _, sameControl_playReverse n s, rfl⟩
    · exact ⟨s, _, unchanged, rfl⟩
  case loadRecording f =>
    cases h
    split
    · split
      · exact ⟨_, _, sameControl_loadRecording s _, rfl⟩
      · exact ⟨s, _, unchanged, rfl⟩
    · exact ⟨s, _, unchanged, rfl⟩

/-- With FAULT set only `Reset` and `Restart` change FAULT, and no command starts the loop (R756, R803). -/
theorem execute_with_fault {s t : State} {c : Command} (hfault : s.fault ≠ .none) (h : s.execute c = .next t) :
    (c ≠ .reset → c ≠ .restart → t.fault = s.fault) ∧ (t.loop = .running → s.loop = .running) := by
  cases c
  case run | executeOneInstruction | executeOneFrameIgnoringBreaks =>
    cases (execute_turned_away (.inr hfault) (by simp)).symm.trans h
    exact ⟨fun _ _ => rfl, id⟩
  case stop | exit => cases h; exact ⟨fun _ _ => rfl, fun hr => by cases hr⟩
  case reset => cases h; exact ⟨fun hc => absurd rfl hc, id⟩
  case restart => cases h; exact ⟨fun _ hc => absurd rfl hc, id⟩
  all_goals
    obtain ⟨u, r, same, rfl⟩ := execute_sameControl (by simp) h
    exact ⟨fun _ _ => same.fault, fun hr => same.loop.symm.trans hr⟩

/-- A command taken with FAULT set does not start the loop. -/
theorem takeCommand_with_fault {s : State} (hfault : s.fault ≠ .none) (hloop : s.loop ≠ .running) :
    ∃ t, s.takeCommand = .next t ∧ t.loop ≠ .running := by
  cases hreq : s.requests with
  | nil => exact ⟨s, takeCommand_nil hreq, hloop⟩
  | cons c rest =>
    obtain ⟨t, ht⟩ := execute_answers c { s with requests := rest }
    obtain ⟨-, hstarts⟩ := execute_with_fault (s := { s with requests := rest }) hfault ht
    exact ⟨t, (takeCommand_cons hreq).trans ht, fun hr => hloop (hstarts hr)⟩

/-- Settles O53: the end of an instruction that faults stops the loop, and no command starts it again or changes FAULT
but `Reset` and `Restart` (`execute_with_fault`). -/
theorem faultStopsTheLoop : Obligations.FaultStopsTheLoop := by
  refine ⟨fun s t hloop hfault ht hraised => ?_, fun s c hfault hc => execute_turned_away (.inr hfault) hc,
    fun s t c hfault h => ⟨?_, execute_with_fault hfault h⟩⟩
  · have ended := afterInstruction_ended t false
    have hstopped := ended.loop.trans (loopAfter_fault hraised _ _ _)
    rw [step_running hloop hfault ht]
    exact takeCommand_with_fault (ended.fault ▸ hraised) (by simp [hstopped])
  · obtain answered | ⟨-, hmay, -⟩ := execute_answered h
    · obtain ⟨r, hr⟩ := answered.responses
      exact ⟨r, by rw [hr, if_neg hfault]⟩
    · exact absurd hmay (not_mayRun (.inr hfault))

/-! ## The commands that run -/

theorem execute_run {s : State} (h : s.mayRun = true) :
    s.execute .run = .next (({ s.leaveHistory with loop := .running } : State).respond .ok) :=
  congrArg Host.Outcome.next (if_pos h)

theorem execute_executeOneFrame {s : State} (h : s.mayRun = true) :
    s.execute .executeOneFrameIgnoringBreaks = .next { s.leaveHistory with frameRun := true } :=
  congrArg Host.Outcome.next (if_pos h)

theorem execute_executeOneInstruction {s t : State} (h : s.mayRun = true)
    (ht : s.leaveHistory.runInstruction = .next t) : s.execute .executeOneInstruction =
      .next ((t.afterInstruction false).respond (.registers (t.afterInstruction false).view)) := by
  rw [State.execute, if_pos h, ht]
  rfl

theorem leaveHistory_of_live {s : State} (h : s.hist.live = true) : s.leaveHistory = s := if_pos h

/-- An instruction run on a Stopped machine leaves it Stopped, whatever the hook asks. -/
theorem afterInstruction_stopped {s t : State} (hs : s.loop = .stopped) (ht : s.runInstruction = .next t) (b : Bool) :
    (t.afterInstruction b).loop = .stopped := by
  rw [(afterInstruction_ended t b).loop, (runInstruction_host ht).loop, hs, loopAfter_stopped]

/-- Every command posts its one response, but the allowed frame command, which begins a frame run (R759, R760). -/
theorem execute_posts {s t : State} {c : Command} (h : s.execute c = .next t) :
    (∃ r, t.responses =
      s.responses ++ [{ reply := r, fault := if s.fault = .none then t.fault else s.fault, loop := t.loop }]) ∨
    (c = .executeOneFrameIgnoringBreaks ∧ t.frameRun = true ∧ t.responses = s.responses) := by
  obtain answered | ⟨hc, -, rfl⟩ := execute_answered h
  · exact .inl answered.responses
  · exact .inr ⟨hc, rfl, (sameControl_leaveHistory s).responses⟩

/-- A turn of a frame run takes no command and leaves the loop Stopped; it ends the run, with one response, at a frame
boundary or a fault, and else goes on (R759). -/
theorem step_of_frameRun {s : State} (hs : s.loop = .stopped) (hf : s.frameRun = true) :
    ∃ t u, s.runInstruction = .next t ∧ step s = .next u ∧ u.requests = s.requests ∧ u.loop = .stopped ∧
      (t.disp.frame ≠ s.lastFrame ∨ t.fault ≠ .none →
        u.frameRun = false ∧ u.responses.length = s.responses.length + 1) ∧
      (t.disp.frame = s.lastFrame → t.fault = .none → u.frameRun = true ∧ u.responses = s.responses) := by
  obtain ⟨t, ht⟩ := runInstruction_answers s
  have host := runInstruction_host ht
  have ended := afterInstruction_ended t true
  have hrequests := ended.requests.trans host.requests
  have hresponses := ended.responses.trans host.responses
  have hloop := afterInstruction_stopped hs ht true
  by_cases hends : t.disp.frame ≠ s.lastFrame ∨ t.fault ≠ .none
  · refine ⟨t, _, ht, (step_frameRun hs hf).trans (frameStep_ends ht hends), hrequests, hloop,
      fun _ => ⟨rfl, ?_⟩, fun hframe hfault => ?_⟩
    · exact List.length_append.trans (by rw [hresponses]; rfl)
    · exact absurd hends (by simp [hframe, hfault])
  · exact ⟨t, _, ht, (step_frameRun hs hf).trans (frameStep_goes_on ht hends), hrequests, hloop,
      fun h => absurd h hends, fun _ _ => ⟨ended.frameRun.trans (host.frameRun.trans hf), hresponses⟩⟩

/-! ## The queues (R755, log 21) -/

/-- One instruction and its end leave both queues and a frame run alone. -/
theorem afterInstruction_inFlight {s t : State} (ht : s.runInstruction = .next t) (b : Bool) :
    (t.afterInstruction b).inFlight = s.inFlight ∧ (t.afterInstruction b).params = s.params := by
  have host := runInstruction_host ht
  have ended := afterInstruction_ended t b
  refine ⟨?_, ended.params.trans (runInstruction_params ht)⟩
  rw [State.inFlight, ended.requests, ended.frameRun, ended.responses, host.requests, host.frameRun, host.responses]
  rfl

/-- A frame run that ends posts the response it owed. -/
theorem endFrameRun_inFlight {s : State} (hf : s.frameRun = true) (r : Reply) :
    (({ s with frameRun := false } : State).respond r).inFlight = s.inFlight := by
  change s.requests.length + 0 + (s.responses ++ [_]).length = _
  rw [State.inFlight, hf, if_pos rfl, List.length_append, List.length_singleton]
  omega

theorem frameStep_inFlight {s t : State} (hf : s.frameRun = true) (h : s.frameStep = .next t) :
    t.inFlight = s.inFlight ∧ t.params = s.params := by
  obtain ⟨v, hv⟩ := runInstruction_answers s
  obtain ⟨hflight, hparams⟩ := afterInstruction_inFlight hv true
  by_cases hends : v.disp.frame ≠ s.lastFrame ∨ v.fault ≠ .none
  · cases (frameStep_ends hv hends).symm.trans h
    have hrun : (v.afterInstruction true).frameRun = true :=
      (afterInstruction_ended v true).frameRun.trans ((runInstruction_host hv).frameRun.trans hf)
    exact ⟨(endFrameRun_inFlight hrun _).trans hflight, hparams⟩
  · cases (frameStep_goes_on hv hends).symm.trans h
    exact ⟨hflight, hparams⟩

/-- No step takes up more slots than it found taken. -/
theorem step_inFlight {s t : State} (h : step s = .next t) : t.inFlight ≤ s.inFlight ∧ t.params = s.params := by
  cases hloop : s.loop with
  | exiting => cases (step_exiting hloop).symm.trans h; exact ⟨Nat.le_refl _, rfl⟩
  | stopped =>
    cases hf : s.frameRun with
    | false => exact takeCommand_inFlight ((step_stopped hloop hf).symm.trans h)
    | true =>
      obtain ⟨hflight, hparams⟩ := frameStep_inFlight hf ((step_frameRun hloop hf).symm.trans h)
      exact ⟨Nat.le_of_eq hflight, hparams⟩
  | running =>
    by_cases hfault : s.fault = .none
    · obtain ⟨v, hv⟩ := runInstruction_answers s
      obtain ⟨hflight, hparams⟩ := afterInstruction_inFlight hv false
      obtain ⟨hle, hp⟩ := takeCommand_inFlight ((step_running hloop hfault hv).symm.trans h)
      exact ⟨hle.trans (Nat.le_of_eq hflight), hp.trans hparams⟩
    · rw [step, State.loopStep, hloop] at h
      dsimp only at h
      rw [if_neg hfault] at h
      cases h
      exact ⟨Nat.le_refl _, rfl⟩

/-- A full queue of either kind blocks the host. -/
theorem hostSubmit_blocked {s : State} (c : Command)
    (h : s.params.queueDepth ≤ s.requests.length ∨ s.params.queueDepth ≤ s.responses.length) :
    s.hostSubmit c = none := by
  refine if_neg ?_
  rw [State.inFlight]
  omega

/-- A command submitted takes one slot that was free. -/
theorem hostSubmit_inFlight {s t : State} {c : Command} (h : s.hostSubmit c = some t) :
    t.inFlight ≤ t.params.queueDepth := by
  rw [State.hostSubmit] at h
  split at h
  · cases h
    simp only [State.inFlight, List.length_append, List.length_singleton] at *
    omega
  · cases h

/-- Settles O54: the loop's steps, the commands that run and those turned away, the end of an instruction, and the slots
of the queues, each by its lemma above. -/
theorem loopAndCommands : Obligations.LoopAndCommands := by
  refine ⟨fun _ => step_exiting, fun s hs hf hreq => ?waits, fun s c rest hs hf hreq => ?takes,
    fun s hrun hfault => ?running, fun _ => step_of_frameRun, fun s t hs hfault h => ?run, fun s t h => ?stop,
    fun s t h => ?exit, fun s hs hfault => ?oneInstruction, fun _ _ _ => execute_posts,
    fun s hs hfault hlive => ?oneFrame, fun _ _ => execute_turned_away, fun s ignoring => ?ends, fun _ _ => step_break,
    fun s c => ⟨hostSubmit_blocked c, fun hroom => if_pos hroom⟩, fun _ _ _ _ => hostSubmit_inFlight,
    fun s r rest hr => ?hostTakes, fun s t hle h => ?bounded⟩
  case waits => rw [step_stopped hs hf, takeCommand_nil hreq]
  case takes => rw [step_stopped hs hf, takeCommand_cons hreq]
  case running =>
    obtain ⟨t, ht⟩ := runInstruction_answers s
    exact ⟨t, ht, step_running hrun hfault ht⟩
  case run =>
    cases (execute_run ((mayRun_iff s).2 ⟨hs, hfault⟩)).symm.trans h
    rfl
  case stop => cases h; rfl
  case exit => cases h; rfl
  case oneInstruction =>
    obtain ⟨t, ht⟩ := runInstruction_answers s.leaveHistory
    exact ⟨t, ht, execute_executeOneInstruction ((mayRun_iff s).2 ⟨hs, hfault⟩) ht,
      afterInstruction_stopped ((sameControl_leaveHistory s).loop.trans hs) ht false⟩
  case oneFrame => rw [execute_executeOneFrame ((mayRun_iff s).2 ⟨hs, hfault⟩), leaveHistory_of_live hlive]
  case ends =>
    have ended := afterInstruction_ended s ignoring
    exact ⟨ended.lastFrame, ended.disp, ended.fault, afterInstruction_loop s ignoring, hookBreak_of_none,
      fun b rest hhook hin => ⟨hookBreak_of_input hhook hin, afterInstruction_hookIn ignoring hhook hin⟩⟩
  case hostTakes => rw [State.hostTake, hr]
  case bounded =>
    obtain ⟨hflight, hparams⟩ := step_inFlight h
    rw [hparams]
    exact hflight.trans hle

end Sys2Proof.Proofs
end

section
/-! Exceptions (O39, O45, O46): nothing traps, the request latch, and interrupt service. -/

namespace Sys2Proof.Proofs

open Sys2Proof.Machine Sys2Proof.Laws

/-! ## Nothing traps -/

/-- FAULT changes only by `OUT` to a port of BANK_PORTS, and only from none to a mapping conflict (R801, R803). -/
theorem effect_fault {sh : Shape} {s : State} (hne : (effect sh s).fault ≠ s.fault) :
    s.fault = .none ∧ (effect sh s).fault = .mappingConflict ∧
      ∃ port, sh = .outPort port ∧ (s.params.bankPorts.lookup port).isSome = true := by
  by_cases hout : ∃ port, sh = .outPort port
  · obtain ⟨port, rfl⟩ := hout
    obtain ⟨-, hraised⟩ := callPortOut_frame { s.pcOn 1 with draws := s.draws + 1 + 1 } port s.cpu.a
    obtain ⟨hnone, hconflict, hbank⟩ := hraised hne
    exact ⟨hnone, hconflict, port, rfl, hbank⟩
  · obtain ⟨-, -, hsame⟩ := (effect_controlFrame sh s).mapping fun port h => hout ⟨port, h⟩
    exact absurd hsame hne

theorem fault_of_arch {s t : State} (h : t.arch = s.arch) : t.fault = s.fault :=
  show t.arch.fault = s.arch.fault by rw [h]

/-- Settles O39: an instruction leaves the FAULT of its shape's effect, and every step answers (`step_answers`). -/
theorem nothingTraps : Obligations.NothingTraps := by
  refine ⟨fun i s => ?_, step_answers⟩
  obtain ⟨t, ht⟩ := exec_next i s
  refine ⟨t, ht, fun hne => ?_⟩
  rw [fault_of_arch (exec_arch ht)] at hne ⊢
  obtain ⟨hnone, hconflict, port, hshape, hbank⟩ := effect_fault hne
  obtain ⟨-, hout, -⟩ := shape_only i
  exact ⟨hnone, hconflict, port, hout port hshape, hbank⟩

/-! ## The boundary as an instruction started -/

/-- `u` is the machine at boundary `s` once it is decided what runs: the display, its inputs and the parameters are as
at `s`; a service, and it alone, has cleared LATCH and set IRQ_TAKEN (R704, R809). -/
structure Started (s u : State) : Prop where
  disp      : u.disp = s.disp
  displayIn : u.displayIn = s.displayIn
  params    : u.params = s.params
  latch     : u.cpu.latch = if s.serviceDue = true then false else s.cpu.latch
  irqTaken  : u.diff.irqTaken = s.serviceDue

/-- Every boundary runs one instruction from a started state: `RST 7` for a service, `HLT` for a halt cycle, else the
decoded one. -/
theorem boundary_started (s : State) : ∃ i u t, Started s u ∧ exec i u = .next t ∧ s.boundary = .next t := by
  obtain ⟨hdue, hb⟩ | ⟨hdue, -, hb⟩ | ⟨hdue, -, i, -, -, hb⟩ := boundary_cases s
  · refine ⟨.rst7, s.clearRecord.enterService, _, ?_, takeInterrupt_exec s.clearRecord, hb⟩
    exact ⟨rfl, rfl, rfl, (if_pos hdue).symm, hdue.symm⟩
  · refine ⟨.hlt, s.clearRecord.haltRefetch, _, ?_, haltCycle_exec s.clearRecord, hb⟩
    exact ⟨rfl, rfl, rfl, (if_neg (Bool.eq_false_iff.1 hdue)).symm, hdue.symm⟩
  · obtain ⟨t, ht⟩ := exec_next i s.clearRecord.fetchOpcode
    refine ⟨i, s.clearRecord.fetchOpcode, t, ?_, ht, hb.trans ht⟩
    exact ⟨rfl, rfl, rfl, (if_neg (Bool.eq_false_iff.1 hdue)).symm, hdue.symm⟩

/-- Every boundary answers, with IRQ_TAKEN set exactly by a service. -/
theorem boundary_irqTaken (s : State) : ∃ t, s.boundary = .next t ∧ t.diff.irqTaken = s.serviceDue := by
  obtain ⟨i, u, t, start, ht, hb⟩ := boundary_started s
  exact ⟨t, hb, (exec_irqTaken ht).trans start.irqTaken⟩

/-! ## The request latch -/

/-- A request counts with INTE set or under policy Always: the latch rule case by case (R805). -/
theorem latch_by_policy (policy : LatchPolicy) (latch inte request : Bool) :
    (latch || (decide (policy = .always) || inte) && request) =
      match policy with
      | .whenEnabled => latch || request && inte
      | .always => latch || request := by
  cases policy
  · simp [Bool.and_comm]
  · simp

/-- A cycle begins by taking the display's input, if one is given (R752). -/
theorem beginCycle_display_given {s : State} {d : Display} {rest : List Display} (h : s.displayIn = d :: rest) :
    s.beginCycle.disp = d ∧ s.beginCycle.displayIn = rest := by
  change s.nextDisplay = d ∧ s.displayIn.tail = rest
  rw [State.nextDisplay, h]
  exact ⟨rfl, rfl⟩

/-- Settles O45: one cycle latches by `beginCycle_latch`, an instruction's later cycles by `exec_latched`, and a
boundary runs an instruction from a started state. -/
theorem requestLatch : Obligations.RequestLatch := by
  refine ⟨fun s => ⟨?_, rfl, rfl, fun d rest => beginCycle_display_given, fun act hact => hact s.beginCycle⟩,
    fun i s t hwf h => ?_, fun s hwf => ?_⟩
  · exact (beginCycle_latch s).trans (latch_by_policy _ _ _ _)
  · obtain ⟨ds, hlength, hlatched⟩ := exec_latched h (wellFormed_mc hwf)
    exact ⟨ds, hlength, hlatched.run, hlatched.inputs, hlatched.disp,
      hlatched.latch.trans (latch_by_policy _ _ _ _)⟩
  · obtain ⟨i, u, t, start, ht, hb⟩ := boundary_started s
    have hmc : wellFormedMc u.params.mc = true := start.params ▸ wellFormed_mc hwf
    obtain ⟨-, -, -, hir⟩ := exec_time ht hmc
    obtain ⟨ds, hlength, ⟨hrun, hinputs, hdisp, -, -, hlatch⟩⟩ := exec_latched ht hmc
    dsimp only at hrun hinputs hdisp hlatch
    rw [start.params] at hlength hlatch
    rw [start.displayIn] at hrun hinputs
    rw [start.disp] at hrun hdisp
    rw [start.latch] at hlatch
    exact ⟨t, ds, hb, hir ▸ hlength, hrun, hinputs, hdisp, hlatch.trans (latch_by_policy _ _ _ _)⟩

/-! ## Interrupt service -/

/-- Service is due with LATCH and INTE set and EIP clear (R808). -/
theorem serviceDue_iff (s : State) :
    s.serviceDue = true ↔ s.cpu.latch = true ∧ s.cpu.inte = true ∧ s.cpu.eip = false := by
  simp only [State.serviceDue, Bool.and_eq_true, Bool.not_eq_true']
  tauto

/-- What the architectural part shows of the CPU's control. -/
theorem control_of_arch {s t : State} (h : t.arch = s.arch) :
    t.cpu.pc = s.cpu.pc ∧ t.cpu.sp = s.cpu.sp ∧ t.cpu.inte = s.cpu.inte ∧ t.cpu.halt = s.cpu.halt ∧
      t.cpu.flags = s.cpu.flags := by
  have part {α : Type} (field : Cpu → α) : field t.arch.cpu = field s.arch.cpu := by rw [h]
  exact ⟨part Cpu.pc, part Cpu.sp, part Cpu.inte, part Cpu.halt, part Cpu.flags⟩

/-- Service is `RST 7` with INTE and HALT cleared: PC pushed below SP, then PC at 0x0038 (R809 to R811). -/
theorem takeInterrupt_arch (s : State) :
    let u : State := { s with cpu := { s.cpu with inte := false, halt := false } }
    s.takeInterrupt.arch = ((pushPc u).setPc 0x0038).arch :=
  exec_arch (takeInterrupt_exec s)

/-- Service records two writes, no read and no byte besides the synthesized opcode (R705, R810). -/
theorem takeInterrupt_diff (s : State) :
    s.takeInterrupt.diff.bytes = s.diff.bytes ++ [0xFF] ∧ s.takeInterrupt.diff.reads = s.diff.reads ∧
      s.takeInterrupt.diff.writes.length = s.diff.writes.length + 2 ∧ s.takeInterrupt.diff.irqTaken = true := by
  obtain ⟨new, hrec, hshows⟩ := exec_recorded (takeInterrupt_exec s)
  obtain ⟨ws, hws, hdata, -⟩ := hrec.writes
  have hnew : ws.length = 2 := by rw [← List.length_map, hdata, hshows.writes]; rfl
  refine ⟨?_, ?_, ?_, hrec.irq⟩
  · rw [hrec.bytes, hshows.bytes]; exact List.append_nil _
  · rw [hrec.reads, hshows.reads]; exact List.append_nil _
  · rw [hws, List.length_append, hnew]; rfl

/-- With a well-formed MC a service takes the cycles of `RST 7`, and writes PC in machine cycles 2 and 3. -/
theorem takeInterrupt_time {s : State} (hmc : wellFormedMc s.params.mc = true) :
    s.takeInterrupt.cpu.ir = 0xFF ∧
      s.takeInterrupt.cpu.cc = s.cpu.cc + BitVec.ofNat 64 (4 * mcOf s.params.mc 0xFF) ∧
      busEvents s.takeInterrupt.trace = busEvents s.trace ++
        [(2, s.writeAt (s.cpu.sp - 1) .stack (hiByte s.cpu.pc)),
          (3, s.writeAt (s.cpu.sp - 2) .stack (loByte s.cpu.pc))] := by
  obtain ⟨-, hcc, -, hir⟩ := exec_time (takeInterrupt_exec s) hmc
  refine ⟨hir, hcc, (exec_bus (takeInterrupt_exec s) hmc).trans ?_⟩
  exact congrArg (busEvents s.trace ++ ·) (pushes_eq s.enterService 2 s.cpu.pc)

/-- Settles O46: a service is `takeInterrupt` after the record is cleared, any other boundary leaves IRQ_TAKEN clear
(`boundary_irqTaken`), and a step is the boundary after the first latch update (`step_of_boundary`). -/
theorem interruptService : Obligations.InterruptService := by
  intro s
  refine ⟨serviceDue_iff s, fun hdue => ?service, fun hdue => ?other, fun hloop hfault => ?steps⟩
  case service =>
    intro u u1 u2
    have harch : s.clearRecord.takeInterrupt.arch = (u2.setPc 0x0038).arch := by
      have hpushed : pushPc u = u2 := pushPc_eq u
      rw [← hpushed]
      exact takeInterrupt_arch s.clearRecord
    obtain ⟨hpc, hsp, hinte, hhalt, hflags⟩ := control_of_arch harch
    obtain ⟨hbytes, hreads, hwrites, hirq⟩ := takeInterrupt_diff s.clearRecord
    refine ⟨_, boundary_service hdue, harch, hpc, hsp, hinte, hhalt, hflags, hbytes, hirq, hreads, hwrites,
      fun hwf => ?_⟩
    exact takeInterrupt_time (s := s.clearRecord) (wellFormed_mc hwf)
  case other => exact hdue ▸ boundary_irqTaken s
  case steps =>
    obtain ⟨t, hb, hirq⟩ := boundary_irqTaken s.beginCycle
    exact ⟨t, hb, step_of_boundary hloop hfault hb, hirq ▸ serviceDue_iff s.beginCycle⟩

end Sys2Proof.Proofs
end

section
/-! The power-on state (O49) and what the History Engine records at the end of an instruction (O55). -/

namespace Sys2Proof.Proofs

open Sys2Proof.Machine Sys2Proof.Laws

/-! ## Power-on -/

/-- With every mapping register 0 no bank has an enable bit, in any layout (R118, R119). -/
theorem activeBank_of_zero {map : Mapping} (h : ∀ b : Fin 8, map.get b = 0) (l : MappingLayout) :
    activeBank l map = none := by
  have hnone : enabledBanks l map = [] :=
    List.filter_eq_nil_iff.2 fun b _ => by simp [h b, bankEnabled]
  rw [activeBank, hnone, List.head?_nil]

/-- Settles O49: the registers and the mapping are those of a reset (`reg_of_init`, `mapping_reset_get`), no bank is
enabled in a mapping of zeros, and every other item is read off the power-on state. -/
theorem powerOnState : Obligations.PowerOnState :=
  ⟨reg_of_init rfl, rfl, rfl, rfl, rfl, rfl, rfl, rfl, rfl, rfl, rfl, rfl, rfl, mapping_reset_get,
    activeBank_of_zero mapping_reset_get _, rfl, rfl, rfl, rfl, rfl, rfl, fun _ => rfl⟩

/-! ## The open checkpoint and the next -/

/-- Writes appended go to the newest checkpoint, and nothing else changes (R855). -/
theorem append_of_newest {h : History} {ks : List Checkpoint} {k : Checkpoint} (hk : h.checkpoints = ks ++ [k])
    (ws : List WriteDiff) : h.append ws = { h with checkpoints := ks ++ [{ k with diffs := k.diffs ++ ws }] } := by
  rw [History.append, hk, appendToOpen_last]

/-- A new open checkpoint is the newest position. -/
theorem openNext_pos (h : History) (cap : Nat) (sn : Snapshot) :
    (h.openNext cap sn).pos + 1 = (h.openNext cap sn).count := by
  simp [History.openNext, History.count]

/-- A new open checkpoint takes a slot, the oldest's when every slot is taken (R855). -/
theorem openNext_count {h : History} {cap : Nat} (hpos : 1 ≤ h.count) (hle : h.count ≤ cap) (sn : Snapshot) :
    (h.openNext cap sn).count = if h.count < cap then h.count + 1 else cap := by
  have hkept : (h.openNext cap sn).count =
      (if h.count < cap then h.checkpoints else h.checkpoints.tail).length + 1 := List.length_append
  rw [hkept]
  split
  · rfl
  · rw [List.length_tail]
    change h.count - 1 + 1 = cap
    omega

/-! ## Slots (R850) -/

/-- The newest checkpoint stands in the slot of the write cursor. -/
theorem slot_newest {h : History} {cap : Nat} (hnew : h.pos + 1 = h.count) (hw : h.wcur < cap) :
    h.slot cap h.pos = h.wcur := by
  rw [History.slot, show h.wcur + cap + 1 + h.pos - h.count = h.wcur + cap by omega, Nat.add_mod_right,
    Nat.mod_eq_of_lt hw]

/-- Appending writes moves no checkpoint. -/
theorem slot_append (h : History) (ws : List WriteDiff) (cap n : Nat) : (h.append ws).slot cap n = h.slot cap n := by
  rw [History.slot, History.slot, show (h.append ws).count = h.count from appendToOpen_length ws h.checkpoints]
  rfl

/-- WCUR, moved on by 1 modulo CAP, leaves a slot's offset from it one less. -/
theorem slot_of_wcur_next {h g : History} {cap n m : Nat} (hw : g.wcur = (h.wcur + 1) % cap) (hg : g.count ≤ cap)
    (hoff : m + 1 + h.count = n + g.count) : g.slot cap m = h.slot cap n := by
  rw [History.slot, History.slot, hw,
    show (h.wcur + 1) % cap + cap + 1 + m - g.count = (h.wcur + 1) % cap + (cap + 1 + m - g.count) by omega,
    Nat.mod_add_mod, show h.wcur + 1 + (cap + 1 + m - g.count) = h.wcur + cap + 1 + n - h.count by omega]

/-- While a slot is free a new checkpoint leaves every position in its slot. -/
theorem slot_openNext_of_room {h : History} {cap : Nat} (hpos : 1 ≤ h.count) (hroom : h.count < cap) (sn : Snapshot)
    (n : Nat) : (h.openNext cap sn).slot cap n = h.slot cap n := by
  have hcount := openNext_count hpos hroom.le sn
  rw [if_pos hroom] at hcount
  exact slot_of_wcur_next rfl (by omega) (by omega)

/-- When every slot is taken each position kept is one lower, in the slot it had. -/
theorem slot_openNext_of_full {h : History} {cap n : Nat} (hpos : 1 ≤ h.count) (hfull : h.count = cap) (hn : 0 < n)
    (sn : Snapshot) : (h.openNext cap sn).slot cap (n - 1) = h.slot cap n := by
  have hcount := openNext_count hpos hfull.le sn
  rw [if_neg (by omega)] at hcount
  exact slot_of_wcur_next rfl (by omega) (by omega)

/-! ## The end of an instruction -/

/-- Detached or away from the live state nothing is recorded (R855). -/
theorem onInstructionRetired_idle {s : State} (h : s.hist.attached = false ∨ s.hist.live = false) :
    s.onInstructionRetired = s := by
  refine if_neg fun ⟨hatt, hlive⟩ => ?_
  rcases h with h | h
  · simp [h] at hatt
  · simp [h] at hlive

/-- Attached and live, in the frame last seen the writes are appended. -/
theorem onInstructionRetired_same_frame {s : State} (hatt : s.hist.attached = true) (hlive : s.hist.live = true)
    (hframe : s.disp.frame = s.hist.hFrame) :
    s.onInstructionRetired = { s with hist := s.hist.append s.diff.writes } := by
  have hframe' : s.disp.frame = (s.hist.append s.diff.writes).hFrame := hframe
  rw [State.onInstructionRetired, if_pos ⟨hatt, hlive⟩]
  dsimp only
  rw [if_pos hframe']

/-- Attached and live, in another frame the writes are appended and a new checkpoint is opened. -/
theorem onInstructionRetired_new_frame {s : State} (hatt : s.hist.attached = true) (hlive : s.hist.live = true)
    (hframe : s.disp.frame ≠ s.hist.hFrame) : s.onInstructionRetired =
      { s with hist := (s.hist.append s.diff.writes).openNext s.params.historyCapacity s.snapshot } := by
  have hframe' : s.disp.frame ≠ (s.hist.append s.diff.writes).hFrame := hframe
  rw [State.onInstructionRetired, if_pos ⟨hatt, hlive⟩]
  dsimp only
  rw [if_neg hframe']

/-- Only the History Engine changes at the end of an instruction. -/
theorem onInstructionRetired_frame (s : State) :
    s.onInstructionRetired = { s with hist := s.onInstructionRetired.hist } := by
  unfold State.onInstructionRetired
  split <;> rfl

/-- Settles O55: the writes go to the open checkpoint (`append_of_newest`); in another frame `openNext` follows, whose
count, position and slots are the lemmas above. -/
theorem historyRecording : Obligations.HistoryRecording := by
  refine ⟨fun s ks k hatt hlive hcap hks hle => ?_, fun s => onInstructionRetired_idle⟩
  intro cap t grown
  have happend := append_of_newest hks s.diff.writes
  refine ⟨onInstructionRetired_frame s, fun hframe => ?same, fun hframe => ?other⟩
  case same =>
    rw [show t = _ from onInstructionRetired_same_frame hatt hlive hframe]
    exact happend
  case other =>
    let g := s.hist.append s.diff.writes
    have hg : g.count = ks.length + 1 := by
      rw [show g = _ from happend, History.count, List.length_append, List.length_singleton]
    have ht : t.hist = g.openNext cap s.snapshot := by
      rw [show t = _ from onInstructionRetired_new_frame hatt hlive hframe]
    have hcount : t.hist.count = if g.count < cap then g.count + 1 else cap := by
      rw [ht]; exact openNext_count (by omega) (by omega) _
    have hnew : t.hist.pos + 1 = t.hist.count := by rw [ht]; exact openNext_pos g cap _
    have hw : t.hist.wcur = (s.hist.wcur + 1) % cap := by rw [ht]; rfl
    have hslots := slot_append s.hist s.diff.writes cap
    refine ⟨?checkpoints, hw, hnew, by rw [ht]; rfl, by omega, by split at hcount <;> omega, by rw [ht]; exact hlive,
      by rw [ht]; rfl, by rw [ht]; exact hatt, slot_newest hnew (hw ▸ Nat.mod_lt _ hcap),
      fun _ n hn => ⟨fun hroom => ?room, fun hfull hn0 => ?full⟩⟩
    case checkpoints =>
      rw [ht, ← hg]
      change (if g.count < cap then g.checkpoints else g.checkpoints.tail) ++ _ = _
      rw [show g.checkpoints = grown from congrArg History.checkpoints happend]
    case room => rw [ht, ← hslots n]; exact slot_openNext_of_room (by omega) (by omega) _ n
    case full => rw [ht, ← hslots n]; exact slot_openNext_of_full (by omega) (by omega) hn0 _

end Sys2Proof.Proofs
end

section
/-! Playback (O57): a run of turns one way and back again cannot be told from no turn (R860 (a)). -/

namespace Sys2Proof.Proofs

open Sys2Proof.Machine Sys2Proof.Laws

/-! ## Playback turn by turn -/

theorem playForward_of_live {s : State} (h : s.hist.live = true) (n : Nat) : s.playForward n = s := by
  cases n with
  | zero => rfl
  | succ n => exact if_pos h

theorem playForward_of_away {s : State} (h : s.hist.live = false) (n : Nat) :
    s.playForward (n + 1) = s.stepForward.playForward n := if_neg (by simp [h])

/-- A turn back is made from every state but the oldest position (R857). -/
theorem turnsBack_iff {s : State} (h : 0 < s.hist.count) :
    s.hist.live = true ∨ 0 < s.hist.pos ↔ 0 < playbackIndex s := by
  unfold playbackIndex
  cases s.hist.live with
  | true => simpa using h
  | false => simp

theorem playReverse_of_oldest {s : State} (h : ¬(s.hist.live = true ∨ 0 < s.hist.pos)) (n : Nat) :
    s.playReverse n = s := by
  cases n with
  | zero => rfl
  | succ n => exact if_neg h

theorem playReverse_of_later {s : State} (h : s.hist.live = true ∨ 0 < s.hist.pos) (n : Nat) :
    s.playReverse (n + 1) = s.stepReverse.playReverse n := if_pos h

/-- The last turn of a run of turns, taken apart from those before it. -/
theorem playForward_succ (s : State) (n : Nat) : s.playForward (n + 1) = (s.playForward n).playForward 1 := by
  induction n generalizing s with
  | zero => rfl
  | succ n ih =>
    cases h : s.hist.live with
    | true => simp only [playForward_of_live h]
    | false => rw [playForward_of_away h, playForward_of_away h, ih]

theorem playReverse_succ (s : State) (n : Nat) : s.playReverse (n + 1) = (s.playReverse n).playReverse 1 := by
  induction n generalizing s with
  | zero => rfl
  | succ n ih =>
    by_cases h : s.hist.live = true ∨ 0 < s.hist.pos
    · rw [playReverse_of_later h, playReverse_of_later h, ih]
    · simp only [playReverse_of_oldest h]

/-! ## Playback cannot tell alike states apart -/

theorem alike_playForward_one {s t : State} (h : Alike s t) : Alike (s.playForward 1) (t.playForward 1) := by
  cases hl : s.hist.live with
  | true => rwa [playForward_of_live hl, playForward_of_live (h.live.trans hl)]
  | false =>
    rw [playForward_of_away hl, playForward_of_away (h.live.trans hl)]
    exact alike_stepForward h hl

theorem alike_playReverse_one {s t : State} (h : Alike s t) : Alike (s.playReverse 1) (t.playReverse 1) := by
  by_cases hs : s.hist.live = true ∨ 0 < s.hist.pos
  · have ht : t.hist.live = true ∨ 0 < t.hist.pos := by rwa [h.live, h.pos]
    rw [playReverse_of_later hs, playReverse_of_later ht]
    exact alike_stepReverse h
  · have ht : ¬(t.hist.live = true ∨ 0 < t.hist.pos) := by rwa [h.live, h.pos]
    rwa [playReverse_of_oldest hs, playReverse_of_oldest ht]

/-! ## Round trips -/

theorem playbackIndex_of_live {s : State} (h : s.hist.live = true) : playbackIndex s = s.hist.count := if_pos h

theorem playbackIndex_of_away {s : State} (h : s.hist.live = false) : playbackIndex s = s.hist.pos :=
  if_neg (by simp [h])

/-- Turns forward, all of them made, are undone by as many back. -/
theorem playForward_playReverse {mems : Nat → Memory} {s : State} (h : Explained mems s) {n : Nat}
    (hn : playbackIndex s + n ≤ s.hist.count) : Alike s ((s.playForward n).playReverse n) := by
  induction n generalizing s with
  | zero => exact Alike.refl s
  | succ n ih =>
    have haway : s.hist.live = false := by
      cases hl : s.hist.live with
      | true => rw [playbackIndex_of_live hl] at hn; omega
      | false => rfl
    obtain ⟨hnext, hcount, hindex, hback⟩ := stepForward_back h haway
    have hindex : playbackIndex s.stepForward = s.hist.pos + 1 := hindex
    rw [playbackIndex_of_away haway] at hn
    have hrest : Alike s.stepForward ((s.stepForward.playForward n).playReverse n) := ih hnext (by omega)
    have hlast := alike_playReverse_one hrest
    rw [playReverse_of_later ((turnsBack_iff hnext.cp).2 (by omega))] at hlast
    rw [playForward_of_away haway, playReverse_succ]
    exact hback.trans hlast

/-- Turns back, all of them made, are undone by as many forward. -/
theorem playReverse_playForward {mems : Nat → Memory} {s : State} (h : Explained mems s) {n : Nat}
    (hn : n ≤ playbackIndex s) : Alike s ((s.playReverse n).playForward n) := by
  induction n generalizing s with
  | zero => exact Alike.refl s
  | succ n ih =>
    obtain ⟨hnext, -, haway, hindex, hback⟩ := stepReverse_back h (by omega)
    have hrest : Alike s.stepReverse ((s.stepReverse.playReverse n).playForward n) :=
      ih hnext (by rw [playbackIndex_of_away haway]; omega)
    have hlast := alike_playForward_one hrest
    rw [playForward_of_away haway] at hlast
    rw [playReverse_of_later ((turnsBack_iff h.cp).2 (by omega)), playForward_succ]
    exact hback.trans hlast

/-- Settles O57: both round trips leave a state alike, and the positions of the statement are playback indices. -/
theorem playbackRoundTrip : Obligations.PlaybackRoundTrip := by
  intro s n _ hwf hexpl same
  obtain ⟨mems, h⟩ := explained_of hwf hexpl
  have same_of_alike {t : State} (ht : Alike s t) : same t := ⟨ht.snap, ht.ram, ht.pos, ht.live, ht.cps⟩
  refine ⟨fun hl hn => ?_, fun hl hn => ?_, fun hl hn => ?_⟩
  · exact same_of_alike (playForward_playReverse h (by rwa [playbackIndex_of_away hl]))
  · exact same_of_alike (playReverse_playForward h (by rwa [playbackIndex_of_live hl]))
  · exact same_of_alike (playReverse_playForward h (by rwa [playbackIndex_of_away hl]))

end Sys2Proof.Proofs
end

section
/-! Leaving history (O58), and what goes on explaining memory (O56). -/

namespace Sys2Proof.Proofs

open Sys2Proof.Machine Sys2Proof.Laws

/-! ## Leaving history -/

/-- In a well-formed history POS is the position of a checkpoint. -/
theorem checkpoint_at_pos {cap : Nat} {h : History} (hwf : HistoryWf cap h) : ∃ k, h.checkpoints[h.pos]? = some k :=
  ⟨_, List.getElem?_eq_getElem hwf.pos_lt⟩

/-- Leaving history keeps the checkpoints up to POS, the last of them without its writes (R859). -/
theorem leaveHistory_of_away {s : State} {k : Checkpoint} (hl : s.hist.live = false)
    (hk : s.hist.checkpoints[s.hist.pos]? = some k) : s.leaveHistory =
      { s with hist := { s.hist with
          checkpoints := s.hist.checkpoints.take s.hist.pos ++ [{ k with diffs := [] }]
          wcur := s.hist.slot s.params.historyCapacity s.hist.pos, live := true, liveSnap := none } } := by
  rw [State.leaveHistory, if_neg (by simp [hl]), hk]
  rfl

/-- Then COUNT is POS + 1. -/
theorem leaveHistory_count {cap : Nat} {s : State} (hwf : HistoryWf cap s.hist) (hl : s.hist.live = false) :
    s.leaveHistory.hist.count = s.hist.pos + 1 := by
  obtain ⟨k, hk⟩ := checkpoint_at_pos hwf
  have hle : s.hist.pos ≤ s.hist.checkpoints.length := hwf.pos_lt.le
  rw [leaveHistory_of_away hl hk, History.count, List.length_append, List.length_take_of_le hle,
    List.length_singleton]

/-- Settles O58: the truncation is `leaveHistory_of_away`, and the four commands are the lemmas about each. -/
theorem leavingHistory : Obligations.LeavingHistory := by
  refine ⟨fun s hwf hl => ?_, fun s => leaveHistory_of_live⟩
  obtain ⟨k, hk⟩ := checkpoint_at_pos hwf
  have hleave := leaveHistory_of_away hl hk
  have field {α : Type} (f : History → α) := congrArg (fun u : State => f u.hist) hleave
  refine ⟨⟨k, hk, field History.checkpoints⟩, leaveHistory_count hwf hl, field History.pos, field History.wcur,
    field History.live, field History.liveSnap, field History.hFrame, field History.attached, leaveHistory_frame s,
    fun hmay => ⟨execute_run hmay, execute_executeOneFrame hmay, ?_⟩, fun addr bytes => rfl⟩
  obtain ⟨u, hu⟩ := runInstruction_answers s.leaveHistory
  exact ⟨u, hu, execute_executeOneInstruction hmay hu⟩

/-! ## Explaining memory -/

/-- Playback either way keeps a history explained. -/
theorem explained_playForward {mems : Nat → Memory} {s : State} (h : Explained mems s) (n : Nat) :
    Explained mems (s.playForward n) := by
  induction n generalizing s with
  | zero => exact h
  | succ n ih =>
    cases hl : s.hist.live with
    | true => rwa [playForward_of_live hl]
    | false =>
      obtain ⟨hnext, -⟩ := stepForward_back h hl
      rw [playForward_of_away hl]
      exact ih hnext

theorem explained_playReverse {mems : Nat → Memory} {s : State} (h : Explained mems s) (n : Nat) :
    Explained mems (s.playReverse n) := by
  induction n generalizing s with
  | zero => exact h
  | succ n ih =>
    by_cases hlater : s.hist.live = true ∨ 0 < s.hist.pos
    · obtain ⟨hnext, -⟩ := stepReverse_back h ((turnsBack_iff h.cp).1 hlater)
      rw [playReverse_of_later hlater]
      exact ih hnext
    · rwa [playReverse_of_oldest hlater]

/-- The memories of a history left at position `p`: those up to its frame, then that of the frame itself, since the
writes after it are discarded. -/
def memoriesUpTo (p : Nat) (mems : Nat → Memory) (i : Nat) : Memory := mems (min i p)

theorem leaveHistory_explains {cap : Nat} {s : State} (hwf : HistoryWf cap s.hist) (h : s.HistoryExplains) :
    s.leaveHistory.HistoryExplains := by
  cases hl : s.hist.live with
  | true => rwa [leaveHistory_of_live hl]
  | false =>
    obtain ⟨⟨mems, hstart, hchain, hram⟩, -⟩ := h
    obtain ⟨k, hk⟩ := checkpoint_at_pos hwf
    have hle : s.hist.pos ≤ s.hist.checkpoints.length := hwf.pos_lt.le
    have hcount := leaveHistory_count hwf hl
    rw [leaveHistory_of_away hl hk] at hcount ⊢
    refine ⟨⟨memoriesUpTo s.hist.pos mems, ?start, fun i c hc => ?chain, ?ram⟩, fun hf => by cases hf⟩
    case start => rwa [memoriesUpTo, Nat.zero_min]
    case chain =>
      rcases Nat.lt_or_ge i s.hist.pos with hi | hi
      · rw [List.getElem?_append_left (by rw [List.length_take_of_le hle]; exact hi),
          List.getElem?_take_of_lt hi] at hc
        rw [memoriesUpTo, memoriesUpTo, min_eq_left hi.le, min_eq_left hi]
        exact hchain i c hc
      · rw [List.getElem?_append_right (by rw [List.length_take_of_le hle]; exact hi)] at hc
        have hempty : c.diffs = [] := by rw [List.mem_singleton.1 (List.mem_of_getElem? hc)]
        rw [memoriesUpTo, memoriesUpTo, min_eq_right hi, min_eq_right (hi.trans (Nat.le_succ i)), hempty]
        rfl
    case ram =>
      rw [if_pos rfl, hcount, memoriesUpTo, min_eq_right (Nat.le_succ _)]
      rwa [hl] at hram

/-- One instruction from a state of the invariant records the writes that take memory from before to after. -/
theorem runInstruction_writes {s t : State} (h : s.Inv) (ht : s.runInstruction = .next t) :
    Writes t.diff.writes s.ram t.ram := by
  obtain ⟨u, bytes, hu, hran, -⟩ := runInstruction_ran s (wellFormed_mc h.params_wf)
  cases ht.symm.trans hu
  exact hran.writes

/-- The end of an instruction that runs attached and live keeps the history explained, in either frame. -/
theorem afterInstruction_explains {s t : State} (hinv : s.Inv) (h : s.HistoryExplains) (hatt : s.hist.attached = true)
    (hl : s.hist.live = true) (ht : s.runInstruction = .next t) (ignoring : Bool) :
    (t.afterInstruction ignoring).HistoryExplains := by
  have hhist := (runInstruction_host ht).hist
  have hwrites := runInstruction_writes hinv ht
  let u : State := { t.callHook with hist := t.hist.append t.diff.writes }
  have happend : u.hist = s.hist.append t.diff.writes := congrArg (History.append · _) hhist
  have hu : u.HistoryExplains := append_explains hinv.history_wf h hl hwrites.chain happend
  have hend : t.callHook.onInstructionRetired.HistoryExplains := by
    have hatt' : t.callHook.hist.attached = true := (congrArg History.attached hhist).trans hatt
    have hl' : t.callHook.hist.live = true := (congrArg History.live hhist).trans hl
    by_cases hframe : t.disp.frame = t.hist.hFrame
    · rw [onInstructionRetired_same_frame hatt' hl' hframe]
      exact hu
    · have hwf : HistoryWf s.params.historyCapacity u.hist :=
        happend ▸ historyWf_append hinv.history_wf hwrites.in_range
      rw [onInstructionRetired_new_frame hatt' hl' hframe]
      exact openNext_explains hwf hu hl' rfl rfl
  exact hend

/-- `SetRamBytes` while attached and live keeps the history explained: each byte is one write recorded (R855, D40). -/
theorem setRamBytes_explains {s : State} (hwf : HistoryWf s.params.historyCapacity s.hist) (h : s.HistoryExplains)
    (hatt : s.hist.attached = true) (hl : s.hist.live = true) (addr : Word) (bytes : List Byte) :
    (s.setRamBytes addr bytes).HistoryExplains := by
  induction bytes generalizing s addr with
  | nil => exact h
  | cons v vs ih =>
    let t : State := { s with ram := s.ram.write (s.translate addr .normal) v
                              hist := s.hist.append [s.hostWrite addr v] }
    have hstep : s.setRamBytes addr (v :: vs) = t.setRamBytes (addr + 1) vs := by
      rw [State.setRamBytes, hatt]
      rfl
    have hrange : ∀ w ∈ [s.hostWrite addr v], w.addr < physicalBytes := fun w hw => by
      rw [List.mem_singleton.1 hw]; exact translate_lt _ _ _ _
    have hchain : DiffChain [s.hostWrite addr v] s.ram t.ram := ⟨rfl, rfl⟩
    rw [hstep]
    exact ih (historyWf_append hwf hrange) (append_explains hwf h hl hchain rfl) hatt hl (addr + 1)

/-- Attaching a detached engine resets it, which leaves memory explained. -/
theorem attachDebugger_explains {s : State} (hram : s.ram.wf) (hdet : s.hist.attached = false) :
    (s.attachDebugger true).HistoryExplains := by
  rw [State.attachDebugger, hdet]
  exact historyReset_explains hram

/-- Settles O56: a reset of the History Engine explains memory, and an instruction recorded, `SetRamBytes`, playback
and leaving history each keep memory explained. -/
theorem historyExplainsMemory : Obligations.HistoryExplainsMemory := by
  refine ⟨fun s t hram ht => ?_, fun s t ignoring hinv h hatt hl ht => afterInstruction_explains hinv h hatt hl ht _,
    fun s addr bytes hwf h hatt hl => setRamBytes_explains hwf h hatt hl addr bytes, fun s n hwf h => ?_⟩
  · obtain ht | ht | ⟨hdet, ht⟩ := ht
    · cases ht; exact historyReset_explains hram
    · cases ht; exact historyReset_explains hram
    · cases ht; exact attachDebugger_explains hram hdet
  · obtain ⟨mems, he⟩ := explained_of hwf h
    exact ⟨(explained_playForward he n).explains, (explained_playReverse he n).explains, leaveHistory_explains hwf h⟩

end Sys2Proof.Proofs
end

section
/-! Recording files (O59): what is saved loads back, and what is bad changes nothing (R861, R862). -/

namespace Sys2Proof.Proofs

open Sys2Proof.Machine Sys2Proof.Laws

/-! ## Which files are accepted -/

/-- A recording file is accepted when its version is the machine's and its body is consistent. -/
theorem accepted_eq_some_iff {p : Params} {f : RecordingFile} {r : Recording} :
    f.accepted p = some r ↔ f.version = p.recordingVersion ∧ f.body = some r ∧ r.consistent p = true := by
  unfold RecordingFile.accepted
  split
  · next hversion => simp [hversion, Option.filter_eq_some_iff]
  · next hversion => simp [hversion]

/-- The recording of a well-formed history without a conflicting mapping is consistent. -/
theorem saved_consistent {p : Params} {h : History} (hwf : HistoryWf p.historyCapacity h)
    (hmap : ∀ k ∈ h.checkpoints, mappingConflict p.layout k.snap.map = false)
    (hsnap : ∀ sn, h.liveSnap = some sn → mappingConflict p.layout sn.map = false) :
    Recording.consistent p { count := h.count, pos := h.pos, checkpoints := h.checkpoints, live := h.live,
                             liveSnap := h.liveSnap } = true := by
  have hcount : h.count ≠ 0 := Nat.one_le_iff_ne_zero.1 hwf.count_pos
  exact (consistent_iff _ _).2
    ⟨⟨hcount, hwf.count_le, hwf.pos_lt, rfl⟩, hwf.in_range, hmap, hsnap, hwf.live_pos, hwf.away_snap⟩

/-- Each inconsistency that R862 names makes a recording inconsistent. -/
theorem not_consistent {p : Params} {r : Recording}
    (hbad : r.count = 0 ∨ p.historyCapacity < r.count ∨ r.count ≤ r.pos ∨
      (∃ k ∈ r.checkpoints, mappingConflict p.layout k.snap.map = true) ∨
      ∃ k ∈ r.checkpoints, ∃ w ∈ k.diffs, physicalBytes ≤ w.addr) : ¬r.consistent p = true := by
  rw [consistent_iff]
  rintro ⟨⟨hcount, hcap, hpos, -⟩, hrange, hmap, -⟩
  obtain h | h | h | ⟨k, hk, h⟩ | ⟨k, hk, w, hw, h⟩ := hbad
  · exact hcount h
  · omega
  · omega
  · simp [hmap k hk] at h
  · exact absurd (hrange k hk w hw) (Nat.not_lt.2 h)

/-! ## The command -/

theorem execute_loadRecording_accepted {s : State} {f : RecordingFile} {r : Recording} (hs : s.loop = .stopped)
    (hf : f.accepted s.params = some r) :
    s.execute (.loadRecording f) = .next ((s.loadRecording r).respond .ok) := by
  rw [State.execute, if_pos ((isStopped_iff s).2 hs), hf]

theorem execute_loadRecording_rejected {s : State} {f : RecordingFile} (hs : s.loop = .stopped)
    (hf : f.accepted s.params = none) : s.execute (.loadRecording f) = .next (s.respond .badRecording) := by
  rw [State.execute, if_pos ((isStopped_iff s).2 hs), hf]

theorem execute_loadRecording_turned_away {s : State} (hs : s.loop ≠ .stopped) (f : RecordingFile) :
    s.execute (.loadRecording f) = .next (s.respond .notAllowed) := by
  rw [State.execute, if_neg (mt (isStopped_iff s).1 hs)]

/-- An accepted recording replaces the History Engine's checkpoints and cursors and restores the snapshot of its POS
(R862). -/
theorem loadRecording_eq {s : State} {r : Recording} {k : Checkpoint} (hk : r.checkpoints[r.pos]? = some k) :
    s.loadRecording r = State.restore
      { s with hist := { s.hist with checkpoints := r.checkpoints, wcur := r.count - 1, pos := r.pos, live := r.live
                                     liveSnap := if r.live then none else r.liveSnap } } k.snap := by
  rw [State.loadRecording, hk]

/-- Settles O59: a saved recording is accepted (`saved_consistent`) and loads as `loadRecording_eq` says; a bad file is
not accepted (`not_consistent`). -/
theorem recordingFiles : Obligations.RecordingFiles := by
  refine ⟨fun s hs hwf hmap hsnap => ?saved, fun s f hs hbad => ?bad, fun s f hs => ?away⟩
  case saved =>
    obtain ⟨k, hk⟩ := checkpoint_at_pos hwf
    have haccepted : s.saveRecording.accepted s.params = some _ :=
      accepted_eq_some_iff.2 ⟨rfl, rfl, saved_consistent hwf hmap hsnap⟩
    refine ⟨_, k, execute_loadRecording_accepted hs haccepted, hk, ?_⟩
    rw [loadRecording_eq hk]
    exact ⟨rfl, rfl, rfl, fun hl => if_neg (by simp [hl]), rfl, rfl, rfl, rfl, rfl, by rw [← hs]; rfl⟩
  case bad =>
    refine execute_loadRecording_rejected hs (Option.eq_none_iff_forall_ne_some.2 fun r hr => ?_)
    obtain ⟨hversion, hbody, hconsistent⟩ := accepted_eq_some_iff.1 hr
    obtain h | h | ⟨r', hr', h⟩ := hbad
    · exact h hversion
    · simp [h] at hbody
    · cases hr'.symm.trans hbody
      exact not_consistent h hconsistent
  case away => exact execute_loadRecording_turned_away hs f

end Sys2Proof.Proofs
end
